-- ==== Sys2Proof/Word.lean ====
section
/-! DEFINITION. The word types of RSCORE (spec/00_scope.md R7, R8): bytes, 32-bit register and
descriptor words, 64-bit host addresses. -/

namespace Sys2Proof

/-- One byte of host memory. -/
abbrev Byte := BitVec 8

/-- A 16-bit field: ring indices, the detail index IDX. -/
abbrev Half := BitVec 16

/-- A 32-bit word: registers and descriptor words. -/
abbrev Word := BitVec 32

/-- A 64-bit host address. -/
abbrev Addr := BitVec 64

end Sys2Proof
end

