-- ==== Sys2Proof/Machine/Bits.lean ====
section
/-! DEFINITION. Little-endian byte order (spec/20_memory.md R71), decided once: a multi-byte field as
bytes, lowest address first, and back. -/

namespace Sys2Proof.Machine

/-- The `n` bytes of `v mod 2^(8n)`, least significant byte first (R71). -/
def bytesOfNat : Nat → Nat → List Byte
  | 0, _ => []
  | n + 1, v => BitVec.ofNat 8 v :: bytesOfNat n (v / 256)

/-- The number whose little-endian bytes are these (R71). -/
def natOfBytes : List Byte → Nat
  | [] => 0
  | b :: bs => b.toNat + 256 * natOfBytes bs

/-- Word `i` of a descriptor's bytes (30_encoding.md R101). -/
def wordAt (bs : List Byte) (i : Nat) : Word :=
  BitVec.ofNat 32 (natOfBytes ((bs.drop (4 * i)).take 4))

/-- The sixteen descriptor words of 64 bytes (30_encoding.md R101). -/
def wordsOfBytes (bs : List Byte) : List Word :=
  (List.range 16).map (wordAt bs)

/-- Descriptor words as bytes, each word little-endian (30_encoding.md R102). -/
def bytesOfWords : List Word → List Byte
  | [] => []
  | w :: ws => bytesOfNat 4 w.toNat ++ bytesOfWords ws

end Sys2Proof.Machine
end

