-- ==== Sys2Proof/Syntax.lean ====
section
/-! DEFINITION. The commands of RSCORE as syntax: one constructor per row of spec/opcode_table.json,
with the operands of spec/30_encoding.md R115 (in the order flags, FS, words, pointers). An operand
word that a command ignores (R103) is no field of it. -/

namespace Sys2Proof

/-- The field representations FS0, FS1 and FS2 (41_field.md R131). FS = 3 is reserved (R105). -/
inductive FS where
  | gf8     -- FS0
  | gf8c    -- FS1
  | gf16c   -- FS2
deriving DecidableEq, Repr

/-- The 34 commands. `irq` is descriptor bit W0[16] (R106), which every command has. -/
inductive Instr where
  -- control (48_control.md)
  | nop (irq : Bool)
  | icflush (irq : Bool)
  | alloc (irq : Bool) (n len : Word) (tab : Addr)
  | areset (irq : Bool)
  -- codec construction (45_codec.md)
  | configure (irq fastone noicache auto : Bool) (k m opts shape : Word) (mat : Addr)
  | ctxReadm (irq : Bool) (dst : Addr)
  -- field unit (41_field.md)
  | gfAdd (irq : Bool) (fs : FS) (a b : Word)
  | gfMul (irq : Bool) (fs : FS) (a b : Word)
  | gfInv (irq : Bool) (fs : FS) (a : Word)
  | gfPow (irq : Bool) (fs : FS) (a n : Word)
  | gfLog (irq : Bool) (fs : FS) (a : Word)
  | gfAlog (irq : Bool) (fs : FS) (i : Word)
  -- matrix unit (42_matrix.md)
  | matIdent (irq : Bool) (n : Word) (dst : Addr)
  | matMul (irq : Bool) (ra ca rb cb : Word) (x y dst : Addr)
  | matInv (irq : Bool) (rows cols : Word) (src dst : Addr)
  | matSub (irq : Bool) (rows cols nr nc : Word) (src rl cl dst : Addr)
  | matAug (irq : Bool) (ra ca rb cb : Word) (x y dst : Addr)
  -- generator (43_generator.md)
  | matVand (irq : Bool) (rows cols : Word) (dst : Addr)
  | matGen (irq fastone : Bool) (k m kind : Word) (dst : Addr)
  -- byte kernel (44_kernel.md)
  | kaxpy (irq : Bool) (fs : FS) (c len : Word) (src dst : Addr)
  | kmulc (irq : Bool) (fs : FS) (c len : Word) (src dst : Addr)
  | kcode (irq acc : Bool) (rows cols len : Word) (g inTab outTab : Addr)
  -- FFT unit (46_fft.md)
  | bflyFft (irq : Bool) (fs : FS) (sk len : Word) (x y : Addr)
  | bflyIfft (irq : Bool) (fs : FS) (sk len : Word) (x y : Addr)
  | xformFft (irq : Bool) (fs : FS) (n base len : Word) (tab : Addr)
  | xformIfft (irq : Bool) (fs : FS) (n base len : Word) (tab : Addr)
  | fderiv (irq : Bool) (fs : FS) (n len : Word) (tab : Addr)
  -- codec operations (45_codec.md)
  | encode (irq : Bool) (n : Word) (tab : Addr)
  | verify (irq : Bool) (n : Word) (tab : Addr)
  | recon (irq : Bool) (n : Word) (tab : Addr)
  | reconData (irq : Bool) (n : Word) (tab : Addr)
  | reconSome (irq : Bool) (n : Word) (tab req : Addr)
  | update (irq : Bool) (cnt n : Word) (tab newTab : Addr)
  | encodeIdx (irq : Bool) (idx cnt len : Word) (src par : Addr)
deriving DecidableEq, Repr

end Sys2Proof
end

