-- ==== Sys2Proof/WellFormed.lean ====
section
/-! DEFINITION. Which terms of `Instr` are commands of RSCORE: those whose FS value the opcode accepts
(spec/30_encoding.md R105, R109). Every other limit of the encoding is in the types of the fields. -/

namespace Sys2Proof

/-- The transforms accept FS1 and FS2 only (R109). -/
def FS.isCantor : FS → Bool
  | .gf8 => false
  | .gf8c => true
  | .gf16c => true

/-- The check on a command. -/
def Instr.wellFormed : Instr → Bool
  | .nop _ => true
  | .icflush _ => true
  | .alloc _ _ _ _ => true
  | .areset _ => true
  | .configure _ _ _ _ _ _ _ _ _ => true
  | .ctxReadm _ _ => true
  | .gfAdd _ _ _ _ => true
  | .gfMul _ _ _ _ => true
  | .gfInv _ _ _ => true
  | .gfPow _ _ _ _ => true
  | .gfLog _ _ _ => true
  | .gfAlog _ _ _ => true
  | .matIdent _ _ _ => true
  | .matMul _ _ _ _ _ _ _ _ => true
  | .matInv _ _ _ _ _ => true
  | .matSub _ _ _ _ _ _ _ _ _ => true
  | .matAug _ _ _ _ _ _ _ _ => true
  | .matVand _ _ _ _ => true
  | .matGen _ _ _ _ _ _ => true
  | .kaxpy _ _ _ _ _ _ => true
  | .kmulc _ _ _ _ _ _ => true
  | .kcode _ _ _ _ _ _ _ _ => true
  | .bflyFft _ fs _ _ _ _ => fs.isCantor
  | .bflyIfft _ fs _ _ _ _ => fs.isCantor
  | .xformFft _ fs _ _ _ _ => fs.isCantor
  | .xformIfft _ fs _ _ _ _ => fs.isCantor
  | .fderiv _ fs _ _ _ => fs.isCantor
  | .encode _ _ _ => true
  | .verify _ _ _ => true
  | .recon _ _ _ => true
  | .reconData _ _ _ => true
  | .reconSome _ _ _ _ => true
  | .update _ _ _ _ _ => true
  | .encodeIdx _ _ _ _ _ _ => true

end Sys2Proof
end

