-- ==== Sys2Proof/Decode.lean ====
section
/-! DEFINITION. Decoding and encoding of D64 descriptors (spec/30_encoding.md). `decode` is total on
any bytes and rejects by name; `encode` is written from the same tables (R102, R103, R109, R118). -/

namespace Sys2Proof

/-- Why a descriptor is no command. The hardware reports all but `badLength` as ILLEGAL_COMMAND (R111);
`badLength` cannot arise there, since every descriptor is 64 bytes (R112). -/
inductive DecodeError where
  /-- not 64 bytes -/
  | badLength
  /-- RSV0 or RSV1 is not 0 (R111) -/
  | reservedBits
  /-- an opcode outside the map (R110) -/
  | illegalOpcode
  /-- an FS value the opcode does not accept, FS = 3 among them (R105) -/
  | illegalFs
  /-- a CFLAGS bit the opcode does not define (R106) -/
  | illegalFlag
deriving DecidableEq, Repr

/-- OPC, W0[7:0] (R102). -/
def opcOf (w0 : Word) : BitVec 8 := w0.extractLsb' 0 8

/-- IRQ, W0[16] (R102). -/
def irqOf (w0 : Word) : Bool := w0.getLsbD 16

/-- FS, W0[9:8], as a representation; `none` for the reserved value 3 (R105). -/
def fsOf (w0 : Word) : Option FS :=
  match (w0.extractLsb' 8 2).toNat with
  | 0 => some .gf8
  | 1 => some .gf8c
  | 2 => some .gf16c
  | _ => none

/-- The FS field of a representation (R102). -/
def fsCode : FS → Nat
  | .gf8 => 0
  | .gf8c => 1
  | .gf16c => 2

/-- RSV0 = W0[15:10] and RSV1 = W0[31:24] are 0 (R102, R111). -/
def reservedClear (w0 : Word) : Bool :=
  w0.extractLsb' 10 6 == 0 && w0.extractLsb' 24 8 == 0

/-- The CFLAGS bits W0[23:17] that are set all lie among the first `n` (R106). -/
def flagsWithin (n : Nat) (w0 : Word) : Bool :=
  decide ((w0.extractLsb' 17 7).toNat < 2 ^ n)

/-- Word `i` of the descriptor copy. -/
def wordOf (ws : List Word) (i : Nat) : Word := ws.getD i 0

/-- A pointer: the higher-numbered word is the high half (R103). -/
def pointerOf (ws : List Word) (lo : Nat) : Addr := wordOf ws (lo + 1) ++ wordOf ws lo

/-- A command that accepts FS0 only and defines the first `n` CFLAGS bits. -/
def classical (w0 : Word) (n : Nat) (i : Instr) : Except DecodeError Instr :=
  if fsOf w0 ≠ some .gf8 then .error .illegalFs
  else if !flagsWithin n w0 then .error .illegalFlag
  else .ok i

/-- A command that accepts FS0, FS1 and FS2 and defines no CFLAGS bit. -/
def anyField (w0 : Word) (i : FS → Instr) : Except DecodeError Instr :=
  match fsOf w0 with
  | none => .error .illegalFs
  | some fs => if !flagsWithin 0 w0 then .error .illegalFlag else .ok (i fs)

/-- A command that accepts FS1 and FS2 and defines no CFLAGS bit. -/
def cantorField (w0 : Word) (i : FS → Instr) : Except DecodeError Instr :=
  match fsOf w0 with
  | none => .error .illegalFs
  | some fs =>
    if !fs.isCantor then .error .illegalFs
    else if !flagsWithin 0 w0 then .error .illegalFlag
    else .ok (i fs)

/-- The opcode map (R109) and the decode checks (R111) on the sixteen words of a descriptor. -/
def decodeWords (ws : List Word) : Except DecodeError Instr :=
  let w0 := wordOf ws 0
  let irq := irqOf w0
  let a := wordOf ws 1
  let b := wordOf ws 2
  let c := wordOf ws 3
  let d := wordOf ws 4
  let len := wordOf ws 5
  let p0 := pointerOf ws 6
  let p1 := pointerOf ws 8
  let p2 := pointerOf ws 10
  let p3 := pointerOf ws 12
  let f17 := w0.getLsbD 17
  let f18 := w0.getLsbD 18
  let f19 := w0.getLsbD 19
  if !reservedClear w0 then .error .reservedBits
  else match (opcOf w0).toNat with
    | 0x00 => classical w0 0 (.nop irq)
    | 0x01 => classical w0 0 (.icflush irq)
    | 0x02 => classical w0 0 (.alloc irq a len p0)
    | 0x03 => classical w0 0 (.areset irq)
    | 0x08 => classical w0 3 (.configure irq f17 f18 f19 a b c d p0)
    | 0x09 => classical w0 0 (.ctxReadm irq p0)
    | 0x10 => anyField w0 (fun fs => .gfAdd irq fs a b)
    | 0x11 => anyField w0 (fun fs => .gfMul irq fs a b)
    | 0x12 => anyField w0 (fun fs => .gfInv irq fs a)
    | 0x13 => anyField w0 (fun fs => .gfPow irq fs a b)
    | 0x14 => anyField w0 (fun fs => .gfLog irq fs a)
    | 0x15 => anyField w0 (fun fs => .gfAlog irq fs a)
    | 0x20 => classical w0 0 (.matIdent irq a p3)
    | 0x21 => classical w0 0 (.matMul irq a b c d p0 p1 p3)
    | 0x22 => classical w0 0 (.matInv irq a b p0 p3)
    | 0x23 => classical w0 0 (.matSub irq a b c d p0 p1 p2 p3)
    | 0x24 => classical w0 0 (.matAug irq a b c d p0 p1 p3)
    | 0x28 => classical w0 0 (.matVand irq a b p3)
    | 0x29 => classical w0 1 (.matGen irq f17 a b c p3)
    | 0x30 => anyField w0 (fun fs => .kaxpy irq fs a len p0 p3)
    | 0x31 => anyField w0 (fun fs => .kmulc irq fs a len p0 p3)
    | 0x32 => classical w0 1 (.kcode irq f17 a b len p0 p1 p2)
    | 0x38 => cantorField w0 (fun fs => .bflyFft irq fs a len p0 p1)
    | 0x39 => cantorField w0 (fun fs => .bflyIfft irq fs a len p0 p1)
    | 0x3A => cantorField w0 (fun fs => .xformFft irq fs a b len p0)
    | 0x3B => cantorField w0 (fun fs => .xformIfft irq fs a b len p0)
    | 0x3C => cantorField w0 (fun fs => .fderiv irq fs a len p0)
    | 0x40 => classical w0 0 (.encode irq c p0)
    | 0x41 => classical w0 0 (.verify irq c p0)
    | 0x42 => classical w0 0 (.recon irq c p0)
    | 0x43 => classical w0 0 (.reconData irq c p0)
    | 0x44 => classical w0 0 (.reconSome irq c p0 p1)
    | 0x45 => classical w0 0 (.update irq b c p0 p1)
    | 0x46 => classical w0 0 (.encodeIdx irq a b len p0 p1)
    | _ => .error .illegalOpcode

/-- The command in 64 descriptor bytes (R101, R102), or the name of what is wrong. -/
def decode (bs : List Byte) : Except DecodeError Instr :=
  if bs.length = 64 then decodeWords (Machine.wordsOfBytes bs) else .error .badLength

/-! ### The encoder (R102, R103, R109, R118) -/

/-- The header word W0: OPC, FS, IRQ and the CFLAGS value (R118). -/
def headerWord (opc fs : Nat) (irq : Bool) (cflags : Nat) : Word :=
  BitVec.ofNat 32 (opc + fs * 2 ^ 8 + irq.toNat * 2 ^ 16 + cflags * 2 ^ 17)

/-- The sixteen words of a descriptor from its header, five operand words and four pointers (R103). -/
def d64 (w0 a b c d len : Word) (p0 p1 p2 p3 : Addr) : List Word :=
  [w0, a, b, c, d, len,
   p0.extractLsb' 0 32, p0.extractLsb' 32 32, p1.extractLsb' 0 32, p1.extractLsb' 32 32,
   p2.extractLsb' 0 32, p2.extractLsb' 32 32, p3.extractLsb' 0 32, p3.extractLsb' 32 32, 0, 0]

/-- The sixteen words of a command; the words it does not use are 0 (R118). -/
def encode : Instr → List Word
  | .nop q => d64 (headerWord 0x00 0 q 0) 0 0 0 0 0 0 0 0 0
  | .icflush q => d64 (headerWord 0x01 0 q 0) 0 0 0 0 0 0 0 0 0
  | .alloc q n len tab => d64 (headerWord 0x02 0 q 0) n 0 0 0 len tab 0 0 0
  | .areset q => d64 (headerWord 0x03 0 q 0) 0 0 0 0 0 0 0 0 0
  | .configure q f17 f18 f19 k m opts shape mat =>
    d64 (headerWord 0x08 0 q (f17.toNat + 2 * f18.toNat + 4 * f19.toNat)) k m opts shape 0 mat 0 0 0
  | .ctxReadm q dst => d64 (headerWord 0x09 0 q 0) 0 0 0 0 0 dst 0 0 0
  | .gfAdd q fs a b => d64 (headerWord 0x10 (fsCode fs) q 0) a b 0 0 0 0 0 0 0
  | .gfMul q fs a b => d64 (headerWord 0x11 (fsCode fs) q 0) a b 0 0 0 0 0 0 0
  | .gfInv q fs a => d64 (headerWord 0x12 (fsCode fs) q 0) a 0 0 0 0 0 0 0 0
  | .gfPow q fs a n => d64 (headerWord 0x13 (fsCode fs) q 0) a n 0 0 0 0 0 0 0
  | .gfLog q fs a => d64 (headerWord 0x14 (fsCode fs) q 0) a 0 0 0 0 0 0 0 0
  | .gfAlog q fs i => d64 (headerWord 0x15 (fsCode fs) q 0) i 0 0 0 0 0 0 0 0
  | .matIdent q n dst => d64 (headerWord 0x20 0 q 0) n 0 0 0 0 0 0 0 dst
  | .matMul q ra ca rb cb x y dst => d64 (headerWord 0x21 0 q 0) ra ca rb cb 0 x y 0 dst
  | .matInv q rows cols src dst => d64 (headerWord 0x22 0 q 0) rows cols 0 0 0 src 0 0 dst
  | .matSub q rows cols nr nc src rl cl dst =>
    d64 (headerWord 0x23 0 q 0) rows cols nr nc 0 src rl cl dst
  | .matAug q ra ca rb cb x y dst => d64 (headerWord 0x24 0 q 0) ra ca rb cb 0 x y 0 dst
  | .matVand q rows cols dst => d64 (headerWord 0x28 0 q 0) rows cols 0 0 0 0 0 0 dst
  | .matGen q f17 k m kind dst => d64 (headerWord 0x29 0 q f17.toNat) k m kind 0 0 0 0 0 dst
  | .kaxpy q fs c len src dst => d64 (headerWord 0x30 (fsCode fs) q 0) c 0 0 0 len src 0 0 dst
  | .kmulc q fs c len src dst => d64 (headerWord 0x31 (fsCode fs) q 0) c 0 0 0 len src 0 0 dst
  | .kcode q f17 rows cols len g i o => d64 (headerWord 0x32 0 q f17.toNat) rows cols 0 0 len g i o 0
  | .bflyFft q fs sk len x y => d64 (headerWord 0x38 (fsCode fs) q 0) sk 0 0 0 len x y 0 0
  | .bflyIfft q fs sk len x y => d64 (headerWord 0x39 (fsCode fs) q 0) sk 0 0 0 len x y 0 0
  | .xformFft q fs n base len tab => d64 (headerWord 0x3A (fsCode fs) q 0) n base 0 0 len tab 0 0 0
  | .xformIfft q fs n base len tab => d64 (headerWord 0x3B (fsCode fs) q 0) n base 0 0 len tab 0 0 0
  | .fderiv q fs n len tab => d64 (headerWord 0x3C (fsCode fs) q 0) n 0 0 0 len tab 0 0 0
  | .encode q n tab => d64 (headerWord 0x40 0 q 0) 0 0 n 0 0 tab 0 0 0
  | .verify q n tab => d64 (headerWord 0x41 0 q 0) 0 0 n 0 0 tab 0 0 0
  | .recon q n tab => d64 (headerWord 0x42 0 q 0) 0 0 n 0 0 tab 0 0 0
  | .reconData q n tab => d64 (headerWord 0x43 0 q 0) 0 0 n 0 0 tab 0 0 0
  | .reconSome q n tab req => d64 (headerWord 0x44 0 q 0) 0 0 n 0 0 tab req 0 0
  | .update q cnt n tab new => d64 (headerWord 0x45 0 q 0) 0 cnt n 0 0 tab new 0 0
  | .encodeIdx q idx cnt len src par => d64 (headerWord 0x46 0 q 0) idx cnt 0 0 len src par 0 0

/-- The 64 bytes of a command's descriptor, as it is stored at its ring slot (R118). -/
def encodeBytes (i : Instr) : List Byte := Machine.bytesOfWords (encode i)

/-! ### Words of the opcode table -/

/-- The 64 descriptor bytes whose bits are `w`, bit 0 the least significant bit of W0, and 0 above
bit `nbits`. -/
def tableBytes (nbits w : Nat) : List Byte := Machine.bytesOfNat 64 (w % 2 ^ min nbits 512)

/-- The command this decoder reads from an opcode-table word. -/
def decodeTableWord (nbits w : Nat) : Option Instr :=
  match decode (tableBytes nbits w) with
  | .ok i => some i
  | .error _ => none

end Sys2Proof
end

