-- ==== Sys2Proof/Machine/Field.lean ====
section
/-! DEFINITION. The field arithmetic unit (spec/41_field.md): the three representations, their
multiplication, power, inverse, logarithm and exponential tables, and the same operations on byte
buffers. A field element is a number below 2^w (00_scope.md R9). -/

namespace Sys2Proof.Machine

/-- w, the element width (R131). -/
def width : FS → Nat
  | .gf8 => 8
  | .gf8c => 8
  | .gf16c => 16

/-- Q = 2^w - 1, the multiplicative order (R131). -/
def order (fs : FS) : Nat := 2 ^ width fs - 1

/-- The field polynomial (R131, R136). -/
def poly : FS → Nat
  | .gf8 => 0x11D
  | .gf8c => 0x11D
  | .gf16c => 0x1002D

/-- The basis v_0, v_1, … that names the elements (R131, R138), in polynomial-basis numbers. For FS0 it
is the polynomial basis itself. -/
def basis : FS → List Nat
  | .gf8 => [0x01, 0x02, 0x04, 0x08, 0x10, 0x20, 0x40, 0x80]
  | .gf8c => [0x01, 0xD6, 0x98, 0x92, 0x56, 0xC8, 0x58, 0xE6]
  | .gf16c => [0x0001, 0xACCA, 0x3C0E, 0x163E, 0xC582, 0xED2E, 0x914C, 0x4012,
               0x6C98, 0x10D8, 0x6A72, 0xB900, 0xFDB8, 0xFB34, 0xFF38, 0x991E]

/-- The element that names x^t, for each t: the inverse of the change of basis. DEDUCED from R138
(log 8); Laws/Field.lean proves that it inverts `basis`. -/
def dualBasis : FS → List Nat
  | .gf8 => [0x01, 0x02, 0x04, 0x08, 0x10, 0x20, 0x40, 0x80]
  | .gf8c => [0x01, 0x68, 0x5C, 0x64, 0x72, 0xF0, 0x56, 0x12]
  | .gf16c => [0x0001, 0x4690, 0x65D8, 0x62D0, 0x5734, 0x45F0, 0x53B8, 0x1E38,
               0x7CAE, 0x4E38, 0x6708, 0xC25C, 0x7A64, 0x9EAC, 0x1124, 0x523A]

/-- The XOR of the columns that the set bits of `a` select. -/
def xorSelect : List Nat → Nat → Nat
  | [], _ => 0
  | c :: cs, a => (if a % 2 = 1 then c else 0) ^^^ xorSelect cs (a / 2)

/-- toPoly of R137: the polynomial-basis number of an element. In FS0 bit t is the coefficient of x^t
(R131). -/
def toPoly (fs : FS) (a : Nat) : Nat :=
  match fs with
  | .gf8 => a
  | .gf8c => xorSelect (basis .gf8c) a
  | .gf16c => xorSelect (basis .gf16c) a

/-- The inverse of toPoly (R137). -/
def fromPoly (fs : FS) (p : Nat) : Nat :=
  match fs with
  | .gf8 => p
  | .gf8c => xorSelect (dualBasis .gf8c) p
  | .gf16c => xorSelect (dualBasis .gf16c) p

/-- Multiplication by x, reduced (the loop body of R133 and R136). -/
def xtime (fs : FS) (p : Nat) : Nat :=
  if 2 * p < 2 ^ width fs then 2 * p else (2 * p) ^^^ poly fs

/-- mulpoly_w of R137, and of R134 for FS0: the polynomial product, reduced, over the low `n` bits
of `q`. -/
def polyMulBits (fs : FS) : Nat → Nat → Nat → Nat
  | 0, _, _ => 0
  | n + 1, p, q => (if q % 2 = 1 then p else 0) ^^^ polyMulBits fs n (xtime fs p) (q / 2)

/-- mulpoly_w (R137). -/
def polyMul (fs : FS) (p q : Nat) : Nat := polyMulBits fs (width fs) p q

/-- mul_FS (R137; for FS0 mul8, R134): the product of the polynomials the elements name. R134 and R137
state that it equals the log and exp table formula. -/
def mul (fs : FS) (a b : Nat) : Nat := fromPoly fs (polyMul fs (toPoly fs a) (toPoly fs b))

/-- a^n by squaring, over the low `f` bits of `n`. -/
def powBits (fs : FS) : Nat → Nat → Nat → Nat
  | 0, _, _ => 1
  | f + 1, a, n =>
    if n = 0 then 1
    else if n % 2 = 1 then mul fs a (powBits fs f (mul fs a a) (n / 2))
    else powBits fs f (mul fs a a) (n / 2)

/-- pow_FS (R139): a^0 = 1 for every a, 0^n = 0 for n > 0, and a^n = a^(n mod Q) otherwise. -/
def pow (fs : FS) (a n : Nat) : Nat :=
  if n = 0 then 1 else if a = 0 then 0 else powBits fs 16 a (n % order fs)

/-- inv_FS (R134, R137) of a nonzero element: a^(Q-1). Every rule checks for 0 first. -/
def inv (fs : FS) (a : Nat) : Nat := powBits fs 16 a (order fs - 1)

/-- x^i reduced, by the loop of R133 and R136. -/
def xpow (fs : FS) : Nat → Nat
  | 0 => 1
  | i + 1 => xtime fs (xpow fs i)

/-- EXP_FS[i mod Q] (R137; EXP8 of R133 for FS0). -/
def expTable (fs : FS) (i : Nat) : Nat := fromPoly fs (xpow fs (i % order fs))

/-- The least j ≥ i, at most `fuel` steps on, with x^j = p, starting from st = x^i. -/
def plogFrom (fs : FS) : Nat → Nat → Nat → Nat → Nat
  | 0, i, _, _ => i
  | fuel + 1, i, st, p => if st = p then i else plogFrom fs fuel (i + 1) (xtime fs st) p

/-- The entry of a log table at 0: the placeholder 0 of LOG8 (R133), the sentinel Q of LOG_FS (R136, R137). -/
def logOfZero : FS → Nat
  | .gf8 => 0
  | .gf8c => order .gf8c
  | .gf16c => order .gf16c

/-- LOG_FS[a] (R137; LOG8 of R133 for FS0). -/
def logTable (fs : FS) (a : Nat) : Nat :=
  if a = 0 then logOfZero fs else plogFrom fs (order fs) 0 1 (toPoly fs a)

/-! ### Byte buffers as vectors of elements -/

/-- The elements of FS2 in `n` 64-byte blocks: low bytes at 0 to 31, high bytes at 32 to 63
(20_memory.md R72). -/
def elems16 : Nat → List Byte → List Nat
  | 0, _ => []
  | n + 1, bs =>
    List.zipWith (fun lo hi => lo.toNat + 256 * hi.toNat) (bs.take 32) ((bs.drop 32).take 32)
      ++ elems16 n (bs.drop 64)

/-- The elements a buffer holds (R140, 20_memory.md R72). -/
def toElems (fs : FS) (bs : List Byte) : List Nat :=
  match fs with
  | .gf8 => bs.map BitVec.toNat
  | .gf8c => bs.map BitVec.toNat
  | .gf16c => elems16 (bs.length / 64) bs

/-- `n` blocks of FS2 elements as bytes (20_memory.md R72). -/
def bytes16 : Nat → List Nat → List Byte
  | 0, _ => []
  | n + 1, es =>
    (es.take 32).map (BitVec.ofNat 8) ++ (es.take 32).map (fun e => BitVec.ofNat 8 (e / 256))
      ++ bytes16 n (es.drop 32)

/-- The buffer that holds these elements (R140, 20_memory.md R72). -/
def ofElems (fs : FS) (es : List Nat) : List Byte :=
  match fs with
  | .gf8 => es.map (BitVec.ofNat 8)
  | .gf8c => es.map (BitVec.ofNat 8)
  | .gf16c => bytes16 (es.length / 32) es

/-- c ⊗ B, element by element (R140). -/
def scaleBuf (fs : FS) (c : Nat) (bs : List Byte) : List Byte :=
  ofElems fs ((toElems fs bs).map (mul fs c))

/-- B ⊕ B', byte by byte (R132, R140). -/
def xorBuf (bs cs : List Byte) : List Byte := List.zipWith (· ^^^ ·) bs cs

end Sys2Proof.Machine
end

