-- ==== Sys2Proof/Config.lean ====
section
/-! DEFINITION. What an implementation of RSCORE fixes: the parameters of spec/00_scope.md R7, and the
free values, which nothing constrains. -/

namespace Sys2Proof

/-- A range of host addresses that the platform refuses, for reads, for writes or for both. -/
structure Region where
  lo : Nat
  len : Nat
  noRead : Bool
  noWrite : Bool
deriving DecidableEq, Repr

/-- The platform predicate HOST_ADMIT (R7, R81). `table` refuses every access that shares a byte with
a listed region. `unknown` is the uninterpreted predicate `Config.hostPolicy`, so a statement about
every state covers every platform. -/
inductive Platform where
  | table (refused : List Region)
  | unknown
deriving DecidableEq, Repr

/-- The implementation parameters of R7. They are a part of State that no step changes. -/
structure Params where
  /-- NUM_WORKERS, 1 to 255 (R26). -/
  numWorkers : Nat
  /-- INV_CACHE_ENTRIES, 0 to 255 (R26). -/
  cacheEntries : Nat
  /-- MMIO_BASE, 256-byte aligned (R24). -/
  mmioBase : Addr
  /-- HOST_ADMIT (R81). -/
  platform : Platform
deriving DecidableEq, Repr

/-- The ranges R7 gives the parameters. -/
abbrev Params.legal (p : Params) : Prop :=
  1 ≤ p.numWorkers ∧ p.numWorkers ≤ 255 ∧ p.cacheEntries ≤ 255 ∧ p.mmioBase.toNat % 256 = 0

namespace Config

/-- DESIGN CHOICE (log 1, unsafe): the parameters of `State.reset`. The spec leaves them open. They are
those of spec/95_test_vectors.md section 0 (4 workers, 16 cache entries, a platform that admits every
byte below 0x1000000 and refuses every access that reaches it), with MMIO_BASE above that memory.
Statements quantify over every state, hence over every value of the parameters. -/
def resetParams : Params :=
  { numWorkers := 4, cacheEntries := 16, mmioBase := 0xF0000000,
    platform := .table [{ lo := 0x1000000, len := 2 ^ 64, noRead := true, noWrite := true }] }

/-- HOST_ADMIT of an unknown platform: first address, byte count, whether it is a write (R81). -/
opaque hostPolicy : Nat → Nat → Bool → Bool

/-- Free bytes ("any value" of spec/93_implementation_defined.md W1 to W6), applied to the counter
`State.free`. No body: no proof can learn a value (log 5). -/
opaque freeByte : Nat → Byte

/-- Free numbers, for the report of a raced command (R91), applied to the counter `State.free` (log 5). -/
opaque freeNat : Nat → Nat

end Config

end Sys2Proof
end

