-- ==== Sys2Proof/Machine/State.lean ====
section
/-! DEFINITION. The state of RSCORE as plain data (spec/10_state.md R56), its reset value
(spec/70_reset_and_hazards.md R391, R392), and the two ways a step of the model can stop. -/

namespace Sys2Proof.Machine

/-! ### Errors -/

/-- The error codes of 60_exceptions.md R361 (all but 0x00, OK). `shortData` is reserved there. -/
inductive ErrCode where
  | tooFewShards | shardSize | shardNoData | reconstructRequired | invShardNum | maxShardNum
  | invalidRowSize | singular | notSupported | shortData
  | illegalCommand | notConfigured | busError | scratchExhausted | domain | badArgument
  | shapeMismatch | overlap
deriving DecidableEq, Repr

/-- An error: its code and its detail index IDX (60_exceptions.md R366). -/
structure Err where
  code : ErrCode
  idx : Half
deriving DecidableEq, Repr

/-! ### The context and the inversion cache -/

/-- A matrix over a field representation, row-major; an element is an integer in [0, 2^w) (00_scope.md
R9, 20_memory.md R85). -/
abbrev Matrix := List (List Nat)

/-- CTX.variant (45_codec.md R240). -/
inductive Variant where
  | classical | fft8 | fft16
deriving DecidableEq, Repr

/-- CTX.kind, 0 to 4 in this order (10_state.md R48). -/
inductive Kind where
  | vandermonde | cauchy | par1 | jerasure | custom
deriving DecidableEq, Repr

/-- The context CTX (10_state.md R50). -/
structure Ctx where
  valid : Bool
  k : Nat
  m : Nat
  variant : Variant
  kind : Kind
  fastone : Bool
  icache : Bool
  upgraded : Bool
  ssm : Nat
  /-- CTX.M: k+m rows of k bytes for the Classical variant, empty otherwise. -/
  matrix : Matrix
deriving DecidableEq, Repr

/-- CTX as no CONFIGURE has written it (10_state.md R50, reset column). -/
def Ctx.unconfigured : Ctx :=
  { valid := false, k := 0, m := 0, variant := .classical, kind := .vandermonde, fastone := false,
    icache := false, upgraded := false, ssm := 0, matrix := [] }

/-- One inversion-cache entry (10_state.md R53): the row set V as a bitmap, and the inverse of CTX.M
restricted to those rows. -/
structure CacheEntry where
  key : Nat
  inverse : Matrix
deriving DecidableEq, Repr

/-! ### The transient state of one command -/

/-- A host byte range [lo, lo + len). -/
structure Extent where
  lo : Nat
  len : Nat
deriving DecidableEq, Repr

/-- A read range of a footprint (20_memory.md R78), with the write range it may coincide with exactly,
if the command's rule lists such an exempt pair (R79). -/
structure ReadRange where
  range : Extent
  exempt : Option Extent
deriving DecidableEq, Repr

/-- One access of the data phase (60_exceptions.md R363 step 8). -/
structure Access where
  range : Extent
  write : Bool
deriving DecidableEq, Repr

/-- Bytes a command writes. `striped` stores are shard bytes, which the stripe workers write
(47_scheduler.md R333); the CP writes the others. -/
structure Store where
  addr : Nat
  bytes : List Byte
  striped : Bool
deriving DecidableEq, Repr

/-- A stripe [lo, hi) of the byte range of a command (47_scheduler.md R332). -/
structure Stripe where
  lo : Nat
  hi : Nat
deriving DecidableEq, Repr

/-- A validated command (10_state.md R54): its footprint, its data-phase accesses, and what it will
write when it commits. `none` means that the part of the state is unchanged. -/
structure Plan where
  reads : List ReadRange
  writes : List Extent
  accesses : List Access
  stores : List Store
  /-- the length S of the striped byte range (R330); `none` for a command the CP runs alone -/
  span : Option Nat
  scrNext : Option Addr
  ctx : Option Ctx
  icache : Option (List CacheEntry)
  result : Word
deriving DecidableEq, Repr

/-- What a command reports in its completion step (60_exceptions.md R364), and what a host write before W14 can
still race with (20_memory.md R91). -/
structure Report where
  opc : BitVec 8
  irq : Bool
  err : Option Err
  /-- the value of W15 and RESULT -/
  result : Word
  /-- the codes a race can make it report -/
  codes : List ErrCode
  footprint : List Extent
  writes : List Extent
deriving DecidableEq, Repr

/-- How far the completion step has come (20_memory.md R87): W15, then W14, then the registers. -/
inductive ReportStage where
  /-- W15 is being written, byte by byte (20_memory.md R82) -/
  | w15
  /-- W15 is written; W14 is next -/
  | w14
  /-- W14 is written; the registers are next -/
  | registers
  /-- the writeback is refused (60_exceptions.md R370); the registers are next -/
  | refused
deriving DecidableEq, Repr

/-- How far the command in flight has come. -/
inductive Phase where
  /-- the fetch is refused, its handling is still to come (60_exceptions.md R367 case 1, R382) -/
  | refused
  /-- the descriptor is copied, nothing is checked yet -/
  | fetched
  /-- validated; these stripes are still to be processed -/
  | working (plan : Plan) (pending : List Stripe)
  /-- every other write is made; the completion step is under way -/
  | reporting (report : Report) (stage : ReportStage)
deriving DecidableEq, Repr

/-- The transient state of R54: the descriptor copy W[0..15], empty while the fetch is refused, and the
phase. -/
structure InFlight where
  words : List Word
  phase : Phase
deriving DecidableEq, Repr

/-! ### The turns of the agents -/

/-- One turn of an agent (00_scope.md R3), as an input of the machine (log 3). -/
inductive Input where
  /-- the host loads `n` bytes at `addr` -/
  | load (addr : Addr) (n : Nat)
  /-- the host stores bytes at `addr` -/
  | store (addr : Addr) (bytes : List Byte)
  /-- the platform's reset input (70_reset_and_hazards.md R391, R399) -/
  | hardReset
  /-- one micro-step of the CP: fetch, handle a refused fetch, validate, end the data phase, write W15, write W14,
  or update the registers -/
  | cp
  /-- a worker processes the `j`-th pending stripe -/
  | worker (j : Nat)
deriving DecidableEq, Repr

/-- A host write to memory while the command at ring index `index` was queued or running (R91, log 4). -/
structure Dirty where
  index : Half
  range : Extent
deriving DecidableEq, Repr

/-- Host memory: a list of (address, byte), addresses strictly rising, no entry equal to what an
unlisted address reads as (`unlistedByte` in Machine/Memory.lean). -/
abbrev Memory := List Host.Cell

/-- The whole state (R56). -/
structure State where
  /-- the implementation parameters (R7); no step changes them -/
  params : Params
  /-- CTRL.EN (R27) -/
  ctrlEn : Bool
  /-- CTRL.HOE (R27) -/
  ctrlHoe : Bool
  /-- STATUS.HALTED (R28) -/
  halted : Bool
  /-- ERRCODE.CODE (R29) -/
  errCode : BitVec 8
  /-- ERRCMD.INDEX (R30) -/
  errIndex : Half
  /-- ERRINFO.IDX (R31) -/
  errIdx : Half
  /-- ERRINFO.OPC (R31) -/
  errOpc : BitVec 8
  /-- IRQ_EN (R32): bit 0 DONE, bit 1 ERR, bit 2 HALT -/
  irqEn : BitVec 3
  /-- IRQ_STAT (R33), same bits -/
  irqStat : BitVec 3
  /-- DONE_COUNT (R34) -/
  doneCount : Word
  /-- RESULT (R35) -/
  result : Word
  /-- CQ_BASE (R36) -/
  cqBase : Addr
  /-- CQ_SIZE_LOG2.LOG2 (R37) -/
  cqSizeLog2 : BitVec 5
  /-- CQ_HEAD (R38), the program counter (R22) -/
  cqHead : Half
  /-- CQ_TAIL (R39) -/
  cqTail : Half
  /-- SCR_BASE (R40) -/
  scrBase : Addr
  /-- SCR_LIMIT (R41) -/
  scrLimit : Addr
  /-- SCR_NEXT (R42) -/
  scrNext : Addr
  /-- SCHED_MAXW.MAXW (R43) -/
  schedMaxw : Half
  /-- SCHED_MINSPLIT (R44) -/
  schedMinsplit : Word
  /-- KCAPS (R46) -/
  kcaps : BitVec 6
  /-- CTX (R50) -/
  ctx : Ctx
  /-- the inversion cache (R53), newest entry first -/
  icache : List CacheEntry
  /-- the command or refused fetch in flight (R54); STATUS.BUSY is 1 iff there is one (60_exceptions.md R382) -/
  inflight : Option InFlight
  /-- host memory (20_memory.md R71) -/
  mem : Memory
  /-- the agents' pending turns, oldest first (log 3) -/
  inputs : List Input
  /-- the bytes the last host load returned (log 3) -/
  hostRead : List Byte
  /-- host writes since a command was queued (log 4) -/
  dirty : List Dirty
  /-- how many free values have been used (log 5) -/
  free : Nat
deriving DecidableEq, Repr

/-- RSCORE right after a hard reset (70_reset_and_hazards.md R391, R392). The spec gives every register.
DESIGN CHOICE: `params` (log 1), `mem` (log 2), and the model's own fields `inputs`, `hostRead`
(log 3), `dirty` (log 4) and `free` (log 5). -/
def State.reset : State :=
  { params := Config.resetParams
    ctrlEn := false, ctrlHoe := true, halted := false
    errCode := 0, errIndex := 0, errIdx := 0, errOpc := 0
    irqEn := 0, irqStat := 0
    doneCount := 0, result := 0
    cqBase := 0, cqSizeLog2 := 0, cqHead := 0, cqTail := 0
    scrBase := 0, scrLimit := 0, scrNext := 0
    schedMaxw := 0, schedMinsplit := 512, kcaps := 0x3F
    ctx := .unconfigured, icache := [], inflight := none
    mem := [], inputs := [], hostRead := [], dirty := [], free := 0 }

/-! ### How a step can stop -/

/-- A step that stops. No command ends in a fault: the one reason is a host access to an address that does
not exist. -/
inductive Fault where
  /-- Raised by a host turn whose access runs past address 2^64 - 1 (log 24). Safe: the model stops where the
  platform goes on. -/
  | hostAccessPastEnd
deriving DecidableEq, Repr

/-- An instruction without a meaning. -/
inductive Refusal where
  /-- Raised by an arm of `exec` whose instruction has no meaning yet; no arm does. Safe. -/
  | notModelled (mnemonic : String)
deriving DecidableEq, Repr

end Sys2Proof.Machine
end

