-- ==== Sys2Proof/Machine/Algebra.lean ====
section
/-! DEFINITION. Matrices over FS0 (spec/42_matrix.md): identity, product, Gauss-Jordan inversion,
sub-matrix and augmentation, and the coding-matrix builders of spec/43_generator.md. -/

namespace Sys2Proof.Machine

/-- Element (i, j). -/
def entry (m : Matrix) (i j : Nat) : Nat := (m.getD i []).getD j 0

/-- The r×c matrix with element (i, j) = f i j. -/
def tabulate (r c : Nat) (f : Nat → Nat → Nat) : Matrix :=
  (List.range r).map fun i => (List.range c).map fun j => f i j

/-- XOR-sum of a list of elements (00_scope.md R9). -/
def xorSum : List Nat → Nat
  | [] => 0
  | a :: as => a ^^^ xorSum as

/-- mul8 (41_field.md R134). -/
abbrev mul8 : Nat → Nat → Nat := mul .gf8

/-- identity(n) (R162). -/
def identity (n : Nat) : Matrix := tabulate n n fun i j => if i = j then 1 else 0

/-- The product of an r×t matrix and a t×c matrix (R163). -/
def matProduct (r t c : Nat) (x y : Matrix) : Matrix :=
  tabulate r c fun i j => xorSum ((List.range t).map fun e => mul8 (entry x i e) (entry y e j))

/-- c ⊗ row. -/
def scaleRow (c : Nat) (row : List Nat) : List Nat := row.map (mul8 c)

/-- row ⊕ (c ⊗ other). -/
def addScaledRow (row : List Nat) (c : Nat) (other : List Nat) : List Nat :=
  List.zipWith (fun a b => a ^^^ mul8 c b) row other

/-- Rewrite every row by its index, counted from `i`. -/
def mapRowsFrom (f : Nat → List Nat → List Nat) : Nat → Matrix → Matrix
  | _, [] => []
  | i, row :: m => f i row :: mapRowsFrom f (i + 1) m

/-- Rows r and q exchanged. -/
def swapRows (m : Matrix) (r q : Nat) : Matrix :=
  mapRowsFrom (fun i row => if i = r then m.getD q [] else if i = q then m.getD r [] else row) 0 m

/-- One round of the forward pass for column r (R164): the pivot is row r itself, or the least row below
it with a nonzero element in column r; it is scaled to 1 and cleared from the rows below. `none` is
Singular. -/
def forwardRound (n : Nat) (m : Matrix) (r : Nat) : Option Matrix :=
  match (List.range n).find? (fun q => decide (r ≤ q ∧ entry m q r ≠ 0)) with
  | none => none
  | some q =>
    let sw := swapRows m r q
    let pivot := scaleRow (inv .gf8 (entry sw r r)) (sw.getD r [])
    some (mapRowsFrom (fun i row =>
      if i = r then pivot
      else if r < i then addScaledRow row (row.getD r 0) pivot
      else row) 0 sw)

/-- One round of the backward pass for column d (R164): the column is cleared above the pivot. -/
def backwardRound (m : Matrix) (d : Nat) : Matrix :=
  mapRowsFrom (fun i row => if i < d then addScaledRow row (row.getD d 0) (m.getD d []) else row) 0 m

/-- [X | I_n] (R164). -/
def withIdentity (n : Nat) (x : Matrix) : Matrix :=
  List.zipWith (· ++ ·) x (identity n)

/-- The forward pass over the listed columns. -/
def forwardPass (n : Nat) : List Nat → Matrix → Option Matrix
  | [], m => some m
  | r :: rs, m =>
    match forwardRound n m r with
    | none => none
    | some m' => forwardPass n rs m'

/-- invert of R164 for an n×n matrix; `none` is Singular. -/
def invert (n : Nat) (x : Matrix) : Option Matrix :=
  match forwardPass n (List.range n) (withIdentity n x) with
  | none => none
  | some m => some (((List.range n).foldl backwardRound m).map (List.drop n))

/-- The rows with the listed indices, in order (R166). -/
def selectRows (m : Matrix) (ris : List Nat) : Matrix := ris.map fun i => m.getD i []

/-- subMatrix (R166). -/
def subMatrix (m : Matrix) (ris cis : List Nat) : Matrix :=
  ris.map fun i => cis.map fun j => entry m i j

/-- augment (R167). -/
def augment (x y : Matrix) : Matrix := List.zipWith (· ++ ·) x y

/-- The bytes of a matrix, row-major (20_memory.md R85). -/
def matrixBytes (m : Matrix) : List Byte := (m.flatMap id).map (BitVec.ofNat 8)

/-- The matrix of r rows and c columns in r·c bytes, row-major (20_memory.md R85). -/
def matrixOfBytes : Nat → Nat → List Byte → Matrix
  | 0, _, _ => []
  | r + 1, c, bs => (bs.take c).map BitVec.toNat :: matrixOfBytes r c (bs.drop c)

/-! ### Builders (43_generator.md) -/

/-- The raw Vandermonde matrix VR(r, c) (R191). -/
def vandermondeRaw (r c : Nat) : Matrix := tabulate r c fun i j => pow .gf8 i j

/-- Kind 0 (R192): VR(k+m, k) times the inverse of its top k rows. -/
def buildVandermonde (k m : Nat) : Option Matrix :=
  let vr := vandermondeRaw (k + m) k
  match invert k (vr.take k) with
  | none => none
  | some t => some (matProduct (k + m) k k vr t)

/-- Kind 1 (R193): 1 / (i XOR j) below the identity. -/
def buildCauchy (k m : Nat) : Matrix :=
  identity k ++ tabulate m k fun p j => inv .gf8 ((k + p) ^^^ j)

/-- Kind 2 (R194): (c+1)^p below the identity. -/
def buildPar1 (k m : Nat) : Matrix :=
  identity k ++ tabulate m k fun p c => pow .gf8 (c + 1) p

/-- The extended Vandermonde matrix Jerasure starts from (R195): e_0, the powers of the nodes
1 to rows-2, and e_(cols-1) last. -/
def jerasureStart (rows cols : Nat) : Matrix :=
  tabulate rows cols fun i j =>
    if i = 0 then (if j = 0 then 1 else 0)
    else if i = rows - 1 then (if j = cols - 1 then 1 else 0)
    else pow .gf8 i j

/-- Column i scaled by t, in all rows. -/
def scaleColumn (t i : Nat) (m : Matrix) : Matrix :=
  m.map fun row => row.set i (mul8 t (row.getD i 0))

/-- Every column j ≠ i plus d[i][j] times column i, in all rows (R195). Column i does not change, so
the columns may be done together. -/
def clearRowByColumn (i : Nat) (m : Matrix) : Matrix :=
  let src := m.getD i []
  m.map fun row =>
    (List.range row.length).map fun j =>
      if j = i then row.getD j 0 else row.getD j 0 ^^^ mul8 (src.getD j 0) (row.getD i 0)

/-- One round of the column reduction of R195 for column i; `none` if there is no pivot. -/
def jerasureRound (rows : Nat) (m : Matrix) (i : Nat) : Option Matrix :=
  match (List.range rows).find? (fun q => decide (i ≤ q ∧ entry m q i ≠ 0)) with
  | none => none
  | some q =>
    let sw := swapRows m i q
    let sc := if entry sw i i = 1 then sw else scaleColumn (inv .gf8 (entry sw i i)) i sw
    some (clearRowByColumn i sc)

/-- The column reduction of R195 over the listed columns. -/
def jerasureReduce (rows : Nat) : List Nat → Matrix → Option Matrix
  | [], m => some m
  | i :: is, m =>
    match jerasureRound rows m i with
    | none => none
    | some m' => jerasureReduce rows is m'

/-- Row k made all ones by scaling each column of the parity rows (R195). -/
def onesRow (cols : Nat) (m : Matrix) : Matrix :=
  let first := m.getD cols []
  mapRowsFrom (fun i row =>
    if i < cols then row
    else List.zipWith (fun t a => if t = 1 then a else mul8 (inv .gf8 t) a) first row) 0 m

/-- Column 0 made all ones in the rows below row k (R195). -/
def onesColumn (cols : Nat) (m : Matrix) : Matrix :=
  mapRowsFrom (fun i row =>
    if i ≤ cols then row
    else if row.getD 0 0 = 1 then row
    else scaleRow (inv .gf8 (row.getD 0 0)) row) 0 m

/-- Kind 3 (R195). -/
def buildJerasure (k m : Nat) : Option Matrix :=
  match jerasureReduce (k + m) ((List.range k).drop 1) (jerasureStart (k + m) k) with
  | none => none
  | some d => some (onesColumn k (onesRow k d))

/-- The builder of R192 to R195 for kinds 0 to 3. Custom is the caller's (R199). -/
def buildMatrix (kind : Kind) (k m : Nat) : Option Matrix :=
  match kind with
  | .vandermonde => buildVandermonde k m
  | .cauchy => some (buildCauchy k m)
  | .par1 => some (buildPar1 k m)
  | .jerasure => buildJerasure k m
  | .custom => none

/-- Fast-one-parity (R196): with the flag and m = 1, parity row k becomes all ones. -/
def fastOne (flag : Bool) (k m : Nat) (mat : Matrix) : Matrix :=
  if flag ∧ m = 1 then mat.take k ++ [List.replicate k 1] else mat

end Sys2Proof.Machine
end

