-- ==== Sys2Proof/Machine/Flags.lean ====
section
/-! DEFINITION. How an outcome is reported. RSCORE has no condition codes (spec/10_state.md R23); the
outcome of a command is its error code (60_exceptions.md R361), its completion word W14 (30_encoding.md
R107) and the sticky bits of IRQ_STAT (10_state.md R33). -/

namespace Sys2Proof.Machine

/-- The number of an error code (R361). -/
def ErrCode.number : ErrCode → BitVec 8
  | .tooFewShards => 0x01
  | .shardSize => 0x02
  | .shardNoData => 0x03
  | .reconstructRequired => 0x04
  | .invShardNum => 0x05
  | .maxShardNum => 0x06
  | .invalidRowSize => 0x07
  | .singular => 0x08
  | .notSupported => 0x09
  | .shortData => 0x0A
  | .illegalCommand => 0x10
  | .notConfigured => 0x11
  | .busError => 0x12
  | .scratchExhausted => 0x13
  | .domain => 0x14
  | .badArgument => 0x15
  | .shapeMismatch => 0x16
  | .overlap => 0x17

/-- The detail index of an error that names no operand or shard (R366). -/
def noDetail : Half := 0xFFFF

/-- The detail index of a completion-writeback refusal (R366). -/
def writebackDetail : Half := 0xFFFE

/-- The completion word W14 (R107, R364): DONE in bit 31, IDX in bits 23:8, CODE in bits 7:0. -/
def completionWord (e : Option Err) : Word :=
  match e with
  | none => 0x80000000
  | some e => 0x80000000 ||| (e.idx.setWidth 32 <<< 8) ||| e.code.number.setWidth 32

/-- The value of W15 and of RESULT (R108, R364): the result, or 0 for a failed command. -/
def completionResult (e : Option Err) (res : Word) : Word :=
  match e with
  | none => res
  | some _ => 0

/-! ### IRQ_STAT (R33, R371) -/

/-- IRQ_STAT.DONE, bit 0. -/
def irqDone : BitVec 3 := 1

/-- IRQ_STAT.ERR, bit 1. -/
def irqErr : BitVec 3 := 2

/-- IRQ_STAT.HALT, bit 2. -/
def irqHalt : BitVec 3 := 4

/-- The interrupt line (R372): some pending bit is enabled. -/
def irqLine (s : State) : Bool := s.irqStat &&& s.irqEn != 0

end Sys2Proof.Machine
end

