-- ==== Sys2Proof/Machine/Memory.lean ====
section
/-! DEFINITION. Host memory as a canonical list of cells (spec/20_memory.md R71): reading and writing
bytes. Which accesses RSCORE may make is decided in Machine/Ops.lean. -/

namespace Sys2Proof.Machine

/-- What a byte that nothing has written reads as. DESIGN CHOICE (log 2, unsafe): 0, as all unlisted
memory of spec/95_test_vectors.md section 0; R394 gives memory no contents. -/
def unlistedByte : Byte := 0

/-- The canonical form: addresses below 2^64 and strictly rising, no cell equal to `unlistedByte`. -/
abbrev Memory.wf (m : Memory) : Prop :=
  (m.map Prod.fst).Pairwise (· < ·) ∧ ∀ c ∈ m, c.1 < 2 ^ 64 ∧ c.2 ≠ unlistedByte

/-- Read one byte. -/
def Memory.read : Memory → Nat → Byte
  | [], _ => unlistedByte
  | (k, b) :: m, a => if k = a then b else Memory.read m a

/-- Read `n` bytes from address `a` on (MemReadBytes, 00_scope.md R10). -/
def Memory.readBytes (m : Memory) (a : Nat) : Nat → List Byte
  | 0 => []
  | n + 1 => m.read a :: Memory.readBytes m (a + 1) n

/-- Read an `n`-byte little-endian number (MemRead, R10). -/
def Memory.readNat (m : Memory) (a n : Nat) : Nat := natOfBytes (m.readBytes a n)

/-- The cells that bytes from address `a` on need. There is no byte past the last address; an access that
would reach one is refused before it gets here (R81). -/
def cellsFrom (a : Nat) : List Byte → Memory
  | [] => []
  | b :: bs =>
    if b = unlistedByte ∨ 2 ^ 64 ≤ a then cellsFrom (a + 1) bs else (a, b) :: cellsFrom (a + 1) bs

/-- Write bytes from address `a` on (MemWriteBytes, R10). -/
def Memory.writeBytes (m : Memory) (a : Nat) (bs : List Byte) : Memory :=
  m.filter (fun c => decide (c.1 < a)) ++ cellsFrom a bs
    ++ m.filter (fun c => decide (a + bs.length ≤ c.1))

/-- Write an `n`-byte little-endian number (MemWrite, R10). -/
def Memory.writeNat (m : Memory) (a n v : Nat) : Memory := m.writeBytes a (bytesOfNat n v)

/-- Make one store. -/
def Memory.put (m : Memory) (st : Store) : Memory := m.writeBytes st.addr st.bytes

/-- Make stores in list order. The overlap check makes their ranges disjoint (R79), so the order does
not matter. -/
def Memory.putAll (m : Memory) (sts : List Store) : Memory := sts.foldl Memory.put m

end Sys2Proof.Machine
end

