-- ==== Sys2Proof/Machine/Ops.lean ====
section
/-! DEFINITION. The operations every command shares: checks, admitted accesses to host memory
(spec/20_memory.md R81), the commit of a validated command, the completion step (60_exceptions.md R364)
with the error it may take (R365, R367, R368, R370), and the return from a halt (R369). -/

namespace Sys2Proof.Machine

/-- `check(condition, CODE, idx)` of 00_scope.md R10. -/
def check (c : Prop) [Decidable c] (code : ErrCode) (idx : Half) : Except Err Unit :=
  if c then .ok () else .error { code := code, idx := idx }

/-- `check` for each index in list order; the first failing index is reported (R363). -/
def checkEach (c : Nat → Bool) (code : ErrCode) (idx : Nat → Half) : List Nat → Except Err Unit
  | [] => .ok ()
  | i :: is => if c i then checkEach c code idx is else .error { code := code, idx := idx i }

/-! ### Ranges and access permission -/

/-- The range of `n` bytes at `a`. -/
def extent (a n : Nat) : Extent := { lo := a, len := n }

/-- Two ranges share a byte. A range of length 0 shares none (R79). -/
def Extent.overlaps (x y : Extent) : Bool :=
  decide (0 < x.len ∧ 0 < y.len ∧ x.lo < y.lo + y.len ∧ y.lo < x.lo + x.len)

/-- An address lies in a range. -/
def Extent.contains (x : Extent) (a : Nat) : Bool := decide (x.lo ≤ a ∧ a < x.lo + x.len)

/-- HOST_ADMIT (R81 item 3). -/
def platformAdmits (p : Platform) (x : Extent) (write : Bool) : Bool :=
  match p with
  | .table refused =>
    refused.all fun r =>
      !((extent r.lo r.len).overlaps x && (if write then r.noWrite else r.noRead))
  | .unknown => Config.hostPolicy x.lo x.len write

/-- The register block (10_state.md R24). -/
def registerBlock (s : State) : Extent := extent s.params.mmioBase.toNat 256

/-- The three conditions of R81, for one whole range. An access of no bytes is never refused
(DEDUCED, log 9). -/
def permits (s : State) (x : Extent) (write : Bool) : Bool :=
  x.len == 0 ||
    (decide (x.lo + x.len ≤ 2 ^ 64) && !x.overlaps (registerBlock s) && platformAdmits s.params.platform x write)

/-- BUS_ERROR with its IDX (R81). -/
def busError : Err := { code := .busError, idx := noDetail }

/-- A validation read of bytes (R363 step 4, R367 case 2). -/
def memReadBytes (s : State) (a n : Nat) : Except Err (List Byte) :=
  if permits s (extent a n) false then .ok (s.mem.readBytes a n) else .error busError

/-- A validation read of an n-byte little-endian number (MemRead of R10). -/
def memRead (s : State) (a n : Nat) : Except Err Nat :=
  if permits s (extent a n) false then .ok (s.mem.readNat a n) else .error busError

/-- `roundup64` of 00_scope.md R9. -/
def roundup64 (n : Nat) : Nat := (n + 63) / 64 * 64

/-! ### The ring (10_state.md R22, R36 to R39) -/

/-- The number of ring entries, 2^CQ_SIZE_LOG2 (R37). -/
def ringSize (s : State) : Nat := 2 ^ s.cqSizeLog2.toNat

/-- The address of ring entry `i`. -/
def slotAddr (s : State) (i : Nat) : Nat := s.cqBase.toNat + 64 * i

/-- d, the address of the descriptor at CQ_HEAD (R22). -/
def descAddr (s : State) : Nat := slotAddr s s.cqHead.toNat

/-- The descriptor's 64 bytes, a read range of every footprint (R78). -/
def descRange (s : State) : ReadRange := { range := extent (descAddr s) 64, exempt := none }

/-- CQ_HEAD of the next command (R22). -/
def nextHead (s : State) : Half := BitVec.ofNat 16 ((s.cqHead.toNat + 1) % ringSize s)

/-! ### Taking an error, halting and resuming -/

/-- Halt (R368): HALTED is set, and IRQ_STAT.HALT if it was 0. -/
def halt (s : State) : State :=
  { s with halted := true, irqStat := if s.halted then s.irqStat else s.irqStat ||| irqHalt }

/-- Taking an error (R365): the error registers are written, IRQ_STAT.ERR is set, and the CP halts if
CTRL.HOE is 1 or `force` says so (R367 case 1, R370). It saves nothing else and jumps nowhere (R374). -/
def raiseError (e : Err) (index : Half) (opc : BitVec 8) (force : Bool) (s : State) : State :=
  let s := { s with errCode := e.code.number, errIndex := index, errIdx := e.idx, errOpc := opc,
                    irqStat := s.irqStat ||| irqErr }
  if s.ctrlHoe || force then halt s else s

/-- The return from a halt: a CTRL write with RESUME = 1 (R369). -/
def resume (s : State) : State := { s with halted := false }

/-- A refused descriptor fetch (R367 case 1): nothing executes, nothing is counted, the CP halts. -/
def fetchFault (s : State) : State :=
  raiseError busError s.cqHead 0xFF true { s with inflight := none }

/-! ### Completion -/

/-- W15 of the descriptor at `d` (R364). -/
def writeW15 (d : Nat) (v15 : Word) (m : Memory) : Memory := m.writeNat (d + 60) 4 v15.toNat

/-- W14 of the descriptor at `d` (R364). -/
def writeW14 (d : Nat) (e : Option Err) (m : Memory) : Memory := m.writeNat (d + 56) 4 (completionWord e).toNat

/-- The completion writeback (R364, 20_memory.md R87): W15 first, then W14. -/
def writeback (d : Nat) (e : Option Err) (v15 : Word) (m : Memory) : Memory := writeW14 d e (writeW15 d v15 m)

/-- The writeback range is admitted (R364). -/
def writebackAdmitted (s : State) : Bool := permits s (extent (descAddr s + 56) 8) true

/-- The completion registers (R364): CQ_HEAD, DONE_COUNT, RESULT, the end of BUSY. The host writes that
were logged for this command (log 4) are done with. -/
def advance (v15 : Word) (s : State) : State :=
  { s with cqHead := nextHead s, doneCount := s.doneCount + 1, result := v15, inflight := none,
           dirty := s.dirty.filter fun x => x.index != s.cqHead }

/-- IRQ_STAT.DONE for a command with the IRQ flag (R364, R371). -/
def signalDone (irq : Bool) (s : State) : State :=
  if irq then { s with irqStat := s.irqStat ||| irqDone } else s

/-- The register updates of a completion whose W15 and W14 are written, one step to the host (R364). -/
def completeRegisters (opc : BitVec 8) (irq : Bool) (e : Option Err) (v15 : Word) (s : State) : State :=
  signalDone irq (match e with
    | none => advance v15 s
    | some err => raiseError err s.cqHead opc false (advance v15 s))

/-- The register updates of a completion whose writeback is refused (R364, R370). -/
def refusedRegisters (opc : BitVec 8) (irq : Bool) (v15 : Word) (s : State) : State :=
  signalDone irq (raiseError { code := .busError, idx := writebackDetail } s.cqHead opc true (advance v15 s))

/-- The completion step (R364, R370) of the command at CQ_HEAD, with its opcode byte W0[7:0], its IRQ
flag, its outcome and its result. -/
def complete (opc : BitVec 8) (irq : Bool) (e : Option Err) (res : Word) (s : State) : State :=
  let v15 := completionResult e res
  if writebackAdmitted s then
    completeRegisters opc irq e v15 { s with mem := writeback (descAddr s) e v15 s.mem }
  else refusedRegisters opc irq v15 s

/-! ### Commit and data-phase errors -/

/-- `n` free bytes, from the counter `c` on. -/
def freeBytes (c n : Nat) : List Byte := (List.range n).map fun i => Config.freeByte (c + i)

/-- The part of a range that lies in the address space. -/
def inSpace (x : Extent) : Nat := min x.len (2 ^ 64 - x.lo)

/-- Every byte of the ranges becomes any value (R367 case 3, R91, R398, R399). -/
def havoc : List Extent → State → State
  | [], s => s
  | x :: xs, s =>
    havoc xs { s with mem := s.mem.writeBytes x.lo (freeBytes s.free (inSpace x)),
                      free := s.free + inSpace x }

/-- The state outside memory that a command commits: SCR_NEXT (R77), CTX and the inversion cache. -/
def commitRegisters (p : Plan) (s : State) : State :=
  { s with scrNext := p.scrNext.getD s.scrNext, ctx := p.ctx.getD s.ctx,
           icache := p.icache.getD s.icache }

/-- The data phase without an error: every store is made and the registers are committed. -/
def commit (p : Plan) (s : State) : State :=
  commitRegisters p { s with mem := s.mem.putAll p.stores }

/-- Every data-phase access is admitted. -/
def accessesPermitted (s : State) (p : Plan) : Bool := p.accesses.all fun a => permits s a.range a.write

/-- The data phase and the completion step of a validated command (R363 step 8, R364, R367 case 3). -/
def finishPlan (opc : BitVec 8) (irq : Bool) (p : Plan) (s : State) : State :=
  if accessesPermitted s p then complete opc irq none p.result (commit p s)
  else complete opc irq (some busError) 0 (havoc p.writes (commitRegisters p s))

/-- Everything after validation: a validation error completes the command with nothing written (R362);
a validated command is carried out. -/
def finish (opc : BitVec 8) (irq : Bool) (v : Except Err Plan) (s : State) : State :=
  match v with
  | .error e => complete opc irq (some e) 0 s
  | .ok p => finishPlan opc irq p s

end Sys2Proof.Machine
end

