-- ==== Sys2Proof/Machine/Operands.lean ====
section
/-! DEFINITION. Operand forms: field elements, dimensions, matrices, pointer tables, index lists, shard
tables and bitmaps in host memory (spec/20_memory.md R72 to R75, R85), arena allocation (R77), and the
footprint with its overlap check (R78, R79). -/

namespace Sys2Proof.Machine

/-! ### Operand words -/

/-- The detail indices of operands A to D (60_exceptions.md R366). -/
def detailA : Half := 0
def detailB : Half := 1
def detailC : Half := 2
def detailD : Half := 3

/-- An element operand is below 2^w (41_field.md R141, 30_encoding.md R104). -/
def checkElement (fs : FS) (a : Word) (idx : Half) : Except Err Unit :=
  check (a.toNat < 2 ^ width fs) .badArgument idx

/-- A matrix dimension is in 1 … 512 (42_matrix.md R160). -/
def checkDim (d : Word) (idx : Half) : Except Err Unit :=
  check (1 ≤ d.toNat ∧ d.toNat ≤ 512) .badArgument idx

/-- The length of an FS2 buffer is a multiple of 64 (44_kernel.md R224, 46_fft.md R320). -/
def checkBlocks (fs : FS) (len : Word) : Except Err Unit :=
  check (fs = .gf16c → len.toNat % 64 = 0) .shardSize noDetail

/-! ### Tables in host memory -/

/-- A matrix of r rows and c columns, read whole (20_memory.md R85, 42_matrix.md R161). -/
def readMatrix (s : State) (a r c : Nat) : Except Err Matrix := do
  let bs ← memReadBytes s a (r * c)
  return matrixOfBytes r c bs

/-- The `n` bytes at `a`, each by a read of its own: `MemRead(a + i, 1)` (00_scope.md R10). -/
def readEach (s : State) (a : Nat) : Nat → Except Err (List Byte)
  | 0 => .ok []
  | n + 1 => do
    let b ← memReadBytes s a 1
    let bs ← readEach s (a + 1) n
    return b ++ bs

/-- A pointer table of n entries (R85). -/
def readPointers (s : State) (t : Nat) : Nat → Except Err (List Nat)
  | 0 => .ok []
  | n + 1 => do
    let p ← memRead s t 8
    let ps ← readPointers s (t + 8) n
    return p :: ps

/-- A shard-table entry (20_memory.md R73). -/
structure Slot where
  addr : Nat
  len : Nat
  cap : Nat
deriving DecidableEq, Repr

/-- An entry with LEN > 0 (R74). -/
def Slot.present (x : Slot) : Bool := decide (0 < x.len)

/-- One shard-table entry: ADDR, LEN, CAP (R73, 45_codec.md R248). -/
def readSlot (s : State) (a : Nat) : Except Err Slot := do
  let addr ← memRead s a 8
  let len ← memRead s (a + 8) 4
  let cap ← memRead s (a + 12) 4
  return { addr := addr, len := len, cap := cap }

/-- The n entries of a shard table at `t` (R248). -/
def readSlots (s : State) (t : Nat) : Nat → Except Err (List Slot)
  | 0 => .ok []
  | n + 1 => do
    let x ← readSlot s t
    let xs ← readSlots s (t + 16) n
    return x :: xs

/-- Entry `i` of a table already read. -/
def slotAt (xs : List Slot) (i : Nat) : Slot := xs.getD i { addr := 0, len := 0, cap := 0 }

/-- Entry `i` is present (R74). -/
def presentAt (xs : List Slot) (i : Nat) : Bool := (slotAt xs i).present

/-! What a table in memory says, whatever may be read. -/

/-- Entry `i` of the shard table at `t` (R73). -/
def entryAt (s : State) (t i : Nat) : Slot :=
  { addr := s.mem.readNat (t + 16 * i) 8, len := s.mem.readNat (t + 16 * i + 8) 4,
    cap := s.mem.readNat (t + 16 * i + 12) 4 }

/-- The `n` entries of the shard table at `t`. -/
def tableAt (s : State) (t n : Nat) : List Slot := (List.range n).map (entryAt s t)

/-- The `n` entries of the pointer table at `t` (R85). -/
def pointersAt (s : State) (t n : Nat) : List Nat := (List.range n).map fun i => s.mem.readNat (t + 8 * i) 8

/-- Bit `i` of a bitmap (R85). -/
def bitmapBit (bs : List Byte) (i : Nat) : Bool := (bs.getD (i / 8) 0).getLsbD (i % 8)

/-! ### Stores -/

/-- The store of an n-byte field by the CP. -/
def fieldStore (a n v : Nat) : Store := { addr := a, bytes := bytesOfNat n v, striped := false }

/-- The store of an output matrix (42_matrix.md R161). -/
def matrixStore (a : Nat) (m : Matrix) : Store := { addr := a, bytes := matrixBytes m, striped := false }

/-- The store of shard bytes by the stripe workers (47_scheduler.md R333). -/
def shardStore (a : Nat) (bs : List Byte) : Store := { addr := a, bytes := bs, striped := true }

/-- The access a store makes. -/
def Store.access (st : Store) : Access := { range := extent st.addr st.bytes.length, write := true }

/-! ### Footprint (R78, R79) -/

/-- A read range that may coincide with no write range. -/
def reads (a n : Nat) : ReadRange := { range := extent a n, exempt := none }

/-- A read range that may coincide exactly with the write range [b, b+m) (R79). -/
def readsInPlace (a n b m : Nat) : ReadRange :=
  { range := extent a n, exempt := some (extent b m) }

/-- The data-phase read of a range. -/
def readAccess (a n : Nat) : Access := { range := extent a n, write := false }

/-- The data-phase write of a range. -/
def writeAccess (a n : Nat) : Access := { range := extent a n, write := true }

/-- No two of the ranges share a byte. -/
def pairwiseClear : List Extent → Bool
  | [] => true
  | w :: ws => ws.all (fun x => !w.overlaps x) && pairwiseClear ws

/-- A write range and a read range do not collide: they share no byte, or they are an exempt pair of two
equal ranges (R79). -/
def pairClear (w : Extent) (r : ReadRange) : Bool :=
  !w.overlaps r.range || (r.exempt == some w && r.range == w)

/-- The overlap check (R79). -/
def footprintClear (rs : List ReadRange) (ws : List Extent) : Bool :=
  pairwiseClear ws && ws.all fun w => rs.all fun r => pairClear w r

/-- A validated command, if its footprint passes the overlap check (R79, 60_exceptions.md R363 step 7). -/
def Plan.guarded (p : Plan) : Except Err Plan :=
  if footprintClear p.reads p.writes then .ok p else .error { code := .overlap, idx := noDetail }

/-- A command that touches no memory but its descriptor. -/
def replyPlan (s : State) (result : Word) : Plan :=
  { reads := [descRange s], writes := [], accesses := [], stores := [], span := none,
    scrNext := none, ctx := none, icache := none, result := result }

/-! ### Arena allocation (R76, R77) -/

/-- The arena check, for a command that allocated up to `next` (R77). -/
def checkArena (s : State) (next : Nat) : Except Err Unit :=
  check (next ≤ s.scrLimit.toNat ∧ s.scrBase.toNat ≤ s.scrNext.toNat) .scratchExhausted noDetail

/-- Where an output shard goes (20_memory.md R75): in place in a present or a missing-with-storage slot,
or in a new arena buffer. -/
structure Placed where
  index : Nat
  addr : Nat
  present : Bool
  fresh : Bool
deriving DecidableEq, Repr

/-- The outputs in ascending index order with their tentative allocations from `next` on, and the arena
pointer after them (R75, R77, 45_codec.md R251). -/
def placeOutputs (xs : List Slot) (size : Nat) : List Nat → Nat → List Placed × Nat
  | [], next => ([], next)
  | i :: is, next =>
    let x := slotAt xs i
    if x.present then
      let (ps, n) := placeOutputs xs size is next
      ({ index := i, addr := x.addr, present := true, fresh := false } :: ps, n)
    else if size ≤ x.cap then
      let (ps, n) := placeOutputs xs size is next
      ({ index := i, addr := x.addr, present := false, fresh := false } :: ps, n)
    else
      let (ps, n) := placeOutputs xs size is (next + roundup64 size)
      ({ index := i, addr := next, present := false, fresh := true } :: ps, n)

/-- The table-entry stores that materialise an output (R75). -/
def Placed.entryStores (t size : Nat) (p : Placed) : List Store :=
  let e := t + 16 * p.index
  if p.present then []
  else if p.fresh then [fieldStore e 8 p.addr, fieldStore (e + 12) 4 size, fieldStore (e + 8) 4 size]
  else [fieldStore (e + 8) 4 size]

/-- The write range of an output (R78): the whole allocated range for a new buffer. -/
def Placed.range (size : Nat) (p : Placed) : Extent :=
  extent p.addr (if p.fresh then roundup64 size else size)

end Sys2Proof.Machine
end

