-- ==== Sys2Proof/Machine/Fft.lean ====
section
/-! DEFINITION. The additive-FFT unit (spec/46_fft.md): butterflies, transforms, formal derivative, the
codec algorithms of R310 to R313, and the five transform commands (R320 to R324). A shard is the vector
of its elements (41_field.md R140). -/

namespace Sys2Proof.Machine

/-- The elements of one shard. -/
abbrev Vec := List Nat

/-- x ⊕ y, element by element. -/
def addVec (x y : Vec) : Vec := List.zipWith (· ^^^ ·) x y

/-- c ⊗ x, element by element. -/
def scaleVec (fs : FS) (c : Nat) (x : Vec) : Vec := x.map (mul fs c)

/-- skew(P, d) (R302). -/
def skew (p d : Nat) : Nat := p / d

/-- The FFT butterfly (R304). -/
def bflyFft (fs : FS) (sk : Nat) (x y : Vec) : Vec × Vec :=
  let x' := addVec x (scaleVec fs sk y)
  (x', addVec y x')

/-- The IFFT butterfly (R305). -/
def bflyIfft (fs : FS) (sk : Nat) (x y : Vec) : Vec × Vec :=
  let y' := addVec y x
  (addVec x (scaleVec fs sk y'), y')

/-- One level of a transform: `nb` blocks of half-size d, the first at absolute position p. The
butterfly is given the skew factor of its block. -/
def transformLevel (bfly : Nat → Vec → Vec → Vec × Vec) (d : Nat) : Nat → Nat → List Vec → List Vec
  | 0, _, _ => []
  | nb + 1, p, w =>
    let ps := List.zipWith (bfly (skew p d)) (w.take d) ((w.drop d).take d)
    ps.map Prod.fst ++ ps.map Prod.snd ++ transformLevel bfly d nb (p + 2 * d) (w.drop (2 * d))

/-- The half-sizes 1, 2, 4, … below n, a power of two. -/
def halfSizes (n : Nat) : List Nat := (List.range n.log2).map (2 ^ ·)

/-- ifft(W, n, b) (R306). -/
def ifft (fs : FS) (n b : Nat) (w : List Vec) : List Vec :=
  (halfSizes n).foldl (fun w d => transformLevel (bflyIfft fs) d (n / (2 * d)) b w) w

/-- fft(W, n, b) (R307). -/
def fft (fs : FS) (n b : Nat) (w : List Vec) : List Vec :=
  (halfSizes n).reverse.foldl (fun w d => transformLevel (bflyFft fs) d (n / (2 * d)) b w) w

/-- The lowest set bit of i (R308). -/
def lowBit (i : Nat) : Nat := i - (i &&& (i - 1))

/-- Step i of the formal derivative (R308): indices [i - wd, i) gain the shards of [i, i + wd). -/
def fderivStep (w : List Vec) (i : Nat) : List Vec :=
  let wd := lowBit i
  w.take (i - wd) ++ List.zipWith addVec ((w.drop (i - wd)).take wd) ((w.drop i).take wd) ++ w.drop i

/-- fderiv(W, n) (R308). -/
def fderiv (n : Nat) (w : List Vec) : List Vec := ((List.range n).drop 1).foldl fderivStep w

/-! ### Codec algorithms -/

/-- pow2(m), the least power of two that is at least m, for m ≥ 1 (00_scope.md R9, R301). -/
def pow2 (m : Nat) : Nat := if m ≤ 1 then 1 else 2 ^ ((m - 1).log2 + 1)

/-- A zero vector of e elements. -/
def zeroVec (e : Nat) : Vec := List.replicate e 0

/-- The data chunk of mp shards from shard c on, padded with zero shards (R310). -/
def dataChunk (mp c e : Nat) (d : List Vec) : List Vec :=
  (List.range mp).map fun t => d.getD (c + t) (zeroVec e)

/-- fft_encode of R310, for m ≥ 1 parity shards and data shards of e elements. -/
def fftEncode (fs : FS) (m e : Nat) (d : List Vec) : List Vec :=
  let mp := pow2 m
  let acc := (List.range ((d.length + mp - 1) / mp)).foldl
    (fun acc i => List.zipWith addVec acc (ifft fs mp (mp + mp * i) (dataChunk mp (mp * i) e d)))
    (List.replicate mp (zeroVec e))
  (fft fs mp 0 acc).take m

/-- The erasure set E of R311: missing parity positions, padding positions, missing data positions. -/
def erasureSet (k m : Nat) (present : Nat → Bool) : List Nat :=
  let mp := pow2 m
  ((List.range m).filter fun p => !present (k + p))
    ++ (List.range mp).drop m
    ++ ((List.range k).filter fun j => !present j).map (mp + ·)

/-- L(x) (R311). -/
def locator (fs : FS) (es : List Nat) (x : Nat) : Nat :=
  es.foldl (fun acc e => if e = x then acc else mul fs acc (x ^^^ e)) 1

/-- n, the transform size (R301). -/
def codeLength (k m : Nat) : Nat := pow2 (pow2 m + k)

/-- work[x] before the transforms (R312). -/
def workStart (fs : FS) (k m e : Nat) (present : Nat → Bool) (shard : Nat → Vec) (es : List Nat)
    (x : Nat) : Vec :=
  let mp := pow2 m
  if x < m ∧ present (k + x) then scaleVec fs (locator fs es x) (shard (k + x))
  else if mp ≤ x ∧ x < mp + k ∧ present (x - mp) then scaleVec fs (locator fs es x) (shard (x - mp))
  else zeroVec e

/-- The transform phase (R312). -/
def fftDecodeWork (fs : FS) (k m e : Nat) (present : Nat → Bool) (shard : Nat → Vec) : List Vec :=
  let n := codeLength k m
  let es := erasureSet k m present
  fft fs n 0 (fderiv n (ifft fs n 0 ((List.range n).map (workStart fs k m e present shard es))))

/-- The codeword position of shard i (R301). -/
def shardPosition (k m i : Nat) : Nat := if i < k then pow2 m + i else i - k

/-- The reveal phase for the needed shards (R313), in their order. -/
def fftDecode (fs : FS) (k m e : Nat) (present : Nat → Bool) (shard : Nat → Vec) (needed : List Nat) :
    List Vec :=
  let es := erasureSet k m present
  let work := fftDecodeWork fs k m e present shard
  needed.map fun i =>
    let x := shardPosition k m i
    scaleVec fs (inv fs (locator fs es x)) (work.getD x [])

/-! ### Transform commands -/

/-- The plan of a transform command on in-out buffers (R320 to R324): every buffer is read and written,
and the buffers must be disjoint. -/
def transformPlan (s : State) (tables : List ReadRange) (bufs : List Nat) (n : Nat)
    (out : List (List Byte)) : Except Err Plan :=
  Plan.guarded
    { reads := descRange s :: tables
      writes := bufs.map fun a => extent a n
      accesses := (bufs.map fun a => readAccess a n) ++ bufs.map fun a => writeAccess a n
      stores := List.zipWith shardStore bufs out
      span := some n
      scrNext := none
      ctx := none
      icache := none
      result := 0 }

/-- BFLY_FFT (R320). -/
def planBflyFft (fs : FS) (sk len : Word) (x y : Addr) (s : State) : Except Err Plan := do
  checkElement fs sk detailA
  checkBlocks fs len
  let n := len.toNat
  let o := bflyFft fs sk.toNat (toElems fs (s.mem.readBytes x.toNat n))
    (toElems fs (s.mem.readBytes y.toNat n))
  transformPlan s [] [x.toNat, y.toNat] n [ofElems fs o.1, ofElems fs o.2]

def execBflyFft (irq : Bool) (fs : FS) (sk len : Word) (x y : Addr) (s : State) :
    Host.Outcome State Fault Refusal :=
  .next (finish 0x38 irq (planBflyFft fs sk len x y s) s)

/-- BFLY_IFFT (R321). -/
def planBflyIfft (fs : FS) (sk len : Word) (x y : Addr) (s : State) : Except Err Plan := do
  checkElement fs sk detailA
  checkBlocks fs len
  let n := len.toNat
  let o := bflyIfft fs sk.toNat (toElems fs (s.mem.readBytes x.toNat n))
    (toElems fs (s.mem.readBytes y.toNat n))
  transformPlan s [] [x.toNat, y.toNat] n [ofElems fs o.1, ofElems fs o.2]

def execBflyIfft (irq : Bool) (fs : FS) (sk len : Word) (x y : Addr) (s : State) :
    Host.Outcome State Fault Refusal :=
  .next (finish 0x39 irq (planBflyIfft fs sk len x y s) s)

/-- n is a power of two in 1 … 2^w (R322, R324). -/
def checkSize (fs : FS) (n : Word) : Except Err Unit :=
  check (2 ^ n.toNat.log2 = n.toNat ∧ n.toNat ≤ 2 ^ width fs) .badArgument detailA

/-- The element vectors of n-byte buffers. -/
def loadVecs (fs : FS) (s : State) (n : Nat) (bufs : List Nat) : List Vec :=
  bufs.map fun a => toElems fs (s.mem.readBytes a n)

/-- XFORM_FFT and XFORM_IFFT (R322, R323) with their transform. -/
def planXform (transform : FS → Nat → Nat → List Vec → List Vec) (fs : FS) (n base len : Word)
    (tab : Addr) (s : State) : Except Err Plan := do
  checkSize fs n
  check (base.toNat % n.toNat = 0 ∧ base.toNat + n.toNat ≤ 2 ^ width fs) .badArgument detailB
  checkBlocks fs len
  let bufs ← readPointers s tab.toNat n.toNat
  transformPlan s [reads tab.toNat (8 * n.toNat)] bufs len.toNat
    ((transform fs n.toNat base.toNat (loadVecs fs s len.toNat bufs)).map (ofElems fs))

/-- XFORM_FFT (R322). -/
def planXformFft (fs : FS) (n base len : Word) (tab : Addr) (s : State) : Except Err Plan :=
  planXform fft fs n base len tab s

def execXformFft (irq : Bool) (fs : FS) (n base len : Word) (tab : Addr) (s : State) :
    Host.Outcome State Fault Refusal :=
  .next (finish 0x3A irq (planXformFft fs n base len tab s) s)

/-- XFORM_IFFT (R323). -/
def planXformIfft (fs : FS) (n base len : Word) (tab : Addr) (s : State) : Except Err Plan :=
  planXform ifft fs n base len tab s

def execXformIfft (irq : Bool) (fs : FS) (n base len : Word) (tab : Addr) (s : State) :
    Host.Outcome State Fault Refusal :=
  .next (finish 0x3B irq (planXformIfft fs n base len tab s) s)

/-- FDERIV (R324). -/
def planFderiv (fs : FS) (n len : Word) (tab : Addr) (s : State) : Except Err Plan := do
  checkSize fs n
  checkBlocks fs len
  let bufs ← readPointers s tab.toNat n.toNat
  transformPlan s [reads tab.toNat (8 * n.toNat)] bufs len.toNat
    ((fderiv n.toNat (loadVecs fs s len.toNat bufs)).map (ofElems fs))

def execFderiv (irq : Bool) (fs : FS) (n len : Word) (tab : Addr) (s : State) :
    Host.Outcome State Fault Refusal :=
  .next (finish 0x3C irq (planFderiv fs n len tab s) s)

end Sys2Proof.Machine
end

