-- ==== Sys2Proof/Machine/MatrixUnit.lean ====
section
/-! DEFINITION. The matrix unit's commands (spec/42_matrix.md R160 to R167). Every input is read during
validation (R161); the CP alone works (47_scheduler.md R330). -/

namespace Sys2Proof.Machine

/-- A matrix command's plan (R161): the input ranges, and one output matrix of `n` bytes at `dst`. -/
def matrixPlan (s : State) (ins : List ReadRange) (dst : Addr) (n : Nat) (out : Matrix) : Except Err Plan :=
  Plan.guarded
    { reads := descRange s :: ins
      writes := [extent dst.toNat n]
      accesses := [writeAccess dst.toNat n]
      stores := [matrixStore dst.toNat out]
      span := none
      scrNext := none
      ctx := none
      icache := none
      result := 0 }

/-- MAT_IDENT (R162), which writes byte by byte. -/
def planMatIdent (n : Word) (dst : Addr) (s : State) : Except Err Plan := do
  checkDim n detailA
  let p ← matrixPlan s [] dst (n.toNat * n.toNat) (identity n.toNat)
  return { p with accesses := (List.range (n.toNat * n.toNat)).map fun j => writeAccess (dst.toNat + j) 1 }

def execMatIdent (irq : Bool) (n : Word) (dst : Addr) (s : State) : Host.Outcome State Fault Refusal :=
  .next (finish 0x20 irq (planMatIdent n dst s) s)

/-- MAT_MUL (R163). -/
def planMatMul (ra ca rb cb : Word) (x y dst : Addr) (s : State) : Except Err Plan := do
  checkDim ra detailA
  checkDim ca detailB
  checkDim rb detailC
  checkDim cb detailD
  check (ca = rb) .shapeMismatch noDetail
  let mx ← readMatrix s x.toNat ra.toNat ca.toNat
  let my ← readMatrix s y.toNat rb.toNat cb.toNat
  matrixPlan s [reads x.toNat (ra.toNat * ca.toNat), reads y.toNat (rb.toNat * cb.toNat)] dst
    (ra.toNat * cb.toNat) (matProduct ra.toNat ca.toNat cb.toNat mx my)

def execMatMul (irq : Bool) (ra ca rb cb : Word) (x y dst : Addr) (s : State) :
    Host.Outcome State Fault Refusal :=
  .next (finish 0x21 irq (planMatMul ra ca rb cb x y dst s) s)

/-- MAT_INV (R165): in place when P0 = P3. -/
def planMatInv (rows cols : Word) (src dst : Addr) (s : State) : Except Err Plan := do
  checkDim rows detailA
  checkDim cols detailB
  check (rows = cols) .shapeMismatch noDetail
  let n := rows.toNat
  let mx ← readMatrix s src.toNat n n
  match invert n mx with
  | none => .error { code := .singular, idx := noDetail }
  | some my => matrixPlan s [readsInPlace src.toNat (n * n) dst.toNat (n * n)] dst (n * n) my

def execMatInv (irq : Bool) (rows cols : Word) (src dst : Addr) (s : State) :
    Host.Outcome State Fault Refusal :=
  .next (finish 0x22 irq (planMatInv rows cols src dst s) s)

/-- The row index list of MAT_SUB (R166): `n` entries from entry `i` on, each below `rows` and above the
one before it. -/
def readRowIndices (s : State) (a rows : Nat) (prev : Option Nat) (i : Nat) : Nat → Except Err (List Nat)
  | 0 => .ok []
  | n + 1 => do
    let r ← memRead s (a + 2 * i) 2
    check (r < rows) .badArgument (BitVec.ofNat 16 i)
    check (∀ p ∈ prev, p < r) .badArgument (BitVec.ofNat 16 i)
    let rs ← readRowIndices s a rows (some r) (i + 1) n
    return r :: rs

/-- The column index list of MAT_SUB (R166): each below `cols`, in any order. -/
def readColIndices (s : State) (a cols : Nat) (j : Nat) : Nat → Except Err (List Nat)
  | 0 => .ok []
  | n + 1 => do
    let c ← memRead s (a + 2 * j) 2
    check (c < cols) .badArgument (0x8000 ||| BitVec.ofNat 16 j)
    let cs ← readColIndices s a cols (j + 1) n
    return c :: cs

/-- MAT_SUB (R166). -/
def planMatSub (rows cols nr nc : Word) (src rl cl dst : Addr) (s : State) : Except Err Plan := do
  checkDim rows detailA
  checkDim cols detailB
  checkDim nr detailC
  checkDim nc detailD
  let ri ← readRowIndices s rl.toNat rows.toNat none 0 nr.toNat
  let ci ← readColIndices s cl.toNat cols.toNat 0 nc.toNat
  let mx ← readMatrix s src.toNat rows.toNat cols.toNat
  matrixPlan s
    [reads src.toNat (rows.toNat * cols.toNat), reads rl.toNat (2 * nr.toNat), reads cl.toNat (2 * nc.toNat)]
    dst (nr.toNat * nc.toNat) (subMatrix mx ri ci)

def execMatSub (irq : Bool) (rows cols nr nc : Word) (src rl cl dst : Addr) (s : State) :
    Host.Outcome State Fault Refusal :=
  .next (finish 0x23 irq (planMatSub rows cols nr nc src rl cl dst s) s)

/-- MAT_AUG (R167). -/
def planMatAug (ra ca rb cb : Word) (x y dst : Addr) (s : State) : Except Err Plan := do
  checkDim ra detailA
  checkDim ca detailB
  checkDim rb detailC
  checkDim cb detailD
  check (ra = rb) .shapeMismatch noDetail
  check (ca.toNat + cb.toNat ≤ 512) .badArgument detailD
  let mx ← readMatrix s x.toNat ra.toNat ca.toNat
  let my ← readMatrix s y.toNat rb.toNat cb.toNat
  matrixPlan s [reads x.toNat (ra.toNat * ca.toNat), reads y.toNat (rb.toNat * cb.toNat)] dst
    (ra.toNat * (ca.toNat + cb.toNat)) (augment mx my)

def execMatAug (irq : Bool) (ra ca rb cb : Word) (x y dst : Addr) (s : State) :
    Host.Outcome State Fault Refusal :=
  .next (finish 0x24 irq (planMatAug ra ca rb cb x y dst s) s)

end Sys2Proof.Machine
end

