-- ==== Sys2Proof/Machine/Generator.lean ====
section
/-! DEFINITION. The coding-matrix generator's commands (spec/43_generator.md R197, R198). -/

namespace Sys2Proof.Machine

/-- MAT_VAND (R197). -/
def planMatVand (rows cols : Word) (dst : Addr) (s : State) : Except Err Plan := do
  checkDim rows detailA
  checkDim cols detailB
  check (rows.toNat ≤ 256) .badArgument detailA
  matrixPlan s [] dst (rows.toNat * cols.toNat) (vandermondeRaw rows.toNat cols.toNat)

def execMatVand (irq : Bool) (rows cols : Word) (dst : Addr) (s : State) :
    Host.Outcome State Fault Refusal :=
  .next (finish 0x28 irq (planMatVand rows cols dst s) s)

/-- The matrix kind of a number (10_state.md R48). -/
def kindOf : Nat → Kind
  | 0 => .vandermonde
  | 1 => .cauchy
  | 2 => .par1
  | 3 => .jerasure
  | _ => .custom

/-- MAT_GEN (R198). -/
def planMatGen (fastone : Bool) (k m kind : Word) (dst : Addr) (s : State) : Except Err Plan := do
  check (1 ≤ k.toNat) .invShardNum noDetail
  check (k.toNat + m.toNat ≤ 256) .maxShardNum noDetail
  check (kind.toNat ≤ 3) .badArgument detailC
  match buildMatrix (kindOf kind.toNat) k.toNat m.toNat with
  | none => .error { code := .singular, idx := noDetail }
  | some mat =>
    matrixPlan s [] dst ((k.toNat + m.toNat) * k.toNat) (fastOne fastone k.toNat m.toNat mat)

def execMatGen (irq fastone : Bool) (k m kind : Word) (dst : Addr) (s : State) :
    Host.Outcome State Fault Refusal :=
  .next (finish 0x29 irq (planMatGen fastone k m kind dst s) s)

end Sys2Proof.Machine
end

