-- ==== Sys2Proof/Machine/Kernel.lean ====
section
/-! DEFINITION. The XOR-accumulate engine (spec/44_kernel.md): KAXPY, KMULC, KCODE. -/

namespace Sys2Proof.Machine

/-- axpy_FS (R220): dst ⊕ c ⊗ src. -/
def axpyBuf (fs : FS) (c : Nat) (dst src : List Byte) : List Byte := xorBuf dst (scaleBuf fs c src)

/-- XOR over j of coeffs[j] ⊗ bufs[j] over FS0 (R222), of buffers of n bytes. -/
def linearCombination (n : Nat) : List Nat → List (List Byte) → List Byte
  | c :: cs, b :: bs => xorBuf (scaleBuf .gf8 c b) (linearCombination n cs bs)
  | _, _ => List.replicate n 0

/-- KAXPY (R224): in place when P0 = P3. -/
def planKaxpy (fs : FS) (c len : Word) (src dst : Addr) (s : State) : Except Err Plan := do
  checkElement fs c detailA
  checkBlocks fs len
  let n := len.toNat
  Plan.guarded
    { reads := [descRange s, readsInPlace src.toNat n dst.toNat n]
      writes := [extent dst.toNat n]
      accesses := [readAccess src.toNat n, readAccess dst.toNat n, writeAccess dst.toNat n]
      stores := [shardStore dst.toNat
        (axpyBuf fs c.toNat (s.mem.readBytes dst.toNat n) (s.mem.readBytes src.toNat n))]
      span := some n
      scrNext := none
      ctx := none
      icache := none
      result := 0 }

def execKaxpy (irq : Bool) (fs : FS) (c len : Word) (src dst : Addr) (s : State) :
    Host.Outcome State Fault Refusal :=
  .next (finish 0x30 irq (planKaxpy fs c len src dst s) s)

/-- KMULC (R225): in place when P0 = P3. -/
def planKmulc (fs : FS) (c len : Word) (src dst : Addr) (s : State) : Except Err Plan := do
  checkElement fs c detailA
  checkBlocks fs len
  let n := len.toNat
  Plan.guarded
    { reads := [descRange s, readsInPlace src.toNat n dst.toNat n]
      writes := [extent dst.toNat n]
      accesses := [readAccess src.toNat n, writeAccess dst.toNat n]
      stores := [shardStore dst.toNat (scaleBuf fs c.toNat (s.mem.readBytes src.toNat n))]
      span := some n
      scrNext := none
      ctx := none
      icache := none
      result := 0 }

def execKmulc (irq : Bool) (fs : FS) (c len : Word) (src dst : Addr) (s : State) :
    Host.Outcome State Fault Refusal :=
  .next (finish 0x31 irq (planKmulc fs c len src dst s) s)

/-- One output of KCODE (R222). -/
def codeOutput (acc : Bool) (n : Nat) (coeffs : List Nat) (ins : List (List Byte)) (old : List Byte) :
    List Byte :=
  if acc then xorBuf old (linearCombination n coeffs ins) else linearCombination n coeffs ins

/-- KCODE (R226). -/
def planKcode (acc : Bool) (rows cols len : Word) (g inTab outTab : Addr) (s : State) :
    Except Err Plan := do
  check (1 ≤ rows.toNat ∧ rows.toNat ≤ 256) .badArgument detailA
  check (1 ≤ cols.toNat ∧ cols.toNat ≤ 256) .badArgument detailB
  let r := rows.toNat
  let c := cols.toNat
  let n := len.toNat
  let mat ← readMatrix s g.toNat r c
  let ins ← readPointers s inTab.toNat c
  let outs ← readPointers s outTab.toNat r
  let bufs := ins.map fun a => s.mem.readBytes a n
  Plan.guarded
    { reads := [descRange s, reads g.toNat (r * c), reads inTab.toNat (8 * c), reads outTab.toNat (8 * r)]
        ++ ins.map fun a => reads a n
      writes := outs.map fun a => extent a n
      accesses := (ins.map fun a => readAccess a n)
        ++ (if acc then outs.map fun a => readAccess a n else [])
        ++ outs.map fun a => writeAccess a n
      stores := List.zipWith
        (fun row a => shardStore a (codeOutput acc n row bufs (s.mem.readBytes a n))) mat outs
      span := some n
      scrNext := none
      ctx := none
      icache := none
      result := 0 }

def execKcode (irq acc : Bool) (rows cols len : Word) (g inTab outTab : Addr) (s : State) :
    Host.Outcome State Fault Refusal :=
  .next (finish 0x32 irq (planKcode acc rows cols len g inTab outTab s) s)

end Sys2Proof.Machine
end

