-- ==== Sys2Proof/Machine/Codec.lean ====
section
/-! DEFINITION. The codec sequencer (spec/45_codec.md): CONFIGURE, CTX_READM, and the codec operations
ENCODE, VERIFY, RECON, RECON_DATA, RECON_SOME, UPDATE and ENCODE_IDX. -/

namespace Sys2Proof.Machine

/-! ### Configuration -/

/-- fits(variant, k, m) (R242). -/
def fits (v : Variant) (k m : Nat) : Bool :=
  match v with
  | .classical => decide (k + m ≤ 256)
  | .fft8 => if m = 0 then decide (k ≤ 256) else decide (pow2 m + k ≤ 256)
  | .fft16 => if m = 0 then decide (k ≤ 65536) else decide (pow2 m + k ≤ 65536)

/-- The variant of FFTSEL, opts[5:4] (R242, R244). -/
def variantOf : Nat → Variant
  | 0 => .classical
  | 1 => .fft8
  | _ => .fft16

/-- select(k, m), and whether AUTO changed the variant (R242). -/
def selectVariant (want : Variant) (auto : Bool) (k m : Nat) : Except Err (Variant × Bool) :=
  if fits want k m then .ok (want, false)
  else if auto = true ∧ want ≠ .fft16 ∧ fits .fft16 k m = true then .ok (.fft16, true)
  else .error { code := .maxShardNum, idx := noDetail }

/-- The custom coding matrix [I_k ; C] (43_generator.md R199). -/
def customMatrix (k : Nat) (c : Matrix) : Matrix := identity k ++ c

/-- The coding matrix of a Classical context before fast-one-parity (R244, 43_generator.md R192 to R195).
The custom matrix is read byte by byte (43_generator.md R199). -/
def codingMatrix (kind : Kind) (k m : Nat) (mat : Addr) (s : State) : Except Err Matrix :=
  match kind with
  | .custom => do
    let bs ← readEach s mat.toNat (m * k)
    return customMatrix k (matrixOfBytes m k bs)
  | _ =>
    match buildMatrix kind k m with
    | none => .error { code := .singular, idx := noDetail }
    | some m => .ok m

/-- CTX.ssm (R243). -/
def shardSizeMultiple : Variant → Nat
  | .classical => 1
  | .fft8 => 64
  | .fft16 => 64

/-- The context of an FFT variant (R244). -/
def fftContext (v : Variant) (upgraded : Bool) (k m : Nat) : Ctx :=
  { valid := true, k := k, m := m, variant := v, kind := .vandermonde, fastone := false,
    icache := false, upgraded := upgraded, ssm := shardSizeMultiple v, matrix := [] }

/-- The context of the Classical variant (R244, 43_generator.md R196). -/
def classicalContext (kind : Kind) (fastone noicache : Bool) (k m : Nat) (mat : Matrix) : Ctx :=
  { valid := true, k := k, m := m, variant := .classical, kind := kind,
    fastone := fastone && decide (m = 1), icache := !noicache, upgraded := false,
    ssm := shardSizeMultiple .classical, matrix := fastOne fastone k m mat }

/-- The plan of a successful CONFIGURE (R244). -/
def configuredPlan (s : State) (extra : List ReadRange) (c : Ctx) : Plan :=
  { replyPlan s (BitVec.ofNat 32 c.ssm) with
    reads := descRange s :: extra, ctx := some c, icache := some [] }

/-- CONFIGURE (R241, R242, R244). -/
def planConfigure (fastone noicache auto : Bool) (k m opts shape : Word) (mat : Addr) (s : State) :
    Except Err Plan := do
  check (opts.toNat < 64 ∧ opts.toNat % 16 ≤ 4 ∧ opts.toNat / 16 ≤ 2) .badArgument detailC
  check (0 < k.toInt ∧ 0 ≤ m.toInt) .invShardNum noDetail
  check (k.toInt + m.toInt ≤ 2 ^ 31 - 1) .invalidRowSize noDetail
  let kn := k.toNat
  let mn := m.toNat
  let (v, up) ← selectVariant (variantOf (opts.toNat / 16)) auto kn mn
  match v with
  | .classical => do
    let kind := kindOf (opts.toNat % 16)
    check (kind = .custom → shape.toNat % 65536 = mn ∧ shape.toNat / 65536 = kn) .invalidRowSize noDetail
    let mx ← codingMatrix kind kn mn mat s
    let extra := if kind = .custom then [reads mat.toNat (mn * kn)] else []
    return configuredPlan s extra (classicalContext kind fastone noicache kn mn mx)
  | v => return configuredPlan s [] (fftContext v up kn mn)

def execConfigure (irq fastone noicache auto : Bool) (k m opts shape : Word) (mat : Addr) (s : State) :
    Host.Outcome State Fault Refusal :=
  .next (finish 0x08 irq (planConfigure fastone noicache auto k m opts shape mat s) s)

/-- NOT_CONFIGURED (R246, R247). -/
def checkConfigured (s : State) : Except Err Unit := check (s.ctx.valid = true) .notConfigured noDetail

/-- NOT_SUPPORTED for an FFT context (R246, R247). -/
def checkClassical (s : State) : Except Err Unit :=
  check (s.ctx.variant = .classical) .notSupported noDetail

/-- CTX_READM (R246). -/
def planCtxReadm (dst : Addr) (s : State) : Except Err Plan := do
  checkConfigured s
  checkClassical s
  let n := (s.ctx.k + s.ctx.m) * s.ctx.k
  let p ← matrixPlan s [] dst n s.ctx.matrix
  return { p with result := BitVec.ofNat 32 n }

def execCtxReadm (irq : Bool) (dst : Addr) (s : State) : Host.Outcome State Fault Refusal :=
  .next (finish 0x09 irq (planCtxReadm dst s) s)

/-! ### Common shard handling (R248 to R251) -/

/-- N, the number of shards. -/
def shardCount (s : State) : Nat := s.ctx.k + s.ctx.m

/-- S, the length of the lowest-indexed present shard, or 0 if there is none (R250). -/
def shardLength (xs : List Slot) : Nat := ((xs.find? Slot.present).map Slot.len).getD 0

/-- Shard `i` is present with a length other than S (R250). -/
def lengthAgrees (xs : List Slot) (i : Nat) : Bool :=
  !presentAt xs i || (slotAt xs i).len == shardLength xs

/-- The shard-table load with its checks (R248, R249, R250). -/
def loadShards (n : Word) (tab : Addr) (s : State) : Except Err (List Slot) := do
  check (n.toNat = shardCount s) .tooFewShards noDetail
  let xs ← readSlots s tab.toNat (shardCount s)
  check (xs.any Slot.present = true) .shardNoData noDetail
  checkEach (lengthAgrees xs) .shardSize (BitVec.ofNat 16) (List.range (shardCount s))
  check (shardLength xs % s.ctx.ssm = 0) .shardSize noDetail
  return xs

/-- The bytes of shard `i`. -/
def shardBytes (s : State) (xs : List Slot) (i : Nat) : List Byte :=
  s.mem.readBytes (slotAt xs i).addr (shardLength xs)

/-- The present shards that are no output, by index (R251). -/
def inputIndices (s : State) (xs : List Slot) (outs : List Nat) : List Nat :=
  (List.range (shardCount s)).filter fun i => presentAt xs i && !outs.contains i

/-- The field of an FFT variant (R240, 46_fft.md notation). -/
def variantField : Variant → FS
  | .classical => .gf8
  | .fft8 => .gf8c
  | .fft16 => .gf16c

/-- A codec operation that writes the output shards `outs` of the table (R251, R252). `bytes` are their
new contents in the same order; `extra` are further read ranges. -/
def outputPlan (s : State) (tab : Addr) (xs : List Slot) (outs : List Nat) (bytes : List (List Byte))
    (extra : List ReadRange) (cache : Option (List CacheEntry)) : Except Err Plan := do
  let size := shardLength xs
  let placed := placeOutputs xs size outs s.scrNext.toNat
  let ps := placed.1
  if ps.any Placed.fresh then checkArena s placed.2
  let ins := inputIndices s xs outs
  let entries := ps.flatMap (Placed.entryStores tab.toNat size)
  let shards := List.zipWith (fun p bs => shardStore (Placed.addr p) bs) ps bytes
  Plan.guarded
    { reads := descRange s :: extra ++ ins.map fun i => reads (slotAt xs i).addr size
      writes := extent tab.toNat (16 * shardCount s) :: ps.map (Placed.range size)
      accesses := (ins.map fun i => readAccess (slotAt xs i).addr size)
        ++ (entries ++ shards).map Store.access
      stores := entries ++ shards
      span := some size
      scrNext := if ps.any Placed.fresh then some (BitVec.ofNat 64 placed.2) else none
      ctx := none
      icache := cache
      result := 0 }

/-! ### Encode and verify -/

/-- Parity row p of CTX.M (R253). -/
def parityRow (s : State) (p : Nat) : List Nat := s.ctx.matrix.getD (s.ctx.k + p) []

/-- The parity of the data shards: R253 for Classical, 46_fft.md R310 for FFT. -/
def parityBytes (s : State) (size : Nat) (data : List (List Byte)) : List (List Byte) :=
  match s.ctx.variant with
  | .classical => (List.range s.ctx.m).map fun p => linearCombination size (parityRow s p) data
  | v =>
    let fs := variantField v
    if s.ctx.m = 0 then []
    else
      let vecs := data.map (toElems fs)
      (fftEncode fs s.ctx.m ((vecs.getD 0 []).length) vecs).map (ofElems fs)

/-- The data shards. -/
def dataBytes (s : State) (xs : List Slot) : List (List Byte) :=
  (List.range s.ctx.k).map (shardBytes s xs)

/-- The parity indices k … k+m-1. -/
def parityIndices (s : State) : List Nat := (List.range s.ctx.m).map (s.ctx.k + ·)

/-- ENCODE (R254, R255). -/
def planEncode (n : Word) (tab : Addr) (s : State) : Except Err Plan := do
  checkConfigured s
  let xs ← loadShards n tab s
  checkEach (presentAt xs) .tooFewShards (BitVec.ofNat 16) (List.range s.ctx.k)
  outputPlan s tab xs (parityIndices s) (parityBytes s (shardLength xs) (dataBytes s xs)) [] none

def execEncode (irq : Bool) (n : Word) (tab : Addr) (s : State) : Host.Outcome State Fault Refusal :=
  .next (finish 0x40 irq (planEncode n tab s) s)

/-- VERIFY (R261, R262). -/
def planVerify (n : Word) (tab : Addr) (s : State) : Except Err Plan := do
  checkConfigured s
  let xs ← loadShards n tab s
  checkEach (presentAt xs) .shardSize (BitVec.ofNat 16) (List.range (shardCount s))
  let size := shardLength xs
  let all := List.range (shardCount s)
  let same := parityBytes s size (dataBytes s xs) == (parityIndices s).map (shardBytes s xs)
  Plan.guarded
    { reads := descRange s :: reads tab.toNat (16 * shardCount s)
        :: all.map fun i => reads (slotAt xs i).addr size
      writes := []
      accesses := all.map fun i => readAccess (slotAt xs i).addr size
      stores := []
      span := some size
      scrNext := none
      ctx := none
      icache := none
      result := if same then 1 else 0 }

def execVerify (irq : Bool) (n : Word) (tab : Addr) (s : State) : Host.Outcome State Fault Refusal :=
  .next (finish 0x41 irq (planVerify n tab s) s)

/-! ### Reconstruction -/

/-- V, the k least present indices (R264). -/
def validSet (s : State) (xs : List Slot) : List Nat :=
  ((List.range (shardCount s)).filter (presentAt xs)).take s.ctx.k

/-- The inversion-cache key of a row set: its bitmap (10_state.md R53). -/
def rowSetKey (v : List Nat) : Nat := v.foldl (fun acc i => acc + 2 ^ i) 0

/-- The cache is in use (R245). -/
def cacheEnabled (s : State) : Bool := s.ctx.icache && decide (0 < s.params.cacheEntries)

/-- The cached inverse for a row set, if the cache is in use and holds one (R245, R264). -/
def cacheLookup (s : State) (v : List Nat) : Option Matrix :=
  if cacheEnabled s then (s.icache.find? fun e => e.key == rowSetKey v).map CacheEntry.inverse
  else none

/-- The cache after an inversion: the newest entry first, the oldest dropped when it is full. DESIGN
CHOICE (log 12): R53 allows any policy, and no output depends on it (48_control.md R345). -/
def cacheInsert (s : State) (v : List Nat) (d : Matrix) : Option (List CacheEntry) :=
  if cacheEnabled s then
    some (({ key := rowSetKey v, inverse := d } :: s.icache).take s.params.cacheEntries)
  else none

/-- Dm for the row set V, from the cache or by inversion, and the cache afterwards (R264). -/
def decodingMatrix (s : State) (v : List Nat) : Except Err (Matrix × Option (List CacheEntry)) :=
  match cacheLookup s v with
  | some d => .ok (d, none)
  | none =>
    match invert s.ctx.k (selectRows s.ctx.matrix v) with
    | none => .error { code := .singular, idx := noDetail }
    | some d => .ok (d, cacheInsert s v d)

/-- Every data shard: read if it is present, else recovered with Dm (R268). -/
def recoveredData (s : State) (xs : List Slot) (v : List Nat) (d : Matrix) : List (List Byte) :=
  let ins := v.map (shardBytes s xs)
  (List.range s.ctx.k).map fun j =>
    if presentAt xs j then shardBytes s xs j
    else linearCombination (shardLength xs) (d.getD j []) ins

/-- The bytes of the needed shards, Classical (R268). -/
def recoveredShards (s : State) (xs : List Slot) (v : List Nat) (d : Matrix) (needed : List Nat) :
    List (List Byte) :=
  let data := recoveredData s xs v d
  needed.map fun i =>
    if i < s.ctx.k then data.getD i []
    else linearCombination (shardLength xs) (s.ctx.matrix.getD i []) data

/-- The bytes of the needed shards, FFT (R269, 46_fft.md R311 to R313). -/
def fftRecovered (s : State) (xs : List Slot) (needed : List Nat) : List (List Byte) :=
  let fs := variantField s.ctx.variant
  let shard := fun i => toElems fs (shardBytes s xs i)
  let e := ((toElems fs (List.replicate (shardLength xs) 0))).length
  (fftDecode fs s.ctx.k s.ctx.m e (presentAt xs) shard needed).map (ofElems fs)

/-- A reconstruction or an UPDATE that finds nothing to do: success, and nothing is written (R263, R272). DESIGN
CHOICE (log 25): its footprint holds the tables it read and no shard, since its rule ends before the footprint
is checked. -/
def idlePlan (s : State) (rs : List ReadRange) : Plan := { replyPlan s 0 with reads := descRange s :: rs }

/-- The needed shards, once the checks are done (R263, R264, R268, R269). -/
def planRecovery (s : State) (tab : Addr) (xs : List Slot) (needed : List Nat) (extra : List ReadRange) :
    Except Err Plan :=
  if needed = [] then .ok (idlePlan s (reads tab.toNat (16 * shardCount s) :: extra))
  else
    match s.ctx.variant with
    | .classical =>
      if (List.range s.ctx.k).all (presentAt xs) then
        outputPlan s tab xs needed (recoveredShards s xs [] [] needed) extra none
      else do
        let v := validSet s xs
        let dm ← decodingMatrix s v
        outputPlan s tab xs needed (recoveredShards s xs v dm.1 needed) extra dm.2
    | _ => outputPlan s tab xs needed (fftRecovered s xs needed) extra none

/-- np, the number of present shards (R263). -/
def presentCount (s : State) (xs : List Slot) : Nat :=
  ((List.range (shardCount s)).filter (presentAt xs)).length

/-- RECON and RECON_DATA: `among` is the index range that is reconstructed (R263, R265, R266). -/
def planReconOf (among : Nat) (n : Word) (tab : Addr) (s : State) : Except Err Plan := do
  checkConfigured s
  let xs ← loadShards n tab s
  check (s.ctx.k ≤ presentCount s xs) .tooFewShards noDetail
  planRecovery s tab xs ((List.range among).filter fun i => !presentAt xs i) []

/-- RECON (R265). -/
def planRecon (n : Word) (tab : Addr) (s : State) : Except Err Plan :=
  planReconOf (shardCount s) n tab s

def execRecon (irq : Bool) (n : Word) (tab : Addr) (s : State) : Host.Outcome State Fault Refusal :=
  .next (finish 0x42 irq (planRecon n tab s) s)

/-- RECON_DATA (R266). -/
def planReconData (n : Word) (tab : Addr) (s : State) : Except Err Plan :=
  planReconOf s.ctx.k n tab s

def execReconData (irq : Bool) (n : Word) (tab : Addr) (s : State) : Host.Outcome State Fault Refusal :=
  .next (finish 0x43 irq (planReconData n tab s) s)

/-- RECON_SOME (R263, R267). -/
def planReconSome (n : Word) (tab req : Addr) (s : State) : Except Err Plan := do
  checkConfigured s
  checkClassical s
  let xs ← loadShards n tab s
  check (s.ctx.k ≤ presentCount s xs) .tooFewShards noDetail
  let size := (shardCount s + 7) / 8
  let bits ← memReadBytes s req.toNat size
  planRecovery s tab xs
    ((List.range (shardCount s)).filter fun i => !presentAt xs i && bitmapBit bits i)
    [reads req.toNat size]

def execReconSome (irq : Bool) (n : Word) (tab req : Addr) (s : State) :
    Host.Outcome State Fault Refusal :=
  .next (finish 0x44 irq (planReconSome n tab req s) s)

/-! ### Update and incremental encode -/

/-- U, the data indices with a new shard (R271). -/
def updateSet (s : State) (news : List Slot) : List Nat :=
  (List.range s.ctx.k).filter (presentAt news)

/-- Δ_i, the old shard XOR the new one (R272). -/
def updateDelta (s : State) (xs news : List Slot) (i : Nat) : List Byte :=
  xorBuf (shardBytes s xs i) (s.mem.readBytes (slotAt news i).addr (shardLength xs))

/-- Parity shard p after UPDATE (R272). -/
def updatedParity (s : State) (xs news : List Slot) (us : List Nat) (p : Nat) : List Byte :=
  xorBuf (shardBytes s xs (s.ctx.k + p))
    (linearCombination (shardLength xs) (us.map fun i => entry s.ctx.matrix (s.ctx.k + p) i)
      (us.map (updateDelta s xs news)))

/-- UPDATE (R271, R272). -/
def planUpdate (cnt n : Word) (tab newTab : Addr) (s : State) : Except Err Plan := do
  checkConfigured s
  checkClassical s
  let xs ← loadShards n tab s
  check (cnt.toNat = s.ctx.k) .tooFewShards noDetail
  let news ← readSlots s newTab.toNat s.ctx.k
  let us := updateSet s news
  let size := shardLength xs
  checkEach (fun i => (slotAt news i).len == size) .shardSize (BitVec.ofNat 16) us
  checkEach (presentAt xs) .reconstructRequired (BitVec.ofNat 16) (parityIndices s)
  checkEach (presentAt xs) .reconstructRequired (BitVec.ofNat 16) us
  let tables := [reads tab.toNat (16 * shardCount s), reads newTab.toNat (16 * s.ctx.k)]
  if us = [] then return idlePlan s tables
  let outs := us ++ parityIndices s
  Plan.guarded
    { reads := descRange s :: tables
        ++ us.map fun i => readsInPlace (slotAt news i).addr size (slotAt xs i).addr size
      writes := outs.map fun i => extent (slotAt xs i).addr size
      accesses := (us.map fun i => readAccess (slotAt news i).addr size)
        ++ (outs.map fun i => readAccess (slotAt xs i).addr size)
        ++ outs.map fun i => writeAccess (slotAt xs i).addr size
      stores := ((List.range s.ctx.m).map fun p =>
          shardStore (slotAt xs (s.ctx.k + p)).addr (updatedParity s xs news us p))
        ++ us.map fun i => shardStore (slotAt xs i).addr (s.mem.readBytes (slotAt news i).addr size)
      span := some size
      scrNext := none
      ctx := none
      icache := none
      result := 0 }

def execUpdate (irq : Bool) (cnt n : Word) (tab newTab : Addr) (s : State) :
    Host.Outcome State Fault Refusal :=
  .next (finish 0x45 irq (planUpdate cnt n tab newTab s) s)

/-- The parity table of ENCODE_IDX: `n` entries from entry `p` on, each of length `size` (R276). -/
def readParityTable (s : State) (t size p : Nat) : Nat → Except Err (List Slot)
  | 0 => .ok []
  | n + 1 => do
    let x ← readSlot s (t + 16 * p)
    check (x.len = size) .shardSize (BitVec.ofNat 16 p)
    let xs ← readParityTable s t size (p + 1) n
    return x :: xs

/-- Parity p after ENCODE_IDX (R277). -/
def foldedParity (s : State) (idx size : Nat) (src : Addr) (x : Slot) (p : Nat) : List Byte :=
  axpyBuf .gf8 (entry s.ctx.matrix (s.ctx.k + p) idx) (s.mem.readBytes x.addr size)
    (s.mem.readBytes src.toNat size)

/-- ENCODE_IDX (R276, R277). -/
def planEncodeIdx (idx cnt len : Word) (src par : Addr) (s : State) : Except Err Plan := do
  checkConfigured s
  checkClassical s
  check (idx.toNat < s.ctx.k) .invShardNum noDetail
  check (cnt.toNat = s.ctx.m) .tooFewShards noDetail
  check (0 < len.toNat) .shardNoData noDetail
  let size := len.toNat
  let ps ← readParityTable s par.toNat size 0 s.ctx.m
  Plan.guarded
    { reads := [descRange s, reads src.toNat size, reads par.toNat (16 * s.ctx.m)]
      writes := ps.map fun x => extent x.addr size
      accesses := readAccess src.toNat size
        :: (ps.map fun x => readAccess x.addr size) ++ ps.map fun x => writeAccess x.addr size
      stores := List.zipWith (fun x p => shardStore (Slot.addr x) (foldedParity s idx.toNat size src x p))
        ps (List.range s.ctx.m)
      span := some size
      scrNext := none
      ctx := none
      icache := none
      result := 0 }

def execEncodeIdx (irq : Bool) (idx cnt len : Word) (src par : Addr) (s : State) :
    Host.Outcome State Fault Refusal :=
  .next (finish 0x46 irq (planEncodeIdx idx cnt len src par s) s)

end Sys2Proof.Machine
end

