-- ==== Sys2Proof/Machine/Control.lean ====
section
/-! DEFINITION. The control commands (spec/48_control.md): NOP, ICFLUSH, ALLOC, ARESET. Each command has
a plan (what validation finds) and a meaning, which carries the plan out. -/

namespace Sys2Proof.Machine

/-- NOP (R346). -/
def planNop (s : State) : Except Err Plan := .ok (replyPlan s 0)

def execNop (irq : Bool) (s : State) : Host.Outcome State Fault Refusal :=
  .next (finish 0x00 irq (planNop s) s)

/-- ICFLUSH (R347). -/
def planIcflush (s : State) : Except Err Plan := .ok { replyPlan s 0 with icache := some [] }

def execIcflush (irq : Bool) (s : State) : Host.Outcome State Fault Refusal :=
  .next (finish 0x01 irq (planIcflush s) s)

/-- The address of ALLOC's buffer `i` (R348): buffers follow one another in steps of roundup64(size),
and every entry of an empty size has the current SCR_NEXT. -/
def allocAddr (s : State) (size i : Nat) : Nat := s.scrNext.toNat + i * roundup64 size

/-- The stores of ALLOC's buffer `i`: zeros, and its table entry (R348). -/
def allocStores (s : State) (t size i : Nat) : List Store :=
  [{ addr := allocAddr s size i, bytes := List.replicate size 0, striped := false },
   fieldStore (t + 16 * i) 8 (allocAddr s size i),
   fieldStore (t + 16 * i + 8) 4 size,
   fieldStore (t + 16 * i + 12) 4 size]

/-- ALLOC (R348). Its result is n (R348), not the 0 of the summary table R115 (DEDUCED, log 23). -/
def planAlloc (n len : Word) (tab : Addr) (s : State) : Except Err Plan := do
  check (n.toNat ≤ 65536) .badArgument detailA
  let size := len.toNat
  let next := allocAddr s size n.toNat
  if 0 < n.toNat ∧ 0 < size then checkArena s next
  let stores := (List.range n.toNat).flatMap (allocStores s tab.toNat size)
  Plan.guarded
    { reads := [descRange s]
      writes := extent tab.toNat (16 * n.toNat)
        :: (List.range n.toNat).map fun i => extent (allocAddr s size i) (roundup64 size)
      accesses := stores.map Store.access
      stores := stores
      span := none
      scrNext := some (BitVec.ofNat 64 next)
      ctx := none
      icache := none
      result := n }

def execAlloc (irq : Bool) (n len : Word) (tab : Addr) (s : State) : Host.Outcome State Fault Refusal :=
  .next (finish 0x02 irq (planAlloc n len tab s) s)

/-- ARESET (R349). -/
def planAreset (s : State) : Except Err Plan :=
  .ok { replyPlan s 0 with scrNext := some s.scrBase }

def execAreset (irq : Bool) (s : State) : Host.Outcome State Fault Refusal :=
  .next (finish 0x03 irq (planAreset s) s)

end Sys2Proof.Machine
end

