-- ==== Sys2Proof/Machine/FieldUnit.lean ====
section
/-! DEFINITION. The scalar field commands (spec/41_field.md R141 to R147). -/

namespace Sys2Proof.Machine

/-- A field element or a logarithm as a 32-bit result. -/
def resultWord (v : Nat) : Word := BitVec.ofNat 32 v

/-- GF_ADD (R142). -/
def planGfAdd (fs : FS) (a b : Word) (s : State) : Except Err Plan := do
  checkElement fs a detailA
  checkElement fs b detailB
  return replyPlan s (a ^^^ b)

def execGfAdd (irq : Bool) (fs : FS) (a b : Word) (s : State) : Host.Outcome State Fault Refusal :=
  .next (finish 0x10 irq (planGfAdd fs a b s) s)

/-- GF_MUL (R143). -/
def planGfMul (fs : FS) (a b : Word) (s : State) : Except Err Plan := do
  checkElement fs a detailA
  checkElement fs b detailB
  return replyPlan s (resultWord (mul fs a.toNat b.toNat))

def execGfMul (irq : Bool) (fs : FS) (a b : Word) (s : State) : Host.Outcome State Fault Refusal :=
  .next (finish 0x11 irq (planGfMul fs a b s) s)

/-- GF_INV (R144). -/
def planGfInv (fs : FS) (a : Word) (s : State) : Except Err Plan := do
  checkElement fs a detailA
  check (a ≠ 0) .domain detailA
  return replyPlan s (resultWord (inv fs a.toNat))

def execGfInv (irq : Bool) (fs : FS) (a : Word) (s : State) : Host.Outcome State Fault Refusal :=
  .next (finish 0x12 irq (planGfInv fs a s) s)

/-- GF_POW (R145): B is a 32-bit exponent. -/
def planGfPow (fs : FS) (a n : Word) (s : State) : Except Err Plan := do
  checkElement fs a detailA
  return replyPlan s (resultWord (pow fs a.toNat n.toNat))

def execGfPow (irq : Bool) (fs : FS) (a n : Word) (s : State) : Host.Outcome State Fault Refusal :=
  .next (finish 0x13 irq (planGfPow fs a n s) s)

/-- GF_LOG (R146). -/
def planGfLog (fs : FS) (a : Word) (s : State) : Except Err Plan := do
  checkElement fs a detailA
  check (a ≠ 0) .domain detailA
  return replyPlan s (resultWord (logTable fs a.toNat))

def execGfLog (irq : Bool) (fs : FS) (a : Word) (s : State) : Host.Outcome State Fault Refusal :=
  .next (finish 0x14 irq (planGfLog fs a s) s)

/-- GF_ALOG (R147): A is any 32-bit number. -/
def planGfAlog (fs : FS) (i : Word) (s : State) : Except Err Plan :=
  .ok (replyPlan s (resultWord (expTable fs i.toNat)))

def execGfAlog (irq : Bool) (fs : FS) (i : Word) (s : State) : Host.Outcome State Fault Refusal :=
  .next (finish 0x15 irq (planGfAlog fs i s) s)

end Sys2Proof.Machine
end

