-- ==== Sys2Proof/Machine/Command.lean ====
section
/-! DEFINITION. What the command processor needs to know of any command: its opcode and IRQ flag, its
plan, the ranges it names, and the errors its rule lets it raise. -/

namespace Sys2Proof.Machine

/-- The opcode (spec/30_encoding.md R109). -/
def opcodeOf : Instr → BitVec 8
  | .nop .. => 0x00
  | .icflush .. => 0x01
  | .alloc .. => 0x02
  | .areset .. => 0x03
  | .configure .. => 0x08
  | .ctxReadm .. => 0x09
  | .gfAdd .. => 0x10
  | .gfMul .. => 0x11
  | .gfInv .. => 0x12
  | .gfPow .. => 0x13
  | .gfLog .. => 0x14
  | .gfAlog .. => 0x15
  | .matIdent .. => 0x20
  | .matMul .. => 0x21
  | .matInv .. => 0x22
  | .matSub .. => 0x23
  | .matAug .. => 0x24
  | .matVand .. => 0x28
  | .matGen .. => 0x29
  | .kaxpy .. => 0x30
  | .kmulc .. => 0x31
  | .kcode .. => 0x32
  | .bflyFft .. => 0x38
  | .bflyIfft .. => 0x39
  | .xformFft .. => 0x3A
  | .xformIfft .. => 0x3B
  | .fderiv .. => 0x3C
  | .encode .. => 0x40
  | .verify .. => 0x41
  | .recon .. => 0x42
  | .reconData .. => 0x43
  | .reconSome .. => 0x44
  | .update .. => 0x45
  | .encodeIdx .. => 0x46

/-- The IRQ flag (30_encoding.md R106). -/
def irqFlagOf : Instr → Bool
  | .nop q => q
  | .icflush q => q
  | .alloc q .. => q
  | .areset q => q
  | .configure q .. => q
  | .ctxReadm q .. => q
  | .gfAdd q .. => q
  | .gfMul q .. => q
  | .gfInv q .. => q
  | .gfPow q .. => q
  | .gfLog q .. => q
  | .gfAlog q .. => q
  | .matIdent q .. => q
  | .matMul q .. => q
  | .matInv q .. => q
  | .matSub q .. => q
  | .matAug q .. => q
  | .matVand q .. => q
  | .matGen q .. => q
  | .kaxpy q .. => q
  | .kmulc q .. => q
  | .kcode q .. => q
  | .bflyFft q .. => q
  | .bflyIfft q .. => q
  | .xformFft q .. => q
  | .xformIfft q .. => q
  | .fderiv q .. => q
  | .encode q .. => q
  | .verify q .. => q
  | .recon q .. => q
  | .reconData q .. => q
  | .reconSome q .. => q
  | .update q .. => q
  | .encodeIdx q .. => q

/-- What validation finds (60_exceptions.md R363 steps 3 to 7): the error, or the plan to carry out. -/
def planOf (i : Instr) (s : State) : Except Err Plan :=
  match i with
  | .nop _ => planNop s
  | .icflush _ => planIcflush s
  | .alloc _ n len tab => planAlloc n len tab s
  | .areset _ => planAreset s
  | .configure _ fastone noicache auto k m opts shape mat =>
    planConfigure fastone noicache auto k m opts shape mat s
  | .ctxReadm _ dst => planCtxReadm dst s
  | .gfAdd _ fs a b => planGfAdd fs a b s
  | .gfMul _ fs a b => planGfMul fs a b s
  | .gfInv _ fs a => planGfInv fs a s
  | .gfPow _ fs a n => planGfPow fs a n s
  | .gfLog _ fs a => planGfLog fs a s
  | .gfAlog _ fs i => planGfAlog fs i s
  | .matIdent _ n dst => planMatIdent n dst s
  | .matMul _ ra ca rb cb x y dst => planMatMul ra ca rb cb x y dst s
  | .matInv _ rows cols src dst => planMatInv rows cols src dst s
  | .matSub _ rows cols nr nc src rl cl dst => planMatSub rows cols nr nc src rl cl dst s
  | .matAug _ ra ca rb cb x y dst => planMatAug ra ca rb cb x y dst s
  | .matVand _ rows cols dst => planMatVand rows cols dst s
  | .matGen _ fastone k m kind dst => planMatGen fastone k m kind dst s
  | .kaxpy _ fs c len src dst => planKaxpy fs c len src dst s
  | .kmulc _ fs c len src dst => planKmulc fs c len src dst s
  | .kcode _ acc rows cols len g inTab outTab => planKcode acc rows cols len g inTab outTab s
  | .bflyFft _ fs sk len x y => planBflyFft fs sk len x y s
  | .bflyIfft _ fs sk len x y => planBflyIfft fs sk len x y s
  | .xformFft _ fs n base len tab => planXformFft fs n base len tab s
  | .xformIfft _ fs n base len tab => planXformIfft fs n base len tab s
  | .fderiv _ fs n len tab => planFderiv fs n len tab s
  | .encode _ n tab => planEncode n tab s
  | .verify _ n tab => planVerify n tab s
  | .recon _ n tab => planRecon n tab s
  | .reconData _ n tab => planReconData n tab s
  | .reconSome _ n tab req => planReconSome n tab req s
  | .update _ cnt n tab newTab => planUpdate cnt n tab newTab s
  | .encodeIdx _ idx cnt len src par => planEncodeIdx idx cnt len src par s

/-! ### The ranges a command names (20_memory.md R78)

A validated command has its footprint in its plan. A command that fails validation has one as well, which a
host write can race with (R91) and whose write ranges are any value until it completes (R88): the ranges that
its operands, the context and the tables in memory name (log 11). -/

/-- The entries of a table whose count is `n` by an operand and `c` by the context. A command in which they
disagree fails, and names the larger table (log 11). No field of CTX is used while CTX.valid = 0 (log 6). -/
def entryCount (s : State) (n : Word) (c : Nat) : Nat := if s.ctx.valid then max n.toNat c else n.toNat

/-- The context is valid and gives the count `c` that the operand `n` states: without that a command does not
read the table (45_codec.md R248, R271, R276). -/
def countAgrees (s : State) (n : Word) (c : Nat) : Bool := s.ctx.valid && n.toNat == c

/-- The context is Classical, which RECON_SOME, UPDATE and ENCODE_IDX need before they read a table
(45_codec.md R247). -/
def isClassical (s : State) : Bool := decide (s.ctx.variant = .classical)

/-- The shard table of a codec command (45_codec.md R251). -/
def shardTable (s : State) (n : Word) (tab : Addr) : Extent :=
  extent tab.toNat (16 * entryCount s n (shardCount s))

/-- The shards `js` of a table, each of length S (45_codec.md R250). -/
def shardRanges (s : State) (tab : Addr) (js : List Nat) : List Extent :=
  let xs := tableAt s tab.toNat (shardCount s)
  js.map fun j => extent (slotAt xs j).addr (shardLength xs)

/-- The present shards of a table (45_codec.md R251). -/
def presentRanges (s : State) (tab : Addr) : List Extent :=
  shardRanges s tab ((List.range (shardCount s)).filter (presentAt (tableAt s tab.toNat (shardCount s))))

/-- The bounds above which KCODE does not read its pointer tables (44_kernel.md R226). DESIGN CHOICE (log 11): a
KCODE with r = 0 or c = 0 fails as well before it reads them, and still names the buffers of the other table. -/
def kcodeBounds (rows cols : Word) : Bool := decide (rows.toNat ≤ 256 ∧ cols.toNat ≤ 256)

/-- The bound above which a transform does not read its pointer table (46_fft.md R322 to R324). DESIGN CHOICE
(log 11): one whose n is no power of two, or whose base or length is wrong, still names its buffers. -/
def transformBounds (fs : FS) (n : Word) : Bool := decide (n.toNat ≤ 2 ^ width fs)

/-- The read ranges a command names besides its descriptor: tables, matrices, lists and bitmaps by the counts
and dimensions in its operands and the context, the input buffers in its operands, and those that a table in
memory names, unless the table's count is above its bound or not the context's. In-out buffers stand in
`namedWrites`. DESIGN CHOICE (log 11): the source of a MAT_INV that fails SHAPE_MISMATCH, whose rule has no n then
(42_matrix.md R165), is rows·cols. -/
def namedReads (i : Instr) (s : State) : List Extent :=
  match i with
  | .nop _ => []
  | .icflush _ => []
  | .alloc _ _ _ _ => []
  | .areset _ => []
  | .configure _ _ _ _ k m opts _ mat =>
    if opts.toNat % 16 = 4 ∧ opts.toNat / 16 % 4 = 0 then [extent mat.toNat (m.toInt.toNat * k.toInt.toNat)]
    else []
  | .ctxReadm _ _ => []
  | .gfAdd _ _ _ _ => []
  | .gfMul _ _ _ _ => []
  | .gfInv _ _ _ => []
  | .gfPow _ _ _ _ => []
  | .gfLog _ _ _ => []
  | .gfAlog _ _ _ => []
  | .matIdent _ _ _ => []
  | .matMul _ ra ca rb cb x y _ =>
    [extent x.toNat (ra.toNat * ca.toNat), extent y.toNat (rb.toNat * cb.toNat)]
  | .matInv _ rows cols src _ => [extent src.toNat (rows.toNat * cols.toNat)]
  | .matSub _ rows cols nr nc src rl cl _ =>
    [extent src.toNat (rows.toNat * cols.toNat), extent rl.toNat (2 * nr.toNat),
     extent cl.toNat (2 * nc.toNat)]
  | .matAug _ ra ca rb cb x y _ =>
    [extent x.toNat (ra.toNat * ca.toNat), extent y.toNat (rb.toNat * cb.toNat)]
  | .matVand _ _ _ _ => []
  | .matGen _ _ _ _ _ _ => []
  | .kaxpy _ _ _ len src _ => [extent src.toNat len.toNat]
  | .kmulc _ _ _ len src _ => [extent src.toNat len.toNat]
  | .kcode _ _ rows cols len g inTab outTab =>
    [extent g.toNat (rows.toNat * cols.toNat), extent inTab.toNat (8 * cols.toNat),
     extent outTab.toNat (8 * rows.toNat)]
      ++ if kcodeBounds rows cols then
          (pointersAt s inTab.toNat cols.toNat).map fun a => extent a len.toNat
        else []
  | .bflyFft _ _ _ _ _ _ => []
  | .bflyIfft _ _ _ _ _ _ => []
  | .xformFft _ _ n _ _ tab => [extent tab.toNat (8 * n.toNat)]
  | .xformIfft _ _ n _ _ tab => [extent tab.toNat (8 * n.toNat)]
  | .fderiv _ _ n _ tab => [extent tab.toNat (8 * n.toNat)]
  | .encode _ n tab => shardTable s n tab :: if countAgrees s n (shardCount s) then presentRanges s tab else []
  | .verify _ n tab => shardTable s n tab :: if countAgrees s n (shardCount s) then presentRanges s tab else []
  | .recon _ n tab => shardTable s n tab :: if countAgrees s n (shardCount s) then presentRanges s tab else []
  | .reconData _ n tab =>
    shardTable s n tab :: if countAgrees s n (shardCount s) then presentRanges s tab else []
  | .reconSome _ n tab req =>
    [shardTable s n tab, extent req.toNat ((entryCount s n (shardCount s) + 7) / 8)]
      ++ if isClassical s && countAgrees s n (shardCount s) then presentRanges s tab else []
  | .update _ cnt n tab newTab =>
    [shardTable s n tab, extent newTab.toNat (16 * entryCount s cnt s.ctx.k)]
      ++ if isClassical s && countAgrees s n (shardCount s) && countAgrees s cnt s.ctx.k then
          let news := tableAt s newTab.toNat s.ctx.k
          let size := shardLength (tableAt s tab.toNat (shardCount s))
          (updateSet s news).map fun j => extent (slotAt news j).addr size
        else []
  | .encodeIdx _ _ cnt len src par =>
    [extent src.toNat len.toNat, extent par.toNat (16 * entryCount s cnt s.ctx.m)]

/-- The output ranges of a codec command that writes the shards `outs` (45_codec.md R251): the shard table,
and each output, of which a new arena buffer counts with its padding (20_memory.md R78). -/
def outputRanges (s : State) (tab : Addr) (outs : List Nat) : List Extent :=
  let xs := tableAt s tab.toNat (shardCount s)
  extent tab.toNat (16 * shardCount s)
    :: (placeOutputs xs (shardLength xs) outs s.scrNext.toNat).1.map (Placed.range (shardLength xs))

/-- The shards of the table that are not present, among the first `n` (45_codec.md R263). -/
def missingAt (s : State) (tab : Addr) (n : Nat) : List Nat :=
  (List.range n).filter fun i => !presentAt (tableAt s tab.toNat (shardCount s)) i

/-- The required bitmap of RECON_SOME (45_codec.md R263). -/
def requiredAt (s : State) (req : Addr) : List Byte := s.mem.readBytes req.toNat ((shardCount s + 7) / 8)

/-- Where each command may write host memory, apart from W14 and W15: the write ranges its rule lists under
"Footprint", with the addresses computed from the operands and the tables in memory. DESIGN CHOICE (log 11): the
destination of a MAT_INV that fails SHAPE_MISMATCH, whose rule has no n then (42_matrix.md R165), is rows². -/
def storeRanges (i : Instr) (s : State) : List Extent :=
  match i with
  | .alloc _ n len tab =>
    extent tab.toNat (16 * n.toNat) :: (List.range n.toNat).map fun j =>
      extent (s.scrNext.toNat + j * roundup64 len.toNat) (roundup64 len.toNat)
  | .ctxReadm _ dst => [extent dst.toNat ((s.ctx.k + s.ctx.m) * s.ctx.k)]
  | .matIdent _ n dst => [extent dst.toNat (n.toNat * n.toNat)]
  | .matMul _ ra _ _ cb _ _ dst => [extent dst.toNat (ra.toNat * cb.toNat)]
  | .matInv _ rows _ _ dst => [extent dst.toNat (rows.toNat * rows.toNat)]
  | .matSub _ _ _ nr nc _ _ _ dst => [extent dst.toNat (nr.toNat * nc.toNat)]
  | .matAug _ ra ca _ cb _ _ dst => [extent dst.toNat (ra.toNat * (ca.toNat + cb.toNat))]
  | .matVand _ rows cols dst => [extent dst.toNat (rows.toNat * cols.toNat)]
  | .matGen _ _ k m _ dst => [extent dst.toNat ((k.toNat + m.toNat) * k.toNat)]
  | .kaxpy _ _ _ len _ dst => [extent dst.toNat len.toNat]
  | .kmulc _ _ _ len _ dst => [extent dst.toNat len.toNat]
  | .kcode _ _ rows _ len _ _ outTab =>
    (pointersAt s outTab.toNat rows.toNat).map fun a => extent a len.toNat
  | .bflyFft _ _ _ len x y => [extent x.toNat len.toNat, extent y.toNat len.toNat]
  | .bflyIfft _ _ _ len x y => [extent x.toNat len.toNat, extent y.toNat len.toNat]
  | .xformFft _ _ n _ len tab => (pointersAt s tab.toNat n.toNat).map fun a => extent a len.toNat
  | .xformIfft _ _ n _ len tab => (pointersAt s tab.toNat n.toNat).map fun a => extent a len.toNat
  | .fderiv _ _ n len tab => (pointersAt s tab.toNat n.toNat).map fun a => extent a len.toNat
  | .encode _ _ tab => outputRanges s tab (parityIndices s)
  | .recon _ _ tab => outputRanges s tab (missingAt s tab (shardCount s))
  | .reconData _ _ tab => outputRanges s tab (missingAt s tab s.ctx.k)
  | .reconSome _ _ tab req =>
    outputRanges s tab ((missingAt s tab (shardCount s)).filter (bitmapBit (requiredAt s req)))
  | .update _ _ _ tab newTab =>
    shardRanges s tab (updateSet s (tableAt s newTab.toNat s.ctx.k) ++ parityIndices s)
  | .encodeIdx _ _ _ len _ par =>
    (tableAt s par.toNat s.ctx.m).map fun x => extent x.addr len.toNat
  | _ => []

/-- The write ranges a command names, under the conditions of `namedReads`. A command that fails OVERLAP (R79)
names what it would have written. -/
def namedWrites (i : Instr) (s : State) : List Extent :=
  match i with
  | .nop _ => []
  | .icflush _ => []
  | .alloc _ n len tab =>
    [extent tab.toNat (16 * n.toNat), extent s.scrNext.toNat (n.toNat * roundup64 len.toNat)]
  | .areset _ => []
  | .configure _ _ _ _ _ _ _ _ _ => []
  | .ctxReadm _ _ => if s.ctx.valid then storeRanges i s else []
  | .gfAdd _ _ _ _ => []
  | .gfMul _ _ _ _ => []
  | .gfInv _ _ _ => []
  | .gfPow _ _ _ _ => []
  | .gfLog _ _ _ => []
  | .gfAlog _ _ _ => []
  | .matIdent _ _ _ => storeRanges i s
  | .matMul _ _ _ _ _ _ _ _ => storeRanges i s
  | .matInv _ _ _ _ _ => storeRanges i s
  | .matSub _ _ _ _ _ _ _ _ _ => storeRanges i s
  | .matAug _ _ _ _ _ _ _ _ => storeRanges i s
  | .matVand _ _ _ _ => storeRanges i s
  | .matGen _ _ _ _ _ _ => storeRanges i s
  | .kaxpy _ _ _ _ _ _ => storeRanges i s
  | .kmulc _ _ _ _ _ _ => storeRanges i s
  | .kcode _ _ rows cols _ _ _ _ => if kcodeBounds rows cols then storeRanges i s else []
  | .bflyFft _ _ _ _ _ _ => storeRanges i s
  | .bflyIfft _ _ _ _ _ _ => storeRanges i s
  | .xformFft _ fs n _ _ _ => if transformBounds fs n then storeRanges i s else []
  | .xformIfft _ fs n _ _ _ => if transformBounds fs n then storeRanges i s else []
  | .fderiv _ fs n _ _ => if transformBounds fs n then storeRanges i s else []
  | .encode _ n tab => shardTable s n tab :: if countAgrees s n (shardCount s) then storeRanges i s else []
  | .verify _ _ _ => []
  | .recon _ n tab => shardTable s n tab :: if countAgrees s n (shardCount s) then storeRanges i s else []
  | .reconData _ n tab => shardTable s n tab :: if countAgrees s n (shardCount s) then storeRanges i s else []
  | .reconSome _ n tab _ =>
    shardTable s n tab :: if isClassical s && countAgrees s n (shardCount s) then storeRanges i s else []
  | .update _ cnt n tab _ =>
    if isClassical s && countAgrees s n (shardCount s) then
      if countAgrees s cnt s.ctx.k then storeRanges i s else shardRanges s tab (parityIndices s)
    else []
  | .encodeIdx _ _ cnt _ _ _ => if isClassical s && countAgrees s cnt s.ctx.m then storeRanges i s else []

/-- The errors of a reconstruction (45_codec.md R265). -/
def reconErrors : List ErrCode :=
  [.notConfigured, .tooFewShards, .shardNoData, .shardSize, .singular, .scratchExhausted, .overlap,
   .busError]

/-- The errors a command's rule lists under "Exceptions", but for ILLEGAL_COMMAND, which is raised before
there is a command, and with the BUS_ERROR that any completion can raise. DESIGN CHOICE (log 26): the list is the
opcode's, with the codes that the rule limits to one FS or one variant, so a raced command may report those
whatever its FS and context are (20_memory.md R91). -/
def errorsOf : Instr → List ErrCode
  | .nop .. => [.busError]
  | .icflush .. => [.busError]
  | .alloc .. => [.badArgument, .scratchExhausted, .overlap, .busError]
  | .areset .. => [.busError]
  | .configure .. => [.badArgument, .invShardNum, .invalidRowSize, .maxShardNum, .singular, .busError]
  | .ctxReadm .. => [.notConfigured, .notSupported, .overlap, .busError]
  | .gfAdd .. => [.badArgument, .busError]
  | .gfMul .. => [.badArgument, .busError]
  | .gfInv .. => [.domain, .badArgument, .busError]
  | .gfPow .. => [.badArgument, .busError]
  | .gfLog .. => [.domain, .badArgument, .busError]
  | .gfAlog .. => [.busError]
  | .matIdent .. => [.badArgument, .overlap, .busError]
  | .matMul .. => [.badArgument, .shapeMismatch, .busError, .overlap]
  | .matInv .. => [.badArgument, .shapeMismatch, .singular, .busError, .overlap]
  | .matSub .. => [.badArgument, .busError, .overlap]
  | .matAug .. => [.badArgument, .shapeMismatch, .busError, .overlap]
  | .matVand .. => [.badArgument, .overlap, .busError]
  | .matGen .. => [.invShardNum, .maxShardNum, .badArgument, .singular, .overlap, .busError]
  | .kaxpy .. => [.badArgument, .shardSize, .overlap, .busError]
  | .kmulc .. => [.badArgument, .shardSize, .overlap, .busError]
  | .kcode .. => [.badArgument, .overlap, .busError]
  | .bflyFft .. => [.badArgument, .shardSize, .overlap, .busError]
  | .bflyIfft .. => [.badArgument, .shardSize, .overlap, .busError]
  | .xformFft .. => [.badArgument, .shardSize, .overlap, .busError]
  | .xformIfft .. => [.badArgument, .shardSize, .overlap, .busError]
  | .fderiv .. => [.badArgument, .shardSize, .overlap, .busError]
  | .encode .. =>
    [.notConfigured, .tooFewShards, .shardNoData, .shardSize, .scratchExhausted, .overlap, .busError]
  | .verify .. => [.notConfigured, .tooFewShards, .shardNoData, .shardSize, .busError]
  | .recon .. => reconErrors
  | .reconData .. => reconErrors
  | .reconSome .. => .notSupported :: reconErrors
  | .update .. =>
    [.notConfigured, .notSupported, .tooFewShards, .shardNoData, .shardSize, .reconstructRequired,
     .overlap, .busError]
  | .encodeIdx .. =>
    [.notConfigured, .notSupported, .invShardNum, .tooFewShards, .shardNoData, .shardSize, .overlap,
     .busError]

/-! ### The command in flight -/

/-- The ranges a host write can race with (20_memory.md R78, R91): those of the plan, or, if validation
fails, those the command names in memory as it stands. -/
def footprintOf (i : Instr) (v : Except Err Plan) (s : State) : List Extent :=
  extent (descAddr s) 64 ::
    match v with
    | .ok p => p.reads.map ReadRange.range ++ p.writes
    | .error _ => namedReads i s ++ namedWrites i s

/-- The write ranges of a command (20_memory.md R78), whether or not validation over memory as it stands
succeeds. -/
def commandWrites (i : Instr) (v : Except Err Plan) (s : State) : List Extent :=
  match v with
  | .ok p => p.writes
  | .error _ => namedWrites i s

/-- The write ranges of the command in flight, which are any value after a reset (70_reset_and_hazards.md R398,
R399). A descriptor that is no command writes nothing, and neither does a refused fetch. DESIGN CHOICE (log 27): a
command is in flight until its registers are updated, also once its W14 is written. -/
def inflightWrites (s : State) : List Extent :=
  match s.inflight with
  | none => []
  | some { words := _, phase := .refused } => []
  | some { words := _, phase := .working p _ } => p.writes
  | some { words := _, phase := .reporting r _ } => r.writes
  | some { words := ws, phase := .fetched } =>
    match decodeWords ws with
    | .error _ => []
    | .ok i => commandWrites i (planOf i s) s

/-- W14 of the command in flight is written: its outputs are final to the host (R87), and a host write to its
footprint is no race any more (R91). -/
def w14Written (s : State) : Bool :=
  match s.inflight with
  | some { words := _, phase := .reporting _ .registers } => true
  | _ => false

/-- The write ranges that are any value to the host (R88): those of the command in flight until W14 is written. -/
def unsettledWrites (s : State) : List Extent := if w14Written s then [] else inflightWrites s

/-- The value of W15 while its bytes are being written (R82). -/
def tornW15 (s : State) : Option Word :=
  match s.inflight with
  | some { words := _, phase := .reporting r .w15 } => some r.result
  | _ => none

end Sys2Proof.Machine
end

