-- ==== Sys2Proof/Machine/Dispatch.lean ====
section
/-! DEFINITION. The meaning of each command. -/

namespace Sys2Proof.Machine

def exec (i : Instr) (s : State) : Host.Outcome State Fault Refusal :=
  match i with
  | .nop irq => Sys2Proof.Machine.execNop irq s
  | .icflush irq => Sys2Proof.Machine.execIcflush irq s
  | .alloc irq n len tab => Sys2Proof.Machine.execAlloc irq n len tab s
  | .areset irq => Sys2Proof.Machine.execAreset irq s
  | .configure irq fastone noicache auto k m opts shape mat => Sys2Proof.Machine.execConfigure irq fastone noicache auto k m opts shape mat s
  | .ctxReadm irq dst => Sys2Proof.Machine.execCtxReadm irq dst s
  | .gfAdd irq fs a b => Sys2Proof.Machine.execGfAdd irq fs a b s
  | .gfMul irq fs a b => Sys2Proof.Machine.execGfMul irq fs a b s
  | .gfInv irq fs a => Sys2Proof.Machine.execGfInv irq fs a s
  | .gfPow irq fs a n => Sys2Proof.Machine.execGfPow irq fs a n s
  | .gfLog irq fs a => Sys2Proof.Machine.execGfLog irq fs a s
  | .gfAlog irq fs n => Sys2Proof.Machine.execGfAlog irq fs n s
  | .matIdent irq n dst => Sys2Proof.Machine.execMatIdent irq n dst s
  | .matMul irq ra ca rb cb x y dst => Sys2Proof.Machine.execMatMul irq ra ca rb cb x y dst s
  | .matInv irq rows cols src dst => Sys2Proof.Machine.execMatInv irq rows cols src dst s
  | .matSub irq rows cols nr nc src rl cl dst => Sys2Proof.Machine.execMatSub irq rows cols nr nc src rl cl dst s
  | .matAug irq ra ca rb cb x y dst => Sys2Proof.Machine.execMatAug irq ra ca rb cb x y dst s
  | .matVand irq rows cols dst => Sys2Proof.Machine.execMatVand irq rows cols dst s
  | .matGen irq fastone k m kind dst => Sys2Proof.Machine.execMatGen irq fastone k m kind dst s
  | .kaxpy irq fs c len src dst => Sys2Proof.Machine.execKaxpy irq fs c len src dst s
  | .kmulc irq fs c len src dst => Sys2Proof.Machine.execKmulc irq fs c len src dst s
  | .kcode irq acc rows cols len g inTab outTab => Sys2Proof.Machine.execKcode irq acc rows cols len g inTab outTab s
  | .bflyFft irq fs sk len x y => Sys2Proof.Machine.execBflyFft irq fs sk len x y s
  | .bflyIfft irq fs sk len x y => Sys2Proof.Machine.execBflyIfft irq fs sk len x y s
  | .xformFft irq fs n base len tab => Sys2Proof.Machine.execXformFft irq fs n base len tab s
  | .xformIfft irq fs n base len tab => Sys2Proof.Machine.execXformIfft irq fs n base len tab s
  | .fderiv irq fs n len tab => Sys2Proof.Machine.execFderiv irq fs n len tab s
  | .encode irq n tab => Sys2Proof.Machine.execEncode irq n tab s
  | .verify irq n tab => Sys2Proof.Machine.execVerify irq n tab s
  | .recon irq n tab => Sys2Proof.Machine.execRecon irq n tab s
  | .reconData irq n tab => Sys2Proof.Machine.execReconData irq n tab s
  | .reconSome irq n tab req => Sys2Proof.Machine.execReconSome irq n tab req s
  | .update irq cnt n tab newTab => Sys2Proof.Machine.execUpdate irq cnt n tab newTab s
  | .encodeIdx irq idx cnt len src par => Sys2Proof.Machine.execEncodeIdx irq idx cnt len src par s

end Sys2Proof.Machine
end

