-- ==== Sys2Proof/Machine/Scheduler.lean ====
section
/-! DEFINITION. The stripe scheduler (spec/47_scheduler.md): the worker ceiling, the stripe plan, and one
worker's work on one stripe. -/

namespace Sys2Proof.Machine

/-- W, the worker ceiling (R331). -/
def workerCeiling (s : State) : Nat :=
  if s.schedMaxw.toNat = 0 then s.params.numWorkers else min s.schedMaxw.toNat s.params.numWorkers

/-- ceil(a / b). -/
def ceilDiv (a b : Nat) : Nat := (a + b - 1) / b

/-- ns, the stripe-count target (R332). -/
def stripeCount (s : State) (size : Nat) : Nat :=
  max 1 (min (workerCeiling s) (size / s.schedMinsplit.toNat))

/-- per, the stripe length (R332). -/
def stripeLength (s : State) (size : Nat) : Nat := roundup64 (ceilDiv size (stripeCount s size))

/-- The stripes of the byte range [0, size) (R332). -/
def stripePlan (s : State) (size : Nat) : List Stripe :=
  if size = 0 then [{ lo := 0, hi := 0 }]
  else
    let per := stripeLength s size
    ((List.range (stripeCount s size)).filter fun i => decide (i * per < size)).map
      fun i => { lo := i * per, hi := min size ((i + 1) * per) }

/-- The stripes of a validated command; none for a command that runs on the CP alone (R330). -/
def planStripes (s : State) (p : Plan) : List Stripe :=
  match p.span with
  | none => []
  | some size => stripePlan s size

/-- The part of a shard store that lies in a stripe (R332, R333). -/
def Store.within (st : Store) (x : Stripe) : Store :=
  { st with addr := st.addr + x.lo, bytes := (st.bytes.drop x.lo).take (x.hi - x.lo) }

/-- The stores of one stripe (R333). -/
def stripeStores (p : Plan) (x : Stripe) : List Store :=
  (p.stores.filter fun st => st.striped).map fun st => st.within x

/-- The stores the CP makes itself: table entries, and everything of a command that has no stripes. -/
def cpStores (p : Plan) : List Store := p.stores.filter fun st => !st.striped

/-- One worker processes one stripe (R333). If the platform refuses an access of the command, the
completion makes the write ranges any value (60_exceptions.md R367 case 3). -/
def workStripe (p : Plan) (x : Stripe) (s : State) : State :=
  if accessesPermitted s p then { s with mem := s.mem.putAll (stripeStores p x) } else s

/-- SCHED_AUTO's MINSPLIT (R335). -/
def autoMinsplit (s : State) (t : Nat) : Nat := max 64 (roundup64 (ceilDiv (max t 1) s.params.numWorkers))

/-- SCHED_AUTO's MAXW (R335). -/
def autoMaxw (s : State) (t : Nat) : Nat :=
  min s.params.numWorkers (ceilDiv (max t 1) (autoMinsplit s t))

end Sys2Proof.Machine
end

