-- ==== Sys2Proof/Machine/Regs.lean ====
section
/-! DEFINITION. The register block (spec/10_state.md R24 to R49): what a host read of each register
returns and what a host write does, and the two resets (70_reset_and_hazards.md R391, R398, R399). -/

namespace Sys2Proof.Machine

/-! ### Computed registers -/

/-- ID (R25). -/
def idValue : Word := 0x52530007

/-- HWCFG (R26). -/
def hwcfgValue (s : State) : Word :=
  BitVec.ofNat 32 (s.params.numWorkers % 256 + 2 ^ 8 * (s.params.cacheEntries % 256) + 2 ^ 16 + 2 ^ 17)

/-- CTRL as it reads: EN and HOE (R27). -/
def ctrlValue (s : State) : Word := BitVec.ofNat 32 (s.ctrlEn.toNat + 2 * s.ctrlHoe.toNat)

/-- STATUS.BUSY (R28, 60_exceptions.md R382). -/
def busy (s : State) : Bool := s.inflight.isSome

/-- The number of a variant (R28). -/
def Variant.number : Variant → Nat
  | .classical => 0
  | .fft8 => 1
  | .fft16 => 2

/-- The number of a matrix kind (R48). -/
def Kind.number : Kind → Nat
  | .vandermonde => 0
  | .cauchy => 1
  | .par1 => 2
  | .jerasure => 3
  | .custom => 4

/-- STATUS (R28). -/
def statusValue (s : State) : Word :=
  BitVec.ofNat 32
    ((busy s).toNat + 2 * s.halted.toNat + 4 * s.ctx.valid.toNat
      + 8 * (if s.ctx.valid then s.ctx.variant.number else 0)
      + 32 * (decide (s.cqHead = s.cqTail)).toNat)

/-- A CFG_* register: 0 while no context is valid (R47, R48). -/
def configValue (s : State) (v : Nat) : Word := if s.ctx.valid then BitVec.ofNat 32 v else 0

/-- CFG_OPTS (R48). -/
def optsValue (c : Ctx) : Nat :=
  (match c.variant with | .classical => c.kind.number | _ => 0)
    + 2 ^ 4 * c.variant.number + 2 ^ 8 * c.fastone.toNat + 2 ^ 9 * c.icache.toNat
    + 2 ^ 10 * c.upgraded.toNat

/-- The low word of a 64-bit register. -/
def lowWord (a : Addr) : Word := a.extractLsb' 0 32

/-- The high word of a 64-bit register. -/
def highWord (a : Addr) : Word := a.extractLsb' 32 32

/-- An aligned 32-bit read of the register at a byte offset (R24). Reserved offsets and write-only
registers read 0. -/
def readReg (off : Nat) (s : State) : Word :=
  match off with
  | 0x000 => idValue
  | 0x004 => hwcfgValue s
  | 0x008 => ctrlValue s
  | 0x00C => statusValue s
  | 0x010 => s.errCode.setWidth 32
  | 0x014 => s.errIndex.setWidth 32
  | 0x018 => s.errIdx.setWidth 32 ||| (s.errOpc.setWidth 32 <<< 16)
  | 0x01C => s.irqEn.setWidth 32
  | 0x020 => s.irqStat.setWidth 32
  | 0x024 => s.doneCount
  | 0x028 => s.result
  | 0x030 => lowWord s.cqBase
  | 0x034 => highWord s.cqBase
  | 0x038 => s.cqSizeLog2.setWidth 32
  | 0x03C => s.cqHead.setWidth 32
  | 0x040 => s.cqTail.setWidth 32
  | 0x050 => lowWord s.scrBase
  | 0x054 => highWord s.scrBase
  | 0x058 => lowWord s.scrLimit
  | 0x05C => highWord s.scrLimit
  | 0x060 => lowWord s.scrNext
  | 0x064 => highWord s.scrNext
  | 0x070 => s.schedMaxw.setWidth 32
  | 0x074 => s.schedMinsplit
  | 0x07C => s.kcaps.setWidth 32
  | 0x080 => configValue s s.ctx.k
  | 0x084 => configValue s s.ctx.m
  | 0x088 => configValue s (s.ctx.k + s.ctx.m)
  | 0x08C => configValue s s.ctx.ssm
  | 0x090 => configValue s (optsValue s.ctx)
  | _ => 0

/-! ### Resets -/

/-- A reset (70_reset_and_hazards.md R391, R392): every register and all internal state at its reset
value. Memory is not written (R394), but the write ranges of a command in flight become any value (R398,
R399). The parameters stay, and so do the model's own `inputs`, `hostRead` and `free`. -/
def resetMachine (s : State) : State :=
  let h := havoc (inflightWrites s) s
  { State.reset with params := s.params, mem := h.mem, inputs := s.inputs, hostRead := s.hostRead,
                     free := h.free }

/-! ### Register writes -/

/-- A gated register accepts a write only with EN = 0 and BUSY = 0 (R49). -/
def gateOpen (s : State) : Bool := !s.ctrlEn && !busy s

/-- A write to a gated register: `f`, or nothing (R49). -/
def gated (s : State) (f : State) : State := if gateOpen s then f else s

/-- A 64-bit register with its low word replaced; bits 5:0 are hardwired 0 (R36, R40 to R42). -/
def setLow (a : Addr) (v : Word) : Addr := highWord a ++ (v &&& 0xFFFFFFC0)

/-- A 64-bit register with its high word replaced. -/
def setHigh (a : Addr) (v : Word) : Addr := v ++ lowWord a

/-- An accepted write of the ring's geometry zeroes CQ_HEAD and CQ_TAIL; nothing is queued any more
(R36, R37, 70_reset_and_hazards.md R397). -/
def restartRing (s : State) : State := { s with cqHead := 0, cqTail := 0, dirty := [] }

/-- Position `i` of the ring, counted from CQ_HEAD. -/
def ringDistance (s : State) (i : Half) : Nat :=
  (i.toNat + ringSize s - s.cqHead.toNat % ringSize s) % ringSize s

/-- The number of queued commands, (TAIL - HEAD) mod 2^LOG2 (R39). -/
def queued (s : State) : Nat := ringDistance s s.cqTail

/-- Ring index `i` holds a command that is queued or running. -/
def outstanding (s : State) (i : Half) : Bool :=
  decide (ringDistance s i < queued s) || (busy s && i == s.cqHead)

/-- CTRL (R27, 60_exceptions.md R369, 70_reset_and_hazards.md R398). -/
def writeCtrl (v : Word) (s : State) : State :=
  if v.getLsbD 2 then resetMachine s
  else
    let s := { s with ctrlEn := v.getLsbD 0, ctrlHoe := v.getLsbD 1 }
    if v.getLsbD 3 then resume s else s

/-- CQ_TAIL (R39): the doorbell. Commands it drops are queued no more (70_reset_and_hazards.md R402). -/
def writeTail (v : Word) (s : State) : State :=
  let s := { s with cqTail := BitVec.ofNat 16 ((v.toNat % 2 ^ 16) % ringSize s) }
  { s with dirty := s.dirty.filter fun x => outstanding s x.index }

/-- A value of SCHED_MINSPLIT, which is never 0 (R44), that nothing else constrains. -/
def freeMinsplit (c : Nat) : Word :=
  let v := BitVec.ofNat 32 (Config.freeNat c)
  if v = 0 then 1 else v

/-- SCHED_AUTO (R45, 47_scheduler.md R335). The formula's MINSPLIT can be 2^32, one more than the register
holds; the spec states no value there, and the model takes a free one (log 14). -/
def writeAuto (v : Word) (s : State) : State :=
  let ms := autoMinsplit s v.toNat
  let s := { s with schedMaxw := BitVec.ofNat 16 (autoMaxw s v.toNat) }
  if ms < 2 ^ 32 then { s with schedMinsplit := BitVec.ofNat 32 ms }
  else { s with schedMinsplit := freeMinsplit s.free, free := s.free + 1 }

/-- An aligned 32-bit write to the register at a byte offset (R24). Reserved offsets and read-only
registers ignore it. -/
def writeReg (off : Nat) (v : Word) (s : State) : State :=
  match off with
  | 0x008 => writeCtrl v s
  | 0x010 => { s with errCode := 0 }
  | 0x01C => { s with irqEn := v.setWidth 3 }
  | 0x020 => { s with irqStat := s.irqStat &&& ~~~(v.setWidth 3) }
  | 0x030 => gated s (restartRing { s with cqBase := setLow s.cqBase v })
  | 0x034 => gated s (restartRing { s with cqBase := setHigh s.cqBase v })
  | 0x038 => gated s (restartRing { s with cqSizeLog2 := BitVec.ofNat 5 (min (v.toNat % 32) 16) })
  | 0x040 => writeTail v s
  | 0x050 => gated s { s with scrBase := setLow s.scrBase v }
  | 0x054 => gated s { s with scrBase := setHigh s.scrBase v }
  | 0x058 => gated s { s with scrLimit := setLow s.scrLimit v }
  | 0x05C => gated s { s with scrLimit := setHigh s.scrLimit v }
  | 0x060 => gated s { s with scrNext := setLow s.scrNext v }
  | 0x064 => gated s { s with scrNext := setHigh s.scrNext v }
  | 0x070 => gated s { s with schedMaxw := v.setWidth 16 }
  | 0x074 => gated s { s with schedMinsplit := if v = 0 then 1 else v }
  | 0x078 => gated s (writeAuto v s)
  | 0x07C => gated s { s with kcaps := v.setWidth 6 }
  | _ => s

end Sys2Proof.Machine
end

