-- ==== Sys2Proof/Machine/HostPort.lean ====
section
/-! DEFINITION. The host's turns: loads and stores of host memory and of the register block
(spec/00_scope.md R3, 10_state.md R24, 20_memory.md R88, R91). -/

namespace Sys2Proof.Machine

/-- What a host access reaches. -/
inductive HostTarget where
  /-- beyond the last address -/
  | pastEnd
  /-- the register at a byte offset, by an aligned 32-bit access -/
  | register (off : Nat)
  /-- the register block, wholly or in part, by any other access (R24) -/
  | ignored
  | memory
deriving DecidableEq, Repr

/-- Where a host access of `n` bytes at `a` goes. An access that touches the register block is an access to
it: R24 ignores every one but the aligned 32-bit access, also one that lies partly outside (DEDUCED,
log 7). An access of memory past the last address has no description (DESIGN CHOICE, log 24). -/
def hostTarget (a n : Nat) (s : State) : HostTarget :=
  let b := s.params.mmioBase.toNat
  if (extent a n).overlaps (registerBlock s) then
    if n = 4 ∧ b ≤ a ∧ (a - b) % 4 = 0 then .register (a - b) else .ignored
  else if 2 ^ 64 < a + n then .pastEnd
  else .memory

/-- A byte of W15 of the command at CQ_HEAD while W15 is being written: the old byte or the new one, since RSCORE
writes byte by byte (R82). -/
def tornByte (s : State) (v15 : Word) (a c : Nat) : Byte :=
  if (extent (descAddr s + 60) 4).contains a ∧ Config.freeNat c % 2 = 1 then (writeW15 (descAddr s) v15 s.mem).read a
  else s.mem.read a

/-- What the host sees of byte `a`: any value inside the write ranges of the command in flight (R88), a byte of W15
as `tornByte` says, and the byte in memory elsewhere. DESIGN CHOICE (log 28): where a write range that a failing
command names covers W14 or W15 of its own descriptor, R88 counts and not R82. -/
def observedByte (s : State) (a c : Nat) : Byte :=
  if (unsettledWrites s).any fun x => x.contains a then Config.freeByte c
  else
    match tornW15 s with
    | some v15 => tornByte s v15 a c
    | none => s.mem.read a

/-- The bytes a host load of memory returns (R88). -/
def observedBytes (s : State) (a n : Nat) : List Byte :=
  (List.range n).map fun i => observedByte s (a + i) (s.free + i)

/-- A host load. DESIGN CHOICE (log 22): the byte of a register at the lowest address is bits 7:0. -/
def hostLoad (addr : Addr) (n : Nat) (s : State) : Host.Outcome State Fault Refusal :=
  match hostTarget addr.toNat n s with
  | .pastEnd => .fault .hostAccessPastEnd
  | .register off => .next { s with hostRead := bytesOfNat 4 (readReg off s).toNat }
  | .ignored => .next { s with hostRead := List.replicate n 0 }
  | .memory => .next { s with hostRead := observedBytes s addr.toNat n, free := s.free + n }

/-- The ring indices of the commands that are queued or running. -/
def outstandingIndices (s : State) : List Half :=
  if queued s = 0 then (if busy s then [s.cqHead] else [])
  else (List.range (queued s)).map fun i => BitVec.ofNat 16 ((s.cqHead.toNat + i) % ringSize s)

/-- The host writes to log (log 4): one for each command queued or running whose W14 is not written (R91), and
none while the CP is halted between commands, when the host may repair ring and memory (60_exceptions.md R369). -/
def loggedWrites (x : Extent) (s : State) : List Dirty :=
  if s.halted && !busy s then []
  else ((outstandingIndices s).filter fun i => !(w14Written s && i == s.cqHead)).map
    fun i => { index := i, range := x }

/-- A host store, with the byte order of `hostLoad` (log 22). -/
def hostStore (addr : Addr) (bytes : List Byte) (s : State) : Host.Outcome State Fault Refusal :=
  match hostTarget addr.toNat bytes.length s with
  | .pastEnd => .fault .hostAccessPastEnd
  | .register off => .next (writeReg off (BitVec.ofNat 32 (natOfBytes bytes)) s)
  | .ignored => .next s
  | .memory =>
    .next { s with mem := s.mem.writeBytes addr.toNat bytes,
                   dirty := loggedWrites (extent addr.toNat bytes.length) s ++ s.dirty }

end Sys2Proof.Machine
end

