-- ==== Sys2Proof/Machine/Cp.lean ====
section
/-! DEFINITION. The command processor and the stripe workers: fetch (spec/30_encoding.md R101,
60_exceptions.md R381, R367 case 1), decode errors (R111), the turns of one command, and a whole command
in one step (20_memory.md R86). -/

namespace Sys2Proof.Machine

/-! ### Fetch -/

/-- The fetch condition (R381). -/
def fetchReady (s : State) : Bool := s.ctrlEn && !s.halted && s.cqHead != s.cqTail && !busy s

/-- The descriptor read is admitted (R101, R367 case 1). -/
def fetchPermitted (s : State) : Bool := permits s (extent (descAddr s) 64) false

/-- The host wrote byte `a` after the command at CQ_HEAD was queued. -/
def writtenSince (s : State) (a : Nat) : Bool :=
  s.dirty.any fun x => x.index == s.cqHead && x.range.contains a

/-- The 64 bytes of the fetch (R101). A byte the host wrote after the doorbell is any value (20_memory.md
R89, R92). -/
def fetchBytes (s : State) : List Byte :=
  if s.dirty = [] then s.mem.readBytes (descAddr s) 64
  else (List.range 64).map fun i =>
    if writtenSince s (descAddr s + i) then Config.freeByte (s.free + i) else s.mem.read (descAddr s + i)

/-- The free values the fetch used are used up. -/
def afterFetch (s : State) : State := if s.dirty = [] then s else { s with free := s.free + 64 }

/-- The fetch as a turn of its own: the copy W[0..15] is made, and BUSY is 1 (R101, R382). -/
def fetch (s : State) : State :=
  { afterFetch s with inflight := some { words := wordsOfBytes (fetchBytes s), phase := .fetched } }

/-- The start of a refused fetch: BUSY is 1 until `fetchFault` has handled it (R367 case 1, R382). -/
def refuseFetch (s : State) : State := { s with inflight := some { words := [], phase := .refused } }

/-! ### Races with the host (20_memory.md R91) -/

/-- The host wrote into the footprint of the command at CQ_HEAD while it was queued or running. -/
def raced (i : Instr) (v : Except Err Plan) (s : State) : Bool :=
  s.dirty.any fun x => x.index == s.cqHead && (footprintOf i v s).any x.range.overlaps

/-- A custom context whose matrix was read during a race: the parity rows it read are any bytes, and
fast-one-parity replaces row k whatever was read (43_generator.md R196). -/
def racedContext (free : Nat) (c : Ctx) : Ctx :=
  if c.kind = .custom then
    let rows := matrixOfBytes c.m c.k (freeBytes free (c.m * c.k))
    { c with matrix := fastOne c.fastone c.k c.m (customMatrix c.k rows) }
  else c

/-- What a raced command commits outside memory (log 11): with the report OK all of it; with BUS_ERROR, which
can come before or in the data phase, SCR_NEXT and the cache or nothing, and never CTX (45_codec.md R244);
with any other error nothing (60_exceptions.md R362). -/
def racedCommit (e : Option Err) (p : Plan) (s : State) : State :=
  match e with
  | none =>
    let n := (p.ctx.map fun c => c.m * c.k).getD 0
    { commitRegisters { p with ctx := p.ctx.map (racedContext s.free) } s with free := s.free + n }
  | some e =>
    if e.code = .busError ∧ p.ctx = none ∧ Config.freeNat s.free % 2 = 1 then
      { commitRegisters p s with free := s.free + 1 }
    else { s with free := s.free + 1 }

/-- A report of a race: OK, or any of the codes with any detail index. -/
def anyReport (codes : List ErrCode) (s : State) : Option Err :=
  (codes[Config.freeNat s.free % (codes.length + 1)]?).map
    fun c => { code := c, idx := BitVec.ofNat 16 (Config.freeNat (s.free + 1)) }

/-- The outcome a raced command reports: OK, or any of its errors. -/
def racedReport (i : Instr) (s : State) : Option Err := anyReport (errorsOf i) s

/-- How a command ends: what its completion step will report, and the state that the step starts from. -/
structure Ending where
  err : Option Err
  result : Word
  state : State

/-- A raced command (R91): its write ranges become any value, and its report is any it can make. -/
def racedEnding (i : Instr) (v : Except Err Plan) (s : State) : Ending :=
  let e := racedReport i s
  let s1 := havoc (commandWrites i v s) { s with free := s.free + 3 }
  { err := e, result := BitVec.ofNat 32 (Config.freeNat (s.free + 2))
    state := match v with
      | .ok p => racedCommit e p s1
      | .error _ => s1 }

/-- A command that fails validation (60_exceptions.md R362): nothing is written. -/
def errorEnding (i : Instr) (e : Err) (s : State) : Ending :=
  if raced i (.error e) s then racedEnding i (.error e) s else { err := some e, result := 0, state := s }

/-- A command whose stripes are all done: the CP makes its own stores and commits (47_scheduler.md R333,
60_exceptions.md R367 case 3). -/
def workEnding (i : Instr) (p : Plan) (s : State) : Ending :=
  if raced i (.ok p) s then racedEnding i (.ok p) s
  else if accessesPermitted s p then
    { err := none, result := p.result
      state := commitRegisters p { s with mem := s.mem.putAll (cpStores p) } }
  else { err := some busError, result := 0, state := havoc p.writes (commitRegisters p s) }

/-- The completion step of an ending, at once (60_exceptions.md R364). -/
def Ending.complete (i : Instr) (x : Ending) : State :=
  Machine.complete (opcodeOf i) (irqFlagOf i) x.err x.result x.state

/-- A raced command completes (R91). -/
def racedFinish (i : Instr) (v : Except Err Plan) (s : State) : State := (racedEnding i v s).complete i

/-! ### The completion step in turns (60_exceptions.md R364, 20_memory.md R87) -/

/-- The completion step begins. The logged host writes have had their effect; those of the next turns are new. -/
def startReport (ws : List Word) (r : Report) (s : State) : State :=
  { s with dirty := s.dirty.filter fun x => x.index != s.cqHead
           inflight := some { words := ws, phase := .reporting r (if writebackAdmitted s then .w15 else .refused) } }

/-- The completion step of an ending begins; `v` is what validation over `s` found. -/
def Ending.report (ws : List Word) (i : Instr) (v : Except Err Plan) (s : State) (x : Ending) : State :=
  startReport ws
    { opc := opcodeOf i, irq := irqFlagOf i, err := x.err, result := completionResult x.err x.result,
      codes := errorsOf i, footprint := footprintOf i v s, writes := commandWrites i v s } x.state

/-- A host write since the completion step began races with the command (R91): its write ranges become any value
and its report is any it can make. W15 and what the command committed stay (log 11). -/
def lateRace (r : Report) (s : State) : Report × State :=
  if s.dirty.any fun x => x.index == s.cqHead && r.footprint.any x.range.overlaps then
    ({ r with err := anyReport r.codes s }, havoc r.writes { s with free := s.free + 2 })
  else (r, s)

/-- W15 of a report. -/
def reportW15 (r : Report) (s : State) : State := { s with mem := writeW15 (descAddr s) r.result s.mem }

/-- W14 of a report, with the error it carries then. -/
def reportW14 (r : Report) (s : State) : Report × State :=
  let x := lateRace r s
  (x.1, { x.2 with mem := writeW14 (descAddr s) x.1.err x.2.mem })

/-- The registers of a report whose W14 is written. -/
def reportRegisters (r : Report) (s : State) : State := completeRegisters r.opc r.irq r.err r.result s

/-- The registers of a report whose writeback is refused. -/
def reportRefused (r : Report) (s : State) : State :=
  refusedRegisters r.opc r.irq r.result (lateRace r s).2

/-- The next turn of the completion step: W15, then W14, then the registers (R87). -/
def reportTurn (ws : List Word) (r : Report) (stage : ReportStage) (s : State) : State :=
  match stage with
  | .w15 => { reportW15 r s with inflight := some { words := ws, phase := .reporting r .w14 } }
  | .w14 =>
    let x := reportW14 r s
    { x.2 with inflight := some { words := ws, phase := .reporting x.1 .registers } }
  | .registers => reportRegisters r s
  | .refused => reportRefused r s

/-- The rest of the completion step at once. -/
def reportWhole (r : Report) (stage : ReportStage) (s : State) : State :=
  match stage with
  | .w15 =>
    let x := reportW14 r (reportW15 r s)
    reportRegisters x.1 x.2
  | .w14 =>
    let x := reportW14 r s
    reportRegisters x.1 x.2
  | .registers => reportRegisters r s
  | .refused => reportRefused r s

/-! ### A whole command -/

/-- An illegal descriptor (30_encoding.md R110, R111): it completes with ILLEGAL_COMMAND. -/
def illegalCommand (ws : List Word) (s : State) : State :=
  complete (opcOf (wordOf ws 0)) (irqOf (wordOf ws 0))
    (some { code := .illegalCommand, idx := noDetail }) 0 s

/-- A decoded command: `exec`, unless the host raced with it. -/
def runCommand (i : Instr) (s : State) : Host.Outcome State Fault Refusal :=
  if raced i (planOf i s) s then .next (racedFinish i (planOf i s) s) else exec i s

/-- The command in a descriptor copy, from decode to completion. -/
def runWords (ws : List Word) (s : State) : Host.Outcome State Fault Refusal :=
  match decodeWords ws with
  | .error _ => .next (illegalCommand ws s)
  | .ok i => runCommand i s

/-! ### Turns of the CP and the workers -/

/-- An illegal descriptor begins its completion step. It has no write range, and no code but its own, so nothing
races with it. -/
def reportIllegal (ws : List Word) (s : State) : State :=
  startReport ws
    { opc := opcOf (wordOf ws 0), irq := irqOf (wordOf ws 0), err := some { code := .illegalCommand, idx := noDetail },
      result := 0, codes := [.illegalCommand], footprint := [], writes := [] } s

/-- The end of the data phase of the command in a descriptor copy, and the start of its completion step. A copy
that does not decode was never validated. -/
def reportWords (ws : List Word) (p : Plan) (s : State) : State :=
  match decodeWords ws with
  | .error _ => reportIllegal ws s
  | .ok i => (workEnding i p s).report ws i (.ok p) s

/-- The same, with the whole completion step. -/
def completeWords (ws : List Word) (p : Plan) (s : State) : State :=
  match decodeWords ws with
  | .error _ => illegalCommand ws s
  | .ok i => (workEnding i p s).complete i

/-- Validation as a turn of its own (60_exceptions.md R363 steps 2 to 7). -/
def validate (ws : List Word) (s : State) : State :=
  match decodeWords ws with
  | .error _ => reportIllegal ws s
  | .ok i =>
    match planOf i s with
    | .ok p => { s with inflight := some { words := ws, phase := .working p (planStripes s p) } }
    | .error e => (errorEnding i e s).report ws i (.error e) s

/-- One micro-step of the CP: fetch, handle a refused fetch, validate, end the data phase once no stripe is left,
or take the next turn of the completion step. -/
def cpTurn (s : State) : State :=
  match s.inflight with
  | none => if !fetchReady s then s else if fetchPermitted s then fetch s else refuseFetch s
  | some { words := _, phase := .refused } => fetchFault s
  | some { words := ws, phase := .fetched } => validate ws s
  | some { words := ws, phase := .working p [] } => reportWords ws p s
  | some { words := _, phase := .working _ (_ :: _) } => s
  | some { words := ws, phase := .reporting r stage } => reportTurn ws r stage s

/-- A worker processes the `j`-th pending stripe (47_scheduler.md R333). -/
def workerTurn (j : Nat) (s : State) : State :=
  match s.inflight with
  | some { words := ws, phase := .working p pending } =>
    match pending[j]? with
    | some x =>
      { workStripe p x s with inflight := some { words := ws, phase := .working p (pending.eraseIdx j) } }
    | none => s
  | _ => s

/-- Every pending stripe, in order. -/
def workAll (p : Plan) (xs : List Stripe) (s : State) : State := xs.foldl (fun s x => workStripe p x s) s

/-- The CP on its own: it finishes what is in flight, or runs the next one from fetch to completion,
or waits (R381). -/
def cpWhole (s : State) : Host.Outcome State Fault Refusal :=
  match s.inflight with
  | none =>
    if !fetchReady s then .next s
    else if fetchPermitted s then runWords (wordsOfBytes (fetchBytes s)) (afterFetch s)
    else .next (fetchFault s)
  | some { words := _, phase := .refused } => .next (fetchFault s)
  | some { words := ws, phase := .fetched } => runWords ws s
  | some { words := ws, phase := .working p pending } => .next (completeWords ws p (workAll p pending s))
  | some { words := _, phase := .reporting r stage } => .next (reportWhole r stage s)

/-- One turn of an agent. -/
def turn (x : Input) (s : State) : Host.Outcome State Fault Refusal :=
  match x with
  | .load addr n => hostLoad addr n s
  | .store addr bytes => hostStore addr bytes s
  | .hardReset => .next (resetMachine s)
  | .cp => .next (cpTurn s)
  | .worker j => .next (workerTurn j s)

/-! ### Placing a command -/

/-- A descriptor placed in the ring at CQ_HEAD and queued alone, with the CP running and idle. -/
def placeDescriptor (bytes : List Byte) (s : State) : State :=
  let log2 : BitVec 5 := if s.cqSizeLog2 = 0 then 1 else s.cqSizeLog2
  let s := { s with ctrlEn := true, halted := false, inflight := none, inputs := [], dirty := [],
                    cqSizeLog2 := log2 }
  { s with mem := s.mem.writeBytes (descAddr s) bytes, cqTail := nextHead s }

end Sys2Proof.Machine
end

