-- ==== Sys2Proof/Machine/Step.lean ====
section
/-! DEFINITION. One step of the machine: the next turn of an agent, or a whole command if no turn is
pending. -/

namespace Sys2Proof.Machine

/-- One step (spec/00_scope.md R3, 20_memory.md R86). -/
def step (s : State) : Host.Outcome State Fault Refusal :=
  match s.inputs with
  | [] => cpWhole s
  | x :: xs => turn x { s with inputs := xs }

/-- `s` with the descriptor whose bits are `w` where the next step fetches it. Log 13 says how a program
comes to run from `State.reset`. -/
def State.withFetchWord (s : State) (nbits w : Nat) : State :=
  placeDescriptor (Sys2Proof.tableBytes nbits w) s

end Sys2Proof.Machine
end

