-- ==== Sys2Proof/Safety.lean ====
section
/-! DEFINITION. The terms in which claims about RSCORE are stated: what access is admitted, what a table
in memory says, the state a completed command leaves (written out field by field, apart from the
definitions of Machine/Ops.lean), and the invariants. -/

namespace Sys2Proof.Machine

/-! ### Admitted accesses -/

/-- RSCORE may read the range (20_memory.md R81). -/
abbrev Readable (s : State) (a n : Nat) : Prop := permits s (extent a n) false = true

/-- RSCORE may write the range (R81). -/
abbrev Writable (s : State) (a n : Nat) : Prop := permits s (extent a n) true = true

/-- The completion writeback is admitted (60_exceptions.md R364). -/
abbrev CanComplete (s : State) : Prop := Writable s (descAddr s + 56) 8

/-- Two ranges share no byte (20_memory.md R79). -/
abbrev Apart (x y : Extent) : Prop := x.overlaps y = false

/-- The descriptor of the command at CQ_HEAD, a read range of every footprint (R78). -/
abbrev descriptor (s : State) : Extent := extent (descAddr s) 64

/-- W14 and W15 of the command at CQ_HEAD. -/
abbrev completionBytes (s : State) : Extent := extent (descAddr s + 56) 8

/-- Every byte outside the ranges reads as before. -/
def SameOutside (xs : List Extent) (m m' : Memory) : Prop :=
  ∀ a, (∀ x ∈ xs, x.contains a = false) → m'.read a = m.read a

/-! ### Tables in memory -/

/-- Every field of the table's `n` entries may be read. -/
def TableReadable (s : State) (t n : Nat) : Prop :=
  ∀ i, i < n → Readable s (t + 16 * i) 8 ∧ Readable s (t + 16 * i + 8) 4 ∧ Readable s (t + 16 * i + 12) 4

/-- Every entry of the pointer table may be read. -/
def PointersReadable (s : State) (t n : Nat) : Prop := ∀ i, i < n → Readable s (t + 8 * i) 8

/-- The index list of `n` entries at `t` (R85). -/
def indicesAt (s : State) (t n : Nat) : List Nat := (List.range n).map fun i => s.mem.readNat (t + 2 * i) 2

/-- Every entry of the index list may be read. -/
def IndicesReadable (s : State) (t n : Nat) : Prop := ∀ i, i < n → Readable s (t + 2 * i) 2

/-- The matrix of `r` rows and `c` columns at `a` (R85). -/
def matrixAt (s : State) (a r c : Nat) : Matrix := matrixOfBytes r c (s.mem.readBytes a (r * c))

/-- The shards of a table agree (45_codec.md R249, R250): one is present, the present ones have one
length, and it is a multiple of CTX.ssm. -/
structure ShardsAgree (s : State) (xs : List Slot) : Prop where
  some_present : ∃ i, i < shardCount s ∧ presentAt xs i = true
  same_length : ∀ i, i < shardCount s → presentAt xs i = true → (slotAt xs i).len = shardLength xs
  multiple : shardLength xs % s.ctx.ssm = 0

/-- A table that a codec command can use: N matches the context, every entry may be read, and the shards
agree (45_codec.md R248 to R250). -/
structure TableUsable (s : State) (n : Word) (tab : Addr) (xs : List Slot) : Prop where
  count : n.toNat = shardCount s
  readable : TableReadable s tab.toNat (shardCount s)
  contents : xs = tableAt s tab.toNat (shardCount s)
  agree : ShardsAgree s xs

/-- The arena suffices for the outputs of a codec command, if anything is allocated from it (20_memory.md
R77). -/
abbrev OutputsInArena (s : State) (xs : List Slot) (outs : List Nat) : Prop :=
  (placeOutputs xs (shardLength xs) outs s.scrNext.toNat).1.any Placed.fresh = true →
    (placeOutputs xs (shardLength xs) outs s.scrNext.toNat).2 ≤ s.scrLimit.toNat
      ∧ s.scrBase.toNat ≤ s.scrNext.toNat

/-- The footprint of a codec command that writes the shards `outs` passes the overlap check (45_codec.md
R251, 20_memory.md R79); `extra` are further read ranges. -/
abbrev OutputsClear (s : State) (tab : Addr) (xs : List Slot) (outs : List Nat) (extra : List ReadRange) :
    Prop :=
  footprintClear
    (descRange s :: extra
      ++ (inputIndices s xs outs).map fun i => reads (slotAt xs i).addr (shardLength xs))
    (extent tab.toNat (16 * shardCount s)
      :: (placeOutputs xs (shardLength xs) outs s.scrNext.toNat).1.map (Placed.range (shardLength xs)))
    = true

/-- The outputs of a codec command can be written (45_codec.md R251): the arena suffices if anything is
allocated from it, the footprint passes the overlap check, and every access is admitted. -/
structure OutputsFit (s : State) (tab : Addr) (xs : List Slot) (outs : List Nat) (extra : List ReadRange) :
    Prop where
  arena : OutputsInArena s xs outs
  clear : OutputsClear s tab xs outs extra
  inputs : ∀ i ∈ inputIndices s xs outs, Readable s (slotAt xs i).addr (shardLength xs)
  entries : ∀ p ∈ (placeOutputs xs (shardLength xs) outs s.scrNext.toNat).1,
    ∀ st ∈ p.entryStores tab.toNat (shardLength xs), Writable s st.addr st.bytes.length
  shards : ∀ p ∈ (placeOutputs xs (shardLength xs) outs s.scrNext.toNat).1,
    Writable s p.addr (shardLength xs)

/-- The memory after the outputs of a codec command are written: the table entries that were
materialised, and the output shards (20_memory.md R75, 45_codec.md R252). -/
def outputsWritten (s : State) (tab : Addr) (xs : List Slot) (outs : List Nat)
    (bytes : List (List Byte)) : Memory :=
  let ps := (placeOutputs xs (shardLength xs) outs s.scrNext.toNat).1
  (s.mem.putAll (ps.flatMap (Placed.entryStores tab.toNat (shardLength xs)))).putAll
    (List.zipWith (fun p bs => { addr := Placed.addr p, bytes := bs, striped := true }) ps bytes)

/-- SCR_NEXT after the outputs of a codec command are placed (20_memory.md R77). -/
def scrNextAfter (s : State) (xs : List Slot) (outs : List Nat) : Addr :=
  BitVec.ofNat 64 (placeOutputs xs (shardLength xs) outs s.scrNext.toNat).2

/-- XOR over j below n of c_j ⊗ b_j over FS0, as a byte (00_scope.md R9, 44_kernel.md R222). -/
def codedByte (n : Nat) (c : Nat → Nat) (b : Nat → Byte) : Byte :=
  BitVec.ofNat 8 (xorSum ((List.range n).map fun j => mul .gf8 (c j) (b j).toNat))

/-- Byte `e` of shard `i`. -/
def shardByte (s : State) (xs : List Slot) (i e : Nat) : Byte := (shardBytes s xs i).getD e 0

/-- Byte `e` of data shard `j` as a reconstruction has it: the shard's if it is present, else row `j` of
`d` applied to the shards `v` (45_codec.md R268). -/
def recoveredByte (s : State) (xs : List Slot) (v : List Nat) (d : Matrix) (j e : Nat) : Byte :=
  if presentAt xs j then shardByte s xs j e
  else codedByte s.ctx.k (entry d j) fun t => shardByte s xs (v.getD t 0) e

/-! ### The state after a completion -/

/-- CQ_HEAD after a completion (10_state.md R22). -/
def headAfter (s : State) : Half := BitVec.ofNat 16 ((s.cqHead.toNat + 1) % 2 ^ s.cqSizeLog2.toNat)

/-- The logged host writes after a completion (log 4). -/
def dirtyAfter (s : State) : List Dirty := s.dirty.filter fun x => x.index != s.cqHead

/-- IRQ_STAT with DONE set for a command with the IRQ flag (60_exceptions.md R371). -/
def doneStat (irq : Bool) (v : BitVec 3) : BitVec 3 := if irq then v ||| 1 else v

/-- IRQ_STAT with HALT set if the halt is new (R368). -/
def haltStat (s : State) (v : BitVec 3) : BitVec 3 := if s.halted then v else v ||| 4

/-- W15 and then W14 (R364). -/
def reported (d : Nat) (w15 w14 : Word) (m : Memory) : Memory :=
  (m.writeNat (d + 60) 4 w15.toNat).writeNat (d + 56) 4 w14.toNat

/-- The state a successful completion leaves (R364), from the state after the data phase. -/
def succeeded (irq : Bool) (res : Word) (s : State) : State :=
  { s with
    mem := reported (descAddr s) res 0x80000000 s.mem
    cqHead := headAfter s
    doneCount := s.doneCount + 1
    result := res
    irqStat := doneStat irq s.irqStat
    inflight := none
    dirty := dirtyAfter s }

/-- The state a failed completion leaves (R364, R365, R368). -/
def failed (opc : BitVec 8) (irq : Bool) (e : Err) (s : State) : State :=
  { s with
    mem := reported (descAddr s) 0 (0x80000000 ||| (e.idx.setWidth 32 <<< 8) ||| e.code.number.setWidth 32)
      s.mem
    cqHead := headAfter s
    doneCount := s.doneCount + 1
    result := 0
    errCode := e.code.number
    errIndex := s.cqHead
    errIdx := e.idx
    errOpc := opc
    irqStat := doneStat irq (if s.ctrlHoe then haltStat s (s.irqStat ||| 2) else s.irqStat ||| 2)
    halted := s.halted || s.ctrlHoe
    inflight := none
    dirty := dirtyAfter s }

/-- The state a completion leaves whose writeback is refused (R364, R370); `v15` is the value that W15
would have had. -/
def unreported (opc : BitVec 8) (irq : Bool) (v15 : Word) (s : State) : State :=
  { s with
    cqHead := headAfter s
    doneCount := s.doneCount + 1
    result := v15
    errCode := 0x12
    errIndex := s.cqHead
    errIdx := 0xFFFE
    errOpc := opc
    irqStat := doneStat irq (haltStat s (s.irqStat ||| 2))
    halted := true
    inflight := none
    dirty := dirtyAfter s }

/-- The registers of the completion step (20_memory.md R87) are the same. -/
structure SameCompletionRegisters (s t : State) : Prop where
  cqHead : t.cqHead = s.cqHead
  doneCount : t.doneCount = s.doneCount
  result : t.result = s.result
  errCode : t.errCode = s.errCode
  errIndex : t.errIndex = s.errIndex
  errIdx : t.errIdx = s.errIdx
  errOpc : t.errOpc = s.errOpc
  irqStat : t.irqStat = s.irqStat
  halted : t.halted = s.halted

/-- The state a refused descriptor fetch leaves (R367 case 1). -/
def fetchRefused (s : State) : State :=
  { s with
    errCode := 0x12
    errIndex := s.cqHead
    errIdx := 0xFFFF
    errOpc := 0xFF
    irqStat := haltStat s (s.irqStat ||| 2)
    halted := true
    inflight := none }

/-- Nothing is pending: no turn of another agent, no command in flight, no host write to a queued
command's memory. -/
structure Quiet (s : State) : Prop where
  inputs : s.inputs = []
  inflight : s.inflight = none
  dirty : s.dirty = []

/-- The registers and model fields that no command changes (10_state.md R376 of 60_exceptions.md, R56). -/
structure SameSetup (s t : State) : Prop where
  params : t.params = s.params
  ctrlEn : t.ctrlEn = s.ctrlEn
  ctrlHoe : t.ctrlHoe = s.ctrlHoe
  irqEn : t.irqEn = s.irqEn
  cqBase : t.cqBase = s.cqBase
  cqSizeLog2 : t.cqSizeLog2 = s.cqSizeLog2
  cqTail : t.cqTail = s.cqTail
  scrBase : t.scrBase = s.scrBase
  scrLimit : t.scrLimit = s.scrLimit
  schedMaxw : t.schedMaxw = s.schedMaxw
  schedMinsplit : t.schedMinsplit = s.schedMinsplit
  kcaps : t.kcaps = s.kcaps
  inputs : t.inputs = s.inputs
  hostRead : t.hostRead = s.hostRead

/-- A quiet machine whose CP fetches on its own turn (60_exceptions.md R381), and whose next descriptor may
be read. -/
structure ReadyToFetch (s : State) : Prop extends Quiet s where
  enabled : s.ctrlEn = true
  running : s.halted = false
  queuedOne : s.cqHead ≠ s.cqTail
  descriptor : Readable s (descAddr s) 64

/-! ### What commands write -/

/-- The commands that may allocate from the arena or rewind it, hence may change SCR_NEXT (10_state.md
R42). -/
def movesArena : Instr → Bool
  | .alloc .. => true
  | .areset .. => true
  | .encode .. => true
  | .recon .. => true
  | .reconData .. => true
  | .reconSome .. => true
  | _ => false

/-- The commands that may change the inversion cache (10_state.md R53). -/
def usesCache : Instr → Bool
  | .icflush .. => true
  | .configure .. => true
  | .recon .. => true
  | .reconData .. => true
  | .reconSome .. => true
  | _ => false

/-- CONFIGURE. -/
def isConfigure : Instr → Bool
  | .configure .. => true
  | _ => false

/-- The needed set of a reconstruction (45_codec.md R263). -/
def neededShards (s : State) (i : Instr) (xs : List Slot) : List Nat :=
  match i with
  | .recon _ _ _ => (List.range (shardCount s)).filter fun j => !presentAt xs j
  | .reconData _ _ _ => (List.range s.ctx.k).filter fun j => !presentAt xs j
  | .reconSome _ _ _ req =>
    (List.range (shardCount s)).filter fun j => !presentAt xs j && bitmapBit (requiredAt s req) j
  | _ => []

/-- The bitmap range of RECON_SOME (45_codec.md R267). -/
def bitmapRanges (s : State) (i : Instr) : List ReadRange :=
  match i with
  | .reconSome _ _ _ req => [reads req.toNat ((shardCount s + 7) / 8)]
  | _ => []

/-! ### Matrices -/

/-- A dimension a matrix command takes (42_matrix.md R160). -/
abbrev DimensionLegal (d : Word) : Prop := 1 ≤ d.toNat ∧ d.toNat ≤ 512

/-- Operand `j` is the first of the dimensions `ds` out of range (42_matrix.md R160). -/
def FirstIllegal (ds : List Word) (j : Nat) : Prop :=
  ¬ DimensionLegal (ds.getD j 1) ∧ ∀ i, i < j → DimensionLegal (ds.getD i 1)

/-- An n×n matrix of bytes. -/
def SquareMatrix (n : Nat) (x : Matrix) : Prop :=
  x.length = n ∧ (∀ row ∈ x, row.length = n) ∧ ∀ row ∈ x, ∀ e ∈ row, e < 256

/-! ### Which descriptors are commands -/

/-- One row of the opcode map: opcode, accepted FS values, and how many CFLAGS bits from bit 17 on are
defined (30_encoding.md R106, R109). -/
def opcodeMap : List (Nat × List Nat × Nat) :=
  [(0x00, [0], 0), (0x01, [0], 0), (0x02, [0], 0), (0x03, [0], 0),
   (0x08, [0], 3), (0x09, [0], 0),
   (0x10, [0, 1, 2], 0), (0x11, [0, 1, 2], 0), (0x12, [0, 1, 2], 0), (0x13, [0, 1, 2], 0),
   (0x14, [0, 1, 2], 0), (0x15, [0, 1, 2], 0)]
  ++ [(0x20, [0], 0), (0x21, [0], 0), (0x22, [0], 0), (0x23, [0], 0), (0x24, [0], 0),
   (0x28, [0], 0), (0x29, [0], 1),
   (0x30, [0, 1, 2], 0), (0x31, [0, 1, 2], 0), (0x32, [0], 1)]
  ++ [(0x38, [1, 2], 0), (0x39, [1, 2], 0), (0x3A, [1, 2], 0), (0x3B, [1, 2], 0), (0x3C, [1, 2], 0),
   (0x40, [0], 0), (0x41, [0], 0), (0x42, [0], 0), (0x43, [0], 0), (0x44, [0], 0), (0x45, [0], 0),
   (0x46, [0], 0)]

/-- A header word the decode checks accept (30_encoding.md R111). -/
def headerLegal (w0 : Word) : Bool :=
  w0.toNat / 2 ^ 10 % 2 ^ 6 == 0 && w0.toNat / 2 ^ 24 == 0 &&
    opcodeMap.any fun r =>
      w0.toNat % 2 ^ 8 == r.1 && r.2.1.contains (w0.toNat / 2 ^ 8 % 2 ^ 2) &&
        decide (w0.toNat / 2 ^ 17 % 2 ^ 7 < 2 ^ r.2.2)

/-! ### Invariants -/

/-- The registers hold values that their writes and the spec allow (10_state.md R36 to R44). -/
structure State.RegistersLegal (s : State) : Prop where
  params : s.params.legal
  size : s.cqSizeLog2.toNat ≤ 16
  head : s.cqHead.toNat < 2 ^ s.cqSizeLog2.toNat
  tail : s.cqTail.toNat < 2 ^ s.cqSizeLog2.toNat
  cqBase : s.cqBase.toNat % 64 = 0
  scrBase : s.scrBase.toNat % 64 = 0
  scrLimit : s.scrLimit.toNat % 64 = 0
  scrNext : s.scrNext.toNat % 64 = 0
  minsplit : s.schedMinsplit ≠ 0
  /-- what the command in flight will commit is aligned as well -/
  planned : ∀ ws p rest, s.inflight = some { words := ws, phase := .working p rest } →
    ∀ a, p.scrNext = some a → a.toNat % 64 = 0

/-- The shape of a context: that k and m fit the variant, the shard size multiple, and the row count and row
length of a Classical matrix (10_state.md R50, 45_codec.md R242 to R244). It says nothing of the entries. -/
structure Ctx.Legal (c : Ctx) : Prop where
  k : c.valid = true → 1 ≤ c.k
  fits : c.valid = true → Machine.fits c.variant c.k c.m = true
  ssm : c.valid = true → c.ssm = shardSizeMultiple c.variant
  rows : c.valid = true → c.variant = .classical → c.matrix.length = c.k + c.m
  cols : c.valid = true → c.variant = .classical → ∀ row ∈ c.matrix, row.length = c.k
  noMatrix : c.variant ≠ .classical → c.kind = .vandermonde ∧ c.matrix = []

/-- The context has the shape of one, and so has the context the command in flight will commit. -/
structure State.ContextLegal (s : State) : Prop where
  ctx : s.ctx.Legal
  planned : ∀ ws p rest, s.inflight = some { words := ws, phase := .working p rest } →
    ∀ c, p.ctx = some c → c.Legal

/-- A cache entry is the inverse for its key under the context (10_state.md R53, 48_control.md R345). -/
def CacheEntry.Correct (c : Ctx) (e : CacheEntry) : Prop :=
  ∃ v : List Nat, v.Pairwise (· < ·) ∧ (∀ i ∈ v, i < c.k + c.m) ∧ e.key = rowSetKey v
    ∧ invert c.k (selectRows c.matrix v) = some e.inverse

/-- The cache holds only correct entries, and no more than its capacity. -/
def CacheCorrect (p : Params) (c : Ctx) (es : List CacheEntry) : Prop :=
  es.length ≤ p.cacheEntries ∧ ∀ e ∈ es, e.Correct c

/-- The cache is correct, and so is the one the command in flight will commit; with a new context it
commits an empty cache. -/
structure State.CacheLegal (s : State) : Prop where
  cache : CacheCorrect s.params s.ctx s.icache
  planned : ∀ ws p rest, s.inflight = some { words := ws, phase := .working p rest } →
    CacheCorrect s.params (p.ctx.getD s.ctx) (p.icache.getD s.icache)
      ∧ ∀ c, p.ctx = some c → p.icache = some []

end Sys2Proof.Machine
end

