-- ==== Sys2Proof/Certificates/Slice0/Obligations.lean ====
section
/-! DEFINITION. The statements for the provers. Each docstring names the rules of spec/ it formalises. -/

open Sys2Proof Sys2Proof.Machine

/-! ### Encoding -/

/-- spec/30_encoding.md R102, R103, R118: decoding an encoded command gives it back, with every operand. -/
def Obligations.DecodeEncodeRoundTrip : Prop :=
  ∀ i : Instr, i.wellFormed = true → decode (encodeBytes i) = .ok i

/-- Words written out from spec/95_test_vectors.md section 3 and spec/48_control.md decode to the commands
they stand for. -/
def Obligations.SpecWordsDecode : Prop :=
  decodeWords (d64 0x00010000 0 0 0 0 0 0 0 0 0) = .ok (.nop true)
  ∧ decodeWords (d64 0x00020008 5 5 0 0 0 0 0 0 0)
      = .ok (.configure false true false false 5 5 0 0 0)
  ∧ decodeWords (d64 0x00000213 2 16 0 0 0 0 0 0 0) = .ok (.gfPow false .gf16c 2 16)
  ∧ decodeWords (d64 0x00000022 2 2 0 0 0 0x2000 0 0 0x2100) = .ok (.matInv false 2 2 0x2000 0x2100)
  ∧ decodeWords (d64 0x00000032 2 3 0 0 4 0x6000 0x6100 0x6180 0)
      = .ok (.kcode false false 2 3 4 0x6000 0x6100 0x6180)
  ∧ decodeWords (d64 0x00010041 0 0 10 0 0 0x30000 0 0 0) = .ok (.verify true 10 0x30000)

/-- spec/30_encoding.md R103, R105, R106, R109: what decodes is a command the opcode map accepts, its
opcode and IRQ flag are the header's, and W14 and W15 have no effect. -/
def Obligations.DecodedCommandMatchesHeader : Prop :=
  (∀ (ws : List Word) (i : Instr), decodeWords ws = .ok i →
    i.wellFormed = true ∧ headerLegal (wordOf ws 0) = true
      ∧ opcOf (wordOf ws 0) = opcodeOf i ∧ irqOf (wordOf ws 0) = irqFlagOf i)
  ∧ ∀ ws vs : List Word, (∀ n, n < 14 → wordOf ws n = wordOf vs n) → decodeWords ws = decodeWords vs

/-- spec/30_encoding.md R111: a descriptor whose header the opcode map does not accept completes with
ILLEGAL_COMMAND(0xFFFF) and does nothing else; every other descriptor decodes. -/
def Obligations.IllegalDescriptorsRejected : Prop :=
  ∀ s : State, ReadyToFetch s →
    (headerLegal (wordAt (s.mem.readBytes (descAddr s) 64) 0) = false → CanComplete s →
      step s = .next (failed (opcOf (wordAt (s.mem.readBytes (descAddr s) 64) 0))
        (irqOf (wordAt (s.mem.readBytes (descAddr s) 64) 0))
        { code := .illegalCommand, idx := 0xFFFF } s))
    ∧ (headerLegal (wordAt (s.mem.readBytes (descAddr s) 64) 0) = false → ¬ CanComplete s →
      step s = .next (unreported (opcOf (wordAt (s.mem.readBytes (descAddr s) 64) 0))
        (irqOf (wordAt (s.mem.readBytes (descAddr s) 64) 0)) 0 s))
    ∧ (headerLegal (wordAt (s.mem.readBytes (descAddr s) 64) 0) = true →
      ∃ i, decode (s.mem.readBytes (descAddr s) 64) = .ok i ∧ step s = exec i s)

/-! ### Steps -/

/-- spec/30_encoding.md R101, spec/20_memory.md R86: when the descriptor at CQ_HEAD decodes to a command,
a step of the ready machine is that command. -/
def Obligations.StepRunsDecodedCommand : Prop :=
  ∀ (s : State) (i : Instr), ReadyToFetch s → decode (s.mem.readBytes (descAddr s) 64) = .ok i →
    step s = exec i s

/-- spec/60_exceptions.md R381: the CP fetches when CTRL.EN = 1, HALTED = 0, CQ_HEAD ≠ CQ_TAIL and
BUSY = 0, and otherwise waits; a command in flight completes whatever EN says. A fetch that is refused is in
flight as well, with BUSY = 1 (R382), until it has been handled. -/
def Obligations.FetchCondition : Prop :=
  ∀ s : State, s.inputs = [] →
    (s.inflight = none → (s.ctrlEn = false ∨ s.halted = true ∨ s.cqHead = s.cqTail) →
      step s = .next s ∧ step { s with inputs := [.cp] } = .next s)
    ∧ (ReadyToFetch s → ∃ t, step { s with inputs := [.cp] } = .next t
        ∧ t.inflight = some { words := wordsOfBytes (s.mem.readBytes (descAddr s) 64), phase := .fetched }
        ∧ t = { s with inflight := t.inflight })
    ∧ (Quiet s → s.ctrlEn = true → s.halted = false → s.cqHead ≠ s.cqTail → ¬ Readable s (descAddr s) 64 →
      ∃ t, step { s with inputs := [.cp] } = .next t ∧ busy t = true
        ∧ t = { s with inflight := some { words := [], phase := .refused } })
    ∧ (∀ ws, s.inflight = some { words := ws, phase := .refused } →
      step s = .next (fetchRefused s) ∧ step { s with inputs := [.cp] } = .next (fetchRefused s))
    ∧ (busy s = true → (∀ ws, s.inflight ≠ some { words := ws, phase := .refused }) →
      ∃ t, step s = .next t ∧ t.inflight = none ∧ t.cqHead = headAfter s)

/-- spec/60_exceptions.md R367: the three effects of a refused access. `complete` is the completion step of
R364 (Obligations.CompletionStep). Two points of the data phase are the model's inferences: after a
BUS_ERROR the inversion cache is committed with SCR_NEXT (log 21), and every access the command's rule
lists is asked, also one a short cut would not need (log 17). -/
def Obligations.BusErrorEffects : Prop :=
  (∀ s : State, Quiet s → s.ctrlEn = true → s.halted = false → s.cqHead ≠ s.cqTail →
    ¬ Readable s (descAddr s) 64 → step s = .next (fetchRefused s))
  ∧ (∀ (s : State) (a n : Nat), ¬ Readable s a n →
      memReadBytes s a n = .error { code := .busError, idx := 0xFFFF }
      ∧ memRead s a n = .error { code := .busError, idx := 0xFFFF })
  ∧ (∀ (i : Instr) (s : State) (e : Err), planOf i s = .error e →
      exec i s = .next (complete (opcodeOf i) (irqFlagOf i) (some e) 0 s))
  ∧ (∀ (i : Instr) (s : State) (p : Plan), planOf i s = .ok p → accessesPermitted s p = false →
      ∃ m : Memory, ∃ f : Nat, SameOutside p.writes s.mem m
        ∧ exec i s = .next (complete (opcodeOf i) (irqFlagOf i)
            (some { code := .busError, idx := 0xFFFF }) 0
            (commitRegisters p { s with mem := m, free := f })))

/-- spec/47_scheduler.md R336, spec/44_kernel.md R223: every order in which workers take the stripes gives the
state the whole command gives, and no worker count, scheduler register or KCAPS bit changes anything a command
does. The turns are the fetch, the validation, one for each stripe, the end of the data phase, W15, W14 and
the registers (spec/20_memory.md R87). That memory and the context are legal are invariants
(StepKeepsMemoryCanonical, StepKeepsContextLegal). -/
def Obligations.StripePlanIndependence : Prop :=
  (∀ (s t : State) (i : Instr) (p : Plan) (js : List Nat), ReadyToFetch s → s.mem.wf → s.ctx.Legal →
    decode (s.mem.readBytes (descAddr s) 64) = .ok i → planOf i s = .ok p →
    js.length = (planStripes s p).length → (∀ n (h : n < js.length), js[n] < js.length - n) →
    exec i s = .next t →
    core.run (js.length + 6) { s with inputs := [.cp, .cp] ++ js.map .worker ++ [.cp, .cp, .cp, .cp] }
      = .next t)
  ∧ (∀ (s t : State) (i : Instr) (nw : Nat) (maxw : Half) (ms : Word) (kc : BitVec 6), exec i s = .next t →
    exec i { s with params := { s.params with numWorkers := nw }, schedMaxw := maxw, schedMinsplit := ms,
                    kcaps := kc }
      = .next { t with params := { t.params with numWorkers := nw }, schedMaxw := maxw, schedMinsplit := ms,
                       kcaps := kc })

/-! ### Completion, errors and halts -/

/-- spec/60_exceptions.md R364, R365: every command ends with one completion step, which leaves exactly the
state these rules describe, with the writeback admitted or refused. In turns it is that of spec/20_memory.md R87:
no register of the completion changes before W14 is written; W15 first, then W14, then the registers in one
turn. A host write to the command's footprint before W14 is a race (R91), which the turns exclude by their
hypothesis on `dirty`. -/
def Obligations.CompletionStep : Prop :=
  (∀ (opc : BitVec 8) (irq : Bool) (res : Word) (s : State), CanComplete s →
    complete opc irq none res s = succeeded irq res s
    ∧ ∀ e : Err, complete opc irq (some e) res s = failed opc irq e s)
  ∧ (∀ (opc : BitVec 8) (irq : Bool) (res : Word) (s : State), ¬ CanComplete s →
    complete opc irq none res s = unreported opc irq res s
    ∧ ∀ e : Err, complete opc irq (some e) res s = unreported opc irq 0 s)
  ∧ (∀ (i : Instr) (s : State), ∃ (e : Option Err) (res : Word) (s1 : State),
    exec i s = .next (complete (opcodeOf i) (irqFlagOf i) e res s1)
    ∧ SameSetup s s1 ∧ s1.cqHead = s.cqHead)
  ∧ (∀ s : State, busy s = true → (∀ ws, s.inflight ≠ some { words := ws, phase := .refused }) →
    (∀ ws r, s.inflight ≠ some { words := ws, phase := .reporting r .registers }
      ∧ s.inflight ≠ some { words := ws, phase := .reporting r .refused }) →
    ∃ t, turn .cp s = .next t ∧ busy t = true ∧ SameCompletionRegisters s t)
  ∧ (∀ (s : State) (ws : List Word) (p : Plan), s.inflight = some { words := ws, phase := .working p [] } →
    ∃ t r, turn .cp s = .next t
      ∧ t.inflight = some { words := ws, phase := .reporting r (if writebackAdmitted s then .w15 else .refused) })
  ∧ ∀ (s : State) (ws : List Word) (r : Report), (∀ x ∈ s.dirty, x.index ≠ s.cqHead) →
    (s.inflight = some { words := ws, phase := .reporting r .w15 } →
      turn .cp s = .next { s with
        mem := s.mem.writeNat (descAddr s + 60) 4 r.result.toNat
        inflight := some { words := ws, phase := .reporting r .w14 } })
    ∧ (s.inflight = some { words := ws, phase := .reporting r .w14 } →
      turn .cp s = .next { s with
        mem := s.mem.writeNat (descAddr s + 56) 4 (match r.err with
          | none => 0x80000000
          | some e => 0x80000000 + 256 * e.idx.toNat + e.code.number.toNat)
        inflight := some { words := ws, phase := .reporting r .registers } })
    ∧ (s.inflight = some { words := ws, phase := .reporting r .registers } →
      (r.err = none → turn .cp s = .next { succeeded r.irq r.result s with mem := s.mem })
      ∧ ∀ e, r.err = some e →
          turn .cp s = .next { failed r.opc r.irq e s with mem := s.mem, result := r.result })
    ∧ (s.inflight = some { words := ws, phase := .reporting r .refused } →
      turn .cp s = .next (unreported r.opc r.irq r.result s))

/-- spec/60_exceptions.md R362: a command that reports an error other than BUS_ERROR writes no byte outside
its own W14 and W15, and changes no register but those of the completion step. -/
def Obligations.NoPartialSuccess : Prop :=
  ∀ (i : Instr) (s t : State), CanComplete s → exec i s = .next t →
    t.mem.readNat (descAddr s + 56) 4 % 256 ≠ 0 → t.mem.readNat (descAddr s + 56) 4 % 256 ≠ 0x12 →
    SameOutside [completionBytes s] s.mem t.mem ∧ SameSetup s t ∧ t.scrNext = s.scrNext ∧ t.ctx = s.ctx

/-- spec/60_exceptions.md R361, R363: a command reports OK or an error its own rule lists, and the reserved
code SHORT_DATA never. -/
def Obligations.ReportedCodesAreListed : Prop :=
  (∀ (i : Instr) (s : State) (e : Err), planOf i s = .error e → e.code ∈ errorsOf i)
  ∧ (∀ i : Instr, .shortData ∉ errorsOf i)
  ∧ (∀ (i : Instr) (s t : State), CanComplete s → exec i s = .next t →
      t.mem.readNat (descAddr s + 56) 4 = 0x80000000
      ∨ ∃ c ∈ errorsOf i, t.mem.readNat (descAddr s + 56) 4 % 256 = c.number.toNat)

/-- What a command leaves unchanged besides memory: spec/60_exceptions.md R365, R376, spec/10_state.md R22,
R42, R51, R53. -/
def Obligations.RegisterFrameOfCommands : Prop :=
  ∀ (i : Instr) (s t : State), exec i s = .next t →
    SameSetup s t ∧ t.cqHead = headAfter s ∧ t.doneCount = s.doneCount + 1 ∧ t.inflight = none
    ∧ t.dirty = dirtyAfter s
    ∧ (isConfigure i = false → t.ctx = s.ctx)
    ∧ (movesArena i = false → t.scrNext = s.scrNext)
    ∧ (usesCache i = false → t.icache = s.icache)
    ∧ ((t.errCode = s.errCode ∧ t.errIndex = s.errIndex ∧ t.errIdx = s.errIdx ∧ t.errOpc = s.errOpc
          ∧ t.halted = s.halted ∧ t.irqStat = doneStat (irqFlagOf i) s.irqStat)
        ∨ (t.errIndex = s.cqHead ∧ t.errOpc = opcodeOf i
          ∧ ((t.halted = s.halted ∧ t.irqStat = doneStat (irqFlagOf i) (s.irqStat ||| 2))
            ∨ (t.halted = true ∧ t.irqStat = doneStat (irqFlagOf i) (haltStat s (s.irqStat ||| 2))))))

/-- spec/20_memory.md R78: every byte of host memory outside W14, W15 and the write ranges of the command's
rule reads as before. The commands whose rule lists no write range, the control and configuration commands,
the field commands and VERIFY, write W14 and W15 alone. That the context is legal is an invariant
(StepKeepsContextLegal); CTX_READM writes all of CTX.M. -/
def Obligations.MemoryFrameOfCommands : Prop :=
  ∀ (i : Instr) (s t : State), s.ctx.Legal → exec i s = .next t →
    SameOutside (completionBytes s :: storeRanges i s) s.mem t.mem

/-- spec/60_exceptions.md R368, R369, spec/10_state.md R27: a CTRL write without SRST sets EN and HOE, clears
HALTED with RESUME, and changes nothing else; and no other turn of any agent but a reset ends a halt. Which
byte of a store holds RESUME and SRST is the model's choice (log 22). -/
def Obligations.HaltAndResume : Prop :=
  (∀ (s : State) (v : Word), v.getLsbD 2 = false →
    writeReg 0x008 v s = { s with ctrlEn := v.getLsbD 0, ctrlHoe := v.getLsbD 1,
                                  halted := s.halted && !v.getLsbD 3 }
    ∧ readReg 0x008 (writeReg 0x008 v s) = v &&& 3)
  ∧ ∀ s t : State, s.halted = true → step s = .next t → t.halted = false →
    ∃ x xs, s.inputs = x :: xs ∧
      (x = .hardReset ∨ ∃ a bs, x = .store a bs ∧ a.toNat = s.params.mmioBase.toNat + 8 ∧ bs.length = 4
        ∧ (natOfBytes bs / 8 % 2 = 1 ∨ natOfBytes bs / 4 % 2 = 1))

/-! ### Resets -/

/-- spec/70_reset_and_hazards.md R391, R392, R394, R398, R399: after a hard reset and after a soft reset
every register reads its reset value, whatever the state before; there is no valid context, no cache entry
and no command in flight; and no byte of memory changes outside the write ranges of a command in flight. Which
ranges those are of a fetched command that fails validation, and that a command which finds nothing to do has
none, are the model's choices (logs 11 and 25). -/
def Obligations.ResetValues : Prop :=
  ∀ (s t : State), (turn .hardReset s = .next t ∨ ∃ v : Word, v.getLsbD 2 = true ∧ writeReg 0x008 v s = t) →
    readReg 0x000 t = 0x52530007 ∧ readReg 0x004 t = hwcfgValue s ∧ readReg 0x008 t = 2
    ∧ readReg 0x00C t = 0x20 ∧ readReg 0x074 t = 512 ∧ readReg 0x07C t = 0x3F
    ∧ (∀ off, off ∉ [0x000, 0x004, 0x008, 0x00C, 0x074, 0x07C] → readReg off t = 0)
    ∧ irqLine t = false ∧ t.ctx.valid = false ∧ t.icache = [] ∧ t.inflight = none
    ∧ t.params = s.params ∧ SameOutside (inflightWrites s) s.mem t.mem
    ∧ (s.inflight = none → t.mem = s.mem)

/-- The state after reset meets every invariant (spec/70_reset_and_hazards.md R391). The parameters and the
empty memory are the model's choices (logs 1 and 2). -/
def Obligations.ResetMeetsInvariants : Prop :=
  State.reset.RegistersLegal ∧ State.reset.mem.wf ∧ State.reset.ContextLegal ∧ State.reset.CacheLegal

/-! ### Registers -/

/-- spec/10_state.md R49: a gated register ignores a write while CTRL.EN = 1 or STATUS.BUSY = 1, and takes
it otherwise. -/
def Obligations.GatedRegisterWrites : Prop :=
  ∀ (s : State) (v : Word),
    (∀ off ∈ [0x030, 0x034, 0x038, 0x050, 0x054, 0x058, 0x05C, 0x060, 0x064, 0x070, 0x074, 0x078, 0x07C],
      s.ctrlEn = true ∨ busy s = true → writeReg off v s = s)
    ∧ (s.ctrlEn = false → busy s = false →
        readReg 0x050 (writeReg 0x050 v s) = v &&& 0xFFFFFFC0 ∧ readReg 0x054 (writeReg 0x054 v s) = v
        ∧ readReg 0x058 (writeReg 0x058 v s) = v &&& 0xFFFFFFC0 ∧ readReg 0x05C (writeReg 0x05C v s) = v
        ∧ readReg 0x060 (writeReg 0x060 v s) = v &&& 0xFFFFFFC0 ∧ readReg 0x064 (writeReg 0x064 v s) = v
        ∧ readReg 0x070 (writeReg 0x070 v s) = v &&& 0xFFFF
        ∧ readReg 0x074 (writeReg 0x074 v s) = (if v = 0 then 1 else v)
        ∧ readReg 0x07C (writeReg 0x07C v s) = v &&& 0x3F)

/-- spec/10_state.md R36, R37, R39: an accepted write of the ring's base keeps it 64-byte aligned and one of
its size stores at most 16, and each zeroes CQ_HEAD and CQ_TAIL; the doorbell stores the written index
modulo the ring size and changes no other register. The size written is read as a 5-bit field (log 16). The
model's log of host writes forgets the commands that are no longer queued (log 4). -/
def Obligations.RingRegisterWrites : Prop :=
  (∀ (s : State) (v : Word), s.ctrlEn = false → busy s = false →
    (readReg 0x030 (writeReg 0x030 v s) = v &&& 0xFFFFFFC0
      ∧ readReg 0x034 (writeReg 0x030 v s) = readReg 0x034 s
      ∧ (writeReg 0x030 v s).cqHead = 0 ∧ (writeReg 0x030 v s).cqTail = 0)
    ∧ (readReg 0x034 (writeReg 0x034 v s) = v
      ∧ readReg 0x030 (writeReg 0x034 v s) = readReg 0x030 s
      ∧ (writeReg 0x034 v s).cqHead = 0 ∧ (writeReg 0x034 v s).cqTail = 0)
    ∧ ((writeReg 0x038 v s).cqSizeLog2.toNat = min (v.toNat % 32) 16
      ∧ (writeReg 0x038 v s).cqHead = 0 ∧ (writeReg 0x038 v s).cqTail = 0))
  ∧ ∀ (s : State) (v : Word), s.cqSizeLog2.toNat ≤ 16 →
    (writeReg 0x040 v s).cqTail.toNat = v.toNat % 65536 % 2 ^ s.cqSizeLog2.toNat
    ∧ writeReg 0x040 v s
        = { s with cqTail := (writeReg 0x040 v s).cqTail, dirty := (writeReg 0x040 v s).dirty }
    ∧ ∀ x ∈ (writeReg 0x040 v s).dirty, x ∈ s.dirty

/-- spec/60_exceptions.md R372 and spec/10_state.md R32, R33: the enables, the write-one-to-clear bits, and
the level-sensitive line. -/
def Obligations.InterruptRegisters : Prop :=
  ∀ (s : State) (v : Word),
    writeReg 0x01C v s = { s with irqEn := v.setWidth 3 }
    ∧ (∀ b, b < 3 → (writeReg 0x020 v s).irqStat.getLsbD b = (s.irqStat.getLsbD b && !v.getLsbD b))
    ∧ writeReg 0x020 v s = { s with irqStat := (writeReg 0x020 v s).irqStat }
    ∧ (irqLine s = true ↔ ∃ b, b < 3 ∧ s.irqStat.getLsbD b = true ∧ s.irqEn.getLsbD b = true)
    ∧ writeReg 0x010 v s = { s with errCode := 0 }

/-- spec/47_scheduler.md R335: SCHED_AUTO. Where the formula gives 2^32, which the register cannot hold, the
statement says only that the register is not 0 (log 14). -/
def Obligations.SchedAutoWrite : Prop :=
  ∀ (s : State) (v : Word), s.ctrlEn = false → busy s = false → s.params.legal →
    (autoMinsplit s v.toNat
        = max 64 (roundup64 ((max v.toNat 1 + s.params.numWorkers - 1) / s.params.numWorkers)))
    ∧ (autoMinsplit s v.toNat < 2 ^ 32 →
        (writeReg 0x078 v s).schedMinsplit.toNat = autoMinsplit s v.toNat)
    ∧ ((writeReg 0x078 v s).schedMaxw.toNat
        = min s.params.numWorkers ((max v.toNat 1 + autoMinsplit s v.toNat - 1) / autoMinsplit s v.toNat))
    ∧ 1 ≤ (writeReg 0x078 v s).schedMaxw.toNat
    ∧ (writeReg 0x078 v s).schedMaxw.toNat ≤ s.params.numWorkers
    ∧ (writeReg 0x078 v s).schedMinsplit ≠ 0

/-- spec/10_state.md R26, R28, R47, R48: HWCFG reports the build parameters; STATUS and the CFG registers
are computed from other state. -/
def Obligations.StatusAndConfigReads : Prop :=
  ∀ s : State,
    (readReg 0x00C s).getLsbD 0 = busy s ∧ (readReg 0x00C s).getLsbD 1 = s.halted
    ∧ (readReg 0x00C s).getLsbD 2 = s.ctx.valid
    ∧ ((readReg 0x00C s).toNat / 8 % 4 = if s.ctx.valid then s.ctx.variant.number else 0)
    ∧ ((readReg 0x00C s).getLsbD 5 = true ↔ s.cqHead = s.cqTail) ∧ (readReg 0x00C s).toNat < 64
    ∧ (s.ctx.valid = false → ∀ off ∈ [0x080, 0x084, 0x088, 0x08C, 0x090], readReg off s = 0)
    ∧ (s.ctx.valid = true → readReg 0x080 s = BitVec.ofNat 32 s.ctx.k
        ∧ readReg 0x084 s = BitVec.ofNat 32 s.ctx.m
        ∧ readReg 0x088 s = BitVec.ofNat 32 (s.ctx.k + s.ctx.m)
        ∧ readReg 0x08C s = BitVec.ofNat 32 s.ctx.ssm
        ∧ ((readReg 0x090 s).toNat % 16 = if s.ctx.variant = .classical then s.ctx.kind.number else 0)
        ∧ (readReg 0x090 s).toNat / 16 % 4 = s.ctx.variant.number
        ∧ (readReg 0x090 s).toNat / 64 % 4 = 0
        ∧ (readReg 0x090 s).getLsbD 8 = s.ctx.fastone ∧ (readReg 0x090 s).getLsbD 9 = s.ctx.icache
        ∧ (readReg 0x090 s).getLsbD 10 = s.ctx.upgraded ∧ (readReg 0x090 s).toNat < 2 ^ 11)
    ∧ (s.params.legal → (readReg 0x004 s).toNat % 256 = s.params.numWorkers
        ∧ (readReg 0x004 s).toNat / 256 % 256 = s.params.cacheEntries
        ∧ (readReg 0x004 s).getLsbD 16 = true ∧ (readReg 0x004 s).getLsbD 17 = true
        ∧ (readReg 0x004 s).toNat < 2 ^ 18)

/-- spec/10_state.md R24: host accesses that touch the register block. An aligned 32-bit access reaches its
register; any other reads 0 and its write is ignored, also one that lies partly outside the block (log 7);
a reserved offset reads 0 and ignores writes, a read-only register ignores writes, and SCHED_AUTO reads 0; a
read changes no register. MMIO_BASE is 256-byte aligned (R24), so an offset that is a multiple of 4 is an
aligned address. That the lowest-addressed byte of an access is bits 7:0 of the register is the model's
choice (log 22). -/
def Obligations.RegisterBlockAccess : Prop :=
  ∀ (s : State) (a : Addr) (n : Nat) (bs : List Byte), bs.length = n →
    ¬ Apart (extent a.toNat n) (registerBlock s) →
    (n = 4 → s.params.mmioBase.toNat ≤ a.toNat → (a.toNat - s.params.mmioBase.toNat) % 4 = 0 →
      turn (.load a n) s = .next { s with
        hostRead := bytesOfNat 4 (readReg (a.toNat - s.params.mmioBase.toNat) s).toNat }
      ∧ turn (.store a bs) s = .next (writeReg (a.toNat - s.params.mmioBase.toNat)
          (BitVec.ofNat 32 (natOfBytes bs)) s))
    ∧ (n ≠ 4 ∨ a.toNat < s.params.mmioBase.toNat ∨ (a.toNat - s.params.mmioBase.toNat) % 4 ≠ 0 →
      turn (.load a n) s = .next { s with hostRead := List.replicate n 0 }
      ∧ turn (.store a bs) s = .next s)
    ∧ (∀ off, off = 0x02C ∨ (0x044 ≤ off ∧ off ≤ 0x04C) ∨ (0x068 ≤ off ∧ off ≤ 0x06C)
        ∨ (0x094 ≤ off ∧ off ≤ 0x0FF) → ∀ v : Word, readReg off s = 0 ∧ writeReg off v s = s)
    ∧ (∀ off ∈ [0x000, 0x004, 0x00C, 0x014, 0x018, 0x024, 0x028, 0x03C, 0x080, 0x084, 0x088, 0x08C, 0x090],
        ∀ v : Word, writeReg off v s = s)
    ∧ readReg 0x078 s = 0

/-- spec/20_memory.md R87, R88: a host load of a byte outside the running command's write ranges returns the
byte in memory, and so does one of a byte in them once W14 is written; a byte of W15 while W15 is being
written is the old one or the new one (R82); and a load changes nothing but what the host has read. Which
ranges those are of a fetched command that fails validation, and that a command which finds nothing to do has
none, are the model's choices (logs 11 and 25). -/
def Obligations.HostLoadOutsideWriteRanges : Prop :=
  ∀ (s : State) (a : Addr) (n : Nat), a.toNat + n ≤ 2 ^ 64 → Apart (extent a.toNat n) (registerBlock s) →
    ∃ t, turn (.load a n) s = .next t
      ∧ t = { s with hostRead := t.hostRead, free := t.free } ∧ t.hostRead.length = n
      ∧ ∀ j, j < n → w14Written s = true ∨ (∀ x ∈ inflightWrites s, x.contains (a.toNat + j) = false) →
          ((∀ ws r, s.inflight ≠ some { words := ws, phase := .reporting r .w15 }) →
            t.hostRead[j]? = some (s.mem.read (a.toNat + j)))
          ∧ ∀ ws r, s.inflight = some { words := ws, phase := .reporting r .w15 } →
            ((extent (descAddr s + 60) 4).contains (a.toNat + j) = false →
              t.hostRead[j]? = some (s.mem.read (a.toNat + j)))
            ∧ ∀ b, b < 4 → a.toNat + j = descAddr s + 60 + b →
              t.hostRead[j]? = some (s.mem.read (a.toNat + j))
                ∨ t.hostRead[j]? = some (BitVec.ofNat 8 (r.result.toNat / 2 ^ (8 * b)))

/-! ### Memory -/

/-- spec/20_memory.md R71: fields are little-endian, byte j of the value at the j-th address; a read after a
write gives the value written, and every other byte is as before. -/
def Obligations.LittleEndianFields : Prop :=
  ∀ (m : Memory) (a n v : Nat), a + n ≤ 2 ^ 64 →
    (m.writeNat a n v).readNat a n = v % 2 ^ (8 * n)
    ∧ (∀ j, j < n → ((m.writeNat a n v).read (a + j)).toNat = v / 2 ^ (8 * j) % 256)
    ∧ SameOutside [extent a n] m (m.writeNat a n v)

/-- Every step keeps memory in its canonical form. -/
def Obligations.StepKeepsMemoryCanonical : Prop :=
  ∀ s t : State, s.mem.wf → step s = .next t → t.mem.wf

/-- spec/10_state.md R36 to R44: every step keeps the registers at values their rules allow. -/
def Obligations.StepKeepsRegistersLegal : Prop :=
  ∀ s t : State, s.RegistersLegal → step s = .next t → t.RegistersLegal

/-- spec/10_state.md R50, spec/45_codec.md R242 to R244: every step keeps the shape of the context: k at least 1,
k and m fitting the variant, the variant's shard size multiple, and for a Classical context k + m rows of k
entries. The entries' values are no part of it. -/
def Obligations.StepKeepsContextLegal : Prop :=
  ∀ s t : State, s.ContextLegal → step s = .next t → t.ContextLegal

/-- spec/10_state.md R53, spec/48_control.md R345: every step keeps the inversion cache within its capacity
and every entry the inverse for its key. -/
def Obligations.StepKeepsCacheCorrect : Prop :=
  ∀ s t : State, s.CacheLegal → step s = .next t → t.CacheLegal

/-- spec/48_control.md R345: whatever correct entries the cache holds, a command does the same. CONFIGURE
and ICFLUSH empty the cache when they succeed, and so does a reset. -/
def Obligations.CacheTransparency : Prop :=
  (∀ (i : Instr) (s : State) (c : List CacheEntry), CacheCorrect s.params s.ctx s.icache →
    CacheCorrect s.params s.ctx c →
    ∃ t u, exec i s = .next t ∧ exec i { s with icache := c } = .next u ∧ u = { t with icache := u.icache })
  ∧ (∀ (i : Instr) (s t : State) (p : Plan), (isConfigure i = true ∨ ∃ q, i = .icflush q) →
    planOf i s = .ok p → exec i s = .next t → t.icache = [])
  ∧ (∀ s : State, (resetMachine s).icache = [])

/-! ### Field unit -/

/-- spec/41_field.md R134, R139 for FS0, and R137 for FS1 and FS2: multiplication, inverse and power equal
the table formulas. -/
def Obligations.FieldTableFormulas : Prop :=
  ∀ (fs : FS) (a b : Nat), a < 2 ^ width fs → b < 2 ^ width fs →
    mul fs a b = (if a = 0 ∨ b = 0 then 0
      else expTable fs ((logTable fs a + logTable fs b) % order fs))
    ∧ (a ≠ 0 → inv fs a = expTable fs ((order fs - logTable fs a) % order fs))
    ∧ (∀ n, n < 2 ^ 32 → pow fs a n = (if n = 0 then 1 else if a = 0 then 0
        else expTable fs (logTable fs a * n % order fs)))
    ∧ (a ≠ 0 → logTable fs a < order fs ∧ expTable fs (logTable fs a) = a)

/-- spec/41_field.md R148: the arithmetic laws of each representation. -/
def Obligations.FieldArithmeticLaws : Prop :=
  ∀ (fs : FS) (a b c : Nat), a < 2 ^ width fs → b < 2 ^ width fs → c < 2 ^ width fs →
    mul fs a b < 2 ^ width fs ∧ mul fs a b = mul fs b a
    ∧ mul fs (mul fs a b) c = mul fs a (mul fs b c)
    ∧ mul fs a (b ^^^ c) = mul fs a b ^^^ mul fs a c
    ∧ a ^^^ b = b ^^^ a ∧ (a ^^^ b) ^^^ c = a ^^^ (b ^^^ c) ∧ a ^^^ 0 = a ∧ a ^^^ a = 0
    ∧ mul fs a 1 = a ∧ mul fs a 0 = 0
    ∧ (a ≠ 0 → mul fs a (inv fs a) = 1)
    ∧ (mul fs a b = 0 → a = 0 ∨ b = 0)

/-- spec/20_memory.md R72: where the elements of an FS2 buffer of a multiple of 64 bytes lie; an FS0 or FS1
buffer of any length holds one element per byte. The elements determine the bytes. -/
def Obligations.Gf16BufferLayout : Prop :=
  ∀ bs : List Byte,
    (bs.length % 64 = 0 →
      (toElems .gf16c bs).length = bs.length / 2
      ∧ ofElems .gf16c (toElems .gf16c bs) = bs
      ∧ ∀ b j, 64 * b < bs.length → j < 32 →
        (toElems .gf16c bs)[32 * b + j]?
          = some ((bs.getD (64 * b + j) 0).toNat + 256 * (bs.getD (64 * b + 32 + j) 0).toNat))
    ∧ ∀ fs, fs ≠ .gf16c → toElems fs bs = bs.map BitVec.toNat ∧ ofElems fs (toElems fs bs) = bs

/-- spec/41_field.md R141 to R143: GF_ADD and GF_MUL. -/
def Obligations.FieldAddAndMultiply : Prop :=
  ∀ (irq : Bool) (fs : FS) (a b : Word) (s : State), CanComplete s →
    (a.toNat < 2 ^ width fs → b.toNat < 2 ^ width fs →
      exec (.gfAdd irq fs a b) s = .next (succeeded irq (a ^^^ b) s)
      ∧ exec (.gfMul irq fs a b) s
          = .next (succeeded irq (BitVec.ofNat 32 (mul fs a.toNat b.toNat)) s))
    ∧ (¬ a.toNat < 2 ^ width fs →
      exec (.gfAdd irq fs a b) s = .next (failed 0x10 irq { code := .badArgument, idx := 0 } s)
      ∧ exec (.gfMul irq fs a b) s = .next (failed 0x11 irq { code := .badArgument, idx := 0 } s))
    ∧ (a.toNat < 2 ^ width fs → ¬ b.toNat < 2 ^ width fs →
      exec (.gfAdd irq fs a b) s = .next (failed 0x10 irq { code := .badArgument, idx := 1 } s)
      ∧ exec (.gfMul irq fs a b) s = .next (failed 0x11 irq { code := .badArgument, idx := 1 } s))

/-- spec/41_field.md R144 to R147: GF_INV, GF_POW, GF_LOG and GF_ALOG, with the values of their rules. The
inverse is the element whose product with the operand is 1. -/
def Obligations.FieldInversePowerLogarithm : Prop :=
  ∀ (irq : Bool) (fs : FS) (a n : Word) (s : State), CanComplete s →
    (a.toNat < 2 ^ width fs → a ≠ 0 →
      (∃ r : Nat, exec (.gfInv irq fs a) s = .next (succeeded irq (BitVec.ofNat 32 r) s)
        ∧ r < 2 ^ width fs ∧ mul fs a.toNat r = 1)
      ∧ (∃ l : Nat, exec (.gfLog irq fs a) s = .next (succeeded irq (BitVec.ofNat 32 l) s)
        ∧ l < order fs ∧ fromPoly fs (xpow fs l) = a.toNat))
    ∧ (a.toNat < 2 ^ width fs →
      exec (.gfPow irq fs a n) s = .next (succeeded irq (BitVec.ofNat 32 (pow fs a.toNat n.toNat)) s))
    ∧ exec (.gfAlog irq fs n) s
        = .next (succeeded irq (BitVec.ofNat 32 (fromPoly fs (xpow fs (n.toNat % order fs)))) s)
    ∧ (exec (.gfInv irq fs 0) s = .next (failed 0x12 irq { code := .domain, idx := 0 } s)
      ∧ exec (.gfLog irq fs 0) s = .next (failed 0x14 irq { code := .domain, idx := 0 } s))
    ∧ (¬ a.toNat < 2 ^ width fs →
      exec (.gfInv irq fs a) s = .next (failed 0x12 irq { code := .badArgument, idx := 0 } s)
      ∧ exec (.gfPow irq fs a n) s = .next (failed 0x13 irq { code := .badArgument, idx := 0 } s)
      ∧ exec (.gfLog irq fs a) s = .next (failed 0x14 irq { code := .badArgument, idx := 0 } s))

/-! ### Control commands -/

/-- spec/48_control.md R346, R347, R349: NOP, ICFLUSH and ARESET. -/
def Obligations.ControlCommands : Prop :=
  ∀ (irq : Bool) (s : State), CanComplete s →
    exec (.nop irq) s = .next (succeeded irq 0 s)
    ∧ exec (.icflush irq) s = .next (succeeded irq 0 { s with icache := [] })
    ∧ exec (.areset irq) s = .next (succeeded irq 0 { s with scrNext := s.scrBase })

/-- spec/48_control.md R348: ALLOC zero-fills n buffers at ascending arena addresses, writes their table,
advances SCR_NEXT and returns n (log 23: the summary table of 30_encoding.md R115 says 0); and its errors,
in their order. -/
def Obligations.AllocBuffers : Prop :=
  ∀ (irq : Bool) (n len : Word) (tab : Addr) (s : State), CanComplete s →
    (65536 < n.toNat → exec (.alloc irq n len tab) s
      = .next (failed 0x02 irq { code := .badArgument, idx := 0 } s))
    ∧ (n.toNat ≤ 65536 → 0 < n.toNat → 0 < len.toNat →
      ¬ (s.scrNext.toNat + n.toNat * roundup64 len.toNat ≤ s.scrLimit.toNat
        ∧ s.scrBase.toNat ≤ s.scrNext.toNat) →
      exec (.alloc irq n len tab) s = .next (failed 0x02 irq { code := .scratchExhausted, idx := 0xFFFF } s))
    ∧ (n.toNat ≤ 65536 →
      (0 < n.toNat → 0 < len.toNat → s.scrNext.toNat + n.toNat * roundup64 len.toNat ≤ s.scrLimit.toNat
        ∧ s.scrBase.toNat ≤ s.scrNext.toNat) →
      (footprintClear [descRange s] (storeRanges (.alloc irq n len tab) s) = false →
        exec (.alloc irq n len tab) s = .next (failed 0x02 irq { code := .overlap, idx := 0xFFFF } s))
      ∧ (footprintClear [descRange s] (storeRanges (.alloc irq n len tab) s) = true →
        (∀ j, j < n.toNat → Writable s (s.scrNext.toNat + j * roundup64 len.toNat) len.toNat
          ∧ Writable s (tab.toNat + 16 * j) 8 ∧ Writable s (tab.toNat + 16 * j + 8) 4
          ∧ Writable s (tab.toNat + 16 * j + 12) 4) →
        exec (.alloc irq n len tab) s = .next (succeeded irq n
          { s with
            mem := (List.range n.toNat).foldl (fun m j =>
              (((m.writeBytes (s.scrNext.toNat + j * roundup64 len.toNat)
                (List.replicate len.toNat 0)).writeNat
                (tab.toNat + 16 * j) 8 (s.scrNext.toNat + j * roundup64 len.toNat)).writeNat
                (tab.toNat + 16 * j + 8) 4 len.toNat).writeNat (tab.toNat + 16 * j + 12) 4 len.toNat) s.mem
            scrNext := BitVec.ofNat 64 (s.scrNext.toNat + n.toNat * roundup64 len.toNat) })))

/-! ### Matrix unit and generator -/

/-- spec/42_matrix.md R160, R162 and spec/43_generator.md R197: MAT_IDENT and MAT_VAND, BAD_ARGUMENT for the first
dimension out of range, and OVERLAP (spec/20_memory.md R79) of the destination with the descriptor. -/
def Obligations.MatrixIdentityAndVandermonde : Prop :=
  ∀ (irq : Bool) (a b : Word) (dst : Addr) (s : State), CanComplete s →
    (∀ j, FirstIllegal [a] j → exec (.matIdent irq a dst) s
      = .next (failed 0x20 irq { code := .badArgument, idx := BitVec.ofNat 16 j } s))
    ∧ (∀ j, FirstIllegal [a, b] j → exec (.matVand irq a b dst) s
      = .next (failed 0x28 irq { code := .badArgument, idx := BitVec.ofNat 16 j } s))
    ∧ (DimensionLegal a →
      (¬ Apart (extent dst.toNat (a.toNat * a.toNat)) (descriptor s) →
        exec (.matIdent irq a dst) s = .next (failed 0x20 irq { code := .overlap, idx := 0xFFFF } s))
      ∧ (Apart (extent dst.toNat (a.toNat * a.toNat)) (descriptor s) →
        (∀ j, j < a.toNat * a.toNat → Writable s (dst.toNat + j) 1) →
        exec (.matIdent irq a dst) s = .next (succeeded irq 0 { s with
          mem := s.mem.writeBytes dst.toNat
            (matrixBytes (tabulate a.toNat a.toNat fun i j => if i = j then 1 else 0)) })))
    ∧ (DimensionLegal a → DimensionLegal b →
      (256 < a.toNat → exec (.matVand irq a b dst) s
        = .next (failed 0x28 irq { code := .badArgument, idx := 0 } s))
      ∧ (a.toNat ≤ 256 → ¬ Apart (extent dst.toNat (a.toNat * b.toNat)) (descriptor s) →
        exec (.matVand irq a b dst) s = .next (failed 0x28 irq { code := .overlap, idx := 0xFFFF } s))
      ∧ (a.toNat ≤ 256 → Writable s dst.toNat (a.toNat * b.toNat) →
        Apart (extent dst.toNat (a.toNat * b.toNat)) (descriptor s) →
        exec (.matVand irq a b dst) s = .next (succeeded irq 0 { s with
          mem := s.mem.writeBytes dst.toNat
            (matrixBytes (tabulate a.toNat b.toNat fun i j => pow .gf8 i j)) })))

/-- spec/42_matrix.md R160, R163, R167: MAT_MUL and MAT_AUG, where the shapes agree; BAD_ARGUMENT for the first
dimension out of range, SHAPE_MISMATCH where the shapes do not agree, BAD_ARGUMENT for an augmentation of more than
512 columns, and OVERLAP (spec/20_memory.md R79) of the destination with the descriptor or a source. -/
def Obligations.MatrixProductAndAugment : Prop :=
  ∀ (irq : Bool) (ra ca rb cb : Word) (x y dst : Addr) (s : State), CanComplete s →
    (∀ j, FirstIllegal [ra, ca, rb, cb] j →
      exec (.matMul irq ra ca rb cb x y dst) s
        = .next (failed 0x21 irq { code := .badArgument, idx := BitVec.ofNat 16 j } s)
      ∧ exec (.matAug irq ra ca rb cb x y dst) s
        = .next (failed 0x24 irq { code := .badArgument, idx := BitVec.ofNat 16 j } s))
    ∧ (DimensionLegal ra → DimensionLegal ca → DimensionLegal rb → DimensionLegal cb →
      (Readable s x.toNat (ra.toNat * ca.toNat) → Readable s y.toNat (rb.toNat * cb.toNat) →
        (ca = rb → ¬ (Apart (extent dst.toNat (ra.toNat * cb.toNat)) (descriptor s)
            ∧ Apart (extent dst.toNat (ra.toNat * cb.toNat)) (extent x.toNat (ra.toNat * ca.toNat))
            ∧ Apart (extent dst.toNat (ra.toNat * cb.toNat)) (extent y.toNat (rb.toNat * cb.toNat))) →
          exec (.matMul irq ra ca rb cb x y dst) s
            = .next (failed 0x21 irq { code := .overlap, idx := 0xFFFF } s))
        ∧ (ra = rb → ca.toNat + cb.toNat ≤ 512 →
          ¬ (Apart (extent dst.toNat (ra.toNat * (ca.toNat + cb.toNat))) (descriptor s)
            ∧ Apart (extent dst.toNat (ra.toNat * (ca.toNat + cb.toNat))) (extent x.toNat (ra.toNat * ca.toNat))
            ∧ Apart (extent dst.toNat (ra.toNat * (ca.toNat + cb.toNat))) (extent y.toNat (rb.toNat * cb.toNat))) →
          exec (.matAug irq ra ca rb cb x y dst) s
            = .next (failed 0x24 irq { code := .overlap, idx := 0xFFFF } s))
        ∧ (ca = rb → Writable s dst.toNat (ra.toNat * cb.toNat) →
          Apart (extent dst.toNat (ra.toNat * cb.toNat)) (descriptor s) →
          Apart (extent dst.toNat (ra.toNat * cb.toNat)) (extent x.toNat (ra.toNat * ca.toNat)) →
          Apart (extent dst.toNat (ra.toNat * cb.toNat)) (extent y.toNat (rb.toNat * cb.toNat)) →
          exec (.matMul irq ra ca rb cb x y dst) s = .next (succeeded irq 0 { s with
            mem := s.mem.writeBytes dst.toNat (matrixBytes (tabulate ra.toNat cb.toNat fun i j =>
              xorSum ((List.range ca.toNat).map fun e =>
                mul .gf8 (s.mem.read (x.toNat + i * ca.toNat + e)).toNat
                  (s.mem.read (y.toNat + e * cb.toNat + j)).toNat))) }))
        ∧ (ra = rb → ca.toNat + cb.toNat ≤ 512 →
          Writable s dst.toNat (ra.toNat * (ca.toNat + cb.toNat)) →
          Apart (extent dst.toNat (ra.toNat * (ca.toNat + cb.toNat))) (descriptor s) →
          Apart (extent dst.toNat (ra.toNat * (ca.toNat + cb.toNat))) (extent x.toNat (ra.toNat * ca.toNat)) →
          Apart (extent dst.toNat (ra.toNat * (ca.toNat + cb.toNat))) (extent y.toNat (rb.toNat * cb.toNat)) →
          exec (.matAug irq ra ca rb cb x y dst) s = .next (succeeded irq 0 { s with
            mem := s.mem.writeBytes dst.toNat (matrixBytes (tabulate ra.toNat (ca.toNat + cb.toNat) fun i j =>
              if j < ca.toNat then (s.mem.read (x.toNat + i * ca.toNat + j)).toNat
              else (s.mem.read (y.toNat + i * cb.toNat + (j - ca.toNat))).toNat)) })))
      ∧ (ca ≠ rb → exec (.matMul irq ra ca rb cb x y dst) s
          = .next (failed 0x21 irq { code := .shapeMismatch, idx := 0xFFFF } s))
      ∧ (ra ≠ rb → exec (.matAug irq ra ca rb cb x y dst) s
          = .next (failed 0x24 irq { code := .shapeMismatch, idx := 0xFFFF } s))
      ∧ (ra = rb → 512 < ca.toNat + cb.toNat → exec (.matAug irq ra ca rb cb x y dst) s
          = .next (failed 0x24 irq { code := .badArgument, idx := 3 } s)))

/-- spec/42_matrix.md R160, R165: MAT_INV, in place or not, and SINGULAR with the destination untouched;
BAD_ARGUMENT for the first dimension out of range, SHAPE_MISMATCH, and OVERLAP (spec/20_memory.md R79) of the
destination with the descriptor or with a source that is not itself. -/
def Obligations.MatrixInverse : Prop :=
  ∀ (irq : Bool) (n cols : Word) (src dst : Addr) (s : State), CanComplete s →
    (∀ j, FirstIllegal [n, cols] j → exec (.matInv irq n cols src dst) s
      = .next (failed 0x22 irq { code := .badArgument, idx := BitVec.ofNat 16 j } s))
    ∧ (DimensionLegal n → DimensionLegal cols →
      (n = cols → Readable s src.toNat (n.toNat * n.toNat) →
        (∀ y, invert n.toNat (matrixAt s src.toNat n.toNat n.toNat) = some y →
          ¬ Apart (extent dst.toNat (n.toNat * n.toNat)) (descriptor s)
            ∨ (src ≠ dst ∧ ¬ Apart (extent dst.toNat (n.toNat * n.toNat)) (extent src.toNat (n.toNat * n.toNat))) →
          exec (.matInv irq n cols src dst) s = .next (failed 0x22 irq { code := .overlap, idx := 0xFFFF } s))
        ∧ (∀ y, invert n.toNat (matrixAt s src.toNat n.toNat n.toNat) = some y →
          Writable s dst.toNat (n.toNat * n.toNat) →
          Apart (extent dst.toNat (n.toNat * n.toNat)) (descriptor s) →
          src = dst ∨ Apart (extent dst.toNat (n.toNat * n.toNat)) (extent src.toNat (n.toNat * n.toNat)) →
          exec (.matInv irq n cols src dst) s
            = .next (succeeded irq 0 { s with mem := s.mem.writeBytes dst.toNat (matrixBytes y) }))
        ∧ (invert n.toNat (matrixAt s src.toNat n.toNat n.toNat) = none →
          exec (.matInv irq n cols src dst) s
            = .next (failed 0x22 irq { code := .singular, idx := 0xFFFF } s)))
      ∧ (n ≠ cols → exec (.matInv irq n cols src dst) s
          = .next (failed 0x22 irq { code := .shapeMismatch, idx := 0xFFFF } s)))

/-- spec/42_matrix.md R164: what `invert` answers is the inverse, and it answers Singular exactly when there
is none. -/
def Obligations.GaussJordanInverts : Prop :=
  ∀ (n : Nat) (x : Matrix), SquareMatrix n x →
    (∀ y, invert n x = some y → SquareMatrix n y ∧ matProduct n n n x y = identity n)
    ∧ (invert n x = none ↔ ¬ ∃ y, SquareMatrix n y ∧ matProduct n n n x y = identity n)

/-- spec/42_matrix.md R160, R166: MAT_SUB selects rows and columns by index lists, with strictly increasing rows
and any columns; BAD_ARGUMENT for the first dimension out of range, the first bad row index, and, once every
row index is good, the first bad column index; and OVERLAP (spec/20_memory.md R79). -/
def Obligations.MatrixSubmatrix : Prop :=
  ∀ (irq : Bool) (rows cols nr nc : Word) (src rl cl dst : Addr) (s : State), CanComplete s →
    (∀ j, FirstIllegal [rows, cols, nr, nc] j → exec (.matSub irq rows cols nr nc src rl cl dst) s
      = .next (failed 0x23 irq { code := .badArgument, idx := BitVec.ofNat 16 j } s))
    ∧ (DimensionLegal rows → DimensionLegal cols → DimensionLegal nr → DimensionLegal nc →
      (∀ j, j < nr.toNat → IndicesReadable s rl.toNat (j + 1) →
        (∀ i, i < j → s.mem.readNat (rl.toNat + 2 * i) 2 < rows.toNat
          ∧ (0 < i → s.mem.readNat (rl.toNat + 2 * (i - 1)) 2 < s.mem.readNat (rl.toNat + 2 * i) 2)) →
        (rows.toNat ≤ s.mem.readNat (rl.toNat + 2 * j) 2
          ∨ (0 < j ∧ s.mem.readNat (rl.toNat + 2 * j) 2 ≤ s.mem.readNat (rl.toNat + 2 * (j - 1)) 2)) →
        exec (.matSub irq rows cols nr nc src rl cl dst) s
          = .next (failed 0x23 irq { code := .badArgument, idx := BitVec.ofNat 16 j } s))
      ∧ (IndicesReadable s rl.toNat nr.toNat → (indicesAt s rl.toNat nr.toNat).Pairwise (· < ·) →
        (∀ r ∈ indicesAt s rl.toNat nr.toNat, r < rows.toNat) →
        (∀ j, j < nc.toNat → IndicesReadable s cl.toNat (j + 1) →
          (∀ i, i < j → s.mem.readNat (cl.toNat + 2 * i) 2 < cols.toNat) →
          cols.toNat ≤ s.mem.readNat (cl.toNat + 2 * j) 2 →
          exec (.matSub irq rows cols nr nc src rl cl dst) s
            = .next (failed 0x23 irq { code := .badArgument, idx := BitVec.ofNat 16 (0x8000 + j) } s))
        ∧ (IndicesReadable s cl.toNat nc.toNat → (∀ c ∈ indicesAt s cl.toNat nc.toNat, c < cols.toNat) →
          Readable s src.toNat (rows.toNat * cols.toNat) →
          footprintClear [descRange s, reads src.toNat (rows.toNat * cols.toNat), reads rl.toNat (2 * nr.toNat),
            reads cl.toNat (2 * nc.toNat)] [extent dst.toNat (nr.toNat * nc.toNat)] = false →
          exec (.matSub irq rows cols nr nc src rl cl dst) s
            = .next (failed 0x23 irq { code := .overlap, idx := 0xFFFF } s))
        ∧ (IndicesReadable s cl.toNat nc.toNat → (∀ c ∈ indicesAt s cl.toNat nc.toNat, c < cols.toNat) →
          Readable s src.toNat (rows.toNat * cols.toNat) → Writable s dst.toNat (nr.toNat * nc.toNat) →
          footprintClear [descRange s, reads src.toNat (rows.toNat * cols.toNat), reads rl.toNat (2 * nr.toNat),
            reads cl.toNat (2 * nc.toNat)] [extent dst.toNat (nr.toNat * nc.toNat)] = true →
          exec (.matSub irq rows cols nr nc src rl cl dst) s = .next (succeeded irq 0 { s with
            mem := s.mem.writeBytes dst.toNat (matrixBytes ((indicesAt s rl.toNat nr.toNat).map fun r =>
              (indicesAt s cl.toNat nc.toNat).map fun c =>
                (s.mem.read (src.toNat + r * cols.toNat + c)).toNat)) }))))

/-- spec/43_generator.md R192 to R196, R198: MAT_GEN writes the matrix its builder makes, with fast-one-parity
only for m = 1, or completes with OVERLAP (spec/20_memory.md R79), and every builder makes one. The
Vandermonde builder's has the identity on top and its product with the top k rows of the raw matrix is the raw
matrix. The Jerasure builder's comes from the matrix d whose product with the top k rows of the start matrix
is the start matrix: row k and column 0 of its parity are scaled to ones. The Cauchy and PAR1 builders make
the entries their rules give. -/
def Obligations.GeneratedMatrix : Prop :=
  ∀ (irq fastone : Bool) (k m kind : Word) (dst : Addr) (s : State), CanComplete s →
    (1 ≤ k.toNat → k.toNat + m.toNat ≤ 256 → kind.toNat ≤ 3 →
      ¬ Apart (extent dst.toNat ((k.toNat + m.toNat) * k.toNat)) (descriptor s) →
      ∀ mx, buildMatrix (kindOf kind.toNat) k.toNat m.toNat = some mx →
        exec (.matGen irq fastone k m kind dst) s
          = .next (failed 0x29 irq { code := .overlap, idx := 0xFFFF } s))
    ∧ (1 ≤ k.toNat → k.toNat + m.toNat ≤ 256 → kind.toNat ≤ 3 →
      Writable s dst.toNat ((k.toNat + m.toNat) * k.toNat) →
      Apart (extent dst.toNat ((k.toNat + m.toNat) * k.toNat)) (descriptor s) →
      ∀ mx, buildMatrix (kindOf kind.toNat) k.toNat m.toNat = some mx →
        exec (.matGen irq fastone k m kind dst) s = .next (succeeded irq 0 { s with
          mem := s.mem.writeBytes dst.toNat (matrixBytes
            (if fastone = true ∧ m.toNat = 1 then mx.take k.toNat ++ [List.replicate k.toNat 1] else mx)) }))
    ∧ (k = 0 → exec (.matGen irq fastone k m kind dst) s
        = .next (failed 0x29 irq { code := .invShardNum, idx := 0xFFFF } s))
    ∧ (1 ≤ k.toNat → ¬ k.toNat + m.toNat ≤ 256 → exec (.matGen irq fastone k m kind dst) s
        = .next (failed 0x29 irq { code := .maxShardNum, idx := 0xFFFF } s))
    ∧ (1 ≤ k.toNat → k.toNat + m.toNat ≤ 256 → ¬ kind.toNat ≤ 3 →
        exec (.matGen irq fastone k m kind dst) s
          = .next (failed 0x29 irq { code := .badArgument, idx := 2 } s))
    ∧ (1 ≤ k.toNat → k.toNat + m.toNat ≤ 256 →
      (∃ mx, buildMatrix .cauchy k.toNat m.toNat = some mx ∧ mx.length = k.toNat + m.toNat
        ∧ ∀ i j, i < k.toNat + m.toNat → j < k.toNat → entry mx i j
            = if i < k.toNat then (if i = j then 1 else 0) else inv .gf8 (i ^^^ j))
      ∧ (∃ mx, buildMatrix .par1 k.toNat m.toNat = some mx ∧ mx.length = k.toNat + m.toNat
        ∧ ∀ i j, i < k.toNat + m.toNat → j < k.toNat → entry mx i j
            = if i < k.toNat then (if i = j then 1 else 0) else pow .gf8 (j + 1) (i - k.toNat))
      ∧ (∃ mx, buildMatrix .vandermonde k.toNat m.toNat = some mx ∧ mx.length = k.toNat + m.toNat
        ∧ (∀ row ∈ mx, row.length = k.toNat) ∧ mx.take k.toNat = identity k.toNat
        ∧ matProduct (k.toNat + m.toNat) k.toNat k.toNat mx
            (tabulate k.toNat k.toNat fun i j => pow .gf8 i j)
          = tabulate (k.toNat + m.toNat) k.toNat fun i j => pow .gf8 i j)
      ∧ (∃ mx d start, buildMatrix .jerasure k.toNat m.toNat = some mx ∧ mx.length = k.toNat + m.toNat
        ∧ (start = tabulate (k.toNat + m.toNat) k.toNat fun i j =>
            if i = 0 then (if j = 0 then 1 else 0)
            else if i = k.toNat + m.toNat - 1 then (if j = k.toNat - 1 then 1 else 0)
            else pow .gf8 i j)
        ∧ SquareMatrix k.toNat (d.take k.toNat) ∧ d.take k.toNat = identity k.toNat
        ∧ matProduct (k.toNat + m.toNat) k.toNat k.toNat d (start.take k.toNat) = start
        ∧ (∀ j, j < k.toNat → 0 < m.toNat → entry d k.toNat j ≠ 0)
        ∧ (∀ i, k.toNat ≤ i → i < k.toNat + m.toNat → entry d i 0 ≠ 0)
        ∧ ∀ i j, i < k.toNat + m.toNat → j < k.toNat → entry mx i j
            = if i < k.toNat then (if i = j then 1 else 0)
              else mul .gf8 (mul .gf8 (inv .gf8 (entry d k.toNat j)) (entry d i j))
                (inv .gf8 (mul .gf8 (inv .gf8 (entry d k.toNat 0)) (entry d i 0)))))

/-! ### Byte kernel -/

/-- spec/44_kernel.md R220, R222: what the engine computes at each element position. -/
def Obligations.KernelElementwise : Prop :=
  (∀ (fs : FS) (c : Nat) (dst src : List Byte), dst.length = src.length → c < 2 ^ width fs →
    (fs = .gf16c → src.length % 64 = 0) →
    toElems fs (axpyBuf fs c dst src)
      = List.zipWith (fun d x => d ^^^ mul fs c x) (toElems fs dst) (toElems fs src)
    ∧ toElems fs (scaleBuf fs c src) = (toElems fs src).map (mul fs c)
    ∧ (axpyBuf fs c dst src).length = src.length ∧ (scaleBuf fs c src).length = src.length)
  ∧ (∀ (n : Nat) (cs : List Nat) (bufs : List (List Byte)), cs.length = bufs.length →
    (∀ b ∈ bufs, b.length = n) → (∀ c ∈ cs, c < 256) →
    ∀ e, e < n → ((linearCombination n cs bufs).getD e 0).toNat
      = xorSum (List.zipWith (fun c b => mul .gf8 c (b.getD e 0).toNat) cs bufs))

/-- spec/44_kernel.md R224, R225: KAXPY and KMULC, in place or not, and their errors; spec/20_memory.md R79:
OVERLAP where the destination shares a byte with the descriptor or with a source that is not itself. -/
def Obligations.KernelMultiplyAccumulate : Prop :=
  ∀ (irq : Bool) (fs : FS) (c len : Word) (src dst : Addr) (s : State), CanComplete s →
    (c.toNat < 2 ^ width fs → (fs = .gf16c → len.toNat % 64 = 0) →
      Readable s src.toNat len.toNat → Writable s dst.toNat len.toNat →
      Apart (extent dst.toNat len.toNat) (descriptor s) →
      src = dst ∨ Apart (extent dst.toNat len.toNat) (extent src.toNat len.toNat) →
      (Readable s dst.toNat len.toNat → exec (.kaxpy irq fs c len src dst) s = .next (succeeded irq 0 { s with
        mem := s.mem.writeBytes dst.toNat (axpyBuf fs c.toNat (s.mem.readBytes dst.toNat len.toNat)
          (s.mem.readBytes src.toNat len.toNat)) }))
      ∧ exec (.kmulc irq fs c len src dst) s = .next (succeeded irq 0 { s with
        mem := s.mem.writeBytes dst.toNat (scaleBuf fs c.toNat (s.mem.readBytes src.toNat len.toNat)) }))
    ∧ (¬ c.toNat < 2 ^ width fs →
      exec (.kaxpy irq fs c len src dst) s = .next (failed 0x30 irq { code := .badArgument, idx := 0 } s)
      ∧ exec (.kmulc irq fs c len src dst) s = .next (failed 0x31 irq { code := .badArgument, idx := 0 } s))
    ∧ (c.toNat < 2 ^ width fs → fs = .gf16c → len.toNat % 64 ≠ 0 →
      exec (.kaxpy irq fs c len src dst) s = .next (failed 0x30 irq { code := .shardSize, idx := 0xFFFF } s)
      ∧ exec (.kmulc irq fs c len src dst) s
          = .next (failed 0x31 irq { code := .shardSize, idx := 0xFFFF } s))
    ∧ (c.toNat < 2 ^ width fs → (fs = .gf16c → len.toNat % 64 = 0) →
      ¬ Apart (extent dst.toNat len.toNat) (descriptor s)
        ∨ (src ≠ dst ∧ ¬ Apart (extent dst.toNat len.toNat) (extent src.toNat len.toNat)) →
      exec (.kaxpy irq fs c len src dst) s = .next (failed 0x30 irq { code := .overlap, idx := 0xFFFF } s)
      ∧ exec (.kmulc irq fs c len src dst) s
          = .next (failed 0x31 irq { code := .overlap, idx := 0xFFFF } s))

/-- spec/44_kernel.md R226: KCODE, and its errors in their order; OVERLAP is that of spec/20_memory.md R79. -/
def Obligations.KernelCode : Prop :=
  ∀ (irq acc : Bool) (rows cols len : Word) (g inTab outTab : Addr) (s : State) (clear : Bool), CanComplete s →
    clear = footprintClear
      ([descRange s, reads g.toNat (rows.toNat * cols.toNat), reads inTab.toNat (8 * cols.toNat),
        reads outTab.toNat (8 * rows.toNat)]
        ++ (pointersAt s inTab.toNat cols.toNat).map fun a => reads a len.toNat)
      ((pointersAt s outTab.toNat rows.toNat).map fun a => extent a len.toNat) →
    (¬ (1 ≤ rows.toNat ∧ rows.toNat ≤ 256) → exec (.kcode irq acc rows cols len g inTab outTab) s
      = .next (failed 0x32 irq { code := .badArgument, idx := 0 } s))
    ∧ (1 ≤ rows.toNat → rows.toNat ≤ 256 → ¬ (1 ≤ cols.toNat ∧ cols.toNat ≤ 256) →
      exec (.kcode irq acc rows cols len g inTab outTab) s
        = .next (failed 0x32 irq { code := .badArgument, idx := 1 } s))
    ∧ (1 ≤ rows.toNat → rows.toNat ≤ 256 → 1 ≤ cols.toNat → cols.toNat ≤ 256 →
      Readable s g.toNat (rows.toNat * cols.toNat) → PointersReadable s inTab.toNat cols.toNat →
      PointersReadable s outTab.toNat rows.toNat →
      (clear = false → exec (.kcode irq acc rows cols len g inTab outTab) s
        = .next (failed 0x32 irq { code := .overlap, idx := 0xFFFF } s))
      ∧ (clear = true → (∀ a ∈ pointersAt s inTab.toNat cols.toNat, Readable s a len.toNat) →
        (∀ a ∈ pointersAt s outTab.toNat rows.toNat,
          Writable s a len.toNat ∧ (acc = true → Readable s a len.toNat)) →
        exec (.kcode irq acc rows cols len g inTab outTab) s = .next (succeeded irq 0 { s with
          mem := s.mem.putAll (List.zipWith
            (fun row a => { addr := a, striped := true, bytes :=
              if acc then xorBuf (s.mem.readBytes a len.toNat) (linearCombination len.toNat row
                  ((pointersAt s inTab.toNat cols.toNat).map fun b => s.mem.readBytes b len.toNat))
              else (linearCombination len.toNat row
                  ((pointersAt s inTab.toNat cols.toNat).map fun b => s.mem.readBytes b len.toNat)) })
            (matrixAt s g.toNat rows.toNat cols.toNat) (pointersAt s outTab.toNat rows.toNat)) })))

/-! ### FFT unit -/

/-- spec/46_fft.md R305, R307: the butterflies and the transforms undo one another. -/
def Obligations.TransformsInvert : Prop :=
  (∀ (fs : FS) (sk : Nat) (x y : Vec), x.length = y.length →
    bflyIfft fs sk (bflyFft fs sk x y).1 (bflyFft fs sk x y).2 = (x, y)
    ∧ bflyFft fs sk (bflyIfft fs sk x y).1 (bflyIfft fs sk x y).2 = (x, y))
  ∧ (∀ (fs : FS) (l b e : Nat) (w : List Vec), w.length = 2 ^ l → (∀ v ∈ w, v.length = e) →
    fft fs (2 ^ l) b (ifft fs (2 ^ l) b w) = w ∧ ifft fs (2 ^ l) b (fft fs (2 ^ l) b w) = w)

/-- spec/46_fft.md R308: every target's final value is its original value XOR the original values of all
its sources. The shard at j gains the shard at i exactly when lowBit(i) > i - 1 - j ≥ 0 for some step,
which the rule writes as i - wd ≤ j' < i. -/
def Obligations.FormalDerivativeOfOriginals : Prop :=
  ∀ (l e : Nat) (w : List Vec), w.length = 2 ^ l → (∀ v ∈ w, v.length = e) → ∀ j, j < 2 ^ l →
    (fderiv (2 ^ l) w)[j]? = some (((List.range (2 ^ l)).filter fun i =>
        decide (i ≠ 0 ∧ i - lowBit i ≤ j ∧ j < i)).foldl
      (fun acc i => addVec acc (w.getD (j + lowBit i) [])) (w.getD j []))

/-- spec/46_fft.md R320, R321: BFLY_FFT and BFLY_IFFT, and their errors in their order; OVERLAP
(spec/20_memory.md R79) is that of the two buffers, or of one with the descriptor. -/
def Obligations.ButterflyCommands : Prop :=
  ∀ (irq : Bool) (fs : FS) (sk len : Word) (x y : Addr) (s : State), fs ≠ .gf8 → CanComplete s →
    (sk.toNat < 2 ^ width fs → (fs = .gf16c → len.toNat % 64 = 0) →
      Readable s x.toNat len.toNat → Readable s y.toNat len.toNat →
      Writable s x.toNat len.toNat → Writable s y.toNat len.toNat →
      Apart (extent x.toNat len.toNat) (extent y.toNat len.toNat) →
      Apart (extent x.toNat len.toNat) (descriptor s) → Apart (extent y.toNat len.toNat) (descriptor s) →
      exec (.bflyFft irq fs sk len x y) s = .next (succeeded irq 0 { s with
        mem := (s.mem.writeBytes x.toNat (ofElems fs (bflyFft fs sk.toNat
            (toElems fs (s.mem.readBytes x.toNat len.toNat))
            (toElems fs (s.mem.readBytes y.toNat len.toNat))).1)).writeBytes y.toNat
          (ofElems fs (bflyFft fs sk.toNat (toElems fs (s.mem.readBytes x.toNat len.toNat))
            (toElems fs (s.mem.readBytes y.toNat len.toNat))).2) })
      ∧ exec (.bflyIfft irq fs sk len x y) s = .next (succeeded irq 0 { s with
        mem := (s.mem.writeBytes x.toNat (ofElems fs (bflyIfft fs sk.toNat
            (toElems fs (s.mem.readBytes x.toNat len.toNat))
            (toElems fs (s.mem.readBytes y.toNat len.toNat))).1)).writeBytes y.toNat
          (ofElems fs (bflyIfft fs sk.toNat (toElems fs (s.mem.readBytes x.toNat len.toNat))
            (toElems fs (s.mem.readBytes y.toNat len.toNat))).2) }))
    ∧ (¬ sk.toNat < 2 ^ width fs →
      exec (.bflyFft irq fs sk len x y) s = .next (failed 0x38 irq { code := .badArgument, idx := 0 } s)
      ∧ exec (.bflyIfft irq fs sk len x y) s
          = .next (failed 0x39 irq { code := .badArgument, idx := 0 } s))
    ∧ (sk.toNat < 2 ^ width fs → fs = .gf16c → len.toNat % 64 ≠ 0 →
      exec (.bflyFft irq fs sk len x y) s = .next (failed 0x38 irq { code := .shardSize, idx := 0xFFFF } s)
      ∧ exec (.bflyIfft irq fs sk len x y) s
          = .next (failed 0x39 irq { code := .shardSize, idx := 0xFFFF } s))
    ∧ (sk.toNat < 2 ^ width fs → (fs = .gf16c → len.toNat % 64 = 0) →
      ¬ (Apart (extent x.toNat len.toNat) (extent y.toNat len.toNat)
        ∧ Apart (extent x.toNat len.toNat) (descriptor s) ∧ Apart (extent y.toNat len.toNat) (descriptor s)) →
      exec (.bflyFft irq fs sk len x y) s = .next (failed 0x38 irq { code := .overlap, idx := 0xFFFF } s)
      ∧ exec (.bflyIfft irq fs sk len x y) s
          = .next (failed 0x39 irq { code := .overlap, idx := 0xFFFF } s))

/-- spec/46_fft.md R322 to R324: XFORM_FFT, XFORM_IFFT and FDERIV on the buffers of a pointer table, and their
errors in their order; OVERLAP is that of spec/20_memory.md R79. -/
def Obligations.TransformCommands : Prop :=
  ∀ (irq : Bool) (fs : FS) (n base len : Word) (tab : Addr) (s : State) (bufs : List Nat) (vs : List Vec)
    (clear : Bool), fs ≠ .gf8 → CanComplete s →
    bufs = pointersAt s tab.toNat n.toNat →
    vs = bufs.map (fun a => toElems fs (s.mem.readBytes a len.toNat)) →
    clear = footprintClear [descRange s, reads tab.toNat (8 * n.toNat)] (bufs.map fun a => extent a len.toNat) →
    (¬ ((∃ l, n.toNat = 2 ^ l) ∧ n.toNat ≤ 2 ^ width fs) →
      exec (.xformFft irq fs n base len tab) s = .next (failed 0x3A irq { code := .badArgument, idx := 0 } s)
      ∧ exec (.xformIfft irq fs n base len tab) s = .next (failed 0x3B irq { code := .badArgument, idx := 0 } s)
      ∧ exec (.fderiv irq fs n len tab) s = .next (failed 0x3C irq { code := .badArgument, idx := 0 } s))
    ∧ ((∃ l, n.toNat = 2 ^ l) → n.toNat ≤ 2 ^ width fs →
      (¬ (base.toNat % n.toNat = 0 ∧ base.toNat + n.toNat ≤ 2 ^ width fs) →
        exec (.xformFft irq fs n base len tab) s = .next (failed 0x3A irq { code := .badArgument, idx := 1 } s)
        ∧ exec (.xformIfft irq fs n base len tab) s
            = .next (failed 0x3B irq { code := .badArgument, idx := 1 } s))
      ∧ (base.toNat % n.toNat = 0 → base.toNat + n.toNat ≤ 2 ^ width fs →
        (fs = .gf16c → len.toNat % 64 ≠ 0 →
          exec (.xformFft irq fs n base len tab) s
            = .next (failed 0x3A irq { code := .shardSize, idx := 0xFFFF } s)
          ∧ exec (.xformIfft irq fs n base len tab) s
            = .next (failed 0x3B irq { code := .shardSize, idx := 0xFFFF } s))
        ∧ ((fs = .gf16c → len.toNat % 64 = 0) → PointersReadable s tab.toNat n.toNat →
          (clear = false →
            exec (.xformFft irq fs n base len tab) s = .next (failed 0x3A irq { code := .overlap, idx := 0xFFFF } s)
            ∧ exec (.xformIfft irq fs n base len tab) s
              = .next (failed 0x3B irq { code := .overlap, idx := 0xFFFF } s))
          ∧ (clear = true → (∀ a ∈ bufs, Readable s a len.toNat ∧ Writable s a len.toNat) →
            exec (.xformFft irq fs n base len tab) s = .next (succeeded irq 0 { s with
              mem := s.mem.putAll (List.zipWith
                (fun a v => { addr := a, bytes := ofElems fs v, striped := true })
                bufs (fft fs n.toNat base.toNat vs)) })
            ∧ exec (.xformIfft irq fs n base len tab) s = .next (succeeded irq 0 { s with
              mem := s.mem.putAll (List.zipWith
                (fun a v => { addr := a, bytes := ofElems fs v, striped := true })
                bufs (ifft fs n.toNat base.toNat vs)) }))))
      ∧ (fs = .gf16c → len.toNat % 64 ≠ 0 →
        exec (.fderiv irq fs n len tab) s = .next (failed 0x3C irq { code := .shardSize, idx := 0xFFFF } s))
      ∧ ((fs = .gf16c → len.toNat % 64 = 0) → PointersReadable s tab.toNat n.toNat →
        (clear = false →
          exec (.fderiv irq fs n len tab) s = .next (failed 0x3C irq { code := .overlap, idx := 0xFFFF } s))
        ∧ (clear = true → (∀ a ∈ bufs, Readable s a len.toNat ∧ Writable s a len.toNat) →
          exec (.fderiv irq fs n len tab) s = .next (succeeded irq 0 { s with
            mem := s.mem.putAll (List.zipWith (fun a v => { addr := a, bytes := ofElems fs v, striped := true })
              bufs (fderiv n.toNat vs)) }))))

/-! ### Codec -/

/-- spec/45_codec.md R241, R242, R244: a CONFIGURE that succeeds, for each variant. -/
def Obligations.ConfigureContext : Prop :=
  ∀ (irq fastone noicache auto : Bool) (k m opts shape : Word) (mat : Addr) (s : State), CanComplete s →
    opts.toNat < 64 → opts.toNat % 16 ≤ 4 → opts.toNat / 16 ≤ 2 → 0 < k.toInt → 0 ≤ m.toInt →
    k.toInt + m.toInt ≤ 2 ^ 31 - 1 →
    (opts.toNat / 16 = 0 → k.toNat + m.toNat ≤ 256 →
      (∀ mx, opts.toNat % 16 ≤ 3 → buildMatrix (kindOf (opts.toNat % 16)) k.toNat m.toNat = some mx →
        exec (.configure irq fastone noicache auto k m opts shape mat) s = .next (succeeded irq 1 { s with
          icache := []
          ctx := { valid := true, k := k.toNat, m := m.toNat, variant := .classical,
                   kind := kindOf (opts.toNat % 16), fastone := fastone && decide (m.toNat = 1),
                   icache := !noicache, upgraded := false, ssm := 1,
                   matrix := fastOne fastone k.toNat m.toNat mx } }))
      ∧ (opts.toNat % 16 = 4 → shape.toNat % 65536 = m.toNat → shape.toNat / 65536 = k.toNat →
        (∀ j, j < m.toNat * k.toNat → Readable s (mat.toNat + j) 1) →
        exec (.configure irq fastone noicache auto k m opts shape mat) s = .next (succeeded irq 1 { s with
          icache := []
          ctx := { valid := true, k := k.toNat, m := m.toNat, variant := .classical, kind := .custom,
                   fastone := fastone && decide (m.toNat = 1), icache := !noicache, upgraded := false,
                   ssm := 1,
                   matrix := (fastOne fastone k.toNat m.toNat
                     (identity k.toNat ++ matrixAt s mat.toNat m.toNat k.toNat)) } })))
    ∧ (∀ v up, (v = .fft8 ∧ up = false ∧ opts.toNat / 16 = 1 ∧ fits .fft8 k.toNat m.toNat = true)
        ∨ (v = .fft16 ∧ up = false ∧ opts.toNat / 16 = 2 ∧ fits .fft16 k.toNat m.toNat = true)
        ∨ (v = .fft16 ∧ up = true ∧ opts.toNat / 16 ≠ 2 ∧ auto = true
            ∧ fits (variantOf (opts.toNat / 16)) k.toNat m.toNat = false
            ∧ fits .fft16 k.toNat m.toNat = true) →
      exec (.configure irq fastone noicache auto k m opts shape mat) s = .next (succeeded irq 64 { s with
        icache := []
        ctx := { valid := true, k := k.toNat, m := m.toNat, variant := v, kind := .vandermonde,
                 fastone := false, icache := false, upgraded := up, ssm := 64, matrix := [] } }))

/-- spec/45_codec.md R241, R242: the argument errors of CONFIGURE, in their order. -/
def Obligations.ConfigureErrors : Prop :=
  ∀ (irq fastone noicache auto : Bool) (k m opts shape : Word) (mat : Addr) (s : State), CanComplete s →
    (¬ (opts.toNat < 64 ∧ opts.toNat % 16 ≤ 4 ∧ opts.toNat / 16 ≤ 2) →
      exec (.configure irq fastone noicache auto k m opts shape mat) s
        = .next (failed 0x08 irq { code := .badArgument, idx := 2 } s))
    ∧ (opts.toNat < 64 → opts.toNat % 16 ≤ 4 → opts.toNat / 16 ≤ 2 →
      (¬ (0 < k.toInt ∧ 0 ≤ m.toInt) → exec (.configure irq fastone noicache auto k m opts shape mat) s
        = .next (failed 0x08 irq { code := .invShardNum, idx := 0xFFFF } s))
      ∧ (0 < k.toInt → 0 ≤ m.toInt →
        (2 ^ 31 - 1 < k.toInt + m.toInt → exec (.configure irq fastone noicache auto k m opts shape mat) s
          = .next (failed 0x08 irq { code := .invalidRowSize, idx := 0xFFFF } s))
        ∧ (k.toInt + m.toInt ≤ 2 ^ 31 - 1 → fits (variantOf (opts.toNat / 16)) k.toNat m.toNat = false →
          (auto = false ∨ opts.toNat / 16 = 2 ∨ fits .fft16 k.toNat m.toNat = false) →
          exec (.configure irq fastone noicache auto k m opts shape mat) s
            = .next (failed 0x08 irq { code := .maxShardNum, idx := 0xFFFF } s))
        ∧ (opts.toNat = 4 → k.toNat + m.toNat ≤ 256 →
          ¬ (shape.toNat % 65536 = m.toNat ∧ shape.toNat / 65536 = k.toNat) →
          exec (.configure irq fastone noicache auto k m opts shape mat) s
            = .next (failed 0x08 irq { code := .invalidRowSize, idx := 0xFFFF } s))))

/-- spec/45_codec.md R246: CTX_READM, and its errors; OVERLAP (spec/20_memory.md R79) is that of the
destination with the descriptor. -/
def Obligations.ReadCodingMatrix : Prop :=
  ∀ (irq : Bool) (dst : Addr) (s : State), CanComplete s →
    (s.ctx.valid = true → s.ctx.variant = .classical →
      ¬ Apart (extent dst.toNat ((s.ctx.k + s.ctx.m) * s.ctx.k)) (descriptor s) →
      exec (.ctxReadm irq dst) s = .next (failed 0x09 irq { code := .overlap, idx := 0xFFFF } s))
    ∧ (s.ctx.valid = true → s.ctx.variant = .classical →
      Writable s dst.toNat ((s.ctx.k + s.ctx.m) * s.ctx.k) →
      Apart (extent dst.toNat ((s.ctx.k + s.ctx.m) * s.ctx.k)) (descriptor s) →
      exec (.ctxReadm irq dst) s = .next (succeeded irq (BitVec.ofNat 32 ((s.ctx.k + s.ctx.m) * s.ctx.k))
        { s with mem := s.mem.writeBytes dst.toNat (matrixBytes s.ctx.matrix) }))
    ∧ (s.ctx.valid = false → exec (.ctxReadm irq dst) s
        = .next (failed 0x09 irq { code := .notConfigured, idx := 0xFFFF } s))
    ∧ (s.ctx.valid = true → s.ctx.variant ≠ .classical → exec (.ctxReadm irq dst) s
        = .next (failed 0x09 irq { code := .notSupported, idx := 0xFFFF } s))

/-- spec/45_codec.md R247 to R250: the codec preamble, before any other check; and the errors of the
shard-table load, in their order, for every command with a shard table. -/
def Obligations.CodecChecks : Prop :=
  ∀ (i : Instr) (s : State), CanComplete s →
    ((∃ q n tab, i = .encode q n tab ∨ i = .verify q n tab ∨ i = .recon q n tab ∨ i = .reconData q n tab) →
      s.ctx.valid = false →
      exec i s = .next (failed (opcodeOf i) (irqFlagOf i) { code := .notConfigured, idx := 0xFFFF } s))
    ∧ ((∃ q n tab x, i = .reconSome q n tab x)
        ∨ (∃ q c n tab x, i = .update q c n tab x) ∨ (∃ q j c l a b, i = .encodeIdx q j c l a b) →
      (s.ctx.valid = false →
        exec i s = .next (failed (opcodeOf i) (irqFlagOf i) { code := .notConfigured, idx := 0xFFFF } s))
      ∧ (s.ctx.valid = true → s.ctx.variant ≠ .classical →
        exec i s = .next (failed (opcodeOf i) (irqFlagOf i) { code := .notSupported, idx := 0xFFFF } s)))
    ∧ ∀ (q : Bool) (n : Word) (tab : Addr), s.ctx.valid = true →
      (i = .encode q n tab ∨ i = .verify q n tab ∨ i = .recon q n tab ∨ i = .reconData q n tab)
        ∨ (s.ctx.variant = .classical
          ∧ ((∃ x, i = .reconSome q n tab x) ∨ ∃ c x, i = .update q c n tab x)) →
      (n.toNat ≠ shardCount s →
        exec i s = .next (failed (opcodeOf i) q { code := .tooFewShards, idx := 0xFFFF } s))
      ∧ (n.toNat = shardCount s → TableReadable s tab.toNat (shardCount s) →
        ((∀ j, j < shardCount s → presentAt (tableAt s tab.toNat (shardCount s)) j = false) →
          exec i s = .next (failed (opcodeOf i) q { code := .shardNoData, idx := 0xFFFF } s))
        ∧ (∀ j, j < shardCount s → presentAt (tableAt s tab.toNat (shardCount s)) j = true →
          (slotAt (tableAt s tab.toNat (shardCount s)) j).len
            ≠ shardLength (tableAt s tab.toNat (shardCount s)) →
          (∀ l, l < j → presentAt (tableAt s tab.toNat (shardCount s)) l = true →
            (slotAt (tableAt s tab.toNat (shardCount s)) l).len
              = shardLength (tableAt s tab.toNat (shardCount s))) →
          exec i s = .next (failed (opcodeOf i) q { code := .shardSize, idx := BitVec.ofNat 16 j } s))
        ∧ ((∃ j, j < shardCount s ∧ presentAt (tableAt s tab.toNat (shardCount s)) j = true) →
          (∀ j, j < shardCount s → presentAt (tableAt s tab.toNat (shardCount s)) j = true →
            (slotAt (tableAt s tab.toNat (shardCount s)) j).len
              = shardLength (tableAt s tab.toNat (shardCount s))) →
          shardLength (tableAt s tab.toNat (shardCount s)) % s.ctx.ssm ≠ 0 →
          exec i s = .next (failed (opcodeOf i) q { code := .shardSize, idx := 0xFFFF } s)))

/-- spec/45_codec.md R253 to R255: ENCODE writes the parity of the data shards, materialises the parity slots
that are not present, and advances SCR_NEXT by what it allocated; and its errors, in their order. The
parity is that of R253 from CTX.M in a Classical context and that of spec/46_fft.md R310 in an FFT context.
That the context is legal is an invariant (StepKeepsContextLegal). -/
def Obligations.EncodeShards : Prop :=
  ∀ (irq : Bool) (n : Word) (tab : Addr) (s : State) (xs : List Slot), CanComplete s →
    s.ctx.Legal → s.ctx.valid = true → TableUsable s n tab xs →
    ((∀ i, i < s.ctx.k → presentAt xs i = true) →
      (¬ OutputsInArena s xs (parityIndices s) →
        exec (.encode irq n tab) s
          = .next (failed 0x40 irq { code := .scratchExhausted, idx := 0xFFFF } s))
      ∧ (OutputsInArena s xs (parityIndices s) → ¬ OutputsClear s tab xs (parityIndices s) [] →
        exec (.encode irq n tab) s = .next (failed 0x40 irq { code := .overlap, idx := 0xFFFF } s))
      ∧ (OutputsFit s tab xs (parityIndices s) [] →
        exec (.encode irq n tab) s = .next (succeeded irq 0 { s with
          mem := outputsWritten s tab xs (parityIndices s)
            (parityBytes s (shardLength xs) ((List.range s.ctx.k).map (shardBytes s xs)))
          scrNext := scrNextAfter s xs (parityIndices s) })))
    ∧ (∀ i, i < s.ctx.k → presentAt xs i = false → (∀ j, j < i → presentAt xs j = true) →
      exec (.encode irq n tab) s
        = .next (failed 0x40 irq { code := .tooFewShards, idx := BitVec.ofNat 16 i } s))
    ∧ (s.ctx.variant = .classical → ∀ p e, p < s.ctx.m → e < shardLength xs →
      ((parityBytes s (shardLength xs) ((List.range s.ctx.k).map (shardBytes s xs))).getD p []).getD e 0
        = codedByte s.ctx.k (entry s.ctx.matrix (s.ctx.k + p)) fun j => shardByte s xs j e)
    ∧ (s.ctx.variant ≠ .classical → ∀ (fs : FS) (l mp : Nat) (zero : Vec) (chunk : Nat → List Vec),
      fs = variantField s.ctx.variant → mp = 2 ^ l → s.ctx.m ≤ mp → mp < 2 * s.ctx.m →
      zero = (toElems fs (shardBytes s xs 0)).map (fun _ => 0) →
      (∀ c, chunk c = (List.range mp).map fun t =>
        if mp * c + t < s.ctx.k then toElems fs (shardBytes s xs (mp * c + t)) else zero) →
      ∀ p, p < s.ctx.m →
        (parityBytes s (shardLength xs) ((List.range s.ctx.k).map (shardBytes s xs)))[p]?
          = some (ofElems fs ((fft fs mp 0 ((List.range mp).map fun t =>
              ((List.range ((s.ctx.k + mp - 1) / mp)).map fun c =>
                (ifft fs mp (mp + mp * c) (chunk c)).getD t []).foldl addVec zero)).getD p [])))

/-- spec/45_codec.md R261, R262: VERIFY answers 1 exactly when every parity shard is the parity of the data
shards (EncodeShards says which bytes that is), and changes no memory. -/
def Obligations.VerifyShards : Prop :=
  ∀ (irq : Bool) (n : Word) (tab : Addr) (s : State) (xs : List Slot), CanComplete s →
    s.ctx.valid = true → TableUsable s n tab xs →
    ((∀ i, i < shardCount s → presentAt xs i = true) →
      (∀ i, i < shardCount s → Readable s (slotAt xs i).addr (shardLength xs)) →
      exec (.verify irq n tab) s = .next (succeeded irq
        (if parityBytes s (shardLength xs) ((List.range s.ctx.k).map (shardBytes s xs))
            = (parityIndices s).map (shardBytes s xs) then 1 else 0) s))
    ∧ (∀ i, i < shardCount s → presentAt xs i = false → (∀ j, j < i → presentAt xs j = true) →
      exec (.verify irq n tab) s
        = .next (failed 0x41 irq { code := .shardSize, idx := BitVec.ofNat 16 i } s))

/-- spec/45_codec.md R263 to R268: RECON, RECON_DATA and RECON_SOME in a Classical context, their errors in
their order (SCRATCH_EXHAUSTED and OVERLAP are those of R251), and the bytes of R268 that they write, from Dm
and CTX.M. The context's cache is correct, which is an invariant (StepKeepsCacheCorrect). -/
def Obligations.ReconstructClassical : Prop :=
  ∀ (i : Instr) (irq : Bool) (n : Word) (tab : Addr) (s : State) (xs : List Slot), CanComplete s →
    (i = .recon irq n tab ∨ i = .reconData irq n tab ∨ ∃ req, i = .reconSome irq n tab req) →
    s.ctx.valid = true → s.ctx.variant = .classical → CacheCorrect s.params s.ctx s.icache →
    TableUsable s n tab xs → (∀ r ∈ bitmapRanges s i, Readable s r.range.lo r.range.len) →
    (presentCount s xs < s.ctx.k →
      exec i s = .next (failed (opcodeOf i) irq { code := .tooFewShards, idx := 0xFFFF } s))
    ∧ (s.ctx.k ≤ presentCount s xs →
      (neededShards s i xs = [] → exec i s = .next (succeeded irq 0 s))
      ∧ (neededShards s i xs ≠ [] → ∀ d, ((∀ j, j < s.ctx.k → presentAt xs j = true)
            ∨ invert s.ctx.k (selectRows s.ctx.matrix (validSet s xs)) = some d) →
        (¬ OutputsInArena s xs (neededShards s i xs) →
          exec i s = .next (failed (opcodeOf i) irq { code := .scratchExhausted, idx := 0xFFFF } s))
        ∧ (OutputsInArena s xs (neededShards s i xs) →
          ¬ OutputsClear s tab xs (neededShards s i xs) (bitmapRanges s i) →
          exec i s = .next (failed (opcodeOf i) irq { code := .overlap, idx := 0xFFFF } s))
        ∧ (OutputsFit s tab xs (neededShards s i xs) (bitmapRanges s i) →
          ∃ c, exec i s = .next (succeeded irq 0 { s with
            mem := outputsWritten s tab xs (neededShards s i xs)
              (recoveredShards s xs (validSet s xs) d (neededShards s i xs))
            scrNext := scrNextAfter s xs (neededShards s i xs)
            icache := c })))
      ∧ (neededShards s i xs ≠ [] → (∃ j, j < s.ctx.k ∧ presentAt xs j = false) →
        invert s.ctx.k (selectRows s.ctx.matrix (validSet s xs)) = none →
        exec i s = .next (failed (opcodeOf i) irq { code := .singular, idx := 0xFFFF } s))
      ∧ ∀ (d : Matrix) (t j e : Nat), (neededShards s i xs)[t]? = some j → e < shardLength xs →
        ((recoveredShards s xs (validSet s xs) d (neededShards s i xs)).getD t []).getD e 0
          = if j < s.ctx.k then
              codedByte s.ctx.k (entry d j) fun u => shardByte s xs ((validSet s xs).getD u 0) e
            else codedByte s.ctx.k (entry s.ctx.matrix j) fun u =>
              recoveredByte s xs (validSet s xs) d u e)

/-- spec/45_codec.md R263, R269, spec/46_fft.md R316: RECON and RECON_DATA in an FFT context, their errors in
their order (SCRATCH_EXHAUSTED and OVERLAP are those of spec/45_codec.md R251), and the shards that
spec/46_fft.md R311 to R313 recover: the erased positions, the locator, the transforms, and each needed shard
from its position in them. -/
def Obligations.ReconstructFft : Prop :=
  ∀ (i : Instr) (irq : Bool) (n : Word) (tab : Addr) (s : State) (xs : List Slot), CanComplete s →
    (i = .recon irq n tab ∨ i = .reconData irq n tab) →
    s.ctx.Legal → s.ctx.valid = true → s.ctx.variant ≠ .classical → TableUsable s n tab xs →
    (presentCount s xs < s.ctx.k →
      exec i s = .next (failed (opcodeOf i) irq { code := .tooFewShards, idx := 0xFFFF } s))
    ∧ (s.ctx.k ≤ presentCount s xs →
      (neededShards s i xs = [] → exec i s = .next (succeeded irq 0 s))
      ∧ (neededShards s i xs ≠ [] → ¬ OutputsInArena s xs (neededShards s i xs) →
        exec i s = .next (failed (opcodeOf i) irq { code := .scratchExhausted, idx := 0xFFFF } s))
      ∧ (neededShards s i xs ≠ [] → OutputsInArena s xs (neededShards s i xs) →
        ¬ OutputsClear s tab xs (neededShards s i xs) [] →
        exec i s = .next (failed (opcodeOf i) irq { code := .overlap, idx := 0xFFFF } s))
      ∧ (neededShards s i xs ≠ [] → OutputsFit s tab xs (neededShards s i xs) [] →
        exec i s = .next (succeeded irq 0 { s with
          mem := outputsWritten s tab xs (neededShards s i xs)
            (fftRecovered s xs (neededShards s i xs))
          scrNext := scrNextAfter s xs (neededShards s i xs) })))
    ∧ ∀ (fs : FS) (l mp l' size : Nat) (erased : List Nat) (loc : Nat → Nat) (work : List Vec),
      fs = variantField s.ctx.variant → mp = 2 ^ l → s.ctx.m ≤ mp → mp < 2 * s.ctx.m →
      size = 2 ^ l' → mp + s.ctx.k ≤ size → size < 2 * (mp + s.ctx.k) →
      erased = (List.range (mp + s.ctx.k)).filter (fun x =>
        if x < s.ctx.m then !presentAt xs (s.ctx.k + x)
        else if x < mp then true else !presentAt xs (x - mp)) →
      (∀ x, loc x = ((erased.filter (· != x)).map (x ^^^ ·)).foldl (mul fs) 1) →
      work = fft fs size 0 (fderiv size (ifft fs size 0 ((List.range size).map fun x =>
        if x < s.ctx.m ∧ presentAt xs (s.ctx.k + x) = true then
          (toElems fs (shardBytes s xs (s.ctx.k + x))).map (mul fs (loc x))
        else if mp ≤ x ∧ x < mp + s.ctx.k ∧ presentAt xs (x - mp) = true then
          (toElems fs (shardBytes s xs (x - mp))).map (mul fs (loc x))
        else (toElems fs (List.replicate (shardLength xs) 0)).map fun _ => 0))) →
      ∀ t j x : Nat, (neededShards s i xs)[t]? = some j → x = (if j < s.ctx.k then mp + j else j - s.ctx.k) →
        (fftRecovered s xs (neededShards s i xs))[t]?
          = some (ofElems fs ((work.getD x []).map (mul fs (inv fs (loc x)))))

/-- spec/45_codec.md R271, R272: UPDATE, and its errors in their order. Every delta is taken from the old
shards. -/
def Obligations.UpdateShards : Prop :=
  ∀ (irq : Bool) (cnt n : Word) (tab newTab : Addr) (s : State) (xs news : List Slot) (us : List Nat),
    CanComplete s → s.ctx.valid = true → s.ctx.variant = .classical → TableUsable s n tab xs →
    (cnt.toNat ≠ s.ctx.k → exec (.update irq cnt n tab newTab) s
      = .next (failed 0x45 irq { code := .tooFewShards, idx := 0xFFFF } s))
    ∧ (cnt.toNat = s.ctx.k → TableReadable s newTab.toNat s.ctx.k →
      news = tableAt s newTab.toNat s.ctx.k →
      us = (List.range s.ctx.k).filter (fun i => decide (0 < (slotAt news i).len)) →
      (∀ i ∈ us, (slotAt news i).len ≠ shardLength xs →
        (∀ j ∈ us, j < i → (slotAt news j).len = shardLength xs) →
        exec (.update irq cnt n tab newTab) s
          = .next (failed 0x45 irq { code := .shardSize, idx := BitVec.ofNat 16 i } s))
      ∧ ((∀ i ∈ us, (slotAt news i).len = shardLength xs) →
        (∀ p, p < s.ctx.m → presentAt xs (s.ctx.k + p) = false →
          (∀ q, q < p → presentAt xs (s.ctx.k + q) = true) →
          exec (.update irq cnt n tab newTab) s
            = .next (failed 0x45 irq { code := .reconstructRequired, idx := BitVec.ofNat 16 (s.ctx.k + p) } s))
        ∧ ((∀ p, p < s.ctx.m → presentAt xs (s.ctx.k + p) = true) →
          (∀ i ∈ us, presentAt xs i = false → (∀ j ∈ us, j < i → presentAt xs j = true) →
            exec (.update irq cnt n tab newTab) s
              = .next (failed 0x45 irq { code := .reconstructRequired, idx := BitVec.ofNat 16 i } s))
          ∧ ((∀ i ∈ us, presentAt xs i = true) →
            (us = [] → exec (.update irq cnt n tab newTab) s = .next (succeeded irq 0 s))
            ∧ ∀ clear : Bool, clear = footprintClear
                (descRange s :: reads tab.toNat (16 * shardCount s) :: reads newTab.toNat (16 * s.ctx.k)
                  :: us.map fun i => readsInPlace (slotAt news i).addr (shardLength xs) (slotAt xs i).addr
                      (shardLength xs))
                ((us ++ parityIndices s).map fun i => extent (slotAt xs i).addr (shardLength xs)) →
              us ≠ [] →
              (clear = false → exec (.update irq cnt n tab newTab) s
                = .next (failed 0x45 irq { code := .overlap, idx := 0xFFFF } s))
              ∧ (clear = true →
                (∀ i ∈ us, Readable s (slotAt news i).addr (shardLength xs)) →
                (∀ i ∈ us ++ parityIndices s, Readable s (slotAt xs i).addr (shardLength xs)
                  ∧ Writable s (slotAt xs i).addr (shardLength xs)) →
                exec (.update irq cnt n tab newTab) s = .next (succeeded irq 0 { s with
                  mem := (s.mem.putAll ((List.range s.ctx.m).map fun p =>
                      { addr := (slotAt xs (s.ctx.k + p)).addr, striped := true,
                        bytes := xorBuf (shardBytes s xs (s.ctx.k + p)) (linearCombination (shardLength xs)
                          (us.map fun i => entry s.ctx.matrix (s.ctx.k + p) i)
                          (us.map fun i => xorBuf (shardBytes s xs i)
                            (s.mem.readBytes (slotAt news i).addr (shardLength xs)))) })).putAll
                    (us.map fun i => { addr := (slotAt xs i).addr, striped := true,
                                       bytes := s.mem.readBytes (slotAt news i).addr (shardLength xs) })
                  }))))))

/-- spec/45_codec.md R276, R277: ENCODE_IDX, and its errors in their order. -/
def Obligations.EncodeOneShard : Prop :=
  ∀ (irq : Bool) (idx cnt len : Word) (src par : Addr) (s : State) (ps : List Slot), CanComplete s →
    s.ctx.valid = true → s.ctx.variant = .classical →
    (s.ctx.k ≤ idx.toNat → exec (.encodeIdx irq idx cnt len src par) s
      = .next (failed 0x46 irq { code := .invShardNum, idx := 0xFFFF } s))
    ∧ (idx.toNat < s.ctx.k → cnt.toNat ≠ s.ctx.m → exec (.encodeIdx irq idx cnt len src par) s
      = .next (failed 0x46 irq { code := .tooFewShards, idx := 0xFFFF } s))
    ∧ (idx.toNat < s.ctx.k → cnt.toNat = s.ctx.m → len = 0 → exec (.encodeIdx irq idx cnt len src par) s
      = .next (failed 0x46 irq { code := .shardNoData, idx := 0xFFFF } s))
    ∧ (idx.toNat < s.ctx.k → cnt.toNat = s.ctx.m → 0 < len.toNat →
      ∀ p, p < s.ctx.m → TableReadable s par.toNat (p + 1) → (entryAt s par.toNat p).len ≠ len.toNat →
        (∀ q, q < p → (entryAt s par.toNat q).len = len.toNat) →
        exec (.encodeIdx irq idx cnt len src par) s
          = .next (failed 0x46 irq { code := .shardSize, idx := BitVec.ofNat 16 p } s))
    ∧ (idx.toNat < s.ctx.k → cnt.toNat = s.ctx.m → 0 < len.toNat → TableReadable s par.toNat s.ctx.m →
      ps = tableAt s par.toNat s.ctx.m → (∀ x ∈ ps, x.len = len.toNat) →
      footprintClear [descRange s, reads src.toNat len.toNat, reads par.toNat (16 * s.ctx.m)]
        (ps.map fun x => extent x.addr len.toNat) = false →
      exec (.encodeIdx irq idx cnt len src par) s
        = .next (failed 0x46 irq { code := .overlap, idx := 0xFFFF } s))
    ∧ (idx.toNat < s.ctx.k → cnt.toNat = s.ctx.m → 0 < len.toNat → TableReadable s par.toNat s.ctx.m →
      ps = tableAt s par.toNat s.ctx.m → (∀ x ∈ ps, x.len = len.toNat) →
      footprintClear [descRange s, reads src.toNat len.toNat, reads par.toNat (16 * s.ctx.m)]
        (ps.map fun x => extent x.addr len.toNat) = true →
      Readable s src.toNat len.toNat →
      (∀ x ∈ ps, Readable s x.addr len.toNat ∧ Writable s x.addr len.toNat) →
      exec (.encodeIdx irq idx cnt len src par) s = .next (succeeded irq 0 { s with
        mem := s.mem.putAll (List.zipWith (fun x p =>
          { addr := Slot.addr x, striped := true,
            bytes := xorBuf (s.mem.readBytes x.addr len.toNat)
              (scaleBuf .gf8 (entry s.ctx.matrix (s.ctx.k + p) idx.toNat)
                (s.mem.readBytes src.toNat len.toNat)) }) ps (List.range s.ctx.m)) }))

/-- spec/47_scheduler.md R332: the stripe plan covers [0, S) exactly with ascending contiguous stripes, at
most W of them, each boundary a multiple of 64, and every stripe but the last of one length. -/
def Obligations.StripePlanCovers : Prop :=
  ∀ (s : State) (size : Nat), 1 ≤ workerCeiling s → s.schedMinsplit ≠ 0 →
    (stripePlan s size).length ≤ workerCeiling s
    ∧ (∀ x ∈ stripePlan s size, x.lo % 64 = 0 ∧ x.lo ≤ x.hi ∧ x.hi ≤ size)
    ∧ (∀ a, a < size → ∃ x ∈ stripePlan s size, x.lo ≤ a ∧ a < x.hi)
    ∧ (stripePlan s size).Pairwise (fun x y => x.hi ≤ y.lo ∧ x.hi - x.lo = stripeLength s size)
    ∧ (1 < stripeCount s size → s.schedMinsplit.toNat ≤ stripeLength s size)
end

