-- ==== Sys2Proof/Laws/Memory.lean ====
section
/-! SUPPORT. Laws of host memory: what each operation reads back, and that each keeps the canonical form
`Memory.wf` (log 2). -/

namespace Sys2Proof.Machine

/-! ### Reading -/

/-- An address that no cell names reads as an unlisted byte. -/
theorem Memory.read_of_not_mem {m : Memory} {x : Nat} (h : ∀ c ∈ m, c.1 ≠ x) :
    m.read x = unlistedByte := by
  induction m with
  | nil => rfl
  | cons c m ih =>
    obtain ⟨k, b⟩ := c
    have hk : k ≠ x := h (k, b) (by simp)
    simp only [Memory.read, hk, if_false]
    exact ih fun c hc => h c (by simp [hc])

/-- Reading a concatenation: the first part decides if it names the address. -/
theorem Memory.read_append (m m' : Memory) (x : Nat) :
    Memory.read (m ++ m') x = if ∃ c ∈ m, c.1 = x then m.read x else m'.read x := by
  induction m with
  | nil => simp
  | cons c m ih =>
    obtain ⟨k, b⟩ := c
    by_cases hk : k = x
    · subst hk; simp [Memory.read]
    · simp only [List.cons_append, Memory.read, hk, if_false, ih, List.mem_cons, exists_eq_or_imp,
        false_or]

/-- Filtering by address hides the cells outside the predicate. -/
theorem Memory.read_filter (m : Memory) (p : Nat → Bool) (x : Nat) :
    Memory.read (m.filter fun c => p c.1) x = if p x then m.read x else unlistedByte := by
  induction m with
  | nil => simp [Memory.read]
  | cons c m ih =>
    obtain ⟨k, b⟩ := c
    by_cases hk : k = x
    · subst hk
      by_cases hp : p k
      · simp [hp, Memory.read]
      · simp [hp, ih]
    · by_cases hp : p k <;> simp [hp, Memory.read, hk, ih]

/-- The cells that bytes need lie in their range. -/
theorem mem_cellsFrom {bs : List Byte} {a : Nat} {c : Host.Cell} (h : c ∈ cellsFrom a bs) :
    a ≤ c.1 ∧ c.1 < a + bs.length ∧ c.1 < 2 ^ 64 ∧ c.2 ≠ unlistedByte := by
  induction bs generalizing a with
  | nil => simp [cellsFrom] at h
  | cons b bs ih =>
    simp only [cellsFrom] at h
    rw [List.length_cons]
    split at h
    · obtain ⟨h1, h2, h3⟩ := ih h
      exact ⟨by omega, by omega, h3⟩
    · rename_i hb
      rcases List.mem_cons.mp h with rfl | h
      · exact ⟨Nat.le_refl _, by simp, by omega, fun he => hb (.inl he)⟩
      · obtain ⟨h1, h2, h3⟩ := ih h
        exact ⟨by omega, by omega, h3⟩

/-- What the cells of bytes read as. -/
theorem read_cellsFrom (bs : List Byte) (a x : Nat) :
    Memory.read (cellsFrom a bs) x
      = if a ≤ x ∧ x < a + bs.length ∧ x < 2 ^ 64 then bs.getD (x - a) unlistedByte else unlistedByte := by
  induction bs generalizing a with
  | nil =>
    rw [if_neg (by simp only [List.length_nil]; omega)]; rfl
  | cons b bs ih =>
    have hc : ∀ y, a < y → y - a = (y - (a + 1)) + 1 := by intro y h; omega
    by_cases hb : b = unlistedByte ∨ 2 ^ 64 ≤ a
    · simp only [cellsFrom, hb, if_true, ih]
      rcases Nat.lt_trichotomy x a with hx | hx | hx
      · rw [if_neg (by omega), if_neg (by omega)]
      · subst hx
        rw [if_neg (by omega)]
        rcases hb with hb | hb
        · subst hb; split <;> simp
        · rw [if_neg (by omega)]
      · simp only [List.length_cons, hc x hx, List.getD_cons_succ]
        congr 1; apply propext; omega
    · simp only [cellsFrom, hb, if_false, Memory.read, ih]
      rcases Nat.lt_trichotomy x a with hx | hx | hx
      · rw [if_neg (by omega), if_neg (by omega), if_neg (by omega)]
      · subst hx
        rw [if_pos rfl, if_pos (by simp only [List.length_cons]; omega)]; simp
      · rw [if_neg (by omega)]
        simp only [List.length_cons, hc x hx, List.getD_cons_succ]
        congr 1; apply propext; omega

/-- Everything a write does to reading (20_memory.md R71). -/
theorem Memory.read_writeBytes (m : Memory) (a : Nat) (bs : List Byte) (x : Nat) :
    (m.writeBytes a bs).read x
      = if a ≤ x ∧ x < a + bs.length
        then (if x < 2 ^ 64 then bs.getD (x - a) unlistedByte else unlistedByte)
        else m.read x := by
  have hlo : ∀ c ∈ m.filter (fun c => decide (c.1 < a)), c.1 < a := by
    intro c hc; simpa using (List.mem_filter.mp hc).2
  have hhi : ∀ c ∈ m.filter (fun c => decide (a + bs.length ≤ c.1)), a + bs.length ≤ c.1 := by
    intro c hc; simpa using (List.mem_filter.mp hc).2
  have flo := Memory.read_filter m (fun k => decide (k < a)) x
  have fhi := Memory.read_filter m (fun k => decide (a + bs.length ≤ k)) x
  simp only [decide_eq_true_eq] at flo fhi
  unfold Memory.writeBytes
  rw [List.append_assoc, Memory.read_append, Memory.read_append]
  by_cases hx : a ≤ x ∧ x < a + bs.length
  · rw [if_neg (by rintro ⟨c, hc, rfl⟩; have := hlo c hc; omega), if_pos hx]
    have : Memory.read (List.filter (fun c => decide (a + bs.length ≤ c.1)) m) x = unlistedByte := by
      rw [fhi, if_neg (by omega)]
    rw [this, read_cellsFrom]
    by_cases h64 : x < 2 ^ 64
    · rw [if_pos (show a ≤ x ∧ x < a + bs.length ∧ x < 2 ^ 64 by omega), if_pos h64]
      split
      · rfl
      · rename_i hn
        have h0 : Memory.read (cellsFrom a bs) x = unlistedByte :=
          Memory.read_of_not_mem fun c hc he => hn ⟨c, hc, he⟩
        rw [read_cellsFrom, if_pos (show a ≤ x ∧ x < a + bs.length ∧ x < 2 ^ 64 by omega)] at h0
        exact h0.symm
    · rw [if_neg h64]
      rw [if_neg (show ¬ (a ≤ x ∧ x < a + bs.length ∧ x < 2 ^ 64) by omega)]
      split <;> rfl
  · rw [if_neg hx, if_neg (show ¬ ∃ c ∈ cellsFrom a bs, c.1 = x by
      rintro ⟨c, hc, rfl⟩; have := mem_cellsFrom hc; omega), flo, fhi]
    by_cases hlt : x < a
    · rw [if_pos hlt]
      split
      · rfl
      · rename_i hn
        have h0 : Memory.read (m.filter fun c => decide (c.1 < a)) x = unlistedByte :=
          Memory.read_of_not_mem fun c hc he => hn ⟨c, hc, he⟩
        rw [flo, if_pos hlt] at h0
        rw [if_neg (by omega), h0]
    · rw [if_neg (by rintro ⟨c, hc, rfl⟩; have := hlo c hc; omega), if_pos (by omega)]

/-- A write leaves every byte outside its range alone. -/
theorem Memory.read_writeBytes_other {m : Memory} {a : Nat} {bs : List Byte} {x : Nat}
    (h : x < a ∨ a + bs.length ≤ x) : (m.writeBytes a bs).read x = m.read x := by
  rw [Memory.read_writeBytes, if_neg (by omega)]

/-- A write of no bytes leaves every byte alone. -/
@[simp] theorem Memory.read_writeBytes_nil (m : Memory) (a x : Nat) : (m.writeBytes a []).read x = m.read x :=
  Memory.read_writeBytes_other (by simp; omega)

@[simp] theorem Memory.length_readBytes (m : Memory) (a n : Nat) : (m.readBytes a n).length = n := by
  induction n generalizing a with
  | zero => rfl
  | succ n ih => simp [Memory.readBytes, ih]

/-- Byte `i` of a read. -/
theorem Memory.getD_readBytes (m : Memory) (a n i : Nat) (d : Byte) :
    (m.readBytes a n).getD i d = if i < n then m.read (a + i) else d := by
  induction n generalizing a i with
  | zero => simp [Memory.readBytes]
  | succ n ih =>
    cases i with
    | zero => simp [Memory.readBytes]
    | succ i =>
      simp only [Memory.readBytes, List.getD_cons_succ, ih, Nat.add_lt_add_iff_right, Nat.add_assoc,
        Nat.add_comm 1 i]

/-- Reads agree where the bytes agree. -/
theorem Memory.readBytes_congr {m m' : Memory} {a n : Nat}
    (h : ∀ i, i < n → m.read (a + i) = m'.read (a + i)) : m.readBytes a n = m'.readBytes a n := by
  induction n generalizing a with
  | zero => rfl
  | succ n ih =>
    simp only [Memory.readBytes]
    rw [show m.read a = m'.read a from h 0 (by omega),
      ih fun i hi => by have := h (i + 1) (by omega); rwa [Nat.add_assoc, Nat.add_comm 1 i]]

/-- A read of what was just written. -/
theorem Memory.readBytes_writeBytes (m : Memory) (a : Nat) (bs : List Byte) (h : a + bs.length ≤ 2 ^ 64) :
    (m.writeBytes a bs).readBytes a bs.length = bs := by
  apply List.ext_getElem (by simp)
  intro i h1 h2
  have := Memory.getD_readBytes (m.writeBytes a bs) a bs.length i 0
  simp only [List.getD_eq_getElem?_getD, List.getElem?_eq_getElem h1, Option.getD_some, h2, if_true] at this
  rw [this, Memory.read_writeBytes, if_pos (by omega), if_pos (by omega)]
  simp [List.getD_eq_getElem?_getD, List.getElem?_eq_getElem h2]

/-! ### The canonical form -/

/-- The cells of bytes are in canonical form. -/
theorem cellsFrom_wf (bs : List Byte) (a : Nat) : Memory.wf (cellsFrom a bs) := by
  refine ⟨?_, fun c hc => ⟨(mem_cellsFrom hc).2.2.1, (mem_cellsFrom hc).2.2.2⟩⟩
  induction bs generalizing a with
  | nil => exact List.Pairwise.nil
  | cons b bs ih =>
    simp only [cellsFrom]
    split
    · exact ih (a + 1)
    · simp only [List.map_cons, List.pairwise_cons]
      refine ⟨?_, ih (a + 1)⟩
      intro k hk
      obtain ⟨c, hc, rfl⟩ := List.mem_map.mp hk
      have := mem_cellsFrom hc
      omega

/-- A part of a canonical memory is canonical. -/
theorem Memory.wf_filter {m : Memory} (h : m.wf) (p : Host.Cell → Bool) : Memory.wf (m.filter p) :=
  ⟨h.1.sublist ((List.filter_sublist).map _), fun c hc => h.2 c (List.mem_filter.mp hc).1⟩

/-- Canonical memories whose addresses lie one below the other concatenate to a canonical one. -/
theorem Memory.wf_append {m m' : Memory} (h : m.wf) (h' : m'.wf)
    (hlt : ∀ c ∈ m, ∀ d ∈ m', c.1 < d.1) : Memory.wf (m ++ m') := by
  refine ⟨?_, fun c hc => (List.mem_append.mp hc).elim (h.2 c) (h'.2 c)⟩
  rw [List.map_append, List.pairwise_append]
  refine ⟨h.1, h'.1, ?_⟩
  intro k hk k' hk'
  obtain ⟨c, hc, rfl⟩ := List.mem_map.mp hk
  obtain ⟨d, hd, rfl⟩ := List.mem_map.mp hk'
  exact hlt c hc d hd

/-- A write keeps the canonical form. -/
theorem Memory.wf_writeBytes {m : Memory} (h : m.wf) (a : Nat) (bs : List Byte) :
    (m.writeBytes a bs).wf := by
  refine Memory.wf_append (Memory.wf_append (m.wf_filter h _) (cellsFrom_wf bs a) ?_) (m.wf_filter h _) ?_
  · intro c hc d hd
    have h1 : c.1 < a := by simpa using (List.mem_filter.mp hc).2
    have := mem_cellsFrom hd
    omega
  · intro c hc d hd
    have h1 : a + bs.length ≤ d.1 := by simpa using (List.mem_filter.mp hd).2
    rcases List.mem_append.mp hc with hc | hc
    · have : c.1 < a := by simpa using (List.mem_filter.mp hc).2
      omega
    · have := mem_cellsFrom hc
      omega

theorem Memory.wf_writeNat {m : Memory} (h : m.wf) (a n v : Nat) : (m.writeNat a n v).wf :=
  Memory.wf_writeBytes h _ _

theorem Memory.wf_put {m : Memory} (h : m.wf) (st : Store) : (m.put st).wf := Memory.wf_writeBytes h _ _

theorem Memory.wf_putAll {m : Memory} (h : m.wf) (sts : List Store) : (m.putAll sts).wf := by
  induction sts generalizing m with
  | nil => exact h
  | cons st sts ih => exact ih (Memory.wf_put h st)

theorem writeback_wf {m : Memory} (h : m.wf) (d : Nat) (e : Option Err) (v15 : Word) :
    (writeback d e v15 m).wf :=
  Memory.wf_writeNat (Memory.wf_writeNat h _ _ _) _ _ _

theorem havoc_wf {s : State} (h : s.mem.wf) (xs : List Extent) : (havoc xs s).mem.wf := by
  induction xs generalizing s with
  | nil => exact h
  | cons x xs ih => exact ih (Memory.wf_writeBytes h _ _)

/-- The memory of `State.reset` is canonical. -/
theorem reset_mem_wf : State.reset.mem.wf := ⟨List.Pairwise.nil, by simp [State.reset]⟩

/-- In a canonical memory whose addresses all lie above `x`, `x` reads as unlisted. -/
theorem Memory.read_below {c : Host.Cell} {m : Memory} (h : Memory.wf (c :: m)) {x : Nat} (hx : x ≤ c.1)
    : m.read x = unlistedByte := by
  refine Memory.read_of_not_mem fun d hd he => ?_
  have := (List.pairwise_cons.mp h.1).1 d.1 (List.mem_map_of_mem hd)
  omega

theorem Memory.wf_tail {c : Host.Cell} {m : Memory} (h : Memory.wf (c :: m)) : m.wf :=
  ⟨(List.pairwise_cons.mp h.1).2, fun d hd => h.2 d (List.mem_cons_of_mem _ hd)⟩

/-- Canonical memories that read alike are equal. -/
theorem Memory.ext_of_wf {m m' : Memory} (h : m.wf) (h' : m'.wf) (he : ∀ x, m.read x = m'.read x) :
    m = m' := by
  induction m generalizing m' with
  | nil =>
    cases m' with
    | nil => rfl
    | cons c m' =>
      obtain ⟨k, b⟩ := c
      exact absurd (by simpa [Memory.read] using (he k).symm) (h'.2 (k, b) (by simp)).2
  | cons c m ih =>
    obtain ⟨k, b⟩ := c
    have hb := (h.2 (k, b) (by simp)).2
    cases m' with
    | nil => exact absurd (by simpa [Memory.read] using he k) hb
    | cons c' m' =>
      obtain ⟨k', b'⟩ := c'
      have hb' := (h'.2 (k', b') (by simp)).2
      have hk : k = k' := by
        rcases Nat.lt_trichotomy k k' with hlt | rfl | hlt
        · have h1 := he k
          simp only [Memory.read, if_true, if_neg (show k' ≠ k by omega)] at h1
          rw [Memory.read_below h' (by simp; omega)] at h1
          exact absurd h1 hb
        · rfl
        · have h1 := he k'
          simp only [Memory.read, if_true, if_neg (show k ≠ k' by omega)] at h1
          rw [Memory.read_below h (by simp; omega)] at h1
          exact absurd h1.symm hb'
      subst hk
      have hbb : b = b' := by simpa [Memory.read] using he k
      subst hbb
      congr 1
      refine ih (Memory.wf_tail h) (Memory.wf_tail h') fun x => ?_
      by_cases hx : k = x
      · subst hx; rw [Memory.read_below h (by simp), Memory.read_below h' (by simp)]
      · simpa [Memory.read, hx] using he x

/-! ### Stores -/

@[simp] theorem Memory.putAll_nil (m : Memory) : m.putAll [] = m := rfl

@[simp] theorem Memory.putAll_cons (m : Memory) (st : Store) (sts : List Store) :
    m.putAll (st :: sts) = (m.put st).putAll sts := rfl

theorem Memory.putAll_append (m : Memory) (xs ys : List Store) :
    m.putAll (xs ++ ys) = (m.putAll xs).putAll ys := by simp [Memory.putAll]

/-- Stores leave every byte outside their ranges alone. -/
theorem Memory.read_putAll_other {m : Memory} {sts : List Store} {x : Nat}
    (h : ∀ st ∈ sts, x < st.addr ∨ st.addr + st.bytes.length ≤ x) : (m.putAll sts).read x = m.read x := by
  induction sts generalizing m with
  | nil => rfl
  | cons st sts ih =>
    rw [Memory.putAll_cons, ih fun t ht => h t (List.mem_cons_of_mem _ ht)]
    exact Memory.read_writeBytes_other (h st (by simp))

/-! ### Byte order (20_memory.md R71) -/

@[simp] theorem length_bytesOfNat (n v : Nat) : (bytesOfNat n v).length = n := by
  induction n generalizing v with
  | zero => rfl
  | succ n ih => simp [bytesOfNat, ih]

theorem natOfBytes_bytesOfNat (n v : Nat) : natOfBytes (bytesOfNat n v) = v % 2 ^ (8 * n) := by
  induction n generalizing v with
  | zero => simp [bytesOfNat, natOfBytes, Nat.mod_one]
  | succ n ih =>
    simp only [bytesOfNat, natOfBytes, ih, BitVec.toNat_ofNat]
    rw [show 8 * (n + 1) = 8 + 8 * n by omega, Nat.pow_add, show (2 : Nat) ^ 8 = 256 from rfl, Nat.mod_mul]

end Sys2Proof.Machine
end

