-- ==== Sys2Proof/Laws/State.lean ====
section
/-! SUPPORT. One lemma per field of `State` per shared update: what the update sets, and that it leaves the
other fields alone, so that no proof unfolds a record update. -/

namespace Sys2Proof.Machine

/-! ### halt -/

@[simp] theorem halt_params (s : State) : (halt s).params = s.params := rfl
@[simp] theorem halt_ctrlEn (s : State) : (halt s).ctrlEn = s.ctrlEn := rfl
@[simp] theorem halt_ctrlHoe (s : State) : (halt s).ctrlHoe = s.ctrlHoe := rfl
@[simp] theorem halt_halted (s : State) : (halt s).halted = true := rfl
@[simp] theorem halt_errCode (s : State) : (halt s).errCode = s.errCode := rfl
@[simp] theorem halt_errIndex (s : State) : (halt s).errIndex = s.errIndex := rfl
@[simp] theorem halt_errIdx (s : State) : (halt s).errIdx = s.errIdx := rfl
@[simp] theorem halt_errOpc (s : State) : (halt s).errOpc = s.errOpc := rfl
@[simp] theorem halt_irqEn (s : State) : (halt s).irqEn = s.irqEn := rfl
@[simp] theorem halt_irqStat (s : State) :
    (halt s).irqStat = if s.halted then s.irqStat else s.irqStat ||| irqHalt := rfl
@[simp] theorem halt_doneCount (s : State) : (halt s).doneCount = s.doneCount := rfl
@[simp] theorem halt_result (s : State) : (halt s).result = s.result := rfl
@[simp] theorem halt_cqBase (s : State) : (halt s).cqBase = s.cqBase := rfl
@[simp] theorem halt_cqSizeLog2 (s : State) : (halt s).cqSizeLog2 = s.cqSizeLog2 := rfl
@[simp] theorem halt_cqHead (s : State) : (halt s).cqHead = s.cqHead := rfl
@[simp] theorem halt_cqTail (s : State) : (halt s).cqTail = s.cqTail := rfl
@[simp] theorem halt_scrBase (s : State) : (halt s).scrBase = s.scrBase := rfl
@[simp] theorem halt_scrLimit (s : State) : (halt s).scrLimit = s.scrLimit := rfl
@[simp] theorem halt_scrNext (s : State) : (halt s).scrNext = s.scrNext := rfl
@[simp] theorem halt_schedMaxw (s : State) : (halt s).schedMaxw = s.schedMaxw := rfl
@[simp] theorem halt_schedMinsplit (s : State) : (halt s).schedMinsplit = s.schedMinsplit := rfl
@[simp] theorem halt_kcaps (s : State) : (halt s).kcaps = s.kcaps := rfl
@[simp] theorem halt_ctx (s : State) : (halt s).ctx = s.ctx := rfl
@[simp] theorem halt_icache (s : State) : (halt s).icache = s.icache := rfl
@[simp] theorem halt_inflight (s : State) : (halt s).inflight = s.inflight := rfl
@[simp] theorem halt_mem (s : State) : (halt s).mem = s.mem := rfl
@[simp] theorem halt_inputs (s : State) : (halt s).inputs = s.inputs := rfl
@[simp] theorem halt_hostRead (s : State) : (halt s).hostRead = s.hostRead := rfl
@[simp] theorem halt_dirty (s : State) : (halt s).dirty = s.dirty := rfl
@[simp] theorem halt_free (s : State) : (halt s).free = s.free := rfl

/-! ### resume -/

@[simp] theorem resume_params (s : State) : (resume s).params = s.params := rfl
@[simp] theorem resume_ctrlEn (s : State) : (resume s).ctrlEn = s.ctrlEn := rfl
@[simp] theorem resume_ctrlHoe (s : State) : (resume s).ctrlHoe = s.ctrlHoe := rfl
@[simp] theorem resume_halted (s : State) : (resume s).halted = false := rfl
@[simp] theorem resume_errCode (s : State) : (resume s).errCode = s.errCode := rfl
@[simp] theorem resume_errIndex (s : State) : (resume s).errIndex = s.errIndex := rfl
@[simp] theorem resume_errIdx (s : State) : (resume s).errIdx = s.errIdx := rfl
@[simp] theorem resume_errOpc (s : State) : (resume s).errOpc = s.errOpc := rfl
@[simp] theorem resume_irqEn (s : State) : (resume s).irqEn = s.irqEn := rfl
@[simp] theorem resume_irqStat (s : State) : (resume s).irqStat = s.irqStat := rfl
@[simp] theorem resume_doneCount (s : State) : (resume s).doneCount = s.doneCount := rfl
@[simp] theorem resume_result (s : State) : (resume s).result = s.result := rfl
@[simp] theorem resume_cqBase (s : State) : (resume s).cqBase = s.cqBase := rfl
@[simp] theorem resume_cqSizeLog2 (s : State) : (resume s).cqSizeLog2 = s.cqSizeLog2 := rfl
@[simp] theorem resume_cqHead (s : State) : (resume s).cqHead = s.cqHead := rfl
@[simp] theorem resume_cqTail (s : State) : (resume s).cqTail = s.cqTail := rfl
@[simp] theorem resume_scrBase (s : State) : (resume s).scrBase = s.scrBase := rfl
@[simp] theorem resume_scrLimit (s : State) : (resume s).scrLimit = s.scrLimit := rfl
@[simp] theorem resume_scrNext (s : State) : (resume s).scrNext = s.scrNext := rfl
@[simp] theorem resume_schedMaxw (s : State) : (resume s).schedMaxw = s.schedMaxw := rfl
@[simp] theorem resume_schedMinsplit (s : State) : (resume s).schedMinsplit = s.schedMinsplit := rfl
@[simp] theorem resume_kcaps (s : State) : (resume s).kcaps = s.kcaps := rfl
@[simp] theorem resume_ctx (s : State) : (resume s).ctx = s.ctx := rfl
@[simp] theorem resume_icache (s : State) : (resume s).icache = s.icache := rfl
@[simp] theorem resume_inflight (s : State) : (resume s).inflight = s.inflight := rfl
@[simp] theorem resume_mem (s : State) : (resume s).mem = s.mem := rfl
@[simp] theorem resume_inputs (s : State) : (resume s).inputs = s.inputs := rfl
@[simp] theorem resume_hostRead (s : State) : (resume s).hostRead = s.hostRead := rfl
@[simp] theorem resume_dirty (s : State) : (resume s).dirty = s.dirty := rfl
@[simp] theorem resume_free (s : State) : (resume s).free = s.free := rfl

/-! ### advance -/

@[simp] theorem advance_params (v : Word) (s : State) : (advance v s).params = s.params := rfl
@[simp] theorem advance_ctrlEn (v : Word) (s : State) : (advance v s).ctrlEn = s.ctrlEn := rfl
@[simp] theorem advance_ctrlHoe (v : Word) (s : State) : (advance v s).ctrlHoe = s.ctrlHoe := rfl
@[simp] theorem advance_halted (v : Word) (s : State) : (advance v s).halted = s.halted := rfl
@[simp] theorem advance_errCode (v : Word) (s : State) : (advance v s).errCode = s.errCode := rfl
@[simp] theorem advance_errIndex (v : Word) (s : State) : (advance v s).errIndex = s.errIndex := rfl
@[simp] theorem advance_errIdx (v : Word) (s : State) : (advance v s).errIdx = s.errIdx := rfl
@[simp] theorem advance_errOpc (v : Word) (s : State) : (advance v s).errOpc = s.errOpc := rfl
@[simp] theorem advance_irqEn (v : Word) (s : State) : (advance v s).irqEn = s.irqEn := rfl
@[simp] theorem advance_irqStat (v : Word) (s : State) : (advance v s).irqStat = s.irqStat := rfl
@[simp] theorem advance_doneCount (v : Word) (s : State) : (advance v s).doneCount = s.doneCount + 1 := rfl
@[simp] theorem advance_result (v : Word) (s : State) : (advance v s).result = v := rfl
@[simp] theorem advance_cqBase (v : Word) (s : State) : (advance v s).cqBase = s.cqBase := rfl
@[simp] theorem advance_cqSizeLog2 (v : Word) (s : State) : (advance v s).cqSizeLog2 = s.cqSizeLog2 := rfl
@[simp] theorem advance_cqHead (v : Word) (s : State) : (advance v s).cqHead = nextHead s := rfl
@[simp] theorem advance_cqTail (v : Word) (s : State) : (advance v s).cqTail = s.cqTail := rfl
@[simp] theorem advance_scrBase (v : Word) (s : State) : (advance v s).scrBase = s.scrBase := rfl
@[simp] theorem advance_scrLimit (v : Word) (s : State) : (advance v s).scrLimit = s.scrLimit := rfl
@[simp] theorem advance_scrNext (v : Word) (s : State) : (advance v s).scrNext = s.scrNext := rfl
@[simp] theorem advance_schedMaxw (v : Word) (s : State) : (advance v s).schedMaxw = s.schedMaxw := rfl
@[simp] theorem advance_schedMinsplit (v : Word) (s : State) :
    (advance v s).schedMinsplit = s.schedMinsplit := rfl
@[simp] theorem advance_kcaps (v : Word) (s : State) : (advance v s).kcaps = s.kcaps := rfl
@[simp] theorem advance_ctx (v : Word) (s : State) : (advance v s).ctx = s.ctx := rfl
@[simp] theorem advance_icache (v : Word) (s : State) : (advance v s).icache = s.icache := rfl
@[simp] theorem advance_inflight (v : Word) (s : State) : (advance v s).inflight = none := rfl
@[simp] theorem advance_mem (v : Word) (s : State) : (advance v s).mem = s.mem := rfl
@[simp] theorem advance_inputs (v : Word) (s : State) : (advance v s).inputs = s.inputs := rfl
@[simp] theorem advance_hostRead (v : Word) (s : State) : (advance v s).hostRead = s.hostRead := rfl
@[simp] theorem advance_dirty (v : Word) (s : State) :
    (advance v s).dirty = s.dirty.filter fun x => x.index != s.cqHead := rfl
@[simp] theorem advance_free (v : Word) (s : State) : (advance v s).free = s.free := rfl

/-! ### signalDone -/

@[simp] theorem signalDone_params (q : Bool) (s : State) :
    (signalDone q s).params = s.params := by cases q <;> rfl
@[simp] theorem signalDone_ctrlEn (q : Bool) (s : State) :
    (signalDone q s).ctrlEn = s.ctrlEn := by cases q <;> rfl
@[simp] theorem signalDone_ctrlHoe (q : Bool) (s : State) :
    (signalDone q s).ctrlHoe = s.ctrlHoe := by cases q <;> rfl
@[simp] theorem signalDone_halted (q : Bool) (s : State) :
    (signalDone q s).halted = s.halted := by cases q <;> rfl
@[simp] theorem signalDone_errCode (q : Bool) (s : State) :
    (signalDone q s).errCode = s.errCode := by cases q <;> rfl
@[simp] theorem signalDone_errIndex (q : Bool) (s : State) :
    (signalDone q s).errIndex = s.errIndex := by cases q <;> rfl
@[simp] theorem signalDone_errIdx (q : Bool) (s : State) :
    (signalDone q s).errIdx = s.errIdx := by cases q <;> rfl
@[simp] theorem signalDone_errOpc (q : Bool) (s : State) :
    (signalDone q s).errOpc = s.errOpc := by cases q <;> rfl
@[simp] theorem signalDone_irqEn (q : Bool) (s : State) :
    (signalDone q s).irqEn = s.irqEn := by cases q <;> rfl
@[simp] theorem signalDone_irqStat (q : Bool) (s : State) :
    (signalDone q s).irqStat = if q then s.irqStat ||| irqDone else s.irqStat := by cases q <;> rfl
@[simp] theorem signalDone_doneCount (q : Bool) (s : State) :
    (signalDone q s).doneCount = s.doneCount := by cases q <;> rfl
@[simp] theorem signalDone_result (q : Bool) (s : State) :
    (signalDone q s).result = s.result := by cases q <;> rfl
@[simp] theorem signalDone_cqBase (q : Bool) (s : State) :
    (signalDone q s).cqBase = s.cqBase := by cases q <;> rfl
@[simp] theorem signalDone_cqSizeLog2 (q : Bool) (s : State) :
    (signalDone q s).cqSizeLog2 = s.cqSizeLog2 := by cases q <;> rfl
@[simp] theorem signalDone_cqHead (q : Bool) (s : State) :
    (signalDone q s).cqHead = s.cqHead := by cases q <;> rfl
@[simp] theorem signalDone_cqTail (q : Bool) (s : State) :
    (signalDone q s).cqTail = s.cqTail := by cases q <;> rfl
@[simp] theorem signalDone_scrBase (q : Bool) (s : State) :
    (signalDone q s).scrBase = s.scrBase := by cases q <;> rfl
@[simp] theorem signalDone_scrLimit (q : Bool) (s : State) :
    (signalDone q s).scrLimit = s.scrLimit := by cases q <;> rfl
@[simp] theorem signalDone_scrNext (q : Bool) (s : State) :
    (signalDone q s).scrNext = s.scrNext := by cases q <;> rfl
@[simp] theorem signalDone_schedMaxw (q : Bool) (s : State) :
    (signalDone q s).schedMaxw = s.schedMaxw := by cases q <;> rfl
@[simp] theorem signalDone_schedMinsplit (q : Bool) (s : State) :
    (signalDone q s).schedMinsplit = s.schedMinsplit := by cases q <;> rfl
@[simp] theorem signalDone_kcaps (q : Bool) (s : State) :
    (signalDone q s).kcaps = s.kcaps := by cases q <;> rfl
@[simp] theorem signalDone_ctx (q : Bool) (s : State) : (signalDone q s).ctx = s.ctx := by cases q <;> rfl
@[simp] theorem signalDone_icache (q : Bool) (s : State) :
    (signalDone q s).icache = s.icache := by cases q <;> rfl
@[simp] theorem signalDone_inflight (q : Bool) (s : State) :
    (signalDone q s).inflight = s.inflight := by cases q <;> rfl
@[simp] theorem signalDone_mem (q : Bool) (s : State) : (signalDone q s).mem = s.mem := by cases q <;> rfl
@[simp] theorem signalDone_inputs (q : Bool) (s : State) :
    (signalDone q s).inputs = s.inputs := by cases q <;> rfl
@[simp] theorem signalDone_hostRead (q : Bool) (s : State) :
    (signalDone q s).hostRead = s.hostRead := by cases q <;> rfl
@[simp] theorem signalDone_dirty (q : Bool) (s : State) :
    (signalDone q s).dirty = s.dirty := by cases q <;> rfl
@[simp] theorem signalDone_free (q : Bool) (s : State) :
    (signalDone q s).free = s.free := by cases q <;> rfl

/-! ### raiseError -/

@[simp] theorem raiseError_params (e : Err) (i : Half) (o : BitVec 8) (f : Bool) (s : State) :
    (raiseError e i o f s).params = s.params := by unfold raiseError; dsimp only; split <;> rfl
@[simp] theorem raiseError_ctrlEn (e : Err) (i : Half) (o : BitVec 8) (f : Bool) (s : State) :
    (raiseError e i o f s).ctrlEn = s.ctrlEn := by unfold raiseError; dsimp only; split <;> rfl
@[simp] theorem raiseError_ctrlHoe (e : Err) (i : Half) (o : BitVec 8) (f : Bool) (s : State) :
    (raiseError e i o f s).ctrlHoe = s.ctrlHoe := by unfold raiseError; dsimp only; split <;> rfl
@[simp] theorem raiseError_halted (e : Err) (i : Half) (o : BitVec 8) (f : Bool) (s : State) :
    (raiseError e i o f s).halted = (s.halted || (s.ctrlHoe || f)) := by
  unfold raiseError; dsimp only; split <;> simp_all
@[simp] theorem raiseError_errCode (e : Err) (i : Half) (o : BitVec 8) (f : Bool) (s : State) :
    (raiseError e i o f s).errCode = e.code.number := by unfold raiseError; dsimp only; split <;> rfl
@[simp] theorem raiseError_errIndex (e : Err) (i : Half) (o : BitVec 8) (f : Bool) (s : State) :
    (raiseError e i o f s).errIndex = i := by unfold raiseError; dsimp only; split <;> rfl
@[simp] theorem raiseError_errIdx (e : Err) (i : Half) (o : BitVec 8) (f : Bool) (s : State) :
    (raiseError e i o f s).errIdx = e.idx := by unfold raiseError; dsimp only; split <;> rfl
@[simp] theorem raiseError_errOpc (e : Err) (i : Half) (o : BitVec 8) (f : Bool) (s : State) :
    (raiseError e i o f s).errOpc = o := by unfold raiseError; dsimp only; split <;> rfl
@[simp] theorem raiseError_irqEn (e : Err) (i : Half) (o : BitVec 8) (f : Bool) (s : State) :
    (raiseError e i o f s).irqEn = s.irqEn := by unfold raiseError; dsimp only; split <;> rfl
@[simp] theorem raiseError_doneCount (e : Err) (i : Half) (o : BitVec 8) (f : Bool) (s : State) :
    (raiseError e i o f s).doneCount = s.doneCount := by unfold raiseError; dsimp only; split <;> rfl
@[simp] theorem raiseError_result (e : Err) (i : Half) (o : BitVec 8) (f : Bool) (s : State) :
    (raiseError e i o f s).result = s.result := by unfold raiseError; dsimp only; split <;> rfl
@[simp] theorem raiseError_cqBase (e : Err) (i : Half) (o : BitVec 8) (f : Bool) (s : State) :
    (raiseError e i o f s).cqBase = s.cqBase := by unfold raiseError; dsimp only; split <;> rfl
@[simp] theorem raiseError_cqSizeLog2 (e : Err) (i : Half) (o : BitVec 8) (f : Bool) (s : State) :
    (raiseError e i o f s).cqSizeLog2 = s.cqSizeLog2 := by unfold raiseError; dsimp only; split <;> rfl
@[simp] theorem raiseError_cqHead (e : Err) (i : Half) (o : BitVec 8) (f : Bool) (s : State) :
    (raiseError e i o f s).cqHead = s.cqHead := by unfold raiseError; dsimp only; split <;> rfl
@[simp] theorem raiseError_cqTail (e : Err) (i : Half) (o : BitVec 8) (f : Bool) (s : State) :
    (raiseError e i o f s).cqTail = s.cqTail := by unfold raiseError; dsimp only; split <;> rfl
@[simp] theorem raiseError_scrBase (e : Err) (i : Half) (o : BitVec 8) (f : Bool) (s : State) :
    (raiseError e i o f s).scrBase = s.scrBase := by unfold raiseError; dsimp only; split <;> rfl
@[simp] theorem raiseError_scrLimit (e : Err) (i : Half) (o : BitVec 8) (f : Bool) (s : State) :
    (raiseError e i o f s).scrLimit = s.scrLimit := by unfold raiseError; dsimp only; split <;> rfl
@[simp] theorem raiseError_scrNext (e : Err) (i : Half) (o : BitVec 8) (f : Bool) (s : State) :
    (raiseError e i o f s).scrNext = s.scrNext := by unfold raiseError; dsimp only; split <;> rfl
@[simp] theorem raiseError_schedMaxw (e : Err) (i : Half) (o : BitVec 8) (f : Bool) (s : State) :
    (raiseError e i o f s).schedMaxw = s.schedMaxw := by unfold raiseError; dsimp only; split <;> rfl
@[simp] theorem raiseError_schedMinsplit (e : Err) (i : Half) (o : BitVec 8) (f : Bool) (s : State) :
    (raiseError e i o f s).schedMinsplit = s.schedMinsplit := by unfold raiseError; dsimp only; split <;> rfl
@[simp] theorem raiseError_kcaps (e : Err) (i : Half) (o : BitVec 8) (f : Bool) (s : State) :
    (raiseError e i o f s).kcaps = s.kcaps := by unfold raiseError; dsimp only; split <;> rfl
@[simp] theorem raiseError_ctx (e : Err) (i : Half) (o : BitVec 8) (f : Bool) (s : State) :
    (raiseError e i o f s).ctx = s.ctx := by unfold raiseError; dsimp only; split <;> rfl
@[simp] theorem raiseError_icache (e : Err) (i : Half) (o : BitVec 8) (f : Bool) (s : State) :
    (raiseError e i o f s).icache = s.icache := by unfold raiseError; dsimp only; split <;> rfl
@[simp] theorem raiseError_inflight (e : Err) (i : Half) (o : BitVec 8) (f : Bool) (s : State) :
    (raiseError e i o f s).inflight = s.inflight := by unfold raiseError; dsimp only; split <;> rfl
@[simp] theorem raiseError_mem (e : Err) (i : Half) (o : BitVec 8) (f : Bool) (s : State) :
    (raiseError e i o f s).mem = s.mem := by unfold raiseError; dsimp only; split <;> rfl
@[simp] theorem raiseError_inputs (e : Err) (i : Half) (o : BitVec 8) (f : Bool) (s : State) :
    (raiseError e i o f s).inputs = s.inputs := by unfold raiseError; dsimp only; split <;> rfl
@[simp] theorem raiseError_hostRead (e : Err) (i : Half) (o : BitVec 8) (f : Bool) (s : State) :
    (raiseError e i o f s).hostRead = s.hostRead := by unfold raiseError; dsimp only; split <;> rfl
@[simp] theorem raiseError_dirty (e : Err) (i : Half) (o : BitVec 8) (f : Bool) (s : State) :
    (raiseError e i o f s).dirty = s.dirty := by unfold raiseError; dsimp only; split <;> rfl
@[simp] theorem raiseError_free (e : Err) (i : Half) (o : BitVec 8) (f : Bool) (s : State) :
    (raiseError e i o f s).free = s.free := by unfold raiseError; dsimp only; split <;> rfl

/-! ### commitRegisters -/

@[simp] theorem commitRegisters_params (p : Plan) (s : State) :
    (commitRegisters p s).params = s.params := rfl
@[simp] theorem commitRegisters_ctrlEn (p : Plan) (s : State) :
    (commitRegisters p s).ctrlEn = s.ctrlEn := rfl
@[simp] theorem commitRegisters_ctrlHoe (p : Plan) (s : State) :
    (commitRegisters p s).ctrlHoe = s.ctrlHoe := rfl
@[simp] theorem commitRegisters_halted (p : Plan) (s : State) :
    (commitRegisters p s).halted = s.halted := rfl
@[simp] theorem commitRegisters_errCode (p : Plan) (s : State) :
    (commitRegisters p s).errCode = s.errCode := rfl
@[simp] theorem commitRegisters_errIndex (p : Plan) (s : State) :
    (commitRegisters p s).errIndex = s.errIndex := rfl
@[simp] theorem commitRegisters_errIdx (p : Plan) (s : State) :
    (commitRegisters p s).errIdx = s.errIdx := rfl
@[simp] theorem commitRegisters_errOpc (p : Plan) (s : State) :
    (commitRegisters p s).errOpc = s.errOpc := rfl
@[simp] theorem commitRegisters_irqEn (p : Plan) (s : State) : (commitRegisters p s).irqEn = s.irqEn := rfl
@[simp] theorem commitRegisters_irqStat (p : Plan) (s : State) :
    (commitRegisters p s).irqStat = s.irqStat := rfl
@[simp] theorem commitRegisters_doneCount (p : Plan) (s : State) :
    (commitRegisters p s).doneCount = s.doneCount := rfl
@[simp] theorem commitRegisters_result (p : Plan) (s : State) :
    (commitRegisters p s).result = s.result := rfl
@[simp] theorem commitRegisters_cqBase (p : Plan) (s : State) :
    (commitRegisters p s).cqBase = s.cqBase := rfl
@[simp] theorem commitRegisters_cqSizeLog2 (p : Plan) (s : State) :
    (commitRegisters p s).cqSizeLog2 = s.cqSizeLog2 := rfl
@[simp] theorem commitRegisters_cqHead (p : Plan) (s : State) :
    (commitRegisters p s).cqHead = s.cqHead := rfl
@[simp] theorem commitRegisters_cqTail (p : Plan) (s : State) :
    (commitRegisters p s).cqTail = s.cqTail := rfl
@[simp] theorem commitRegisters_scrBase (p : Plan) (s : State) :
    (commitRegisters p s).scrBase = s.scrBase := rfl
@[simp] theorem commitRegisters_scrLimit (p : Plan) (s : State) :
    (commitRegisters p s).scrLimit = s.scrLimit := rfl
@[simp] theorem commitRegisters_scrNext (p : Plan) (s : State) :
    (commitRegisters p s).scrNext = p.scrNext.getD s.scrNext := rfl
@[simp] theorem commitRegisters_schedMaxw (p : Plan) (s : State) :
    (commitRegisters p s).schedMaxw = s.schedMaxw := rfl
@[simp] theorem commitRegisters_schedMinsplit (p : Plan) (s : State) :
    (commitRegisters p s).schedMinsplit = s.schedMinsplit := rfl
@[simp] theorem commitRegisters_kcaps (p : Plan) (s : State) : (commitRegisters p s).kcaps = s.kcaps := rfl
@[simp] theorem commitRegisters_ctx (p : Plan) (s : State) :
    (commitRegisters p s).ctx = p.ctx.getD s.ctx := rfl
@[simp] theorem commitRegisters_icache (p : Plan) (s : State) :
    (commitRegisters p s).icache = p.icache.getD s.icache := rfl
@[simp] theorem commitRegisters_inflight (p : Plan) (s : State) :
    (commitRegisters p s).inflight = s.inflight := rfl
@[simp] theorem commitRegisters_mem (p : Plan) (s : State) : (commitRegisters p s).mem = s.mem := rfl
@[simp] theorem commitRegisters_inputs (p : Plan) (s : State) :
    (commitRegisters p s).inputs = s.inputs := rfl
@[simp] theorem commitRegisters_hostRead (p : Plan) (s : State) :
    (commitRegisters p s).hostRead = s.hostRead := rfl
@[simp] theorem commitRegisters_dirty (p : Plan) (s : State) : (commitRegisters p s).dirty = s.dirty := rfl
@[simp] theorem commitRegisters_free (p : Plan) (s : State) : (commitRegisters p s).free = s.free := rfl

/-! ### resets -/

@[simp] theorem resetMachine_params (s : State) : (resetMachine s).params = s.params := rfl
@[simp] theorem resetMachine_inputs (s : State) : (resetMachine s).inputs = s.inputs := rfl
@[simp] theorem resetMachine_hostRead (s : State) : (resetMachine s).hostRead = s.hostRead := rfl
@[simp] theorem resetMachine_ctx (s : State) : (resetMachine s).ctx = .unconfigured := rfl
@[simp] theorem resetMachine_icache (s : State) : (resetMachine s).icache = [] := rfl
@[simp] theorem resetMachine_inflight (s : State) : (resetMachine s).inflight = none := rfl
@[simp] theorem resetMachine_halted (s : State) : (resetMachine s).halted = false := rfl
@[simp] theorem resetMachine_ctrlEn (s : State) : (resetMachine s).ctrlEn = false := rfl
@[simp] theorem resetMachine_mem (s : State) : (resetMachine s).mem = (havoc (inflightWrites s) s).mem := rfl

/-! ### What is in flight -/

@[simp] theorem busy_fetch (s : State) : busy (fetch s) = true := rfl
@[simp] theorem busy_refuseFetch (s : State) : busy (refuseFetch s) = true := rfl
@[simp] theorem refuseFetch_mem (s : State) : (refuseFetch s).mem = s.mem := rfl
@[simp] theorem refuseFetch_cqHead (s : State) : (refuseFetch s).cqHead = s.cqHead := rfl
@[simp] theorem refuseFetch_params (s : State) : (refuseFetch s).params = s.params := rfl
@[simp] theorem cpTurn_refuseFetch (s : State) : cpTurn (refuseFetch s) = fetchFault (refuseFetch s) := rfl
@[simp] theorem inflightWrites_refuseFetch (s : State) : inflightWrites (refuseFetch s) = [] := rfl
@[simp] theorem commandWrites_ok (i : Instr) (p : Plan) (s : State) : commandWrites i (.ok p) s = p.writes := rfl
@[simp] theorem commandWrites_error (i : Instr) (e : Err) (s : State) :
    commandWrites i (.error e) s = namedWrites i s := rfl

/-- The write ranges of a fetched command, whether or not it passes validation. -/
theorem inflightWrites_fetched {s : State} {ws : List Word} {i : Instr}
    (h : s.inflight = some { words := ws, phase := .fetched }) (hd : decodeWords ws = .ok i) :
    inflightWrites s = commandWrites i (planOf i s) s := by
  simp only [inflightWrites, h, hd]

/-! ### The completion step in turns -/

@[simp] theorem startReport_mem (ws : List Word) (r : Report) (s : State) : (startReport ws r s).mem = s.mem := rfl
@[simp] theorem startReport_cqHead (ws : List Word) (r : Report) (s : State) :
    (startReport ws r s).cqHead = s.cqHead := rfl
@[simp] theorem startReport_params (ws : List Word) (r : Report) (s : State) :
    (startReport ws r s).params = s.params := rfl
@[simp] theorem busy_startReport (ws : List Word) (r : Report) (s : State) : busy (startReport ws r s) = true := rfl
/-- No host write logged before the completion step is left over. -/
theorem startReport_dirty (ws : List Word) (r : Report) (s : State) :
    ∀ x ∈ (startReport ws r s).dirty, x.index ≠ (startReport ws r s).cqHead := by
  intro x hx
  simpa using (List.mem_filter.mp hx).2
@[simp] theorem reportW15_cqHead (r : Report) (s : State) : (reportW15 r s).cqHead = s.cqHead := rfl
@[simp] theorem reportW15_params (r : Report) (s : State) : (reportW15 r s).params = s.params := rfl
@[simp] theorem reportW15_dirty (r : Report) (s : State) : (reportW15 r s).dirty = s.dirty := rfl

/-- Once W14 is written nothing is unsettled to the host (20_memory.md R87). -/
theorem unsettledWrites_of_w14Written {s : State} (h : w14Written s = true) : unsettledWrites s = [] := by
  simp only [unsettledWrites, h, if_true]

/-- Without a host write since the completion step began there is no race (20_memory.md R91). -/
theorem lateRace_none (r : Report) {s : State} (h : ∀ x ∈ s.dirty, x.index ≠ s.cqHead) : lateRace r s = (r, s) := by
  unfold lateRace
  rw [if_neg]
  simp only [List.any_eq_true, Bool.and_eq_true, beq_iff_eq, not_exists, not_and]
  exact fun x hx he => absurd he (h x hx)

/-- The turns of an undisturbed completion step, together, are `complete` (60_exceptions.md R364). -/
theorem reportWhole_eq_complete (opc : BitVec 8) (irq : Bool) (e : Option Err) (res : Word) (codes : List ErrCode)
    (fp ws : List Extent) {s : State} (h : ∀ x ∈ s.dirty, x.index ≠ s.cqHead) :
    reportWhole { opc := opc, irq := irq, err := e, result := completionResult e res, codes := codes,
                  footprint := fp, writes := ws } (if writebackAdmitted s then .w15 else .refused) s
      = complete opc irq e res s := by
  unfold complete
  by_cases hw : writebackAdmitted s = true
  · simp only [hw, if_true, reportWhole, reportW14, lateRace_none _ (s := reportW15 _ s) h]
    rfl
  · simp only [hw, if_false, Bool.false_eq_true, reportWhole, reportRefused, lateRace_none _ h]

end Sys2Proof.Machine
end

