-- ==== Sys2Proof/Laws/Ops.lean ====
section
/-! SUPPORT. One lemma for each shared operation that says what it can do: checks, validation reads, the
overlap check, output placement, the commit and the completion step. Proofs about a command cite these and
never unfold the operations. -/

namespace Sys2Proof.Machine

/-! ### Checks -/

theorem bind_eq_ok {α β : Type} {x : Except Err α} {f : α → Except Err β} {r : β} :
    (x >>= f) = .ok r ↔ ∃ a, x = .ok a ∧ f a = .ok r := by
  cases x <;> simp [bind, Except.bind]

theorem bind_eq_error {α β : Type} {x : Except Err α} {f : α → Except Err β} {e : Err} :
    (x >>= f) = .error e ↔ x = .error e ∨ ∃ a, x = .ok a ∧ f a = .error e := by
  cases x <;> simp [bind, Except.bind]

@[simp] theorem ok_bind {α β : Type} (a : α) (f : α → Except Err β) : (Except.ok a >>= f) = f a := rfl

@[simp] theorem error_bind {α β : Type} (e : Err) (f : α → Except Err β) :
    ((Except.error e : Except Err α) >>= f) = .error e := rfl

theorem check_pos {c : Prop} [Decidable c] (h : c) (code : ErrCode) (idx : Half) :
    check c code idx = .ok () := by simp [check, h]

theorem check_neg {c : Prop} [Decidable c] (h : ¬ c) (code : ErrCode) (idx : Half) :
    check c code idx = .error { code := code, idx := idx } := by simp [check, h]

theorem check_eq_ok {c : Prop} [Decidable c] {code : ErrCode} {idx : Half} {u : Unit} :
    check c code idx = .ok u ↔ c := by
  unfold check; split <;> simp_all

theorem check_eq_error {c : Prop} [Decidable c] {code : ErrCode} {idx : Half} {e : Err} :
    check c code idx = .error e ↔ ¬ c ∧ e = { code := code, idx := idx } := by
  unfold check; split <;> simp_all [eq_comm]

theorem checkEach_eq_ok {c : Nat → Bool} {code : ErrCode} {idx : Nat → Half} {is : List Nat} {u : Unit} :
    checkEach c code idx is = .ok u ↔ ∀ i ∈ is, c i = true := by
  induction is with
  | nil => simp [checkEach]
  | cons i is ih => by_cases h : c i <;> simp [checkEach, h, ih]

/-- The first failing index is reported (60_exceptions.md R363). -/
theorem checkEach_append {c : Nat → Bool} {code : ErrCode} {idx : Nat → Half} {is js : List Nat} {i : Nat}
    (h : ∀ j ∈ is, c j = true) (hi : c i = false) :
    checkEach c code idx (is ++ i :: js) = .error { code := code, idx := idx i } := by
  induction is with
  | nil => simp [checkEach, hi]
  | cons j is ih => simp [checkEach, h j (by simp), ih fun j hj => h j (by simp [hj])]

theorem checkEach_eq_error {c : Nat → Bool} {code : ErrCode} {idx : Nat → Half} {is : List Nat} {e : Err}
    (h : checkEach c code idx is = .error e) : ∃ i ∈ is, c i = false ∧ e = { code := code, idx := idx i } := by
  induction is with
  | nil => simp [checkEach] at h
  | cons i is ih =>
    by_cases hi : c i
    · obtain ⟨j, hj, h'⟩ := ih (by simpa [checkEach, hi] using h)
      exact ⟨j, by simp [hj], h'⟩
    · exact ⟨i, by simp, by simpa using hi, by simpa [checkEach, hi, eq_comm] using h⟩

/-! ### Admitted accesses -/

theorem memReadBytes_of_readable {s : State} {a n : Nat} (h : Readable s a n) :
    memReadBytes s a n = .ok (s.mem.readBytes a n) := if_pos h

theorem memRead_of_readable {s : State} {a n : Nat} (h : Readable s a n) :
    memRead s a n = .ok (s.mem.readNat a n) := if_pos h

theorem memReadBytes_eq_ok {s : State} {a n : Nat} {bs : List Byte} :
    memReadBytes s a n = .ok bs ↔ Readable s a n ∧ bs = s.mem.readBytes a n := by
  unfold memReadBytes
  split
  · rename_i h
    exact ⟨fun e => ⟨h, (Except.ok.inj e).symm⟩, fun ⟨_, e⟩ => e ▸ rfl⟩
  · rename_i h
    exact ⟨nofun, fun ⟨h', _⟩ => absurd h' h⟩

theorem memRead_eq_ok {s : State} {a n v : Nat} :
    memRead s a n = .ok v ↔ Readable s a n ∧ v = s.mem.readNat a n := by
  unfold memRead
  split
  · rename_i h
    exact ⟨fun e => ⟨h, (Except.ok.inj e).symm⟩, fun ⟨_, e⟩ => e ▸ rfl⟩
  · rename_i h
    exact ⟨nofun, fun ⟨h', _⟩ => absurd h' h⟩

theorem memReadBytes_eq_error {s : State} {a n : Nat} {e : Err} (h : memReadBytes s a n = .error e) :
    ¬ Readable s a n ∧ e = busError := by
  unfold memReadBytes at h
  split at h
  · cases h
  · exact ⟨‹_›, (Except.error.inj h).symm⟩

theorem memRead_eq_error {s : State} {a n : Nat} {e : Err} (h : memRead s a n = .error e) :
    ¬ Readable s a n ∧ e = busError := by
  unfold memRead at h
  split at h
  · cases h
  · exact ⟨‹_›, (Except.error.inj h).symm⟩

/-- An admitted nonempty access ends within the address space (20_memory.md R81). -/
theorem end_le_of_permits {s : State} {x : Extent} {w : Bool} (h : permits s x w = true) (hn : x.len ≠ 0) :
    x.lo + x.len ≤ 2 ^ 64 := by
  simp only [permits, Bool.or_eq_true, Bool.and_eq_true, decide_eq_true_eq, beq_iff_eq] at h
  rcases h with h | ⟨⟨h, _⟩, _⟩
  · exact absurd h hn
  · exact h

/-- An admitted nonempty access does not touch the register block (20_memory.md R81). -/
theorem apart_of_permits {s : State} {x : Extent} {w : Bool} (h : permits s x w = true) (hn : x.len ≠ 0) :
    Apart x (registerBlock s) := by
  simp only [permits, Bool.or_eq_true, Bool.and_eq_true, beq_iff_eq, Bool.not_eq_true'] at h
  rcases h with h | ⟨⟨_, h⟩, _⟩
  · exact absurd h hn
  · exact h

/-! ### Tables -/

theorem readMatrix_eq_ok {s : State} {a r c : Nat} {m : Matrix} :
    readMatrix s a r c = .ok m ↔ Readable s a (r * c) ∧ m = matrixAt s a r c := by
  unfold readMatrix matrixAt
  rw [bind_eq_ok]
  constructor
  · rintro ⟨bs, h, hm⟩
    rw [memReadBytes_eq_ok] at h
    obtain ⟨h, rfl⟩ := h
    exact ⟨h, (Except.ok.inj hm).symm⟩
  · rintro ⟨h, rfl⟩
    exact ⟨_, memReadBytes_of_readable h, rfl⟩

/-- A table of fixed-size entries, entry by entry. -/
theorem map_range_succ {α : Type} (n : Nat) (f : Nat → α) :
    (List.range (n + 1)).map f = f 0 :: (List.range n).map fun i => f (i + 1) := by
  rw [List.range_succ_eq_map]; simp [Function.comp_def]

theorem readPointers_eq_ok {s : State} {t n : Nat} {ps : List Nat} :
    readPointers s t n = .ok ps ↔ PointersReadable s t n ∧ ps = pointersAt s t n := by
  unfold PointersReadable pointersAt
  induction n generalizing t ps with
  | zero => exact ⟨fun h => ⟨nofun, (Except.ok.inj h).symm⟩, fun ⟨_, h⟩ => h ▸ rfl⟩
  | succ n ih =>
    have e : ∀ i, t + 8 * (i + 1) = t + 8 + 8 * i := by intro i; omega
    simp only [readPointers, bind_eq_ok, memRead_eq_ok, ih, map_range_succ]
    constructor
    · rintro ⟨p, ⟨hp, rfl⟩, qs, ⟨hq, rfl⟩, h⟩
      refine ⟨fun i hi => ?_, ?_⟩
      · cases i with
        | zero => exact hp
        | succ i => rw [e]; exact hq i (by omega)
      · rw [← Except.ok.inj h]; simp only [e]; rfl
    · rintro ⟨h, rfl⟩
      refine ⟨_, ⟨h 0 (by omega), rfl⟩, _, ⟨fun i hi => ?_, rfl⟩, ?_⟩
      · rw [← e]; exact h (i + 1) (by omega)
      · simp only [e]; rfl

/-- Byte reads answer the bytes one read would give, where each byte may be read. -/
theorem readEach_eq_ok {s : State} {a n : Nat} {bs : List Byte} :
    readEach s a n = .ok bs ↔ (∀ i, i < n → Readable s (a + i) 1) ∧ bs = s.mem.readBytes a n := by
  induction n generalizing a bs with
  | zero => exact ⟨fun h => ⟨nofun, (Except.ok.inj h).symm⟩, fun ⟨_, h⟩ => h ▸ rfl⟩
  | succ n ih =>
    have e : ∀ i, a + (i + 1) = a + 1 + i := by intro i; omega
    simp only [readEach, bind_eq_ok, memReadBytes_eq_ok, ih]
    constructor
    · rintro ⟨b, ⟨hb, rfl⟩, cs, ⟨hc, rfl⟩, h⟩
      refine ⟨fun i hi => ?_, (Except.ok.inj h).symm⟩
      cases i with
      | zero => exact hb
      | succ i => rw [e]; exact hc i (by omega)
    · rintro ⟨h, rfl⟩
      exact ⟨_, ⟨h 0 (by omega), rfl⟩, _, ⟨fun i hi => by rw [← e]; exact h (i + 1) (by omega), rfl⟩, rfl⟩

theorem readSlot_eq_ok {s : State} {a : Nat} {x : Slot} :
    readSlot s a = .ok x ↔ (Readable s a 8 ∧ Readable s (a + 8) 4 ∧ Readable s (a + 12) 4)
      ∧ x = { addr := s.mem.readNat a 8, len := s.mem.readNat (a + 8) 4, cap := s.mem.readNat (a + 12) 4 } := by
  simp only [readSlot, bind_eq_ok, memRead_eq_ok]
  constructor
  · rintro ⟨_, ⟨h1, rfl⟩, _, ⟨h2, rfl⟩, _, ⟨h3, rfl⟩, h⟩
    exact ⟨⟨h1, h2, h3⟩, (Except.ok.inj h).symm⟩
  · rintro ⟨⟨h1, h2, h3⟩, rfl⟩
    exact ⟨_, ⟨h1, rfl⟩, _, ⟨h2, rfl⟩, _, ⟨h3, rfl⟩, rfl⟩

theorem readSlots_eq_ok {s : State} {t n : Nat} {xs : List Slot} :
    readSlots s t n = .ok xs ↔ TableReadable s t n ∧ xs = tableAt s t n := by
  unfold TableReadable tableAt
  induction n generalizing t xs with
  | zero => exact ⟨fun h => ⟨nofun, (Except.ok.inj h).symm⟩, fun ⟨_, h⟩ => h ▸ rfl⟩
  | succ n ih =>
    have e : ∀ i, t + 16 * (i + 1) = t + 16 + 16 * i := by intro i; omega
    simp only [readSlots, bind_eq_ok, readSlot_eq_ok, ih, map_range_succ]
    constructor
    · rintro ⟨_, ⟨hp, rfl⟩, qs, ⟨hq, rfl⟩, h⟩
      refine ⟨fun i hi => ?_, ?_⟩
      · cases i with
        | zero => exact hp
        | succ i => rw [e]; exact hq i (by omega)
      · rw [← Except.ok.inj h]; simp only [entryAt, e]; rfl
    · rintro ⟨h, rfl⟩
      refine ⟨_, ⟨h 0 (by omega), rfl⟩, _, ⟨fun i hi => ?_, rfl⟩, ?_⟩
      · rw [← e]; exact h (i + 1) (by omega)
      · simp only [entryAt, e]; rfl

/-- An error of a table read is BUS_ERROR (60_exceptions.md R367 case 2). -/
theorem readPointers_eq_error {s : State} {t n : Nat} {e : Err} (h : readPointers s t n = .error e) :
    e = busError := by
  induction n generalizing t with
  | zero => simp [readPointers] at h
  | succ n ih =>
    simp only [readPointers, bind_eq_error] at h
    rcases h with h | ⟨_, _, h | ⟨_, _, h⟩⟩
    · exact (memRead_eq_error h).2
    · exact ih h
    · cases h

theorem readSlot_eq_error {s : State} {a : Nat} {e : Err} (h : readSlot s a = .error e) : e = busError := by
  simp only [readSlot, bind_eq_error] at h
  rcases h with h | ⟨_, _, h | ⟨_, _, h | ⟨_, _, h⟩⟩⟩
  · exact (memRead_eq_error h).2
  · exact (memRead_eq_error h).2
  · exact (memRead_eq_error h).2
  · cases h

theorem readSlots_eq_error {s : State} {t n : Nat} {e : Err} (h : readSlots s t n = .error e) :
    e = busError := by
  induction n generalizing t with
  | zero => simp [readSlots] at h
  | succ n ih =>
    simp only [readSlots, bind_eq_error] at h
    rcases h with h | ⟨_, _, h | ⟨_, _, h⟩⟩
    · exact readSlot_eq_error h
    · exact ih h
    · cases h

@[simp] theorem tableAt_length (s : State) (t n : Nat) : (tableAt s t n).length = n := by simp [tableAt]

theorem slotAt_tableAt {s : State} {t n i : Nat} (h : i < n) : slotAt (tableAt s t n) i = entryAt s t i := by
  simp [slotAt, tableAt, List.getD_eq_getElem?_getD, h]

/-! ### Plans -/

/-- What the overlap check answers (20_memory.md R79). -/
theorem guarded_eq_ok {p q : Plan} : p.guarded = .ok q ↔ footprintClear p.reads p.writes = true ∧ q = p := by
  unfold Plan.guarded
  split
  · exact ⟨fun e => ⟨‹_›, (Except.ok.inj e).symm⟩, fun ⟨_, e⟩ => e ▸ rfl⟩
  · exact ⟨nofun, fun ⟨h, _⟩ => absurd h ‹_›⟩

theorem guarded_eq_error {p : Plan} {e : Err} :
    p.guarded = .error e ↔ footprintClear p.reads p.writes = false ∧ e = { code := .overlap, idx := noDetail } := by
  unfold Plan.guarded
  split
  · rename_i h
    exact ⟨nofun, fun ⟨h', _⟩ => absurd h (by simp [h'])⟩
  · rename_i h
    exact ⟨fun e => ⟨Bool.eq_false_iff.mpr h, (Except.error.inj e).symm⟩, fun ⟨_, e⟩ => e ▸ rfl⟩

/-- Output placement keeps the order and the indices (45_codec.md R251). -/
theorem placeOutputs_indices (xs : List Slot) (size : Nat) (outs : List Nat) (next : Nat) :
    (placeOutputs xs size outs next).1.map Placed.index = outs := by
  induction outs generalizing next with
  | nil => rfl
  | cons i is ih => 
    simp only [placeOutputs]
    split
    · simp [ih]
    · split <;> simp [ih]

/-- Without a new buffer the arena pointer stays (20_memory.md R77). -/
theorem placeOutputs_next {xs : List Slot} {size : Nat} {outs : List Nat} {next : Nat}
    (h : (placeOutputs xs size outs next).1.any Placed.fresh = false) :
    (placeOutputs xs size outs next).2 = next := by
  induction outs generalizing next with
  | nil => rfl
  | cons i is ih =>
    simp only [placeOutputs] at h ⊢
    split at h
    · rw [if_pos ‹_›]; exact ih (by simpa using h)
    · rw [if_neg ‹_›]
      split at h
      · rw [if_pos ‹_›]; exact ih (by simpa using h)
      · simp at h

/-! ### Commands -/

/-- A command is its plan, carried out. -/
theorem exec_eq_finish (i : Instr) (s : State) :
    exec i s = .next (finish (opcodeOf i) (irqFlagOf i) (planOf i s) s) := by cases i <;> rfl

/-- A command always answers a next state. -/
theorem exec_next (i : Instr) (s : State) : ∃ t, exec i s = .next t := ⟨_, exec_eq_finish i s⟩

/-- What `havoc` leaves alone: every field but memory and the free counter. -/
theorem havoc_eq (xs : List Extent) (s : State) :
    havoc xs s = { s with mem := (havoc xs s).mem, free := (havoc xs s).free } := by
  induction xs generalizing s with
  | nil => rfl
  | cons x xs ih => rw [havoc, ih]

/-- `havoc` writes its ranges only. -/
theorem havoc_sameOutside (xs : List Extent) (s : State) : SameOutside xs s.mem (havoc xs s).mem := by
  induction xs generalizing s with
  | nil => intro a _; rfl
  | cons x xs ih =>
    intro a ha
    rw [havoc, ih _ a fun y hy => ha y (by simp [hy])]
    have hx := ha x (by simp)
    simp only [Extent.contains, decide_eq_false_iff_not, inSpace] at hx ⊢
    refine Memory.read_writeBytes_other ?_
    simp only [freeBytes, List.length_map, List.length_range]
    omega

/-- The completion step writes W14 and W15 only (60_exceptions.md R364). -/
theorem complete_sameOutside (opc : BitVec 8) (q : Bool) (e : Option Err) (r : Word) (s : State) :
    SameOutside [completionBytes s] s.mem (complete opc q e r s).mem := by
  intro a ha
  have hx : ¬ (descAddr s + 56 ≤ a ∧ a < descAddr s + 56 + 8) :=
    of_decide_eq_false (ha _ (by simp : completionBytes s ∈ [completionBytes s]))
  unfold complete completeRegisters refusedRegisters
  dsimp only
  split
  · simp only [signalDone_mem]
    have : (writeback (descAddr s) e (completionResult e r) s.mem).read a = s.mem.read a := by
      unfold writeback writeW14 writeW15 Memory.writeNat
      rw [Memory.read_writeBytes_other (by simp only [length_bytesOfNat]; omega),
        Memory.read_writeBytes_other (by simp only [length_bytesOfNat]; omega)]
    cases e <;> simpa using this
  · simp

/-- The completion step changes no setup register and none of the state a command commits. -/
theorem complete_frame (opc : BitVec 8) (q : Bool) (e : Option Err) (r : Word) (s : State) :
    SameSetup s (complete opc q e r s) ∧ (complete opc q e r s).ctx = s.ctx
      ∧ (complete opc q e r s).icache = s.icache ∧ (complete opc q e r s).scrNext = s.scrNext
      ∧ (complete opc q e r s).free = s.free ∧ (complete opc q e r s).inflight = none := by
  unfold complete completeRegisters refusedRegisters
  dsimp only
  split
  · cases e <;> refine ⟨⟨?_, ?_, ?_, ?_, ?_, ?_, ?_, ?_, ?_, ?_, ?_, ?_, ?_, ?_⟩, ?_⟩ <;> simp
  · refine ⟨⟨?_, ?_, ?_, ?_, ?_, ?_, ?_, ?_, ?_, ?_, ?_, ?_, ?_, ?_⟩, ?_⟩ <;> simp

/-- The completion step keeps memory canonical. -/
theorem complete_wf {s : State} (h : s.mem.wf) (opc : BitVec 8) (q : Bool) (e : Option Err) (r : Word) :
    (complete opc q e r s).mem.wf := by
  unfold complete completeRegisters refusedRegisters
  dsimp only
  split
  · cases e <;> simpa using writeback_wf h _ _ _
  · simpa using h

/-- Carrying a command out keeps memory canonical. -/
theorem finish_wf {s : State} (h : s.mem.wf) (opc : BitVec 8) (q : Bool) (v : Except Err Plan) :
    (finish opc q v s).mem.wf := by
  unfold finish
  split
  · exact complete_wf h _ _ _ _
  · unfold finishPlan
    split
    · exact complete_wf (by simpa [commit] using Memory.wf_putAll h _) _ _ _ _
    · exact complete_wf (havoc_wf (by simpa using h) _) _ _ _ _

/-! ### Races -/

/-- What a raced command can commit outside memory (20_memory.md R91, log 11): everything its plan commits,
with a report of OK; what a plan without a context commits, with BUS_ERROR; or nothing. -/
theorem racedCommit_cases (e : Option Err) (p : Plan) (s : State) :
    (e = none ∧ ∃ f, racedCommit e p s
        = { commitRegisters { p with ctx := p.ctx.map (racedContext s.free) } s with free := f })
    ∨ (p.ctx = none ∧ ∃ f, racedCommit e p s = { commitRegisters p s with free := f })
    ∨ ∃ f, racedCommit e p s = { s with free := f } := by
  unfold racedCommit
  split
  · exact .inl ⟨rfl, _, rfl⟩
  · split
    · rename_i h
      exact .inr (.inl ⟨h.2.1, _, rfl⟩)
    · exact .inr (.inr ⟨_, rfl⟩)

end Sys2Proof.Machine
end

