-- ==== Sys2Proof/Laws/Completion.lean ====
section
/-! SUPPORT. What the turns of the completion step (spec/60_exceptions.md R364, 20_memory.md R87) and the end of a
data phase can do: the registers they leave alone, and W14 as a number. -/

namespace Sys2Proof.Machine

/-- The end of a data phase leaves the completion registers and the set-up as they were. -/
structure DataPhaseFrame (s t : State) : Prop where
  registers : SameCompletionRegisters s t
  setup : SameSetup s t

theorem DataPhaseFrame.refl (s : State) : DataPhaseFrame s s := ⟨by constructor <;> rfl, by constructor <;> rfl⟩

theorem DataPhaseFrame.withMem {s t : State} (h : DataPhaseFrame s t) (m : Memory) :
    DataPhaseFrame s { t with mem := m } :=
  ⟨by cases h.registers; constructor <;> assumption, by cases h.setup; constructor <;> assumption⟩

theorem DataPhaseFrame.withFree {s t : State} (h : DataPhaseFrame s t) (n : Nat) :
    DataPhaseFrame s { t with free := n } :=
  ⟨by cases h.registers; constructor <;> assumption, by cases h.setup; constructor <;> assumption⟩

theorem DataPhaseFrame.commit {s t : State} (h : DataPhaseFrame s t) (p : Plan) :
    DataPhaseFrame s (commitRegisters p t) :=
  ⟨by cases h.registers; constructor <;> assumption, by cases h.setup; constructor <;> assumption⟩

theorem DataPhaseFrame.havoc {s t : State} (h : DataPhaseFrame s t) (xs : List Extent) :
    DataPhaseFrame s (Machine.havoc xs t) := by
  rw [havoc_eq]
  exact ⟨by cases h.registers; constructor <;> assumption, by cases h.setup; constructor <;> assumption⟩

/-- A raced command (20_memory.md R91) has changed memory and what a command commits, and nothing else. -/
theorem racedEnding_frame (i : Instr) (v : Except Err Plan) (s : State) :
    DataPhaseFrame s (racedEnding i v s).state := by
  unfold racedEnding
  have h := ((DataPhaseFrame.refl s).withFree (s.free + 3)).havoc (commandWrites i v s)
  cases v with
  | error e => exact h
  | ok p =>
    dsimp only
    unfold racedCommit
    split
    · exact (h.commit _).withFree _
    · split
      · exact (h.commit _).withFree _
      · exact h.withFree _

theorem workEnding_frame (i : Instr) (p : Plan) (s : State) : DataPhaseFrame s (workEnding i p s).state := by
  unfold workEnding
  split
  · exact racedEnding_frame ..
  · split
    · exact ((DataPhaseFrame.refl s).withMem _).commit _
    · exact ((DataPhaseFrame.refl s).commit _).havoc _

theorem errorEnding_frame (i : Instr) (e : Err) (s : State) : DataPhaseFrame s (errorEnding i e s).state := by
  unfold errorEnding
  split
  · exact racedEnding_frame ..
  · exact .refl s

theorem lateRace_frame (r : Report) (s : State) : DataPhaseFrame s (lateRace r s).2 := by
  unfold lateRace
  split
  · exact ((DataPhaseFrame.refl s).withFree _).havoc _
  · exact .refl s

/-- Whether the writeback is admitted is settled before the data phase (60_exceptions.md R364). -/
theorem DataPhaseFrame.writebackAdmitted {s t : State} (h : DataPhaseFrame s t) :
    Machine.writebackAdmitted t = Machine.writebackAdmitted s := by
  unfold Machine.writebackAdmitted permits registerBlock descAddr slotAddr
  rw [h.setup.params, h.setup.cqBase, h.registers.cqHead]

theorem DataPhaseFrame.startReport {s t : State} (h : DataPhaseFrame s t) (ws : List Word) (r : Report) :
    busy (Machine.startReport ws r t) = true ∧ SameCompletionRegisters s (Machine.startReport ws r t) :=
  ⟨rfl, by cases h.registers; constructor <;> assumption⟩

/-- W14 as a number: DONE, IDX and CODE (30_encoding.md R108, 60_exceptions.md R364). -/
theorem completionWord_toNat (e : Option Err) : (completionWord e).toNat = match e with
    | none => 0x80000000
    | some e => 0x80000000 + 256 * e.idx.toNat + e.code.number.toNat := by
  cases e with
  | none => rfl
  | some e =>
    unfold completionWord
    have hi := e.idx.isLt
    have hn := e.code.number.isLt
    have h1 : e.idx.toNat <<< 8 ||| e.code.number.toNat = 256 * e.idx.toNat + e.code.number.toNat := by
      rw [← Nat.shiftLeft_add_eq_or_of_lt hn, Nat.shiftLeft_eq]; omega
    have h2 := Nat.two_pow_add_eq_or_of_lt (i := 31) (b := 256 * e.idx.toNat + e.code.number.toNat) (by omega) 1
    simp only [BitVec.toNat_or, BitVec.toNat_shiftLeft, BitVec.toNat_setWidth]
    rw [Nat.or_assoc, Nat.mod_eq_of_lt (a := e.idx.toNat) (by omega),
      Nat.mod_eq_of_lt (a := e.code.number.toNat) (by omega),
      Nat.mod_eq_of_lt (a := e.idx.toNat <<< 8) (by rw [Nat.shiftLeft_eq]; omega), h1]
    exact h2.symm.trans (Nat.add_assoc ..).symm

end Sys2Proof.Machine
end

