-- ==== Sys2Proof/Laws/Field.lean ====
section
/-! SUPPORT. Laws of the change of basis (spec/41_field.md R137, R138): `dualBasis`, which R138 does not
print, inverts `basis` (log 8). -/

namespace Sys2Proof.Machine

@[simp] theorem xorSelect_zero (cs : List Nat) : xorSelect cs 0 = 0 := by
  induction cs with
  | nil => rfl
  | cons c cs ih => simp [xorSelect, ih]

/-- `xorSelect` is linear. -/
theorem xorSelect_xor (cs : List Nat) (a b : Nat) :
    xorSelect cs (a ^^^ b) = xorSelect cs a ^^^ xorSelect cs b := by
  induction cs generalizing a b with
  | nil => simp [xorSelect]
  | cons c cs ih =>
    simp only [xorSelect, Nat.xor_div_two, ih, Nat.xor_mod_two_eq]
    rcases Nat.mod_two_eq_zero_or_one a with ha | ha <;> rcases Nat.mod_two_eq_zero_or_one b with hb | hb <;>
      simp [Nat.add_mod, ha, hb, Nat.xor_assoc, Nat.xor_left_comm]

/-- The low bit of a number and the rest of it, shifted by k. -/
theorem low_bit_xor (a k : Nat) :
    (if a % 2 = 1 then 2 ^ k else 0) ^^^ (a / 2 * 2 ^ (k + 1)) = a * 2 ^ k := by
  have h : (if a % 2 = 1 then 2 ^ k else 0) = (a % 2) <<< k := by
    rcases Nat.mod_two_eq_zero_or_one a with h | h <;> simp [h, Nat.shiftLeft_eq]
  rw [h, show a / 2 * 2 ^ (k + 1) = (2 * (a / 2)) <<< k by rw [Nat.shiftLeft_eq, Nat.pow_succ, Nat.mul_comm (2 ^ k) 2, ← Nat.mul_assoc, Nat.mul_comm 2],
    ← Nat.shiftLeft_xor_distrib, ← Nat.shiftLeft_eq]
  congr 1
  apply Nat.eq_of_testBit_eq
  intro i
  cases i with
  | zero => simp [Nat.testBit_zero]
  | succ i =>
    rw [Nat.testBit_xor, Nat.testBit_succ, Nat.testBit_succ, Nat.testBit_succ]
    simp [show a % 2 / 2 = 0 by omega]

/-- Columns that `ds` maps to the powers of two name every number. -/
theorem xorSelect_xorSelect {ds cs : List Nat} {k : Nat}
    (h : ∀ t, (ht : t < cs.length) → xorSelect ds cs[t] = 2 ^ (k + t)) (a : Nat) (ha : a < 2 ^ cs.length) :
    xorSelect ds (xorSelect cs a) = a * 2 ^ k := by
  induction cs generalizing k a with
  | nil =>
    simp only [List.length_nil, Nat.pow_zero] at ha
    simp [xorSelect, show a = 0 by omega]
  | cons c cs ih =>
    have h0 : xorSelect ds c = 2 ^ k := h 0 (by simp)
    have h1 : xorSelect ds (if a % 2 = 1 then c else 0) = if a % 2 = 1 then 2 ^ k else 0 := by
      split <;> simp [h0]
    have h2 := ih (k := k + 1) (fun t ht => by
      have := h (t + 1) (by simp; omega)
      rw [List.getElem_cons_succ] at this
      rw [this]; congr 1; omega) (a / 2) (by
      rw [List.length_cons, Nat.pow_succ] at ha; omega)
    rw [xorSelect, xorSelect_xor, h1, h2, low_bit_xor]

/-- fromPoly inverts toPoly. -/
theorem fromPoly_toPoly (fs : FS) (a : Nat) (ha : a < 2 ^ width fs) : fromPoly fs (toPoly fs a) = a := by
  cases fs with
  | gf8 => rfl
  | gf8c =>
    have := xorSelect_xorSelect (ds := dualBasis .gf8c) (cs := basis .gf8c) (k := 0) (by decide) a ha
    simpa [fromPoly, toPoly] using this
  | gf16c =>
    have := xorSelect_xorSelect (ds := dualBasis .gf16c) (cs := basis .gf16c) (k := 0) (by decide) a ha
    simpa [fromPoly, toPoly] using this

/-- toPoly inverts fromPoly. -/
theorem toPoly_fromPoly (fs : FS) (p : Nat) (hp : p < 2 ^ width fs) : toPoly fs (fromPoly fs p) = p := by
  cases fs with
  | gf8 => rfl
  | gf8c =>
    have := xorSelect_xorSelect (ds := basis .gf8c) (cs := dualBasis .gf8c) (k := 0) (by decide) p hp
    simpa [fromPoly, toPoly] using this
  | gf16c =>
    have := xorSelect_xorSelect (ds := basis .gf16c) (cs := dualBasis .gf16c) (k := 0) (by decide) p hp
    simpa [fromPoly, toPoly] using this

/-! ### Buffers (20_memory.md R72) -/

@[simp] theorem length_xorBuf (bs cs : List Byte) : (xorBuf bs cs).length = min bs.length cs.length := by
  simp [xorBuf]

/-- The elements of whole FS2 blocks: one for every two bytes. -/
theorem length_elems16 (n : Nat) (bs : List Byte) (h : bs.length = 64 * n) : (elems16 n bs).length = 32 * n := by
  induction n generalizing bs with
  | zero => rfl
  | succ n ih =>
    simp only [elems16, List.length_append, List.length_zipWith, List.length_take, List.length_drop,
      ih (bs.drop 64) (by simp [h]; omega)]
    omega

end Sys2Proof.Machine
end

