-- ==== Sys2Proof/Laws/PerInstr.lean ====
section
/-! SUPPORT. Facts about every command as syntax, one lemma per constructor. -/

namespace Sys2Proof.Laws.HeaderMatchesTable

/-- The header that `encode` writes has the command's opcode and IRQ flag, and reserved bits 0, and the
descriptor has sixteen words (spec/30_encoding.md R102, R106, R109). -/
def Statement (i : Instr) : Prop :=
  (encode i).length = 16 ∧ opcOf (wordOf (encode i) 0) = Machine.opcodeOf i
    ∧ irqOf (wordOf (encode i) 0) = Machine.irqFlagOf i ∧ reservedClear (wordOf (encode i) 0) = true

/-- It is enough to look at the header word. -/
theorem of_header {i : Instr} {w a b c d l : Word} {p q r t : Addr} {o : BitVec 8} {f : Bool}
    (h : encode i = d64 w a b c d l p q r t ∧ Machine.opcodeOf i = o ∧ Machine.irqFlagOf i = f)
    (hw : opcOf w = o ∧ irqOf w = f ∧ reservedClear w = true) : Statement i := by
  obtain ⟨h, rfl, rfl⟩ := h
  unfold Statement
  rw [h]
  exact ⟨rfl, hw⟩

theorem nop : ∀ q, Statement (.nop q) := by
  intro q
  cases q <;>
    first
      | exact of_header (o := 0x00) (f := true) ⟨rfl, rfl, rfl⟩ (by decide)
      | exact of_header (o := 0x00) (f := false) ⟨rfl, rfl, rfl⟩ (by decide)

theorem icflush : ∀ q, Statement (.icflush q) := by
  intro q
  cases q <;>
    first
      | exact of_header (o := 0x01) (f := true) ⟨rfl, rfl, rfl⟩ (by decide)
      | exact of_header (o := 0x01) (f := false) ⟨rfl, rfl, rfl⟩ (by decide)

theorem alloc : ∀ q n len t, Statement (.alloc q n len t) := by
  intro q n len t
  cases q <;>
    first
      | exact of_header (o := 0x02) (f := true) ⟨rfl, rfl, rfl⟩ (by decide)
      | exact of_header (o := 0x02) (f := false) ⟨rfl, rfl, rfl⟩ (by decide)

theorem areset : ∀ q, Statement (.areset q) := by
  intro q
  cases q <;>
    first
      | exact of_header (o := 0x03) (f := true) ⟨rfl, rfl, rfl⟩ (by decide)
      | exact of_header (o := 0x03) (f := false) ⟨rfl, rfl, rfl⟩ (by decide)

theorem configure : ∀ q f g h k m o s p, Statement (.configure q f g h k m o s p) := by
  intro q f g h k m o s p
  cases q <;> cases f <;> cases g <;> cases h <;>
    first
      | exact of_header (o := 0x08) (f := true) ⟨rfl, rfl, rfl⟩ (by decide)
      | exact of_header (o := 0x08) (f := false) ⟨rfl, rfl, rfl⟩ (by decide)

theorem ctxReadm : ∀ q d, Statement (.ctxReadm q d) := by
  intro q d
  cases q <;>
    first
      | exact of_header (o := 0x09) (f := true) ⟨rfl, rfl, rfl⟩ (by decide)
      | exact of_header (o := 0x09) (f := false) ⟨rfl, rfl, rfl⟩ (by decide)

theorem gfAdd : ∀ q F a b, Statement (.gfAdd q F a b) := by
  intro q F a b
  cases q <;> cases F <;>
    first
      | exact of_header (o := 0x10) (f := true) ⟨rfl, rfl, rfl⟩ (by decide)
      | exact of_header (o := 0x10) (f := false) ⟨rfl, rfl, rfl⟩ (by decide)

theorem gfMul : ∀ q F a b, Statement (.gfMul q F a b) := by
  intro q F a b
  cases q <;> cases F <;>
    first
      | exact of_header (o := 0x11) (f := true) ⟨rfl, rfl, rfl⟩ (by decide)
      | exact of_header (o := 0x11) (f := false) ⟨rfl, rfl, rfl⟩ (by decide)

theorem gfInv : ∀ q F a, Statement (.gfInv q F a) := by
  intro q F a
  cases q <;> cases F <;>
    first
      | exact of_header (o := 0x12) (f := true) ⟨rfl, rfl, rfl⟩ (by decide)
      | exact of_header (o := 0x12) (f := false) ⟨rfl, rfl, rfl⟩ (by decide)

theorem gfPow : ∀ q F a n, Statement (.gfPow q F a n) := by
  intro q F a n
  cases q <;> cases F <;>
    first
      | exact of_header (o := 0x13) (f := true) ⟨rfl, rfl, rfl⟩ (by decide)
      | exact of_header (o := 0x13) (f := false) ⟨rfl, rfl, rfl⟩ (by decide)

theorem gfLog : ∀ q F a, Statement (.gfLog q F a) := by
  intro q F a
  cases q <;> cases F <;>
    first
      | exact of_header (o := 0x14) (f := true) ⟨rfl, rfl, rfl⟩ (by decide)
      | exact of_header (o := 0x14) (f := false) ⟨rfl, rfl, rfl⟩ (by decide)

theorem gfAlog : ∀ q F i, Statement (.gfAlog q F i) := by
  intro q F i
  cases q <;> cases F <;>
    first
      | exact of_header (o := 0x15) (f := true) ⟨rfl, rfl, rfl⟩ (by decide)
      | exact of_header (o := 0x15) (f := false) ⟨rfl, rfl, rfl⟩ (by decide)

theorem matIdent : ∀ q n d, Statement (.matIdent q n d) := by
  intro q n d
  cases q <;>
    first
      | exact of_header (o := 0x20) (f := true) ⟨rfl, rfl, rfl⟩ (by decide)
      | exact of_header (o := 0x20) (f := false) ⟨rfl, rfl, rfl⟩ (by decide)

theorem matMul : ∀ q a b c d x y z, Statement (.matMul q a b c d x y z) := by
  intro q a b c d x y z
  cases q <;>
    first
      | exact of_header (o := 0x21) (f := true) ⟨rfl, rfl, rfl⟩ (by decide)
      | exact of_header (o := 0x21) (f := false) ⟨rfl, rfl, rfl⟩ (by decide)

theorem matInv : ∀ q r c s d, Statement (.matInv q r c s d) := by
  intro q r c s d
  cases q <;>
    first
      | exact of_header (o := 0x22) (f := true) ⟨rfl, rfl, rfl⟩ (by decide)
      | exact of_header (o := 0x22) (f := false) ⟨rfl, rfl, rfl⟩ (by decide)

theorem matSub : ∀ q r c n m s x y d, Statement (.matSub q r c n m s x y d) := by
  intro q r c n m s x y d
  cases q <;>
    first
      | exact of_header (o := 0x23) (f := true) ⟨rfl, rfl, rfl⟩ (by decide)
      | exact of_header (o := 0x23) (f := false) ⟨rfl, rfl, rfl⟩ (by decide)

theorem matAug : ∀ q a b c d x y z, Statement (.matAug q a b c d x y z) := by
  intro q a b c d x y z
  cases q <;>
    first
      | exact of_header (o := 0x24) (f := true) ⟨rfl, rfl, rfl⟩ (by decide)
      | exact of_header (o := 0x24) (f := false) ⟨rfl, rfl, rfl⟩ (by decide)

theorem matVand : ∀ q r c d, Statement (.matVand q r c d) := by
  intro q r c d
  cases q <;>
    first
      | exact of_header (o := 0x28) (f := true) ⟨rfl, rfl, rfl⟩ (by decide)
      | exact of_header (o := 0x28) (f := false) ⟨rfl, rfl, rfl⟩ (by decide)

theorem matGen : ∀ q f k m t d, Statement (.matGen q f k m t d) := by
  intro q f k m t d
  cases q <;> cases f <;>
    first
      | exact of_header (o := 0x29) (f := true) ⟨rfl, rfl, rfl⟩ (by decide)
      | exact of_header (o := 0x29) (f := false) ⟨rfl, rfl, rfl⟩ (by decide)

theorem kaxpy : ∀ q F c l s d, Statement (.kaxpy q F c l s d) := by
  intro q F c l s d
  cases q <;> cases F <;>
    first
      | exact of_header (o := 0x30) (f := true) ⟨rfl, rfl, rfl⟩ (by decide)
      | exact of_header (o := 0x30) (f := false) ⟨rfl, rfl, rfl⟩ (by decide)

theorem kmulc : ∀ q F c l s d, Statement (.kmulc q F c l s d) := by
  intro q F c l s d
  cases q <;> cases F <;>
    first
      | exact of_header (o := 0x31) (f := true) ⟨rfl, rfl, rfl⟩ (by decide)
      | exact of_header (o := 0x31) (f := false) ⟨rfl, rfl, rfl⟩ (by decide)

theorem kcode : ∀ q f r c l g i o, Statement (.kcode q f r c l g i o) := by
  intro q f r c l g i o
  cases q <;> cases f <;>
    first
      | exact of_header (o := 0x32) (f := true) ⟨rfl, rfl, rfl⟩ (by decide)
      | exact of_header (o := 0x32) (f := false) ⟨rfl, rfl, rfl⟩ (by decide)

theorem bflyFft : ∀ q F s l x y, Statement (.bflyFft q F s l x y) := by
  intro q F s l x y
  cases q <;> cases F <;>
    first
      | exact of_header (o := 0x38) (f := true) ⟨rfl, rfl, rfl⟩ (by decide)
      | exact of_header (o := 0x38) (f := false) ⟨rfl, rfl, rfl⟩ (by decide)

theorem bflyIfft : ∀ q F s l x y, Statement (.bflyIfft q F s l x y) := by
  intro q F s l x y
  cases q <;> cases F <;>
    first
      | exact of_header (o := 0x39) (f := true) ⟨rfl, rfl, rfl⟩ (by decide)
      | exact of_header (o := 0x39) (f := false) ⟨rfl, rfl, rfl⟩ (by decide)

theorem xformFft : ∀ q F n b l t, Statement (.xformFft q F n b l t) := by
  intro q F n b l t
  cases q <;> cases F <;>
    first
      | exact of_header (o := 0x3A) (f := true) ⟨rfl, rfl, rfl⟩ (by decide)
      | exact of_header (o := 0x3A) (f := false) ⟨rfl, rfl, rfl⟩ (by decide)

theorem xformIfft : ∀ q F n b l t, Statement (.xformIfft q F n b l t) := by
  intro q F n b l t
  cases q <;> cases F <;>
    first
      | exact of_header (o := 0x3B) (f := true) ⟨rfl, rfl, rfl⟩ (by decide)
      | exact of_header (o := 0x3B) (f := false) ⟨rfl, rfl, rfl⟩ (by decide)

theorem fderiv : ∀ q F n l t, Statement (.fderiv q F n l t) := by
  intro q F n l t
  cases q <;> cases F <;>
    first
      | exact of_header (o := 0x3C) (f := true) ⟨rfl, rfl, rfl⟩ (by decide)
      | exact of_header (o := 0x3C) (f := false) ⟨rfl, rfl, rfl⟩ (by decide)

theorem encode : ∀ q n t, Statement (.encode q n t) := by
  intro q n t
  cases q <;>
    first
      | exact of_header (o := 0x40) (f := true) ⟨rfl, rfl, rfl⟩ (by decide)
      | exact of_header (o := 0x40) (f := false) ⟨rfl, rfl, rfl⟩ (by decide)

theorem verify : ∀ q n t, Statement (.verify q n t) := by
  intro q n t
  cases q <;>
    first
      | exact of_header (o := 0x41) (f := true) ⟨rfl, rfl, rfl⟩ (by decide)
      | exact of_header (o := 0x41) (f := false) ⟨rfl, rfl, rfl⟩ (by decide)

theorem recon : ∀ q n t, Statement (.recon q n t) := by
  intro q n t
  cases q <;>
    first
      | exact of_header (o := 0x42) (f := true) ⟨rfl, rfl, rfl⟩ (by decide)
      | exact of_header (o := 0x42) (f := false) ⟨rfl, rfl, rfl⟩ (by decide)

theorem reconData : ∀ q n t, Statement (.reconData q n t) := by
  intro q n t
  cases q <;>
    first
      | exact of_header (o := 0x43) (f := true) ⟨rfl, rfl, rfl⟩ (by decide)
      | exact of_header (o := 0x43) (f := false) ⟨rfl, rfl, rfl⟩ (by decide)

theorem reconSome : ∀ q n t r, Statement (.reconSome q n t r) := by
  intro q n t r
  cases q <;>
    first
      | exact of_header (o := 0x44) (f := true) ⟨rfl, rfl, rfl⟩ (by decide)
      | exact of_header (o := 0x44) (f := false) ⟨rfl, rfl, rfl⟩ (by decide)

theorem update : ∀ q c n t u, Statement (.update q c n t u) := by
  intro q c n t u
  cases q <;>
    first
      | exact of_header (o := 0x45) (f := true) ⟨rfl, rfl, rfl⟩ (by decide)
      | exact of_header (o := 0x45) (f := false) ⟨rfl, rfl, rfl⟩ (by decide)

theorem encodeIdx : ∀ q i c l s p, Statement (.encodeIdx q i c l s p) := by
  intro q i c l s p
  cases q <;>
    first
      | exact of_header (o := 0x46) (f := true) ⟨rfl, rfl, rfl⟩ (by decide)
      | exact of_header (o := 0x46) (f := false) ⟨rfl, rfl, rfl⟩ (by decide)

end Sys2Proof.Laws.HeaderMatchesTable
end

