-- ==== Sys2Proof/Laws/Plans.lean ====
section
/-! SUPPORT. What validation can answer, said once for every command: which parts of the state its plan
commits, and where it writes. Proofs over all commands cite `plan_commits` and `plan_writes` and never take
a plan apart. -/

namespace Sys2Proof.Machine

/-- What a plan may commit outside memory. -/
structure Plan.Commits (i : Instr) (p : Plan) : Prop where
  ctx : isConfigure i = false → p.ctx = none
  scrNext : movesArena i = false → p.scrNext = none
  icache : usesCache i = false → p.icache = none
  configured : ∀ c, p.ctx = some c → p.icache = some []

theorem replyPlan_commits (i : Instr) (s : State) (r : Word) : Plan.Commits i (replyPlan s r) :=
  ⟨fun _ => rfl, fun _ => rfl, fun _ => rfl, nofun⟩

/-- A guarded plan is the plan. -/
theorem commits_of_guarded {i : Instr} {p q : Plan} (h : p.guarded = .ok q) (hp : Plan.Commits i p) :
    Plan.Commits i q := by
  obtain ⟨_, rfl⟩ := guarded_eq_ok.mp h
  exact hp

theorem matrixPlan_commits {i : Instr} {s : State} {ins : List ReadRange} {dst : Addr} {n : Nat}
    {out : Matrix} {q : Plan} (h : matrixPlan s ins dst n out = .ok q) : Plan.Commits i q :=
  commits_of_guarded h ⟨fun _ => rfl, fun _ => rfl, fun _ => rfl, nofun⟩

theorem transformPlan_commits {i : Instr} {s : State} {tables : List ReadRange} {bufs : List Nat} {n : Nat}
    {out : List (List Byte)} {q : Plan} (h : transformPlan s tables bufs n out = .ok q) : Plan.Commits i q :=
  commits_of_guarded h ⟨fun _ => rfl, fun _ => rfl, fun _ => rfl, nofun⟩

theorem outputPlan_commits {i : Instr} {s : State} {tab : Addr} {xs : List Slot} {outs : List Nat}
    {bytes : List (List Byte)} {extra : List ReadRange} {cache : Option (List CacheEntry)} {q : Plan}
    (hm : movesArena i = true) (hc : cache = none ∨ usesCache i = true)
    (h : outputPlan s tab xs outs bytes extra cache = .ok q) : Plan.Commits i q := by
  unfold outputPlan at h
  have key : ∀ p : Plan, p.guarded = .ok q → p.ctx = none → p.icache = cache → Plan.Commits i q := by
    intro p hp h1 h2
    refine commits_of_guarded hp ⟨fun _ => h1, fun h => by simp [h] at hm, fun h => ?_, fun c hc => ?_⟩
    · rw [h2]; rcases hc with hc | hc
      · exact hc
      · simp [h] at hc
    · simp [h1] at hc
  dsimp only at h
  split at h
  · obtain ⟨_, _, h⟩ := bind_eq_ok.mp h
    exact key _ h rfl rfl
  · exact key _ h rfl rfl

theorem planRecovery_commits {i : Instr} {s : State} {tab : Addr} {xs : List Slot} {needed : List Nat}
    {extra : List ReadRange} {q : Plan} (hm : movesArena i = true) (hc : usesCache i = true)
    (h : planRecovery s tab xs needed extra = .ok q) : Plan.Commits i q := by
  unfold planRecovery at h
  split at h
  · obtain rfl := Except.ok.inj h
    exact ⟨fun _ => rfl, fun _ => rfl, fun _ => rfl, nofun⟩
  · split at h
    · split at h
      · exact outputPlan_commits hm (.inr hc) h
      · obtain ⟨_, _, h⟩ := bind_eq_ok.mp h
        exact outputPlan_commits hm (.inr hc) h
    · exact outputPlan_commits hm (.inr hc) h

/-- What each command commits outside memory (10_state.md R42, R51, R53). -/
theorem plan_commits {i : Instr} {s : State} {p : Plan} (h : planOf i s = .ok p) : Plan.Commits i p := by
  cases i <;> simp only [planOf] at h
  case nop => obtain rfl := Except.ok.inj h; exact replyPlan_commits ..
  case icflush => obtain rfl := Except.ok.inj h; exact ⟨fun _ => rfl, fun _ => rfl, nofun, nofun⟩
  case areset => obtain rfl := Except.ok.inj h; exact ⟨fun _ => rfl, nofun, fun _ => rfl, nofun⟩
  case alloc =>
    simp only [planAlloc, bind_eq_ok] at h
    obtain ⟨_, _, h⟩ := h
    split at h
    · obtain ⟨_, _, h⟩ := bind_eq_ok.mp h
      exact commits_of_guarded h ⟨fun _ => rfl, nofun, fun _ => rfl, nofun⟩
    · exact commits_of_guarded h ⟨fun _ => rfl, nofun, fun _ => rfl, nofun⟩
  case configure =>
    simp only [planConfigure, bind_eq_ok] at h
    obtain ⟨_, _, _, _, _, _, ⟨v, up⟩, _, h⟩ := h
    cases v
    · simp only [bind_eq_ok] at h
      obtain ⟨_, _, _, _, h⟩ := h
      obtain rfl := Except.ok.inj h
      exact ⟨nofun, fun _ => rfl, nofun, fun _ _ => rfl⟩
    all_goals
      obtain rfl := Except.ok.inj h
      exact ⟨nofun, fun _ => rfl, nofun, fun _ _ => rfl⟩
  case ctxReadm =>
    simp only [planCtxReadm, bind_eq_ok] at h
    obtain ⟨_, _, _, _, q, hq, h⟩ := h
    have := matrixPlan_commits (i := .ctxReadm ‹_› ‹_›) hq
    obtain rfl := Except.ok.inj h
    exact ⟨this.ctx, this.scrNext, this.icache, this.configured⟩
  case gfAdd | gfMul | gfInv | gfPow | gfLog | gfAlog =>
    simp only [planGfAdd, planGfMul, planGfInv, planGfLog, planGfPow, planGfAlog, bind_eq_ok] at h
    first
      | (obtain ⟨_, _, _, _, h⟩ := h; obtain rfl := Except.ok.inj h; exact replyPlan_commits ..)
      | (obtain ⟨_, _, h⟩ := h; obtain rfl := Except.ok.inj h; exact replyPlan_commits ..)
      | (obtain rfl := Except.ok.inj h; exact replyPlan_commits ..)
  case matIdent =>
    simp only [planMatIdent, bind_eq_ok] at h
    obtain ⟨_, _, q, hq, h⟩ := h
    have := matrixPlan_commits (i := .matIdent ‹_› ‹_› ‹_›) hq
    obtain rfl := Except.ok.inj h
    exact ⟨this.ctx, this.scrNext, this.icache, this.configured⟩
  case matMul =>
    simp only [planMatMul, bind_eq_ok] at h
    obtain ⟨_, _, _, _, _, _, _, _, _, _, _, _, _, _, h⟩ := h
    exact matrixPlan_commits h
  case matInv =>
    simp only [planMatInv, bind_eq_ok] at h
    obtain ⟨_, _, _, _, _, _, _, _, h⟩ := h
    split at h
    · cases h
    · exact matrixPlan_commits h
  case matSub =>
    simp only [planMatSub, bind_eq_ok] at h
    obtain ⟨_, _, _, _, _, _, _, _, _, _, _, _, _, _, h⟩ := h
    exact matrixPlan_commits h
  case matAug =>
    simp only [planMatAug, bind_eq_ok] at h
    obtain ⟨_, _, _, _, _, _, _, _, _, _, _, _, _, _, _, _, h⟩ := h
    exact matrixPlan_commits h
  case matVand =>
    simp only [planMatVand, bind_eq_ok] at h
    obtain ⟨_, _, _, _, _, _, h⟩ := h
    exact matrixPlan_commits h
  case matGen =>
    simp only [planMatGen, bind_eq_ok] at h
    obtain ⟨_, _, _, _, _, _, h⟩ := h
    split at h
    · cases h
    · exact matrixPlan_commits h
  case kaxpy | kmulc =>
    simp only [planKaxpy, planKmulc, bind_eq_ok] at h
    obtain ⟨_, _, _, _, h⟩ := h
    exact commits_of_guarded h ⟨fun _ => rfl, fun _ => rfl, fun _ => rfl, nofun⟩
  case kcode =>
    simp only [planKcode, bind_eq_ok] at h
    obtain ⟨_, _, _, _, _, _, _, _, _, _, h⟩ := h
    exact commits_of_guarded h ⟨fun _ => rfl, fun _ => rfl, fun _ => rfl, nofun⟩
  case bflyFft | bflyIfft =>
    simp only [planBflyFft, planBflyIfft, bind_eq_ok] at h
    obtain ⟨_, _, _, _, h⟩ := h
    exact transformPlan_commits h
  case xformFft | xformIfft =>
    simp only [planXformFft, planXformIfft, planXform, bind_eq_ok] at h
    obtain ⟨_, _, _, _, _, _, _, _, h⟩ := h
    exact transformPlan_commits h
  case fderiv =>
    simp only [planFderiv, bind_eq_ok] at h
    obtain ⟨_, _, _, _, _, _, h⟩ := h
    exact transformPlan_commits h
  case encode =>
    simp only [planEncode, bind_eq_ok] at h
    obtain ⟨_, _, _, _, _, _, h⟩ := h
    exact outputPlan_commits rfl (.inl rfl) h
  case verify =>
    simp only [planVerify, bind_eq_ok] at h
    obtain ⟨_, _, _, _, _, _, h⟩ := h
    exact commits_of_guarded h ⟨fun _ => rfl, fun _ => rfl, fun _ => rfl, nofun⟩
  case recon | reconData =>
    simp only [planRecon, planReconData, planReconOf, bind_eq_ok] at h
    obtain ⟨_, _, _, _, _, _, h⟩ := h
    exact planRecovery_commits rfl rfl h
  case reconSome =>
    simp only [planReconSome, bind_eq_ok] at h
    obtain ⟨_, _, _, _, _, _, _, _, _, _, h⟩ := h
    exact planRecovery_commits rfl rfl h
  case update =>
    simp only [planUpdate, bind_eq_ok] at h
    obtain ⟨_, _, _, _, _, _, _, _, _, _, _, _, _, _, _, _, h⟩ := h
    split at h
    · obtain rfl := Except.ok.inj h
      exact ⟨fun _ => rfl, fun _ => rfl, fun _ => rfl, nofun⟩
    · exact commits_of_guarded h ⟨fun _ => rfl, fun _ => rfl, fun _ => rfl, nofun⟩
  case encodeIdx =>
    simp only [planEncodeIdx, bind_eq_ok] at h
    obtain ⟨_, _, _, _, _, _, _, _, _, _, _, _, h⟩ := h
    exact commits_of_guarded h ⟨fun _ => rfl, fun _ => rfl, fun _ => rfl, nofun⟩

/-! ### Where plans write -/

/-- The write ranges of a plan are those of the command's rule, they share no byte with one another or with
a read range that is no exempt equal, and they lie apart from the descriptor (20_memory.md R78, R79). -/
structure Plan.Writes (i : Instr) (s : State) (p : Plan) : Prop where
  ranges : ∀ w ∈ p.writes, w ∈ storeRanges i s
  clear : footprintClear p.reads p.writes = true

theorem writes_of_guarded {i : Instr} {s : State} {p q : Plan} (h : p.guarded = .ok q)
    (hp : ∀ w ∈ p.writes, w ∈ storeRanges i s) : Plan.Writes i s q := by
  obtain ⟨hc, rfl⟩ := guarded_eq_ok.mp h
  exact ⟨hp, hc⟩

theorem writes_of_nil {i : Instr} {s : State} {p : Plan} (h : p.writes = []) : Plan.Writes i s p :=
  ⟨by simp [h], by simp [h, footprintClear, pairwiseClear]⟩

theorem matrixPlan_writes {i : Instr} {s : State} {ins : List ReadRange} {dst : Addr} {n : Nat}
    {out : Matrix} {q : Plan} (h : matrixPlan s ins dst n out = .ok q)
    (hs : extent dst.toNat n ∈ storeRanges i s) : Plan.Writes i s q :=
  writes_of_guarded h (by simpa using hs)

theorem transformPlan_writes {i : Instr} {s : State} {tables : List ReadRange} {bufs : List Nat} {n : Nat}
    {out : List (List Byte)} {q : Plan} (h : transformPlan s tables bufs n out = .ok q)
    (hs : ∀ a ∈ bufs, extent a n ∈ storeRanges i s) : Plan.Writes i s q :=
  writes_of_guarded h (by simpa using hs)

theorem outputPlan_writes {i : Instr} {s : State} {tab : Addr} {xs : List Slot} {outs : List Nat}
    {bytes : List (List Byte)} {extra : List ReadRange} {cache : Option (List CacheEntry)} {q : Plan}
    (hx : xs = tableAt s tab.toNat (shardCount s)) (hs : storeRanges i s = outputRanges s tab outs)
    (h : outputPlan s tab xs outs bytes extra cache = .ok q) : Plan.Writes i s q := by
  subst hx
  unfold outputPlan at h
  dsimp only at h
  split at h
  · obtain ⟨_, _, h⟩ := bind_eq_ok.mp h
    exact writes_of_guarded h (by rw [hs]; exact fun w hw => hw)
  · exact writes_of_guarded h (by rw [hs]; exact fun w hw => hw)

theorem planRecovery_writes {i : Instr} {s : State} {tab : Addr} {xs : List Slot} {needed : List Nat}
    {extra : List ReadRange} {q : Plan} (hx : xs = tableAt s tab.toNat (shardCount s))
    (hs : storeRanges i s = outputRanges s tab needed)
    (h : planRecovery s tab xs needed extra = .ok q) : Plan.Writes i s q := by
  unfold planRecovery at h
  split at h
  · obtain rfl := Except.ok.inj h
    exact writes_of_nil rfl
  · split at h
    · split at h
      · exact outputPlan_writes hx hs h
      · obtain ⟨_, _, h⟩ := bind_eq_ok.mp h
        exact outputPlan_writes hx hs h
    · exact outputPlan_writes hx hs h

/-- The table load answers the table (45_codec.md R248). -/
theorem loadShards_eq_ok {n : Word} {tab : Addr} {s : State} {xs : List Slot}
    (h : loadShards n tab s = .ok xs) : TableUsable s n tab xs := by
  simp only [loadShards, bind_eq_ok, check_eq_ok, readSlots_eq_ok, checkEach_eq_ok] at h
  obtain ⟨_, hn, xs', ⟨hr, hx⟩, _, ha, _, hl, _, hm, h⟩ := h
  obtain rfl := Except.ok.inj h
  refine ⟨hn, hr, hx, ?_, fun i hi hp => ?_, hm⟩
  · obtain ⟨x, hx', hp⟩ := List.any_eq_true.mp ha
    rw [hx] at hx'
    obtain ⟨i, hi, rfl⟩ := List.mem_map.mp hx'
    have hi : i < shardCount s := by simpa using hi
    refine ⟨i, hi, ?_⟩
    rw [presentAt, hx, slotAt_tableAt hi]
    exact hp
  · have := hl i (by simpa using hi)
    simpa [lengthAgrees, hp] using this

theorem readParityTable_eq_ok {s : State} {t size p n : Nat} {xs : List Slot}
    (h : readParityTable s t size p n = .ok xs) :
    xs = (List.range n).map (fun i => entryAt s t (p + i)) := by
  induction n generalizing p xs with
  | zero => exact (Except.ok.inj h).symm
  | succ n ih =>
    simp only [readParityTable, bind_eq_ok, readSlot_eq_ok] at h
    obtain ⟨_, ⟨_, rfl⟩, _, _, ys, hy, h⟩ := h
    obtain rfl := Except.ok.inj h
    rw [ih hy, map_range_succ]
    simp only [Nat.add_assoc, Nat.add_comm 1]
    rfl

/-- Where each command may write host memory (20_memory.md R78). -/
theorem plan_writes {i : Instr} {s : State} {p : Plan} (h : planOf i s = .ok p) : Plan.Writes i s p := by
  cases i <;> simp only [planOf] at h
  case nop => obtain rfl := Except.ok.inj h; exact writes_of_nil rfl
  case icflush => obtain rfl := Except.ok.inj h; exact writes_of_nil rfl
  case areset => obtain rfl := Except.ok.inj h; exact writes_of_nil rfl
  case alloc =>
    simp only [planAlloc, bind_eq_ok] at h
    obtain ⟨_, _, h⟩ := h
    split at h
    · obtain ⟨_, _, h⟩ := bind_eq_ok.mp h
      exact writes_of_guarded h fun w hw => hw
    · exact writes_of_guarded h fun w hw => hw
  case configure =>
    simp only [planConfigure, bind_eq_ok] at h
    obtain ⟨_, _, _, _, _, _, ⟨v, up⟩, _, h⟩ := h
    cases v
    · simp only [bind_eq_ok] at h
      obtain ⟨_, _, _, _, h⟩ := h
      obtain rfl := Except.ok.inj h
      exact writes_of_nil rfl
    all_goals
      obtain rfl := Except.ok.inj h
      exact writes_of_nil rfl
  case ctxReadm =>
    simp only [planCtxReadm, bind_eq_ok] at h
    obtain ⟨_, _, _, _, q, hq, h⟩ := h
    have := matrixPlan_writes (i := .ctxReadm ‹_› ‹_›) hq (by simp [storeRanges])
    obtain rfl := Except.ok.inj h
    exact ⟨this.ranges, this.clear⟩
  case gfAdd | gfMul | gfInv | gfPow | gfLog | gfAlog =>
    simp only [planGfAdd, planGfMul, planGfInv, planGfLog, planGfPow, planGfAlog, bind_eq_ok] at h
    first
      | (obtain ⟨_, _, _, _, h⟩ := h; obtain rfl := Except.ok.inj h; exact writes_of_nil rfl)
      | (obtain ⟨_, _, h⟩ := h; obtain rfl := Except.ok.inj h; exact writes_of_nil rfl)
      | (obtain rfl := Except.ok.inj h; exact writes_of_nil rfl)
  case matIdent =>
    simp only [planMatIdent, bind_eq_ok] at h
    obtain ⟨_, _, q, hq, h⟩ := h
    have := matrixPlan_writes (i := .matIdent ‹_› ‹_› ‹_›) hq (by simp [storeRanges])
    obtain rfl := Except.ok.inj h
    exact ⟨this.ranges, this.clear⟩
  case matMul =>
    simp only [planMatMul, bind_eq_ok] at h
    obtain ⟨_, _, _, _, _, _, _, _, _, _, _, _, _, _, h⟩ := h
    exact matrixPlan_writes h (by simp [storeRanges])
  case matInv =>
    simp only [planMatInv, bind_eq_ok] at h
    obtain ⟨_, _, _, _, _, _, _, _, h⟩ := h
    split at h
    · cases h
    · exact matrixPlan_writes h (by simp [storeRanges])
  case matSub =>
    simp only [planMatSub, bind_eq_ok] at h
    obtain ⟨_, _, _, _, _, _, _, _, _, _, _, _, _, _, h⟩ := h
    exact matrixPlan_writes h (by simp [storeRanges])
  case matAug =>
    simp only [planMatAug, bind_eq_ok] at h
    obtain ⟨_, _, _, _, _, _, _, _, _, _, _, _, _, _, _, _, h⟩ := h
    exact matrixPlan_writes h (by simp [storeRanges])
  case matVand =>
    simp only [planMatVand, bind_eq_ok] at h
    obtain ⟨_, _, _, _, _, _, h⟩ := h
    exact matrixPlan_writes h (by simp [storeRanges])
  case matGen =>
    simp only [planMatGen, bind_eq_ok] at h
    obtain ⟨_, _, _, _, _, _, h⟩ := h
    split at h
    · cases h
    · exact matrixPlan_writes h (by simp [storeRanges])
  case kaxpy | kmulc =>
    simp only [planKaxpy, planKmulc, bind_eq_ok] at h
    obtain ⟨_, _, _, _, h⟩ := h
    exact writes_of_guarded h fun w hw => hw
  case kcode =>
    simp only [planKcode, bind_eq_ok, readPointers_eq_ok] at h
    obtain ⟨_, _, _, _, _, _, _, _, _, ⟨_, rfl⟩, h⟩ := h
    exact writes_of_guarded h fun w hw => hw
  case bflyFft | bflyIfft =>
    simp only [planBflyFft, planBflyIfft, bind_eq_ok] at h
    obtain ⟨_, _, _, _, h⟩ := h
    exact transformPlan_writes h (by simp [storeRanges])
  case xformFft | xformIfft =>
    simp only [planXformFft, planXformIfft, planXform, bind_eq_ok, readPointers_eq_ok] at h
    obtain ⟨_, _, _, _, _, _, _, ⟨_, rfl⟩, h⟩ := h
    exact transformPlan_writes h fun a ha => List.mem_map_of_mem ha
  case fderiv =>
    simp only [planFderiv, bind_eq_ok, readPointers_eq_ok] at h
    obtain ⟨_, _, _, _, _, ⟨_, rfl⟩, h⟩ := h
    exact transformPlan_writes h fun a ha => List.mem_map_of_mem ha
  case encode =>
    simp only [planEncode, bind_eq_ok] at h
    obtain ⟨_, _, _, hl, _, _, h⟩ := h
    exact outputPlan_writes (loadShards_eq_ok hl).contents rfl h
  case verify =>
    simp only [planVerify, bind_eq_ok] at h
    obtain ⟨_, _, _, _, _, _, h⟩ := h
    obtain ⟨_, rfl⟩ := guarded_eq_ok.mp h
    exact writes_of_nil rfl
  case recon | reconData =>
    simp only [planRecon, planReconData, planReconOf, bind_eq_ok] at h
    obtain ⟨_, _, _, hl, _, _, h⟩ := h
    have hx := (loadShards_eq_ok hl).contents
    subst hx
    exact planRecovery_writes rfl rfl h
  case reconSome =>
    simp only [planReconSome, bind_eq_ok, memReadBytes_eq_ok] at h
    obtain ⟨_, _, _, _, _, hl, _, _, _, ⟨_, rfl⟩, h⟩ := h
    have hx := (loadShards_eq_ok hl).contents
    subst hx
    refine planRecovery_writes rfl ?_ h
    simp only [storeRanges, missingAt, List.filter_filter]
    exact congrArg _ (List.filter_congr fun j _ => Bool.and_comm _ _)
  case update =>
    simp only [planUpdate, bind_eq_ok, readSlots_eq_ok] at h
    obtain ⟨_, _, _, _, _, hl, _, _, _, ⟨_, rfl⟩, _, _, _, _, _, _, h⟩ := h
    have hx := (loadShards_eq_ok hl).contents
    subst hx
    split at h
    · obtain rfl := Except.ok.inj h
      exact writes_of_nil rfl
    · exact writes_of_guarded h fun w hw => hw
  case encodeIdx =>
    simp only [planEncodeIdx, bind_eq_ok] at h
    obtain ⟨_, _, _, _, _, _, _, _, _, _, _, hp, h⟩ := h
    have hx := readParityTable_eq_ok hp
    simp only [Nat.zero_add] at hx
    subst hx
    exact writes_of_guarded h fun w hw => hw

end Sys2Proof.Machine
end

