-- ==== Sys2Proof/Tests/Slice0.lean ====
section
/-! SUPPORT. Tests: ill-formed terms, descriptors written out from spec/30_encoding.md, one step of each
command with the values of spec/95_test_vectors.md (cited as V<n>) or of the rule named, and for each
statement of Certificates/Slice0/Obligations.lean a state and operands that meet its hypotheses. -/

namespace Sys2Proof.Tests

open Sys2Proof Sys2Proof.Machine

-- One theorem at a time: checking them all at once needs more threads than a small machine has.
set_option Elab.async false

/-! ### Well-formedness (30_encoding.md R105, R109) -/

theorem test_bflyFft_fs0_illFormed : (Instr.bflyFft false .gf8 2 1 0x7000 0x7100).wellFormed = false := by
  decide

theorem test_bflyIfft_fs0_illFormed : (Instr.bflyIfft false .gf8 2 1 0x7000 0x7100).wellFormed = false := by
  decide

theorem test_xformFft_fs0_illFormed : (Instr.xformFft false .gf8 2 0 1 0x7200).wellFormed = false := by
  decide

theorem test_xformIfft_fs0_illFormed : (Instr.xformIfft false .gf8 2 0 1 0x7200).wellFormed = false := by
  decide

theorem test_fderiv_fs0_illFormed : (Instr.fderiv false .gf8 4 1 0x7300).wellFormed = false := by decide

/-! ### Decoding. The words are W0 to W13 of the descriptor, from the header layout R102, the opcode map
R109, the flags R106 and the operand table R115. -/

/-- The descriptor with these words, and 0 beyond them. -/
def descriptorWords (ws : List Nat) : List Word := ws.map (BitVec.ofNat 32)

/-- The descriptor decodes to the command. -/
def decodesTo (ws : List Nat) (i : Instr) : Bool :=
  match decodeWords (descriptorWords ws) with
  | .ok j => j == i
  | .error _ => false

/-- The descriptor is refused for this reason. -/
def rejectedFor (w0 : Nat) (e : DecodeError) : Bool :=
  match decodeWords (descriptorWords [w0]) with
  | .ok _ => false
  | .error d => d == e

theorem test_decode_control :
    decodesTo [0x00000000] (.nop false) ∧ decodesTo [0x00010000] (.nop true)
    ∧ decodesTo [0x00010001] (.icflush true)
    ∧ decodesTo [0x00000002, 2, 0, 0, 0, 100, 0x3000, 0x1] (.alloc false 2 100 0x100003000)
    ∧ decodesTo [0x00000003] (.areset false) := by decide +kernel

theorem test_decode_configuration :
    decodesTo [0x000B0008, 5, 6, 0x14, 0x50006, 0, 0x6000, 0x2]
      (.configure true true false true 5 6 0x14 0x50006 0x200006000)
    ∧ decodesTo [0x00040008, 200, 56, 0, 0, 0, 0, 0] (.configure false false true false 200 56 0 0 0)
    ∧ decodesTo [0x00000009, 0, 0, 0, 0, 0, 0x5000, 0x3] (.ctxReadm false 0x300005000) := by decide +kernel

theorem test_decode_field :
    decodesTo [0x00000010, 0x53, 0xCA] (.gfAdd false .gf8 0x53 0xCA)
    ∧ decodesTo [0x00000211, 0x1234, 0x5678] (.gfMul false .gf16c 0x1234 0x5678)
    ∧ decodesTo [0x00000112, 2] (.gfInv false .gf8c 2)
    ∧ decodesTo [0x00010013, 2, 8] (.gfPow true .gf8 2 8)
    ∧ decodesTo [0x00000214, 2] (.gfLog false .gf16c 2)
    ∧ decodesTo [0x00000115, 0xFFFFFFFF] (.gfAlog false .gf8c 0xFFFFFFFF) := by decide +kernel

theorem test_decode_matrix :
    decodesTo [0x00000020, 3, 0, 0, 0, 0, 0, 0, 0, 0, 0, 0, 0x2000, 0x7] (.matIdent false 3 0x700002000)
    ∧ decodesTo [0x00000021, 1, 2, 3, 4, 0, 0x2000, 5, 0x2100, 6, 0, 0, 0x2200, 7]
      (.matMul false 1 2 3 4 0x500002000 0x600002100 0x700002200)
    ∧ decodesTo [0x00000022, 2, 3, 0, 0, 0, 0x2000, 5, 0, 0, 0, 0, 0x2100, 7]
      (.matInv false 2 3 0x500002000 0x700002100)
    ∧ decodesTo [0x00000023, 1, 2, 3, 4, 0, 0x2000, 5, 0x2100, 6, 0x2110, 8, 0x2200, 7]
      (.matSub false 1 2 3 4 0x500002000 0x600002100 0x800002110 0x700002200)
    ∧ decodesTo [0x00010024, 1, 2, 3, 4, 0, 0x2000, 5, 0x2100, 6, 0, 0, 0x2200, 7]
      (.matAug true 1 2 3 4 0x500002000 0x600002100 0x700002200) := by decide +kernel

theorem test_decode_generator :
    decodesTo [0x00000028, 5, 3, 0, 0, 0, 0, 0, 0, 0, 0, 0, 0x3000, 0] (.matVand false 5 3 0x3000)
    ∧ decodesTo [0x00020029, 8, 4, 3, 0, 0, 0, 0, 0, 0, 0, 0, 0x4000, 0]
      (.matGen false true 8 4 3 0x4000) := by decide +kernel

theorem test_decode_kernel :
    decodesTo [0x00000230, 2, 0, 0, 0, 64, 0x5000, 1, 0, 0, 0, 0, 0x5100, 4]
      (.kaxpy false .gf16c 2 64 0x100005000 0x400005100)
    ∧ decodesTo [0x00000131, 3, 0, 0, 0, 1, 0x5000, 0, 0, 0, 0, 0, 0x5100, 0]
      (.kmulc false .gf8c 3 1 0x5000 0x5100)
    ∧ decodesTo [0x00030032, 2, 3, 0, 0, 4, 0x6000, 1, 0x6100, 2, 0x6180, 3, 0, 0]
      (.kcode true true 2 3 4 0x100006000 0x200006100 0x300006180) := by decide +kernel

theorem test_decode_fft :
    decodesTo [0x00000138, 2, 0, 0, 0, 1, 0x7000, 1, 0x7100, 2] (.bflyFft false .gf8c 2 1 0x100007000 0x200007100)
    ∧ decodesTo [0x00000239, 2, 0, 0, 0, 64, 0x7000, 0, 0x7100, 0] (.bflyIfft false .gf16c 2 64 0x7000 0x7100)
    ∧ decodesTo [0x0000013A, 4, 8, 0, 0, 2, 0x7400, 3] (.xformFft false .gf8c 4 8 2 0x300007400)
    ∧ decodesTo [0x0001023B, 4, 8, 0, 0, 64, 0x7400, 0] (.xformIfft true .gf16c 4 8 64 0x7400)
    ∧ decodesTo [0x0000013C, 4, 0, 0, 0, 1, 0x7300, 0] (.fderiv false .gf8c 4 1 0x7300) := by decide +kernel

theorem test_decode_codec :
    decodesTo [0x00000040, 0, 0, 10, 0, 0, 0x30000, 1] (.encode false 10 0x100030000)
    ∧ decodesTo [0x00010041, 0, 0, 10, 0, 0, 0x30000, 0] (.verify true 10 0x30000)
    ∧ decodesTo [0x00000042, 0, 0, 13, 0, 0, 0x30000, 0] (.recon false 13 0x30000)
    ∧ decodesTo [0x00000043, 0, 0, 13, 0, 0, 0x30000, 0] (.reconData false 13 0x30000)
    ∧ decodesTo [0x00000044, 0, 0, 13, 0, 0, 0x30000, 1, 0x6100, 2] (.reconSome false 13 0x100030000 0x200006100)
    ∧ decodesTo [0x00000045, 0, 2, 3, 0, 0, 0x30000, 1, 0x31000, 2] (.update false 2 3 0x100030000 0x200031000)
    ∧ decodesTo [0x00000046, 1, 2, 0, 0, 4, 0x20040, 1, 0x31000, 2]
      (.encodeIdx false 1 2 4 0x100020040 0x200031000) := by decide +kernel

/-- V49, V101, V199, V217, V254 to V259. -/
theorem test_decode_rejects :
    rejectedFor 0x00000311 .illegalFs ∧ rejectedFor 0x00040029 .illegalFlag
    ∧ rejectedFor 0x00000038 .illegalFs ∧ rejectedFor 0x0000003C .illegalFs
    ∧ rejectedFor 0x00000047 .illegalOpcode ∧ rejectedFor 0x000000FF .illegalOpcode
    ∧ rejectedFor 0x00000400 .reservedBits ∧ rejectedFor 0x01000000 .reservedBits
    ∧ rejectedFor 0x00020040 .illegalFlag ∧ rejectedFor 0x00000100 .illegalFs := by decide +kernel

/-- The opcode-table numbering: operand words of zeros above the header. -/
theorem test_decodeTableWord :
    decodeTableWord 32 0x00000020 = some (.matIdent false 0 0)
    ∧ decodeTableWord 64 0x0000000500000112 = some (.gfInv false .gf8c 5)
    ∧ decodeTableWord 32 0x00000047 = none := by decide +kernel

/-! ### One step of each command -/

/-- The set-up of 95_test_vectors.md section 0, with one command queued. -/
def ready : State :=
  { State.reset with
    ctrlEn := true, ctrlHoe := false, cqBase := 0x10000, cqSizeLog2 := 8, cqTail := 1,
    scrBase := 0x100000, scrNext := 0x100000, scrLimit := 0x110000 }

/-- Bytes placed in memory. -/
def withBytes (xs : List (Nat × List Byte)) (s : State) : State :=
  { s with mem := xs.foldl (fun m x => m.writeBytes x.1 x.2) s.mem }

/-- The command answers a next state that passes the check. -/
def completes (i : Instr) (s : State) (c : State → Bool) : Bool :=
  match exec i s with
  | .next t => c t
  | _ => false

/-- The command leaves these W14 and W15, and memory holds these bytes. -/
def leaves (i : Instr) (s : State) (w14 w15 : Nat) (out : List (Nat × List Byte)) : Bool :=
  completes i s fun t =>
    t.mem.readNat (descAddr s + 56) 4 == w14 && t.mem.readNat (descAddr s + 60) 4 == w15
      && out.all fun x => t.mem.readBytes x.1 x.2.length == x.2

/-- The command succeeds with this result, and memory holds these bytes. -/
def succeeds (i : Instr) (s : State) (w15 : Nat) (out : List (Nat × List Byte)) : Bool :=
  leaves i s 0x80000000 w15 out

/-- The pointers of a table. -/
def pointers (ps : List Nat) : List Byte := ps.flatMap (bytesOfNat 8)

/-- V241, V242. -/
theorem test_nop : completes (.nop true) ready (fun t => t.irqStat == 1 && t.cqHead == 1 && t.doneCount == 1) := by
  decide +kernel

/-- R347. -/
theorem test_icflush :
    completes (.icflush false) { ready with icache := [{ key := 3, inverse := [[1]] }] }
      (fun t => t.icache == []) := by decide +kernel

/-- V244. -/
theorem test_alloc :
    succeeds (.alloc false 2 100 0x3000) ready 2
      [(0x3000, [0, 0, 0x10, 0, 0, 0, 0, 0, 100, 0, 0, 0, 100, 0, 0, 0, 0x80, 0, 0x10])] := by decide +kernel

/-- V248. -/
theorem test_alloc_exhausted :
    leaves (.alloc false 1 1 0x3000) { ready with scrBase := 0, scrNext := 0, scrLimit := 0 } 0x80ffff13 0 [] := by
  decide +kernel

/-- V245. -/
theorem test_areset :
    completes (.areset false) { ready with scrNext := 0x100100 } (fun t => t.scrNext == 0x100000) := by
  decide +kernel

/-- V85 with V151: k = 2, m = 1 has the parity row [3, 2]. -/
theorem test_configure :
    completes (.configure false false false false 2 1 0 0 0) ready (fun t =>
      t.ctx.matrix == [[1, 0], [0, 1], [3, 2]] && readReg 0x00C t == 0x24 && readReg 0x090 t == 0x200
        && t.result == 1) := by decide +kernel

/-- V134. -/
theorem test_configure_upgrade :
    completes (.configure false false false true 200 100 0 0 0) ready (fun t =>
      readReg 0x00C t == 0x34 && readReg 0x090 t == 0x420 && readReg 0x088 t == 300 && t.result == 64) := by
  decide +kernel

/-- The context of V151. -/
def ctx21 : Ctx :=
  { valid := true, k := 2, m := 1, variant := .classical, kind := .vandermonde, fastone := false,
    icache := true, upgraded := false, ssm := 1, matrix := [[1, 0], [0, 1], [3, 2]] }

/-- The context of V218. -/
def fft21 : Ctx :=
  { valid := true, k := 2, m := 1, variant := .fft8, kind := .vandermonde, fastone := false,
    icache := false, upgraded := false, ssm := 64, matrix := [] }

/-- V151. -/
theorem test_ctxReadm :
    succeeds (.ctxReadm false 0x5000) { ready with ctx := ctx21 } 6 [(0x5000, [1, 0, 0, 1, 3, 2])] := by
  decide +kernel

/-- V152. -/
theorem test_ctxReadm_fft : leaves (.ctxReadm false 0x5000) { ready with ctx := fft21 } 0x80ffff09 0 [] := by
  decide +kernel

/-- V1, V3. -/
theorem test_gfAdd :
    succeeds (.gfAdd false .gf8 0x53 0xCA) ready 0x99 []
    ∧ leaves (.gfAdd false .gf8 0x100 1) ready 0x80000015 0 [] := by decide +kernel

/-- V6, V11, V15. -/
theorem test_gfMul :
    succeeds (.gfMul false .gf8 0x53 0xCA) ready 0x8F [] ∧ succeeds (.gfMul false .gf8c 2 3) ready 1 []
    ∧ succeeds (.gfMul false .gf16c 0x1234 0x5678) ready 0x35C9 [] := by decide +kernel

/-- V20, V21, V23. -/
theorem test_gfInv :
    succeeds (.gfInv false .gf8 0xFF) ready 0xFD [] ∧ leaves (.gfInv false .gf8 0) ready 0x80000014 0 []
    ∧ succeeds (.gfInv false .gf16c 2) ready 3 [] := by decide +kernel

/-- V25, V26, V29, V31. -/
theorem test_gfPow :
    succeeds (.gfPow false .gf8 2 8) ready 29 [] ∧ succeeds (.gfPow false .gf8 0 0) ready 1 []
    ∧ succeeds (.gfPow false .gf8 2 0xFFFFFFFF) ready 1 [] ∧ succeeds (.gfPow false .gf8c 2 2) ready 3 [] := by
  decide +kernel

/-- V36, V37, V39. -/
theorem test_gfLog :
    succeeds (.gfLog false .gf8 0x1D) ready 8 [] ∧ leaves (.gfLog false .gf8 0) ready 0x80000014 0 []
    ∧ succeeds (.gfLog false .gf8c 2) ready 85 [] := by decide +kernel

/-- V45, V46, V47. -/
theorem test_gfAlog :
    succeeds (.gfAlog false .gf8 0xFFFFFFFF) ready 1 [] ∧ succeeds (.gfAlog false .gf8c 1) ready 104 []
    ∧ succeeds (.gfAlog false .gf16c 1) ready 0x4690 [] := by decide +kernel

/-- V50. -/
theorem test_matIdent :
    succeeds (.matIdent false 3 0x2000) ready 0 [(0x2000, [1, 0, 0, 0, 1, 0, 0, 0, 1, 0])] := by decide +kernel

/-- V54: the destination overlaps the descriptor. -/
theorem test_matIdent_overlap : leaves (.matIdent false 4 0x10010) ready 0x80ffff17 0 [] := by decide +kernel

/-- V55. -/
theorem test_matMul :
    succeeds (.matMul false 2 2 2 1 0x2000 0x2100 0x2200)
      (withBytes [(0x2000, [1, 2, 3, 4]), (0x2100, [5, 6])] ready) 0 [(0x2200, [9, 23])] := by decide +kernel

/-- V62, V69. -/
theorem test_matInv :
    succeeds (.matInv false 2 2 0x2000 0x2000) (withBytes [(0x2000, [1, 1, 1, 2])] ready) 0
      [(0x2000, [0xF5, 0xF4, 0xF4, 0xF4])]
    ∧ succeeds (.matInv false 3 3 0x2000 0x2100) (withBytes [(0x2000, [0, 1, 0, 1, 0, 0, 0, 0, 1])] ready) 0
      [(0x2100, [0, 1, 0, 1, 0, 0, 0, 0, 1])] := by decide +kernel

/-- V64. -/
theorem test_matInv_singular :
    leaves (.matInv false 2 2 0x2000 0x2000) (withBytes [(0x2000, [1, 1, 1, 1])] ready) 0x80ffff08 0
      [(0x2000, [1, 1, 1, 1])] := by decide +kernel

/-- V73. -/
theorem test_matSub :
    succeeds (.matSub false 3 2 1 3 0x2000 0x2100 0x2110 0x2200)
      (withBytes [(0x2000, [1, 0, 0, 1, 5, 6]), (0x2100, [2, 0]), (0x2110, [1, 0, 1, 0, 0, 0])] ready) 0
      [(0x2200, [6, 6, 5])] := by decide +kernel

/-- V76. -/
theorem test_matSub_badColumn :
    leaves (.matSub false 3 2 1 2 0x2000 0x2100 0x2110 0x2200)
      (withBytes [(0x2110, [0, 0, 2, 0])] ready) 0x80800115 0 [] := by decide +kernel

/-- V77, V79. -/
theorem test_matAug :
    succeeds (.matAug false 2 1 2 1 0x2000 0x2100 0x2200)
      (withBytes [(0x2000, [1, 2]), (0x2100, [3, 4])] ready) 0 [(0x2200, [1, 3, 2, 4])]
    ∧ leaves (.matAug false 1 300 1 300 0x2000 0x2400 0x3000) ready 0x80000315 0 [] := by decide +kernel

/-- V80. -/
theorem test_matVand :
    succeeds (.matVand false 5 3 0x3000) ready 0
      [(0x3000, [1, 0, 0, 1, 1, 1, 1, 2, 4, 1, 3, 5, 1, 4, 16])] := by decide +kernel

/-- V92: fast-one-parity needs m = 1. -/
theorem test_matGen :
    succeeds (.matGen false true 3 2 0 0x4000) ready 0 [(0x4009, [1, 1, 1, 15, 8, 6])] := by decide +kernel

/-- V86, V88. -/
theorem test_matGen_kinds :
    succeeds (.matGen false false 3 2 1 0x4000) ready 0 [(0x4009, [0xF4, 0x8E, 0x01, 0x47, 0xA7, 0x7A])]
    ∧ succeeds (.matGen false false 4 4 2 0x4000) ready 0
      [(0x4010, [1, 1, 1, 1, 1, 2, 3, 4, 1, 4, 5, 16, 1, 8, 15, 64])] := by decide +kernel

/-- V102, V105. -/
theorem test_kaxpy :
    succeeds (.kaxpy false .gf8 2 2 0x5000 0x5100) (withBytes [(0x5000, [1, 0x80]), (0x5100, [0xFF, 0])] ready) 0
      [(0x5100, [0xFD, 0x1D])]
    ∧ succeeds (.kaxpy false .gf8 3 3 0x5000 0x5000) (withBytes [(0x5000, [1, 2, 3])] ready) 0
      [(0x5000, [2, 4, 6])] := by decide +kernel

/-- V110: element 0 of the FS2 block is 0x2000, and its product with 2 is 0x39FA. -/
theorem test_kaxpy_fs2 :
    succeeds (.kaxpy false .gf16c 2 64 0x5000 0x5100)
      (withBytes [(0x5000, (List.range 64).map (BitVec.ofNat 8))] ready) 0
      [(0x5100, [0xFA, 0x37, 0x66, 0xAB]), (0x5120, [0x39, 0x3B, 0x3A, 0x38])] := by decide +kernel

/-- V113, V116. -/
theorem test_kmulc :
    succeeds (.kmulc false .gf8 3 1 0x5000 0x5100) (withBytes [(0x5000, [7])] ready) 0 [(0x5100, [9])]
    ∧ succeeds (.kmulc false .gf8c 3 1 0x5000 0x5100) (withBytes [(0x5000, [2])] ready) 0 [(0x5100, [1])] := by
  decide +kernel

/-- The memory of V118. -/
def codeState : State :=
  withBytes [(0x6000, [1, 1, 1, 2]), (0x6100, pointers [0x6200, 0x6300]), (0x6180, pointers [0x6400, 0x6500]),
    (0x6200, [5]), (0x6300, [3]), (0x6400, [0xF0]), (0x6500, [0x0F])] ready

/-- V117. -/
theorem test_kcode :
    succeeds (.kcode false false 2 2 1 0x6000 0x6100 0x6180) codeState 0 [(0x6400, [6]), (0x6500, [3])] := by
  decide +kernel

/-- V118. -/
theorem test_kcode_acc :
    succeeds (.kcode false true 2 2 1 0x6000 0x6100 0x6180) codeState 0 [(0x6400, [0xF6]), (0x6500, [0x0C])] := by
  decide +kernel

/-- V195. -/
theorem test_bflyFft :
    succeeds (.bflyFft false .gf8c 2 1 0x7000 0x7100) (withBytes [(0x7000, [0]), (0x7100, [3])] ready) 0
      [(0x7000, [1]), (0x7100, [2])] := by decide +kernel

/-- V201. -/
theorem test_bflyFft_overlap : leaves (.bflyFft false .gf8c 2 2 0x7000 0x7001) ready 0x80ffff17 0 [] := by
  decide +kernel

/-- V196. -/
theorem test_bflyIfft :
    succeeds (.bflyIfft false .gf8c 2 1 0x7000 0x7100) (withBytes [(0x7000, [1]), (0x7100, [2])] ready) 0
      [(0x7000, [0]), (0x7100, [3])] := by decide +kernel

/-- V204, V206. -/
theorem test_xformFft :
    succeeds (.xformFft false .gf8c 2 2 1 0x7200)
      (withBytes [(0x7000, [0]), (0x7100, [3]), (0x7200, pointers [0x7000, 0x7100])] ready) 0
      [(0x7000, [1]), (0x7100, [2])]
    ∧ succeeds (.xformFft false .gf8c 2 0 1 0x7200)
      (withBytes [(0x7000, [5]), (0x7100, [3]), (0x7200, pointers [0x7000, 0x7100])] ready) 0
      [(0x7000, [5]), (0x7100, [6])] := by decide +kernel

/-- V207. -/
theorem test_xformIfft :
    succeeds (.xformIfft false .gf8c 4 4 2 0x7400)
      (withBytes [(0x7000, [0x11, 0x22]), (0x7100, [0x3C, 0x5A]), (0x7200, [0x96, 0x0F]), (0x7300, [0xE1, 0x78]),
        (0x7400, pointers [0x7000, 0x7100, 0x7200, 0x7300])] ready) 0
      [(0x7000, [0x90, 0x55]), (0x7100, [0xA1, 0x7E]), (0x7200, [0x1E, 0x9B]), (0x7300, [0x5A, 0x0F])] := by
  decide +kernel

/-- V215. -/
theorem test_fderiv :
    succeeds (.fderiv false .gf8c 4 1 0x7300)
      (withBytes [(0x7300, pointers [0x7400, 0x7440, 0x7480, 0x74C0]), (0x7400, [1]), (0x7440, [2]),
        (0x7480, [4]), (0x74C0, [8])] ready) 0
      [(0x7400, [7]), (0x7440, [10]), (0x7480, [12]), (0x74C0, [8])] := by decide +kernel

/-- One shard-table entry: ADDR, LEN, CAP. -/
def slotBytes (a l c : Nat) : List Byte := bytesOfNat 8 a ++ bytesOfNat 4 l ++ bytesOfNat 4 c

/-- The context and memory of 95_test_vectors.md section 2.5: data 05, 03, parity `p`, the table at
0x30000 with the lengths `l0`, `l1`, `l2` over one byte of storage each. -/
def codecState (p : Byte) (l0 l1 l2 : Nat) : State :=
  { withBytes [(0x20000, [5]), (0x20040, [3]), (0x20080, [p]),
      (0x30000, slotBytes 0x20000 l0 1 ++ slotBytes 0x20040 l1 1 ++ slotBytes 0x20080 l2 1)] ready with
    ctx := ctx21 }

/-- V154. -/
theorem test_encode :
    succeeds (.encode false 3 0x30000) (codecState 0 1 1 0) 0
      [(0x20080, [9]), (0x30020, [0x80, 0, 2, 0, 0, 0, 0, 0, 1, 0, 0, 0, 1])] := by decide +kernel

/-- V155: the parity slot is absent. -/
theorem test_encode_arena :
    completes (.encode false 3 0x30000) (withBytes [(0x30020, slotBytes 0 0 0)] (codecState 0 1 1 0)) (fun t =>
      t.scrNext == 0x100040 && t.mem.readBytes 0x100000 1 == [9]
        && t.mem.readBytes 0x30020 16 == slotBytes 0x100000 1 1) := by decide +kernel

/-- V167, V168. -/
theorem test_verify :
    succeeds (.verify false 3 0x30000) (codecState 9 1 1 1) 1 []
    ∧ succeeds (.verify false 3 0x30000) (codecState 8 1 1 1) 0 [] := by decide +kernel

/-- V171, with the storage of shard 0 cleared. -/
theorem test_recon :
    succeeds (.recon false 3 0x30000) (withBytes [(0x20000, [0])] (codecState 9 0 1 1)) 0
      [(0x20000, [5]), (0x30008, [1])] := by decide +kernel

/-- V175. -/
theorem test_recon_tooFew : leaves (.recon false 3 0x30000) (codecState 9 0 1 0) 0x80ffff01 0 [] := by
  decide +kernel

/-- V174: parity is not regenerated; and shard 1 from the other two. -/
theorem test_reconData :
    succeeds (.reconData false 3 0x30000) (codecState 0 1 1 0) 0 [(0x20080, [0]), (0x30028, [0])]
    ∧ succeeds (.reconData false 3 0x30000) (withBytes [(0x20040, [0])] (codecState 9 1 0 1)) 0
      [(0x20040, [3])] := by decide +kernel

/-- V178 with the storage of shard 0 cleared, and V177. -/
theorem test_reconSome :
    succeeds (.reconSome false 3 0x30000 0x6100)
      (withBytes [(0x20000, [0]), (0x6100, [1])] (codecState 9 0 1 1)) 0 [(0x20000, [5])]
    ∧ succeeds (.reconSome false 3 0x30000 0x6100)
      (withBytes [(0x20000, [0]), (0x6100, [4])] (codecState 9 0 1 1)) 0 [(0x20000, [0]), (0x30008, [0])] := by
  decide +kernel

/-- V181. -/
theorem test_update :
    succeeds (.update false 2 3 0x30000 0x31000)
      (withBytes [(0x31010, slotBytes 0x20100 1 1), (0x20100, [7])] (codecState 9 1 1 1)) 0
      [(0x20040, [7]), (0x20080, [1])] := by decide +kernel

/-- V184. -/
theorem test_update_parityMissing :
    leaves (.update false 2 3 0x30000 0x31000)
      (withBytes [(0x31010, slotBytes 0x20100 1 1)] (codecState 9 1 1 0)) 0x80000204 0 [] := by decide +kernel

/-- V188, its first command: 2 times 03. -/
theorem test_encodeIdx :
    succeeds (.encodeIdx false 1 1 1 0x20040 0x31000)
      (withBytes [(0x31000, slotBytes 0x20080 1 1)] (codecState 0 1 1 1)) 0 [(0x20080, [6])] := by
  decide +kernel

/-- V190. -/
theorem test_encodeIdx_badIndex :
    leaves (.encodeIdx false 2 1 1 0x20040 0x31000) (codecState 0 1 1 1) 0x80ffff05 0 [] := by decide +kernel

/-! ### The machine around the commands -/

/-- V264: an error with HOE = 1 halts. -/
theorem test_halt :
    completes (.gfInv false .gf8 0) { ready with ctrlHoe := true } (fun t =>
      t.halted && t.errCode == 0x14 && readReg 0x018 t == 0x120000 && t.irqStat == 6) := by decide +kernel

/-- The step answers a next state that passes the check. -/
def steps (s : State) (c : State → Bool) : Bool :=
  match step s with
  | .next t => c t
  | _ => false

/-- V265, the second fetch. -/
theorem test_fetchRefused :
    steps { ready with cqBase := 0xFFFFC0, cqSizeLog2 := 2, cqHead := 1, cqTail := 2, doneCount := 1 } (fun t =>
      t.cqHead == 1 && t.doneCount == 1 && t.errCode == 0x12 && t.errIndex == 1
        && readReg 0x018 t == 0xFFFFFF && t.irqStat == 6 && t.halted) := by decide +kernel

/-- V254: an illegal descriptor completes with ILLEGAL_COMMAND. -/
theorem test_illegalCommand :
    steps (withBytes [(0x10000, [0x47])] ready) (fun t =>
      t.mem.readNat 0x10038 4 == 0x80ffff10 && readReg 0x018 t == 0x47FFFF && t.cqHead == 1) := by
  decide +kernel

/-- A placed command runs as the first step after reset. -/
theorem test_withFetchWord :
    steps (State.reset.withFetchWord 96 0x000000070000000300000011) (fun t => t.result == 9) := by
  decide +kernel

/-- A descriptor queued at 0x10000. -/
def queuedAt (i : Instr) (s : State) : State := withBytes [(0x10000, encodeBytes i)] s

/-- After `n` turns of the CP. -/
def afterTurns (n : Nat) (s : State) : State := (List.range n).foldl (fun s _ => cpTurn s) s

/-- W14, W15, CQ_HEAD, DONE_COUNT, RESULT and BUSY of the command at 0x10000. -/
def progress (s : State) : List Nat :=
  [s.mem.readNat 0x10038 4, s.mem.readNat 0x1003C 4, s.cqHead.toNat, s.doneCount.toNat, s.result.toNat,
    (readReg 0x00C s).toNat % 2]

/-- V6 in turns, in the order of R87: fetch, validate, end of the data phase, W15, W14, registers. -/
theorem test_completion_turns :
    let s := queuedAt (.gfMul false .gf8 0x53 0xCA) ready
    progress (afterTurns 3 s) = [0, 0, 0, 0, 0, 1] ∧ progress (afterTurns 4 s) = [0, 0x8F, 0, 0, 0, 1]
    ∧ progress (afterTurns 5 s) = [0x80000000, 0x8F, 0, 0, 0, 1]
    ∧ progress (afterTurns 6 s) = [0x80000000, 0x8F, 1, 1, 0x8F, 0] := by decide +kernel

/-- R87: the stores of a command are made before W15. -/
theorem test_completion_stores :
    let s := afterTurns 3 (queuedAt (.matIdent false 2 0x2000) ready)
    s.mem.readBytes 0x2000 4 = [1, 0, 0, 1] ∧ progress s = [0, 0, 0, 0, 0, 1] := by decide +kernel

/-- R91: a host store to an output is a race until W14 is written, and none from then on. -/
theorem test_completion_hostStore :
    let s := fun n => afterTurns n (queuedAt (.matIdent false 2 0x2000) ready)
    (loggedWrites (extent 0x2000 1) (s 4)).length = 1 ∧ loggedWrites (extent 0x2000 1) (s 5) = [] := by decide +kernel

/-- R370: with the writeback refused the registers alone report. -/
theorem test_completion_refused :
    let s := afterTurns 4 (queuedAt (.gfMul false .gf8 0x53 0xCA) { ready with params := { ready.params with
      platform := .table [{ lo := 0x1003F, len := 1, noRead := false, noWrite := true }] } })
    progress s = [0, 0, 1, 1, 0x8F, 0] ∧ s.errCode = 0x12 ∧ s.halted = true := by decide +kernel

/-- V228, V234. -/
theorem test_stripePlan :
    stripePlan { ready with schedMinsplit := 100 } 1000
      = [⟨0, 256⟩, ⟨256, 512⟩, ⟨512, 768⟩, ⟨768, 1000⟩]
    ∧ stripePlan { ready with schedMinsplit := 1 } 200 = [⟨0, 64⟩, ⟨64, 128⟩, ⟨128, 192⟩, ⟨192, 200⟩] := by
  decide +kernel

/-- R24: 4 bytes at +0xFE lie partly outside the block; a load reads 0, a store is ignored. -/
theorem test_host_partlyInBlock :
    turn (.load 0xF00000FE 4) ready = .next { ready with hostRead := [0, 0, 0, 0] }
    ∧ turn (.store 0xF00000FE [1, 2, 3, 4]) ready = .next ready := ⟨rfl, rfl⟩

/-- R133, R136: the entries of the log tables at 0, and the table of R150 at 1, 2 and 3. -/
theorem test_logTable :
    [FS.gf8, .gf8c, .gf16c].map (fun fs => logTable fs 0) = [0, 255, 65535]
    ∧ [1, 2, 3].map (logTable .gf8) = [0, 1, 25] := by decide +kernel

/-- R91: a store to the source of a KAXPY that fails OVERLAP is a race; one to other memory is none. -/
theorem test_raced_overlap :
    let i : Instr := .kaxpy false .gf8 2 16 0x5000 0x5008
    let s := fun a => { ready with dirty := [{ index := 0, range := extent a 1 }] }
    raced i (planOf i (s 0x500F)) (s 0x500F) = true
    ∧ raced i (planOf i (s 0x500F)) (s 0x5018) = false := by decide +kernel

/-- `i` is raced in `s` by a host store to the byte `a`. -/
def racedAt (i : Instr) (s : State) (a : Nat) : Bool :=
  let s := { s with dirty := [{ index := 0, range := extent a 1 }] }
  raced i (planOf i s) s

/-- R91, in commands that fail before they reach their buffers: the parity shard of an UPDATE with B ≠ k, the
source of an ENCODE_IDX with B ≠ m, the matrix of a CONFIGURE whose shape is wrong; a negative k or m names
none. -/
theorem test_raced_failing :
    racedAt (.update false 9 3 0x30000 0x31000) (codecState 9 1 1 1) 0x20080
    ∧ racedAt (.update false 9 3 0x30000 0x31000) (codecState 9 1 1 1) 0x3108F
    ∧ racedAt (.encodeIdx false 0 2 16 0x20000 0x31000) (codecState 9 1 1 1) 0x2000F
    ∧ racedAt (.configure false false false false 2 3 4 0 0x40000) ready 0x40005
    ∧ ¬ racedAt (.configure false false false false 2 0xFFFFFFFF 4 0 0x40000) ready 0x40000
    ∧ ¬ racedAt (.configure false false false false 0xFFFFFFFF 3 4 0 0x40000) ready 0x40000 := by decide +kernel

/-- R398, R399, R401 H3: the write range of a fetched KMULC that fails OVERLAP. -/
theorem test_inflightWrites_failing :
    inflightWrites { ready with inflight := some {
      words := encode (.kmulc false .gf8 2 16 0x5000 0x5008), phase := .fetched } } = [extent 0x5008 16] := by
  decide +kernel

/-- R196: whatever bytes a raced CONFIGURE read, fast-one-parity makes row k ones. -/
theorem test_raced_fastone (free : Nat) :
    (racedContext free { ctx21 with kind := .custom, fastone := true }).matrix = [[1, 0], [0, 1], [1, 1]] := rfl

/-- V235, V236. -/
theorem test_schedAuto :
    let s := { State.reset with params := { Config.resetParams with numWorkers := 8 } }
    readReg 0x074 (writeReg 0x078 1000000 s) = 125056 ∧ readReg 0x070 (writeReg 0x078 1000000 s) = 8
    ∧ readReg 0x074 (writeReg 0x078 100 s) = 64 ∧ readReg 0x070 (writeReg 0x078 100 s) = 2 := by
  decide +kernel

/-! ### The statements' hypotheses can be met

`test_meets_<Name>` gives a state and operands that meet the hypotheses of `Obligations.<Name>`, each clause
at a boundary of its range. -/

/-- Validation accepts the command with a plan that passes the check. -/
def accepted (v : Except Err Plan) (c : Plan → Bool) : Bool :=
  match v with
  | .ok p => c p
  | .error _ => false

theorem exists_plan {v : Except Err Plan} {c : Plan → Bool} (h : accepted v c = true) :
    ∃ p, v = .ok p ∧ c p = true := by
  cases v with
  | ok p => exact ⟨p, rfl, h⟩
  | error e => cases h

/-- Validation finds an error. -/
def refused (v : Except Err Plan) : Bool :=
  match v with
  | .ok _ => false
  | .error _ => true

theorem exists_error {v : Except Err Plan} (h : refused v = true) : ∃ e, v = .error e := by
  cases v with
  | ok p => cases h
  | error e => exact ⟨e, rfl⟩

theorem exists_next {i : Instr} {s : State} {c : State → Bool} (h : completes i s c = true) :
    ∃ t, exec i s = .next t ∧ c t = true := by
  unfold completes at h
  split at h
  · exact ⟨_, ‹_›, h⟩
  · cases h

theorem exists_step {s : State} {c : State → Bool} (h : steps s c = true) :
    ∃ t, step s = .next t ∧ c t = true := by
  unfold steps at h
  split at h
  · exact ⟨_, ‹_›, h⟩
  · cases h

/-- A platform that refuses the listed bytes. -/
def refusing (lo len : Nat) (r w : Bool) (s : State) : State :=
  { s with params := { s.params with
      platform := .table [{ lo := lo, len := len, noRead := r, noWrite := w }] } }

theorem ready_readyToFetch : ReadyToFetch ready :=
  ⟨⟨rfl, rfl, rfl⟩, rfl, rfl, by decide, by decide +kernel⟩

theorem test_meets_DecodeEncodeRoundTrip :
    (Instr.bflyFft true .gf16c 0xFFFFFFFF 0xFFFFFFFF 0xFFFFFFFFFFFFFFFF 0xFFFFFFFFFFFFFFFF).wellFormed = true := by
  decide

theorem test_meets_DecodedCommandMatchesHeader :
    (decodesTo [0x00010013, 2, 8] (.gfPow true .gf8 2 8) = true)
    ∧ ∀ n, n < 14 → wordOf (d64 0x00010013 2 8 0 0 0 0 0 0 0) n
        = wordOf ((d64 0x00010013 2 8 0 0 0 0 0 0 0).take 14 ++ [5, 6]) n := by decide +kernel

theorem test_meets_IllegalDescriptorsRejected :
    (∃ s, ReadyToFetch s ∧ headerLegal (wordAt (s.mem.readBytes (descAddr s) 64) 0) = false ∧ CanComplete s)
    ∧ (∃ s, ReadyToFetch s ∧ headerLegal (wordAt (s.mem.readBytes (descAddr s) 64) 0) = false
        ∧ ¬ CanComplete s)
    ∧ ∃ s, ReadyToFetch s ∧ headerLegal (wordAt (s.mem.readBytes (descAddr s) 64) 0) = true :=
  ⟨⟨withBytes [(0x10000, [0x47])] ready, ⟨⟨rfl, rfl, rfl⟩, rfl, rfl, by decide, by decide +kernel⟩,
      by decide +kernel, by decide +kernel⟩,
   ⟨refusing 0x1003F 1 false true (withBytes [(0x10001, [0x03])] ready),
      ⟨⟨rfl, rfl, rfl⟩, rfl, rfl, by decide, by decide +kernel⟩, by decide +kernel, by decide +kernel⟩,
   ⟨ready, ready_readyToFetch, by decide +kernel⟩⟩

theorem test_meets_StepRunsDecodedCommand :
    ReadyToFetch ready ∧ decode (ready.mem.readBytes (descAddr ready) 64) = .ok (.nop false) :=
  ⟨ready_readyToFetch, by rfl⟩

/-- A descriptor whose last byte may not be read. -/
def unreadable : State := refusing 0x1003F 1 true false ready

/-- R382: BUSY is 1 from the start of a refused fetch to the end of its handling; a register write in between
is ignored (R49), and the platform is not asked again. -/
theorem test_refusedFetch_busy :
    let s := cpTurn unreadable
    (readReg 0x00C s).getLsbD 0 ∧ writeReg 0x050 64 { s with ctrlEn := false } = { s with ctrlEn := false }
    ∧ cpTurn { s with params := ready.params } = fetchRefused { s with params := ready.params }
    ∧ (readReg 0x00C (cpTurn s)).toNat % 4 = 2 := by decide +kernel

theorem test_meets_FetchCondition :
    (ready.inputs = [] ∧ ready.inflight = none)
    ∧ (ReadyToFetch ready)
    ∧ (Quiet unreadable ∧ unreadable.ctrlEn = true ∧ unreadable.halted = false
      ∧ unreadable.cqHead ≠ unreadable.cqTail ∧ ¬ Readable unreadable (descAddr unreadable) 64)
    ∧ busy { ready with ctrlEn := false, inflight := some { words := [], phase := .fetched } } = true
    ∧ ∀ ws, { ready with inflight := some { words := [], phase := .fetched } }.inflight
        ≠ some { words := ws, phase := .refused } :=
  ⟨⟨rfl, rfl⟩, ready_readyToFetch, ⟨⟨rfl, rfl, rfl⟩, rfl, rfl, by decide, by decide +kernel⟩, rfl,
   fun _ h => nomatch h⟩

/-- Each reason to wait, with nothing in flight. -/
theorem test_meets_FetchCondition_waits :
    ({ ready with ctrlEn := false } : State).ctrlEn = false ∧ ({ ready with halted := true } : State).halted = true
    ∧ ({ ready with cqTail := 0 } : State).cqHead = ({ ready with cqTail := 0 } : State).cqTail := by decide

theorem test_meets_BusErrorEffects :
    (∃ s, Quiet s ∧ s.ctrlEn = true ∧ s.halted = false ∧ s.cqHead ≠ s.cqTail ∧ ¬ Readable s (descAddr s) 64)
    ∧ (¬ Readable ready 0xFFFFFF 2 ∧ ¬ Readable ready (2 ^ 64 - 1) 2)
    ∧ (∃ e, planOf (.gfInv false .gf8 0) ready = .error e)
    ∧ ∃ p, planOf (.matIdent false 2 0xFFFFFE) ready = .ok p ∧ accessesPermitted ready p = false :=
  ⟨⟨unreadable, ⟨rfl, rfl, rfl⟩, rfl, rfl, by decide, by decide +kernel⟩,
   ⟨by decide +kernel, by decide +kernel⟩, exists_error (by decide +kernel),
   (exists_plan (c := fun p => !accessesPermitted ready p) (by decide +kernel)).imp
     fun _ h => ⟨h.1, by simpa using h.2⟩⟩

/-- A command of two stripes. -/
def stripedState : State := queuedAt (.kmulc false .gf8 0 65 0x5000 0x5100) { ready with schedMinsplit := 1 }

theorem test_meets_StripePlanIndependence :
    ReadyToFetch stripedState ∧ stripedState.mem.wf ∧ stripedState.ctx.Legal
    ∧ decode (stripedState.mem.readBytes (descAddr stripedState) 64)
        = .ok (.kmulc false .gf8 0 65 0x5000 0x5100)
    ∧ (∃ p, planOf (.kmulc false .gf8 0 65 0x5000 0x5100) stripedState = .ok p
        ∧ [1, 0].length = (planStripes stripedState p).length)
    ∧ (∀ n (h : n < [1, 0].length), [1, 0][n] < [1, 0].length - n)
    ∧ ∃ t, exec (.kmulc false .gf8 0 65 0x5000 0x5100) stripedState = .next t :=
  ⟨⟨⟨rfl, rfl, rfl⟩, rfl, rfl, by decide, by decide +kernel⟩, by decide +kernel,
   ⟨by decide, by decide, by decide, by decide, by decide, by decide⟩, by rfl,
   (exists_plan (c := fun p => 2 == (planStripes stripedState p).length) (by decide +kernel)).imp
     fun _ h => ⟨h.1, by simpa using h.2⟩,
   by decide, (exists_next (c := fun _ => true) (by decide +kernel)).imp fun _ h => h.1⟩

theorem test_meets_CompletionStep : CanComplete ready ∧ ¬ CanComplete (refusing 0x1003F 1 false true ready) := by
  decide +kernel

/-- A report of GF_MUL, and one of an error. -/
def report21 (e : Option Err) : Report :=
  { opc := 0x11, irq := true, err := e, result := 7, codes := [.badArgument], footprint := [], writes := [] }

/-- A state with a command in this phase, and a host write logged for the command after it. -/
def inPhase (x : Phase) : State :=
  { ready with inflight := some { words := [], phase := x }, dirty := [{ index := 1, range := extent 0x2000 1 }] }

/-- A command with no stripe left; and a fetched one, which is in none of the last stages. -/
theorem test_meets_CompletionStep_turns :
    (inPhase (.working (replyPlan ready 0) [])).inflight = some { words := [], phase := .working (replyPlan ready 0) [] }
    ∧ busy (inPhase .fetched) = true
    ∧ (∀ ws, (inPhase .fetched).inflight ≠ some { words := ws, phase := .refused })
    ∧ ∀ ws r, (inPhase .fetched).inflight ≠ some { words := ws, phase := .reporting r .registers }
        ∧ (inPhase .fetched).inflight ≠ some { words := ws, phase := .reporting r .refused } :=
  ⟨rfl, rfl, by simp [inPhase],
   fun _ _ => ⟨by simp [inPhase], by simp [inPhase]⟩⟩

/-- Each stage of the completion step, for a success and for an error. -/
theorem test_meets_CompletionStep_stages (stage : ReportStage) (e : Option Err) :
    (∀ x ∈ (inPhase (.reporting (report21 e) stage)).dirty, x.index ≠ ready.cqHead)
    ∧ (inPhase (.reporting (report21 e) stage)).inflight
        = some { words := [], phase := .reporting (report21 e) stage } :=
  ⟨fun x h => by rw [List.mem_singleton.mp h]; decide, rfl⟩

theorem test_meets_NoPartialSuccess :
    CanComplete ready ∧ ∃ t, exec (.gfInv false .gf8 0) ready = .next t
      ∧ t.mem.readNat (descAddr ready + 56) 4 % 256 ≠ 0 ∧ t.mem.readNat (descAddr ready + 56) 4 % 256 ≠ 0x12 :=
  ⟨by decide +kernel,
   (exists_next (c := fun t => decide (t.mem.readNat (descAddr ready + 56) 4 % 256 ≠ 0
       ∧ t.mem.readNat (descAddr ready + 56) 4 % 256 ≠ 0x12)) (by decide +kernel)).imp
     fun _ h => ⟨h.1, of_decide_eq_true h.2⟩⟩

theorem test_meets_ReportedCodesAreListed :
    (∃ e, planOf (.gfInv false .gf8 0) ready = .error e)
    ∧ CanComplete ready ∧ ∃ t, exec (.gfInv false .gf8 0) ready = .next t :=
  ⟨exists_error (by decide +kernel), by decide +kernel,
   (exists_next (c := fun _ => true) (by decide +kernel)).imp fun _ h => h.1⟩

theorem test_meets_RegisterFrameOfCommands :
    (∃ t, exec (.nop true) ready = .next t)
    ∧ isConfigure (.nop true) = false ∧ movesArena (.nop true) = false ∧ usesCache (.nop true) = false :=
  ⟨(exists_next (c := fun _ => true) (by decide +kernel)).imp fun _ h => h.1, rfl, rfl, rfl⟩

theorem ctx21_legal : ctx21.Legal :=
  ⟨by decide, by decide, by decide, by decide, by decide, by decide⟩

theorem fft21_legal : fft21.Legal :=
  ⟨by decide, by decide, by decide, by decide, by decide, by decide⟩

theorem test_meets_MemoryFrameOfCommands :
    (codecState 0 1 1 0).ctx.Legal ∧ ∃ t, exec (.encode false 3 0x30000) (codecState 0 1 1 0) = .next t :=
  ⟨ctx21_legal, (exists_next (c := fun _ => true) (by decide +kernel)).imp fun _ h => h.1⟩

theorem test_meets_HaltAndResume :
    (0xFFFFFFFB : Word).getLsbD 2 = false
    ∧ ∃ s t : State, s.halted = true ∧ step s = .next t ∧ t.halted = false :=
  ⟨by decide,
   ⟨{ ready with halted := true, inputs := [.store 0xF0000008 [9, 0, 0, 0]] },
    (exists_step (c := fun t => !t.halted) (by decide +kernel)).imp
      fun _ h => ⟨rfl, h.1, by simpa using h.2⟩⟩⟩

theorem test_meets_ResetValues :
    (∃ t, turn .hardReset ready = .next t) ∧ ∃ v : Word, v.getLsbD 2 = true ∧ v = 4 :=
  ⟨⟨_, rfl⟩, 4, by decide, rfl⟩

theorem test_meets_GatedRegisterWrites :
    ready.ctrlEn = true ∧ busy { State.reset with inflight := some { words := [], phase := .fetched } } = true
    ∧ State.reset.ctrlEn = false ∧ busy State.reset = false := by decide

theorem test_meets_RingRegisterWrites :
    State.reset.ctrlEn = false ∧ busy State.reset = false
    ∧ ({ ready with cqSizeLog2 := 16 } : State).cqSizeLog2.toNat ≤ 16 := by decide

theorem test_meets_InterruptRegisters :
    (2 : Nat) < 3 ∧ irqLine { ready with irqStat := 4, irqEn := 4 } = true := by decide

/-- One worker and the greatest T: the formula gives 2^32; with two workers it does not. -/
theorem test_meets_SchedAutoWrite :
    State.reset.ctrlEn = false ∧ busy State.reset = false ∧ State.reset.params.legal
    ∧ autoMinsplit { State.reset with params := { Config.resetParams with numWorkers := 1 } } 0xFFFFFFFF = 2 ^ 32
    ∧ autoMinsplit { State.reset with params := { Config.resetParams with numWorkers := 2 } } 0xFFFFFFFF < 2 ^ 32 := by
  decide

theorem test_meets_StatusAndConfigReads :
    ready.ctx.valid = false ∧ ctx21.valid = true ∧ fft21.valid = true ∧ fft21.variant ≠ .classical
    ∧ ready.params.legal ∧ { ready.params with numWorkers := 255, cacheEntries := 255 }.legal := by decide

/-- The last word of the block; a word that lies half below it, one that lies half above it, one inside it
that is not aligned, and a byte; the first and last reserved offsets of each range. -/
theorem test_meets_RegisterBlockAccess :
    [1, 2, 3, 4].length = 4
    ∧ (¬ Apart (extent (0xF00000FC : Addr).toNat 4) (registerBlock ready)
      ∧ ready.params.mmioBase.toNat ≤ (0xF00000FC : Addr).toNat
      ∧ ((0xF00000FC : Addr).toNat - ready.params.mmioBase.toNat) % 4 = 0)
    ∧ (¬ Apart (extent (0xEFFFFFFE : Addr).toNat 4) (registerBlock ready)
      ∧ (0xEFFFFFFE : Addr).toNat < ready.params.mmioBase.toNat)
    ∧ (¬ Apart (extent (0xF00000FE : Addr).toNat 4) (registerBlock ready)
      ∧ ((0xF00000FE : Addr).toNat - ready.params.mmioBase.toNat) % 4 ≠ 0)
    ∧ (¬ Apart (extent (0xF0000001 : Addr).toNat 4) (registerBlock ready)
      ∧ ((0xF0000001 : Addr).toNat - ready.params.mmioBase.toNat) % 4 ≠ 0)
    ∧ (¬ Apart (extent (0xF0000000 : Addr).toNat 1) (registerBlock ready) ∧ 1 ≠ 4)
    ∧ ∀ off ∈ [0x02C, 0x044, 0x04C, 0x068, 0x06C, 0x094, 0x0FF],
        off = 0x02C ∨ (0x044 ≤ off ∧ off ≤ 0x04C) ∨ (0x068 ≤ off ∧ off ≤ 0x06C) ∨ (0x094 ≤ off ∧ off ≤ 0x0FF) := by
  decide +kernel

/-- A load that ends at the last address; one address inside and one outside the write ranges. -/
theorem test_meets_HostLoadOutsideWriteRanges :
    (0xFFFFFFFFFFFFFFFC : Addr).toNat + 4 ≤ 2 ^ 64
    ∧ Apart (extent (0xFFFFFFFFFFFFFFFC : Addr).toNat 4) (registerBlock ready)
    ∧ (∀ x ∈ inflightWrites { ready with inflight := some {
        words := encode (.matIdent false 2 0x2000), phase := .fetched } }, x.contains 0x2004 = false)
    ∧ inflightWrites { ready with inflight := some {
        words := encode (.matIdent false 2 0x2000), phase := .fetched } } = [extent 0x2000 4] := by decide +kernel

/-- The last byte of W15 while W15 is being written, and the byte after it; an output once W14 is written. -/
theorem test_meets_HostLoadOutsideWriteRanges_completion :
    let s := fun stage => { ready with inflight := some { words := [], phase := .reporting (report21 none) stage } }
    (0x1003F : Addr).toNat + 1 ≤ 2 ^ 64 ∧ Apart (extent (0x1003F : Addr).toNat 2) (registerBlock (s .w15))
    ∧ (∀ x ∈ inflightWrites (s .w15), x.contains 0x1003F = false)
    ∧ (s .w15).inflight = some { words := [], phase := .reporting (report21 none) .w15 }
    ∧ (0x1003F : Addr).toNat + 0 = descAddr (s .w15) + 60 + 3
    ∧ (extent (descAddr (s .w15) + 60) 4).contains ((0x1003F : Addr).toNat + 1) = false
    ∧ w14Written (s .registers) = true := by decide +kernel

theorem test_meets_LittleEndianFields : (2 ^ 64 - 4) + 4 ≤ 2 ^ 64 ∧ 3 < 4 := by decide

theorem test_meets_StepKeepsMemoryCanonical :
    stripedState.mem.wf ∧ ∃ t, step stripedState = .next t :=
  ⟨by decide +kernel, (exists_step (c := fun _ => true) (by decide +kernel)).imp fun _ h => h.1⟩

theorem test_meets_StepKeepsRegistersLegal :
    ready.RegistersLegal ∧ ∃ t, step ready = .next t :=
  ⟨⟨by decide, by decide, by decide, by decide, by decide, by decide, by decide, by decide, by decide,
      fun _ _ _ h => nomatch h⟩,
   (exists_step (c := fun _ => true) (by decide +kernel)).imp fun _ h => h.1⟩

theorem test_meets_StepKeepsContextLegal :
    (codecState 0 1 1 0).ContextLegal ∧ ∃ t, step (codecState 0 1 1 0) = .next t :=
  ⟨⟨ctx21_legal, fun _ _ _ h => nomatch h⟩,
   (exists_step (c := fun _ => true) (by decide +kernel)).imp fun _ h => h.1⟩

/-- The inverse of the two data rows: the identity. -/
def entry21 : CacheEntry := { key := 3, inverse := [[1, 0], [0, 1]] }

theorem entry21_correct : CacheCorrect Config.resetParams ctx21 [entry21] :=
  ⟨by decide, fun e h => by
    rw [List.mem_singleton.mp h]
    exact ⟨[0, 1], by decide, by decide, by decide +kernel, by decide +kernel⟩⟩

theorem test_meets_StepKeepsCacheCorrect :
    ({ codecState 0 1 1 0 with icache := [entry21] } : State).CacheLegal
    ∧ ∃ t, step { codecState 0 1 1 0 with icache := [entry21] } = .next t :=
  ⟨⟨entry21_correct, fun _ _ _ h => nomatch h⟩,
   (exists_step (c := fun _ => true) (by decide +kernel)).imp fun _ h => h.1⟩

/-- A state with an entry and one without; and the commands that empty the cache. -/
theorem test_meets_CacheTransparency :
    CacheCorrect Config.resetParams ctx21 [entry21] ∧ CacheCorrect Config.resetParams ctx21 []
    ∧ (∃ p, planOf (.configure false false false false 2 1 0 0 0) ready = .ok p)
    ∧ (∃ t, exec (.configure false false false false 2 1 0 0 0) ready = .next t)
    ∧ (∃ p, planOf (.icflush false) ready = .ok p) ∧ ∃ t, exec (.icflush false) ready = .next t :=
  ⟨entry21_correct, ⟨by decide, fun _ h => nomatch h⟩,
   (exists_plan (c := fun _ => true) (by decide +kernel)).imp fun _ h => h.1,
   (exists_next (c := fun _ => true) (by decide +kernel)).imp fun _ h => h.1,
   (exists_plan (c := fun _ => true) (by decide +kernel)).imp fun _ h => h.1,
   (exists_next (c := fun _ => true) (by decide +kernel)).imp fun _ h => h.1⟩

theorem test_meets_FieldTableFormulas :
    65535 < 2 ^ width .gf16c ∧ 255 < 2 ^ width .gf8 ∧ 255 < 2 ^ width .gf8c ∧ 2 ^ 32 - 1 < 2 ^ 32 := by decide

theorem test_meets_FieldArithmeticLaws :
    65535 < 2 ^ width .gf16c ∧ 255 < 2 ^ width .gf8 ∧ 255 < 2 ^ width .gf8c ∧ mul .gf8 0 255 = 0 := by
  decide +kernel

theorem test_meets_Gf16BufferLayout :
    (List.replicate 128 (7 : Byte)).length % 64 = 0 ∧ 64 * 1 < (List.replicate 128 (7 : Byte)).length ∧ 31 < 32
    ∧ FS.gf8 ≠ .gf16c ∧ FS.gf8c ≠ .gf16c := by decide +kernel

/-- The greatest element and the least number that is none. -/
theorem test_meets_FieldAddAndMultiply :
    CanComplete ready ∧ (0xFF : Word).toNat < 2 ^ width .gf8 ∧ ¬ (0x100 : Word).toNat < 2 ^ width .gf8
    ∧ (0xFFFF : Word).toNat < 2 ^ width .gf16c ∧ ¬ (0x10000 : Word).toNat < 2 ^ width .gf16c := by
  decide +kernel

theorem test_meets_FieldInversePowerLogarithm :
    CanComplete ready ∧ (0xFF : Word).toNat < 2 ^ width .gf8c ∧ (0xFF : Word) ≠ 0
    ∧ ¬ (0x100 : Word).toNat < 2 ^ width .gf8c := by decide +kernel

theorem test_meets_ControlCommands : CanComplete ready := by decide +kernel

/-- V249's limit on a small scale: the second buffer ends at SCR_LIMIT. -/
theorem test_meets_AllocBuffers :
    let s := { ready with scrLimit := 0x100100 }
    CanComplete s ∧ (2 : Word).toNat ≤ 65536
    ∧ (s.scrNext.toNat + (2 : Word).toNat * roundup64 (65 : Word).toNat ≤ s.scrLimit.toNat
      ∧ s.scrBase.toNat ≤ s.scrNext.toNat)
    ∧ footprintClear [descRange s] (storeRanges (.alloc false 2 65 0x3000) s) = true
    ∧ ∀ j, j < (2 : Word).toNat → Writable s (s.scrNext.toNat + j * roundup64 (65 : Word).toNat) (65 : Word).toNat
      ∧ Writable s ((0x3000 : Addr).toNat + 16 * j) 8 ∧ Writable s ((0x3000 : Addr).toNat + 16 * j + 8) 4
      ∧ Writable s ((0x3000 : Addr).toNat + 16 * j + 12) 4 := by decide +kernel

/-- The errors of ALLOC: 65537 buffers; one byte more than the arena holds; the table in the first buffer. -/
theorem test_meets_AllocBuffers_errors :
    let s := { ready with scrLimit := 0x100100 }
    65536 < (65537 : Word).toNat
    ∧ ((2 : Word).toNat ≤ 65536 ∧ 0 < (2 : Word).toNat ∧ 0 < (129 : Word).toNat
      ∧ ¬ (s.scrNext.toNat + (2 : Word).toNat * roundup64 (129 : Word).toNat ≤ s.scrLimit.toNat
        ∧ s.scrBase.toNat ≤ s.scrNext.toNat))
    ∧ footprintClear [descRange s] (storeRanges (.alloc false 2 65 0x100000) s) = false := by decide +kernel

/-- A range below another shares no byte with it. -/
theorem overlaps_of_below {x y : Extent} (h : x.lo + x.len ≤ y.lo) :
    x.overlaps y = false ∧ y.overlaps x = false :=
  ⟨decide_eq_false (by omega), decide_eq_false (by omega)⟩

/-- Every access below 0x1000000 is admitted. -/
theorem ready_admits {a n : Nat} (h : a + n ≤ 0x1000000) (w : Bool) : permits ready (extent a n) w = true := by
  have hx : (extent a n).overlaps (registerBlock ready) = false :=
    (overlaps_of_below (show a + n ≤ 0xF0000000 by omega)).1
  have hy : (extent 0x1000000 (2 ^ 64)).overlaps (extent a n) = false := (overlaps_of_below h).2
  have hp : platformAdmits ready.params.platform (extent a n) w = true := by
    show List.all [_] _ = true
    simp only [List.all_cons, List.all_nil, hy, Bool.false_and, Bool.not_false, Bool.and_true]
  have hd : decide (a + n ≤ 2 ^ 64) = true := decide_eq_true (by omega)
  show (n == 0 || (decide (a + n ≤ 2 ^ 64) && _ && _)) = true
  rw [hx, hp, hd]
  simp

/-- The greatest dimensions: 512 for MAT_IDENT, 256 rows of 512 columns for MAT_VAND. -/
theorem test_meets_MatrixIdentityAndVandermonde :
    CanComplete ready
    ∧ (1 ≤ (512 : Word).toNat ∧ (512 : Word).toNat ≤ 512
      ∧ (∀ j, j < (512 : Word).toNat * (512 : Word).toNat → Writable ready ((0x200000 : Addr).toNat + j) 1)
      ∧ Apart (extent (0x200000 : Addr).toNat ((512 : Word).toNat * (512 : Word).toNat)) (descriptor ready))
    ∧ ((256 : Word).toNat ≤ 256
      ∧ Writable ready (0x200000 : Addr).toNat ((256 : Word).toNat * (512 : Word).toNat)
      ∧ Apart (extent (0x200000 : Addr).toNat ((256 : Word).toNat * (512 : Word).toNat)) (descriptor ready)) :=
  ⟨ready_admits (by decide) true,
   ⟨by decide, by decide, fun _ h => ready_admits (by simp at h ⊢; omega) true, by decide +kernel⟩,
   by decide, ready_admits (by decide) true, by decide +kernel⟩

/-- OVERLAP of a matrix destination by one byte: with the descriptor, for each of the two commands. -/
theorem test_meets_MatrixIdentityAndVandermonde_overlap :
    DimensionLegal 2 ∧ (2 : Word).toNat ≤ 256
    ∧ ¬ Apart (extent (0x1003F : Addr).toNat ((2 : Word).toNat * (2 : Word).toNat)) (descriptor ready) := by
  decide +kernel

/-- R160: each operand the first one out of range, by 0 and by 513; and 257 rows for MAT_VAND (R197). -/
theorem test_meets_dimension_errors :
    FirstIllegal [0] 0 ∧ FirstIllegal [512, 513] 1 ∧ FirstIllegal [1, 512, 0, 0] 2
    ∧ FirstIllegal [1, 512, 1, 513] 3 ∧ DimensionLegal 257 ∧ 256 < (257 : Word).toNat := by
  unfold FirstIllegal; decide +kernel

/-- 1 by 256 and 1 by 256: the widest augmentation; one column more; 1 by 512 and 512 by 1: the longest product. -/
theorem test_meets_MatrixProductAndAugment :
    CanComplete ready
    ∧ ((1 : Word).toNat ≤ 512 ∧ Readable ready (0x2000 : Addr).toNat ((1 : Word).toNat * (512 : Word).toNat)
      ∧ Readable ready (0x3000 : Addr).toNat ((512 : Word).toNat * (1 : Word).toNat)
      ∧ Writable ready (0x4000 : Addr).toNat ((1 : Word).toNat * (1 : Word).toNat)
      ∧ Apart (extent (0x4000 : Addr).toNat ((1 : Word).toNat * (1 : Word).toNat)) (descriptor ready)
      ∧ Apart (extent (0x4000 : Addr).toNat ((1 : Word).toNat * (1 : Word).toNat))
          (extent (0x2000 : Addr).toNat ((1 : Word).toNat * (512 : Word).toNat))
      ∧ Apart (extent (0x4000 : Addr).toNat ((1 : Word).toNat * (1 : Word).toNat))
          (extent (0x3000 : Addr).toNat ((512 : Word).toNat * (1 : Word).toNat)))
    ∧ ((256 : Word).toNat + (256 : Word).toNat ≤ 512
      ∧ Readable ready (0x2000 : Addr).toNat ((1 : Word).toNat * (256 : Word).toNat)
      ∧ Writable ready (0x4000 : Addr).toNat ((1 : Word).toNat * ((256 : Word).toNat + (256 : Word).toNat))
      ∧ Apart (extent (0x4000 : Addr).toNat ((1 : Word).toNat * ((256 : Word).toNat + (256 : Word).toNat)))
          (descriptor ready)
      ∧ Apart (extent (0x4000 : Addr).toNat ((1 : Word).toNat * ((256 : Word).toNat + (256 : Word).toNat)))
          (extent (0x2000 : Addr).toNat ((1 : Word).toNat * (256 : Word).toNat)))
    ∧ (DimensionLegal 257 ∧ 512 < (256 : Word).toNat + (257 : Word).toNat)
    ∧ (2 : Word) ≠ 3 := by decide +kernel

/-- OVERLAP by one byte: with the descriptor, with the first source, with the second. -/
theorem test_meets_MatrixProductAndAugment_overlap :
    DimensionLegal 2 ∧ (2 : Word).toNat + (2 : Word).toNat ≤ 512
    ∧ Readable ready (0x2000 : Addr).toNat ((2 : Word).toNat * (2 : Word).toNat)
    ∧ Readable ready (0x2100 : Addr).toNat ((2 : Word).toNat * (2 : Word).toNat)
    ∧ ¬ Apart (extent (0x1003F : Addr).toNat ((2 : Word).toNat * (2 : Word).toNat)) (descriptor ready)
    ∧ ¬ Apart (extent (0x1FFD : Addr).toNat ((2 : Word).toNat * (2 : Word).toNat))
        (extent (0x2000 : Addr).toNat ((2 : Word).toNat * (2 : Word).toNat))
    ∧ ¬ Apart (extent (0x20F9 : Addr).toNat ((2 : Word).toNat * ((2 : Word).toNat + (2 : Word).toNat)))
        (extent (0x2100 : Addr).toNat ((2 : Word).toNat * (2 : Word).toNat)) := by decide +kernel

/-- An invertible source, in place, and a singular one. -/
theorem test_meets_MatrixInverse :
    let s := withBytes [(0x2000, [1, 1, 1, 2])] ready
    let z := withBytes [(0x2000, [1, 1, 1, 1])] ready
    CanComplete s ∧ 1 ≤ (2 : Word).toNat ∧ (2 : Word).toNat ≤ 512
    ∧ Readable s (0x2000 : Addr).toNat ((2 : Word).toNat * (2 : Word).toNat)
    ∧ invert (2 : Word).toNat (matrixAt s (0x2000 : Addr).toNat (2 : Word).toNat (2 : Word).toNat)
        = some [[0xF5, 0xF4], [0xF4, 0xF4]]
    ∧ Writable s (0x2000 : Addr).toNat ((2 : Word).toNat * (2 : Word).toNat)
    ∧ Apart (extent (0x2000 : Addr).toNat ((2 : Word).toNat * (2 : Word).toNat)) (descriptor s)
    ∧ CanComplete z ∧ Readable z (0x2000 : Addr).toNat ((2 : Word).toNat * (2 : Word).toNat)
    ∧ invert (2 : Word).toNat (matrixAt z (0x2000 : Addr).toNat (2 : Word).toNat (2 : Word).toNat) = none
    ∧ (2 : Word) ≠ 3 := by decide +kernel

/-- OVERLAP by one byte: an in-place inverse in the descriptor, and one beside its source. -/
theorem test_meets_MatrixInverse_overlap :
    let s := withBytes [(0x2000, [1, 1, 1, 2]), (0x1003F, [1, 1, 1, 2])] ready
    Readable s (0x1003F : Addr).toNat ((2 : Word).toNat * (2 : Word).toNat)
    ∧ invert (2 : Word).toNat (matrixAt s (0x1003F : Addr).toNat (2 : Word).toNat (2 : Word).toNat)
        = some [[0xF5, 0xF4], [0xF4, 0xF4]]
    ∧ ¬ Apart (extent (0x1003F : Addr).toNat ((2 : Word).toNat * (2 : Word).toNat)) (descriptor s)
    ∧ ((0x2000 : Addr) ≠ 0x2003
      ∧ ¬ Apart (extent (0x2003 : Addr).toNat ((2 : Word).toNat * (2 : Word).toNat))
          (extent (0x2000 : Addr).toNat ((2 : Word).toNat * (2 : Word).toNat))) := by decide +kernel

theorem test_meets_GaussJordanInverts :
    SquareMatrix 2 [[1, 1], [1, 2]] ∧ invert 2 [[1, 1], [1, 2]] = some [[0xF5, 0xF4], [0xF4, 0xF4]]
    ∧ SquareMatrix 2 [[1, 1], [1, 1]] ∧ invert 2 [[1, 1], [1, 1]] = none ∧ SquareMatrix 0 [] := by
  unfold SquareMatrix; decide +kernel

/-- The last row and a repeated last column; the second row index equal to the first; and the second column
index equal to the column count. -/
theorem test_meets_MatrixSubmatrix :
    let s := withBytes [(0x2100, [0, 0, 2, 0]), (0x2110, [1, 0, 1, 0])] ready
    let z := withBytes [(0x2100, [2, 0, 2, 0]), (0x2110, [1, 0, 1, 0])] ready
    let y := withBytes [(0x2100, [0, 0, 2, 0]), (0x2110, [1, 0, 2, 0])] ready
    CanComplete s ∧ IndicesReadable s (0x2100 : Addr).toNat (2 : Word).toNat
    ∧ IndicesReadable s (0x2110 : Addr).toNat (2 : Word).toNat
    ∧ (indicesAt s (0x2100 : Addr).toNat (2 : Word).toNat).Pairwise (· < ·)
    ∧ (∀ r ∈ indicesAt s (0x2100 : Addr).toNat (2 : Word).toNat, r < (3 : Word).toNat)
    ∧ (∀ c ∈ indicesAt s (0x2110 : Addr).toNat (2 : Word).toNat, c < (2 : Word).toNat)
    ∧ Readable s (0x2000 : Addr).toNat ((3 : Word).toNat * (2 : Word).toNat)
    ∧ Writable s (0x2200 : Addr).toNat ((2 : Word).toNat * (2 : Word).toNat)
    ∧ footprintClear [descRange s, reads (0x2000 : Addr).toNat ((3 : Word).toNat * (2 : Word).toNat),
        reads (0x2100 : Addr).toNat (2 * (2 : Word).toNat), reads (0x2110 : Addr).toNat (2 * (2 : Word).toNat)]
        [extent (0x2200 : Addr).toNat ((2 : Word).toNat * (2 : Word).toNat)] = true
    ∧ IndicesReadable y (0x2110 : Addr).toNat (1 + 1)
    ∧ y.mem.readNat ((0x2110 : Addr).toNat + 2 * 0) 2 < (2 : Word).toNat
    ∧ (2 : Word).toNat ≤ y.mem.readNat ((0x2110 : Addr).toNat + 2 * 1) 2
    ∧ IndicesReadable z (0x2100 : Addr).toNat (1 + 1)
    ∧ z.mem.readNat ((0x2100 : Addr).toNat + 2 * 0) 2 < (3 : Word).toNat
    ∧ z.mem.readNat ((0x2100 : Addr).toNat + 2 * 1) 2 ≤ z.mem.readNat ((0x2100 : Addr).toNat + 2 * (1 - 1)) 2 := by
  unfold IndicesReadable; decide +kernel

/-- OVERLAP of the destination with the last byte of the row list. -/
theorem test_meets_MatrixSubmatrix_overlap :
    let s := withBytes [(0x2100, [0, 0, 2, 0]), (0x2110, [1, 0, 1, 0])] ready
    footprintClear [descRange s, reads (0x2000 : Addr).toNat ((3 : Word).toNat * (2 : Word).toNat),
        reads (0x2100 : Addr).toNat (2 * (2 : Word).toNat), reads (0x2110 : Addr).toNat (2 * (2 : Word).toNat)]
        [extent (0x2103 : Addr).toNat ((2 : Word).toNat * (2 : Word).toNat)] = false := by decide +kernel

/-- k + m at 256 and above it, kind at 3 and above it. -/
theorem test_meets_GeneratedMatrix :
    CanComplete ready
    ∧ (1 ≤ (3 : Word).toNat ∧ (3 : Word).toNat + (1 : Word).toNat ≤ 256 ∧ (0 : Word).toNat ≤ 3
      ∧ Writable ready (0x4000 : Addr).toNat (((3 : Word).toNat + (1 : Word).toNat) * (3 : Word).toNat)
      ∧ Apart (extent (0x4000 : Addr).toNat (((3 : Word).toNat + (1 : Word).toNat) * (3 : Word).toNat))
          (descriptor ready)
      ∧ (buildMatrix (kindOf (0 : Word).toNat) (3 : Word).toNat (1 : Word).toNat).isSome = true)
    ∧ (1 ≤ (200 : Word).toNat ∧ (200 : Word).toNat + (56 : Word).toNat ≤ 256)
    ∧ ¬ (200 : Word).toNat + (57 : Word).toNat ≤ 256 ∧ (3 : Word).toNat ≤ 3 ∧ ¬ (4 : Word).toNat ≤ 3 := by
  decide +kernel

/-- The Jerasure entries of R195 for k = 2, m = 2, computed by hand: d = [[1,0],[0,1],[3,2],[1,1]] has row 2
scaled to ones and row 3 = [1/3, 1/2] scaled to [1, 3/2]. -/
theorem test_meets_GeneratedMatrix_jerasure :
    matProduct 4 2 2 [[1, 0], [0, 1], [3, 2], [1, 1]] [[1, 0], [1, 1]] = [[1, 0], [1, 1], [1, 2], [0, 1]]
    ∧ buildMatrix .jerasure 2 2 = some [[1, 0], [0, 1], [1, 1], [1, mul .gf8 3 (inv .gf8 2)]] := by decide +kernel

theorem test_meets_KernelElementwise :
    (List.replicate 64 (0 : Byte)).length = (List.replicate 64 (1 : Byte)).length ∧ 65535 < 2 ^ width .gf16c
    ∧ (List.replicate 64 (1 : Byte)).length % 64 = 0
    ∧ [1, 255].length = [[(1 : Byte), 2], [3, 4]].length ∧ (∀ b ∈ [[(1 : Byte), 2], [3, 4]], b.length = 2)
    ∧ (∀ c ∈ [1, 255], c < 256) ∧ 1 < 2 := by decide +kernel

/-- In place and not; the least c that is no element; an FS2 length that is no multiple of 64; a destination
that shares one byte with the descriptor, and one that shares one byte with the source. -/
theorem test_meets_KernelMultiplyAccumulate :
    CanComplete ready ∧ (0xFFFF : Word).toNat < 2 ^ width .gf16c ∧ (64 : Word).toNat % 64 = 0
    ∧ Readable ready (0x5000 : Addr).toNat (64 : Word).toNat ∧ Writable ready (0x5000 : Addr).toNat (64 : Word).toNat
    ∧ Writable ready (0x5040 : Addr).toNat (64 : Word).toNat ∧ Readable ready (0x5040 : Addr).toNat (64 : Word).toNat
    ∧ Apart (extent (0x5000 : Addr).toNat (64 : Word).toNat) (descriptor ready)
    ∧ Apart (extent (0x5040 : Addr).toNat (64 : Word).toNat) (descriptor ready)
    ∧ Apart (extent (0x5040 : Addr).toNat (64 : Word).toNat) (extent (0x5000 : Addr).toNat (64 : Word).toNat)
    ∧ ¬ (0x10000 : Word).toNat < 2 ^ width .gf16c ∧ (63 : Word).toNat % 64 ≠ 0
    ∧ ¬ Apart (extent (0x1003F : Addr).toNat (64 : Word).toNat) (descriptor ready)
    ∧ ((0x5000 : Addr) ≠ 0x503F
      ∧ ¬ Apart (extent (0x503F : Addr).toNat (64 : Word).toNat) (extent (0x5000 : Addr).toNat (64 : Word).toNat)) := by
  decide +kernel

theorem test_meets_KernelCode :
    CanComplete codeState ∧ 1 ≤ (2 : Word).toNat ∧ (2 : Word).toNat ≤ 256
    ∧ Readable codeState (0x6000 : Addr).toNat ((2 : Word).toNat * (2 : Word).toNat)
    ∧ PointersReadable codeState (0x6100 : Addr).toNat (2 : Word).toNat
    ∧ PointersReadable codeState (0x6180 : Addr).toNat (2 : Word).toNat
    ∧ (∀ a ∈ pointersAt codeState (0x6100 : Addr).toNat (2 : Word).toNat, Readable codeState a (1 : Word).toNat)
    ∧ (∀ a ∈ pointersAt codeState (0x6180 : Addr).toNat (2 : Word).toNat,
        Writable codeState a (1 : Word).toNat ∧ Readable codeState a (1 : Word).toNat)
    ∧ footprintClear
      ([descRange codeState, reads (0x6000 : Addr).toNat ((2 : Word).toNat * (2 : Word).toNat),
        reads (0x6100 : Addr).toNat (8 * (2 : Word).toNat), reads (0x6180 : Addr).toNat (8 * (2 : Word).toNat)]
        ++ (pointersAt codeState (0x6100 : Addr).toNat (2 : Word).toNat).map fun a => reads a (1 : Word).toNat)
      ((pointersAt codeState (0x6180 : Addr).toNat (2 : Word).toNat).map fun a => extent a (1 : Word).toNat)
      = true := by
  unfold PointersReadable; decide +kernel

/-- R226: rows or columns at 0 and above 256; an output that is the coefficient matrix. -/
theorem test_meets_KernelCode_errors :
    let s := withBytes [(0x6180, pointers [0x6003, 0x6500])] codeState
    (¬ (1 ≤ (0 : Word).toNat ∧ (0 : Word).toNat ≤ 256)) ∧ (¬ (1 ≤ (257 : Word).toNat ∧ (257 : Word).toNat ≤ 256))
    ∧ (1 ≤ (256 : Word).toNat ∧ (256 : Word).toNat ≤ 256)
    ∧ Readable s (0x6000 : Addr).toNat ((2 : Word).toNat * (2 : Word).toNat)
    ∧ PointersReadable s (0x6100 : Addr).toNat (2 : Word).toNat
    ∧ PointersReadable s (0x6180 : Addr).toNat (2 : Word).toNat
    ∧ footprintClear
      ([descRange s, reads (0x6000 : Addr).toNat ((2 : Word).toNat * (2 : Word).toNat),
        reads (0x6100 : Addr).toNat (8 * (2 : Word).toNat), reads (0x6180 : Addr).toNat (8 * (2 : Word).toNat)]
        ++ (pointersAt s (0x6100 : Addr).toNat (2 : Word).toNat).map fun a => reads a (1 : Word).toNat)
      ((pointersAt s (0x6180 : Addr).toNat (2 : Word).toNat).map fun a => extent a (1 : Word).toNat)
      = false := by
  unfold PointersReadable; decide +kernel

theorem test_meets_TransformsInvert :
    [1, 2].length = [3, 4].length ∧ [[1], [2], [3], [4]].length = 2 ^ 2
    ∧ ∀ v ∈ [[1], [2], [3], [4]], v.length = 1 := by decide

theorem test_meets_FormalDerivativeOfOriginals :
    [[1], [2], [3], [4]].length = 2 ^ 2 ∧ (∀ v ∈ [[1], [2], [3], [4]], v.length = 1) ∧ 3 < 2 ^ 2 := by decide

/-- The greatest skew factor, one above it, and buffers that touch. -/
theorem test_meets_ButterflyCommands :
    FS.gf8c ≠ .gf8 ∧ FS.gf16c ≠ .gf8 ∧ CanComplete ready ∧ (0xFFFF : Word).toNat < 2 ^ width .gf16c
    ∧ (64 : Word).toNat % 64 = 0
    ∧ Readable ready (0x7000 : Addr).toNat (64 : Word).toNat ∧ Readable ready (0x7040 : Addr).toNat (64 : Word).toNat
    ∧ Writable ready (0x7000 : Addr).toNat (64 : Word).toNat ∧ Writable ready (0x7040 : Addr).toNat (64 : Word).toNat
    ∧ Apart (extent (0x7000 : Addr).toNat (64 : Word).toNat) (extent (0x7040 : Addr).toNat (64 : Word).toNat)
    ∧ Apart (extent (0x7000 : Addr).toNat (64 : Word).toNat) (descriptor ready)
    ∧ Apart (extent (0x7040 : Addr).toNat (64 : Word).toNat) (descriptor ready)
    ∧ ¬ (0x10000 : Word).toNat < 2 ^ width .gf16c := by decide +kernel

/-- R320, R321: a length of 63 for FS2; buffers that share one byte with each other, and one with the descriptor. -/
theorem test_meets_ButterflyCommands_errors :
    (63 : Word).toNat % 64 ≠ 0
    ∧ ¬ Apart (extent (0x7000 : Addr).toNat (64 : Word).toNat) (extent (0x703F : Addr).toNat (64 : Word).toNat)
    ∧ ¬ Apart (extent (0x1003F : Addr).toNat (64 : Word).toNat) (descriptor ready) := by decide +kernel

theorem not_power_zero : ¬ ∃ l, (0 : Word).toNat = 2 ^ l := fun ⟨l, h⟩ =>
  Nat.ne_of_gt (Nat.two_pow_pos l) h.symm

/-- R322 to R324: an n of 0 and one of 2^(w+1); a base that is no multiple of n, and one that ends above 2^w; a
length of 63 for FS2; and a buffer that is the table. -/
theorem test_meets_TransformCommands_errors :
    (¬ ∃ l, (0 : Word).toNat = 2 ^ l) ∧ ¬ (512 : Word).toNat ≤ 2 ^ width .gf8c
    ∧ ¬ (255 : Word).toNat % (2 : Word).toNat = 0
    ∧ ((256 : Word).toNat % (2 : Word).toNat = 0 ∧ ¬ (256 : Word).toNat + (2 : Word).toNat ≤ 2 ^ width .gf8c)
    ∧ (63 : Word).toNat % 64 ≠ 0
    ∧ (let s := withBytes [(0x7200, pointers [0x7000, 0x720F])] ready
      PointersReadable s (0x7200 : Addr).toNat (2 : Word).toNat
      ∧ footprintClear [descRange s, reads (0x7200 : Addr).toNat (8 * (2 : Word).toNat)]
        ((pointersAt s (0x7200 : Addr).toNat (2 : Word).toNat).map fun a => extent a (1 : Word).toNat) = false) :=
  ⟨not_power_zero, by decide, by decide, ⟨by decide, by decide⟩, by decide,
   by unfold PointersReadable; decide +kernel⟩

/-- The base that ends exactly at 2^w. -/
theorem test_meets_TransformCommands :
    let s := withBytes [(0x7200, pointers [0x7000, 0x7100])] ready
    FS.gf8c ≠ .gf8 ∧ CanComplete s ∧ (∃ l, (2 : Word).toNat = 2 ^ l) ∧ (2 : Word).toNat ≤ 2 ^ width .gf8c
    ∧ PointersReadable s (0x7200 : Addr).toNat (2 : Word).toNat
    ∧ (∀ a ∈ pointersAt s (0x7200 : Addr).toNat (2 : Word).toNat,
        Readable s a (1 : Word).toNat ∧ Writable s a (1 : Word).toNat)
    ∧ footprintClear [descRange s, reads (0x7200 : Addr).toNat (8 * (2 : Word).toNat)]
        ((pointersAt s (0x7200 : Addr).toNat (2 : Word).toNat).map fun a => extent a (1 : Word).toNat) = true
    ∧ (254 : Word).toNat % (2 : Word).toNat = 0 ∧ (254 : Word).toNat + (2 : Word).toNat ≤ 2 ^ width .gf8c :=
  ⟨by decide, by decide +kernel, ⟨1, by decide⟩, by decide, by unfold PointersReadable; decide +kernel,
   by decide +kernel, by decide +kernel, by decide, by decide⟩

/-- Each variant's clause: Classical at 256 shards, Custom, FFT8 at 256, FFT16 with m = 0 at 65536, AUTO. -/
theorem test_meets_ConfigureContext :
    CanComplete ready
    ∧ ((0 : Word).toNat < 64 ∧ (0 : Word).toNat % 16 ≤ 3 ∧ (0 : Word).toNat / 16 = 0 ∧ 0 < (2 : Word).toInt
      ∧ 0 ≤ (1 : Word).toInt ∧ (2 : Word).toInt + (1 : Word).toInt ≤ 2 ^ 31 - 1
      ∧ (200 : Word).toNat + (56 : Word).toNat ≤ 256
      ∧ (buildMatrix (kindOf ((0 : Word).toNat % 16)) (2 : Word).toNat (1 : Word).toNat).isSome = true)
    ∧ ((4 : Word).toNat % 16 = 4 ∧ (0x20001 : Word).toNat % 65536 = (1 : Word).toNat
      ∧ (0x20001 : Word).toNat / 65536 = (2 : Word).toNat
      ∧ ∀ j, j < (1 : Word).toNat * (2 : Word).toNat → Readable ready ((0x6000 : Addr).toNat + j) 1)
    ∧ ((0x10 : Word).toNat / 16 = 1 ∧ fits .fft8 (192 : Word).toNat (64 : Word).toNat = true)
    ∧ ((0x20 : Word).toNat / 16 = 2 ∧ fits .fft16 (65536 : Word).toNat (0 : Word).toNat = true)
    ∧ (fits (variantOf ((0 : Word).toNat / 16)) (200 : Word).toNat (100 : Word).toNat = false
      ∧ fits .fft16 (200 : Word).toNat (100 : Word).toNat = true) := by decide +kernel

theorem test_meets_ConfigureErrors :
    CanComplete ready
    ∧ ¬ ((0x40 : Word).toNat < 64 ∧ (0x40 : Word).toNat % 16 ≤ 4 ∧ (0x40 : Word).toNat / 16 ≤ 2)
    ∧ ((0x24 : Word).toNat < 64 ∧ (0x24 : Word).toNat % 16 ≤ 4 ∧ (0x24 : Word).toNat / 16 ≤ 2)
    ∧ ¬ (0 < (0 : Word).toInt ∧ 0 ≤ (1 : Word).toInt) ∧ ¬ (0 < (1 : Word).toInt ∧ 0 ≤ (0xFFFFFFFF : Word).toInt)
    ∧ 2 ^ 31 - 1 < (0x7FFFFFFF : Word).toInt + (1 : Word).toInt
    ∧ (0x7FFFFFFF : Word).toInt + (0 : Word).toInt ≤ 2 ^ 31 - 1
    ∧ fits (variantOf 0) (200 : Word).toNat (57 : Word).toNat = false
    ∧ fits (variantOf 2) (32000 : Word).toNat (33000 : Word).toNat = false
    ∧ ((4 : Word).toNat = 4 ∧ (3 : Word).toNat + (2 : Word).toNat ≤ 256
      ∧ ¬ ((0x20003 : Word).toNat % 65536 = (2 : Word).toNat ∧ (0x20003 : Word).toNat / 65536 = (3 : Word).toNat)) := by
  decide +kernel

theorem test_meets_ReadCodingMatrix :
    let s := { ready with ctx := ctx21 }
    CanComplete s ∧ s.ctx.valid = true ∧ s.ctx.variant = .classical
    ∧ Writable s (0x5000 : Addr).toNat ((s.ctx.k + s.ctx.m) * s.ctx.k)
    ∧ Apart (extent (0x5000 : Addr).toNat ((s.ctx.k + s.ctx.m) * s.ctx.k)) (descriptor s)
    ∧ ready.ctx.valid = false ∧ fft21.valid = true ∧ fft21.variant ≠ .classical := by decide +kernel

/-- OVERLAP of the destination with the last byte of the descriptor, for MAT_GEN and CTX_READM. -/
theorem test_meets_ReadCodingMatrix_overlap :
    let s := { ready with ctx := ctx21 }
    ¬ Apart (extent (0x1003F : Addr).toNat ((s.ctx.k + s.ctx.m) * s.ctx.k)) (descriptor s)
    ∧ ¬ Apart (extent (0x1003F : Addr).toNat (((3 : Word).toNat + (1 : Word).toNat) * (3 : Word).toNat))
        (descriptor s) := by decide +kernel

/-- No shard present; shard 1 of another length; a length of 1 in a context of multiples of 64. -/
theorem test_meets_CodecChecks :
    let z := codecState 0 0 0 0
    let d := codecState 0 1 2 1
    let f := { codecState 0 1 1 1 with ctx := fft21 }
    let xs := tableAt d (0x30000 : Addr).toNat 3
    let ys := tableAt f (0x30000 : Addr).toNat 3
    CanComplete z ∧ CanComplete d ∧ CanComplete f ∧ (3 : Word).toNat = shardCount d
    ∧ (2 : Word).toNat ≠ shardCount d ∧ d.ctx.variant = .classical
    ∧ TableReadable d (0x30000 : Addr).toNat (shardCount d)
    ∧ (∀ j, j < shardCount z → presentAt (tableAt z (0x30000 : Addr).toNat (shardCount z)) j = false)
    ∧ (presentAt xs 1 = true ∧ (slotAt xs 1).len ≠ shardLength xs
      ∧ ∀ l, l < 1 → presentAt xs l = true → (slotAt xs l).len = shardLength xs)
    ∧ (presentAt ys 0 = true ∧ (∀ j, j < shardCount f → presentAt ys j = true → (slotAt ys j).len = shardLength ys)
      ∧ shardLength ys % f.ctx.ssm ≠ 0) := by
  unfold TableReadable; decide +kernel

theorem codecState_usable (s : State) (l : Nat) (hl : shardLength (tableAt s 0x30000 3) % s.ctx.ssm = 0)
    (hn : shardCount s = 3)
    (hr : ∀ i, i < 3 → Readable s (0x30000 + 16 * i) 8 ∧ Readable s (0x30000 + 16 * i + 8) 4
      ∧ Readable s (0x30000 + 16 * i + 12) 4)
    (hp : l < 3 ∧ presentAt (tableAt s 0x30000 3) l = true)
    (ha : ∀ i, i < 3 → presentAt (tableAt s 0x30000 3) i = true →
      (slotAt (tableAt s 0x30000 3) i).len = shardLength (tableAt s 0x30000 3)) :
    TableUsable s 3 0x30000 (tableAt s 0x30000 3) :=
  { count := hn.symm
    readable := by rw [hn]; exact hr
    contents := by rw [hn]; rfl
    agree := { some_present := ⟨l, by rw [hn]; exact hp.1, hp.2⟩
               same_length := by rw [hn]; exact ha
               multiple := hl } }

/-- The parity slot has storage. -/
theorem test_meets_EncodeShards :
    let s := codecState 0 1 1 0
    let xs := tableAt s 0x30000 3
    CanComplete s ∧ s.ctx.Legal ∧ s.ctx.valid = true ∧ TableUsable s 3 0x30000 xs
    ∧ (∀ i, i < s.ctx.k → presentAt xs i = true) ∧ OutputsFit s 0x30000 xs (parityIndices s) [] :=
  ⟨by decide +kernel, ctx21_legal, rfl,
   codecState_usable _ 0 (by decide +kernel) (by decide) (by decide +kernel) (by decide +kernel) (by decide +kernel),
   by decide +kernel,
   ⟨by decide +kernel, by decide +kernel, by decide +kernel, by decide +kernel, by decide +kernel⟩⟩

/-- The parity slot is absent and the arena is just large enough. -/
theorem test_meets_EncodeShards_arena :
    let s := { withBytes [(0x30020, slotBytes 0 0 0)] (codecState 0 1 1 0) with scrLimit := 0x100040 }
    let xs := tableAt s 0x30000 3
    TableUsable s 3 0x30000 xs ∧ OutputsFit s 0x30000 xs (parityIndices s) [] :=
  ⟨codecState_usable _ 0 (by decide +kernel) (by decide) (by decide +kernel) (by decide +kernel) (by decide +kernel),
   ⟨by decide +kernel, by decide +kernel, by decide +kernel, by decide +kernel, by decide +kernel⟩⟩

/-- The parity slot is absent and the arena one byte too small; and its storage lies in a data shard. -/
theorem test_meets_EncodeShards_errors :
    let s := { withBytes [(0x30020, slotBytes 0 0 0)] (codecState 0 1 1 0) with scrLimit := 0x10003F }
    let o := withBytes [(0x30020, slotBytes 0x20000 0 1)] (codecState 0 1 1 0)
    ¬ OutputsInArena s (tableAt s 0x30000 3) (parityIndices s)
    ∧ OutputsInArena o (tableAt o 0x30000 3) (parityIndices o)
    ∧ ¬ OutputsClear o 0x30000 (tableAt o 0x30000 3) (parityIndices o) [] := by decide +kernel

/-- Parity 0 of one parity shard: the Classical clause at its last byte, and the FFT clause with mp = 1. -/
theorem test_meets_EncodeShards_parity :
    ctx21.variant = .classical ∧ 0 < ctx21.m ∧ 0 < shardLength (tableAt (codecState 0 1 1 0) 0x30000 3)
    ∧ fft21.variant ≠ .classical ∧ 1 = 2 ^ 0 ∧ fft21.m ≤ 1 ∧ 1 < 2 * fft21.m ∧ 0 < fft21.m := by decide +kernel

/-- Data shard 1 is missing. -/
theorem test_meets_EncodeShards_missing :
    let s := codecState 9 1 0 1
    let xs := tableAt s 0x30000 3
    CanComplete s ∧ TableUsable s 3 0x30000 xs ∧ 1 < s.ctx.k ∧ presentAt xs 1 = false
    ∧ ∀ j, j < 1 → presentAt xs j = true :=
  ⟨by decide +kernel,
   codecState_usable _ 0 (by decide +kernel) (by decide) (by decide +kernel) (by decide +kernel) (by decide +kernel),
   by decide, by decide +kernel, by decide +kernel⟩

theorem test_meets_VerifyShards :
    let s := codecState 9 1 1 1
    let xs := tableAt s 0x30000 3
    CanComplete s ∧ s.ctx.valid = true ∧ TableUsable s 3 0x30000 xs
    ∧ (∀ i, i < shardCount s → presentAt xs i = true)
    ∧ ∀ i, i < shardCount s → Readable s (slotAt xs i).addr (shardLength xs) :=
  ⟨by decide +kernel, rfl,
   codecState_usable _ 0 (by decide +kernel) (by decide) (by decide +kernel) (by decide +kernel) (by decide +kernel),
   by decide +kernel, by decide +kernel⟩

/-- Parity shard 2 is missing. -/
theorem test_meets_VerifyShards_missing :
    let s := codecState 9 1 1 0
    let xs := tableAt s 0x30000 3
    CanComplete s ∧ TableUsable s 3 0x30000 xs ∧ 2 < shardCount s ∧ presentAt xs 2 = false
    ∧ ∀ j, j < 2 → presentAt xs j = true :=
  ⟨by decide +kernel,
   codecState_usable _ 0 (by decide +kernel) (by decide) (by decide +kernel) (by decide +kernel) (by decide +kernel),
   by decide, by decide +kernel, by decide +kernel⟩

/-- Shard 0 is missing and its rows are invertible: RECON and RECON_DATA, and RECON_SOME with bit 0 set. -/
theorem test_meets_ReconstructClassical :
    let s := withBytes [(0x6100, [1])] (codecState 9 0 1 1)
    let xs := tableAt s 0x30000 3
    CanComplete s ∧ s.ctx.valid = true ∧ s.ctx.variant = .classical ∧ CacheCorrect s.params s.ctx s.icache
    ∧ TableUsable s 3 0x30000 xs ∧ (∀ r ∈ bitmapRanges s (.reconSome false 3 0x30000 0x6100),
        Readable s r.range.lo r.range.len)
    ∧ s.ctx.k ≤ presentCount s xs
    ∧ neededShards s (.recon false 3 0x30000) xs = [0] ∧ neededShards s (.reconData false 3 0x30000) xs = [0]
    ∧ neededShards s (.reconSome false 3 0x30000 0x6100) xs = [0]
    ∧ OutputsFit s 0x30000 xs [0] (bitmapRanges s (.reconSome false 3 0x30000 0x6100))
    ∧ (invert s.ctx.k (selectRows s.ctx.matrix (validSet s xs))).isSome = true :=
  ⟨by decide +kernel, rfl, rfl, ⟨by decide, fun _ h => nomatch h⟩,
   codecState_usable _ 1 (by decide +kernel) (by decide) (by decide +kernel) (by decide +kernel) (by decide +kernel),
   by decide +kernel, by decide +kernel, by decide +kernel, by decide +kernel, by decide +kernel,
   ⟨by decide +kernel, by decide +kernel, by decide +kernel, by decide +kernel, by decide +kernel⟩,
   by decide +kernel⟩

/-- Too few shards; nothing needed; a singular row set (a parity row equal to a data row); every data shard
present with parity needed. -/
theorem test_meets_ReconstructClassical_others :
    let f := codecState 9 0 1 0
    let n := codecState 9 1 1 1
    let z := { codecState 9 0 1 1 with ctx := { ctx21 with matrix := [[1, 0], [0, 1], [0, 1]] } }
    let p := codecState 9 1 1 0
    presentCount f (tableAt f 0x30000 3) < f.ctx.k
    ∧ neededShards n (.recon false 3 0x30000) (tableAt n 0x30000 3) = []
    ∧ (neededShards z (.recon false 3 0x30000) (tableAt z 0x30000 3) ≠ []
      ∧ presentAt (tableAt z 0x30000 3) 0 = false
      ∧ invert z.ctx.k (selectRows z.ctx.matrix (validSet z (tableAt z 0x30000 3))) = none)
    ∧ ((∀ j, j < p.ctx.k → presentAt (tableAt p 0x30000 3) j = true)
      ∧ neededShards p (.recon false 3 0x30000) (tableAt p 0x30000 3) = [2]) := by decide +kernel

/-- Shard 0 needs the arena and the arena is one byte too small; and its storage is shard 1. -/
theorem test_meets_ReconstructClassical_errors :
    let s := { withBytes [(0x30000, slotBytes 0 0 0)] (codecState 9 0 1 1) with scrLimit := 0x10003F }
    let o := withBytes [(0x30000, slotBytes 0x20040 0 1)] (codecState 9 0 1 1)
    neededShards s (.recon false 3 0x30000) (tableAt s 0x30000 3) = [0]
    ∧ ¬ OutputsInArena s (tableAt s 0x30000 3) [0]
    ∧ neededShards o (.recon false 3 0x30000) (tableAt o 0x30000 3) = [0]
    ∧ OutputsInArena o (tableAt o 0x30000 3) [0]
    ∧ ¬ OutputsClear o 0x30000 (tableAt o 0x30000 3) [0] (bitmapRanges o (.recon false 3 0x30000)) := by
  decide +kernel

/-- The FFT8 context with shards of 64 bytes, the first one missing. -/
def fftState : State :=
  { withBytes [(0x30000, slotBytes 0x20000 0 64 ++ slotBytes 0x20040 64 64 ++ slotBytes 0x20080 64 64)] ready with
    ctx := fft21 }

theorem test_meets_ReconstructFft :
    let xs := tableAt fftState 0x30000 3
    CanComplete fftState ∧ fftState.ctx.Legal ∧ fftState.ctx.valid = true ∧ fftState.ctx.variant ≠ .classical
    ∧ TableUsable fftState 3 0x30000 xs ∧ fftState.ctx.k ≤ presentCount fftState xs
    ∧ neededShards fftState (.recon false 3 0x30000) xs = [0] ∧ OutputsFit fftState 0x30000 xs [0] []
    ∧ neededShards (codecState 9 1 1 1) (.reconData false 3 0x30000) (tableAt (codecState 9 1 1 1) 0x30000 3)
      = [] :=
  ⟨by decide +kernel, fft21_legal, rfl, by decide,
   codecState_usable _ 1 (by decide +kernel) (by decide) (by decide +kernel) (by decide +kernel) (by decide +kernel),
   by decide +kernel, by decide +kernel,
   ⟨by decide +kernel, by decide +kernel, by decide +kernel, by decide +kernel, by decide +kernel⟩,
   by decide +kernel⟩

/-- Shard 0 needs the arena and the arena is one byte too small; and its storage reaches into shard 1. -/
theorem test_meets_ReconstructFft_errors :
    let s := { withBytes [(0x30000, slotBytes 0 0 0)] fftState with scrLimit := 0x10003F }
    let o := withBytes [(0x30000, slotBytes 0x20001 0 64)] fftState
    neededShards s (.recon false 3 0x30000) (tableAt s 0x30000 3) = [0]
    ∧ ¬ OutputsInArena s (tableAt s 0x30000 3) [0]
    ∧ neededShards o (.recon false 3 0x30000) (tableAt o 0x30000 3) = [0]
    ∧ OutputsInArena o (tableAt o 0x30000 3) [0] ∧ ¬ OutputsClear o 0x30000 (tableAt o 0x30000 3) [0] [] := by
  decide +kernel

/-- Too few shards; and the clause on the recovered shards for mp = 1 and a codeword of 4 positions. -/
theorem test_meets_ReconstructFft_others :
    let s := { codecState 9 0 0 1 with ctx := { fft21 with ssm := 1 } }
    presentCount s (tableAt s 0x30000 3) < s.ctx.k
    ∧ (1 = 2 ^ 0 ∧ fftState.ctx.m ≤ 1 ∧ 1 < 2 * fftState.ctx.m ∧ 4 = 2 ^ 2 ∧ 1 + fftState.ctx.k ≤ 4
      ∧ 4 < 2 * (1 + fftState.ctx.k))
    ∧ (neededShards fftState (.recon false 3 0x30000) (tableAt fftState 0x30000 3))[0]? = some 0 := by
  decide +kernel

/-- The memory of V181; and V182, with no new shard. -/
theorem test_meets_UpdateShards :
    let s := withBytes [(0x31010, slotBytes 0x20100 1 1), (0x20100, [7])] (codecState 9 1 1 1)
    let xs := tableAt s 0x30000 3
    let news := tableAt s 0x31000 2
    let none' := tableAt (codecState 9 1 1 1) 0x31000 2
    CanComplete s ∧ TableUsable s 3 0x30000 xs ∧ (2 : Word).toNat = s.ctx.k ∧ TableReadable s 0x31000 s.ctx.k
    ∧ (List.range s.ctx.k).filter (fun i => decide (0 < (slotAt news i).len)) = [1]
    ∧ (∀ i ∈ [1], (slotAt news i).len = shardLength xs) ∧ (∀ i ∈ [1], presentAt xs i = true)
    ∧ (∀ p, p < s.ctx.m → presentAt xs (s.ctx.k + p) = true)
    ∧ footprintClear
        (descRange s :: reads 0x30000 (16 * shardCount s) :: reads 0x31000 (16 * s.ctx.k)
          :: [1].map fun i => readsInPlace (slotAt news i).addr (shardLength xs) (slotAt xs i).addr
              (shardLength xs))
        (([1] ++ parityIndices s).map fun i => extent (slotAt xs i).addr (shardLength xs)) = true
    ∧ (∀ i ∈ [1], Readable s (slotAt news i).addr (shardLength xs))
    ∧ (∀ i ∈ [1] ++ parityIndices s, Readable s (slotAt xs i).addr (shardLength xs)
        ∧ Writable s (slotAt xs i).addr (shardLength xs))
    ∧ (List.range 2).filter (fun i => decide (0 < (slotAt none' i).len)) = [] :=
  ⟨by decide +kernel,
   codecState_usable _ 0 (by decide +kernel) (by decide) (by decide +kernel) (by decide +kernel) (by decide +kernel),
   by decide, by unfold TableReadable; decide +kernel, by decide +kernel, by decide +kernel, by decide +kernel,
   by decide +kernel, by decide +kernel, by decide +kernel, by decide +kernel⟩

/-- The errors of UPDATE: a count other than k; a new shard of another length; the parity missing; the old
shard missing; the new shard overlapping the parity. -/
theorem test_meets_UpdateShards_errors :
    let z := withBytes [(0x31010, slotBytes 0x20100 2 2)] (codecState 9 1 1 1)
    let p := withBytes [(0x31010, slotBytes 0x20100 1 1)] (codecState 9 1 1 0)
    let d := withBytes [(0x31010, slotBytes 0x20100 1 1)] (codecState 9 1 0 1)
    let o := withBytes [(0x31010, slotBytes 0x20080 1 1)] (codecState 9 1 1 1)
    (3 : Word).toNat ≠ z.ctx.k
    ∧ (slotAt (tableAt z 0x31000 2) 1).len ≠ shardLength (tableAt z 0x30000 3)
    ∧ presentAt (tableAt p 0x30000 3) (p.ctx.k + 0) = false
    ∧ (presentAt (tableAt d 0x30000 3) (d.ctx.k + 0) = true ∧ presentAt (tableAt d 0x30000 3) 1 = false)
    ∧ footprintClear
        (descRange o :: reads 0x30000 (16 * shardCount o) :: reads 0x31000 (16 * o.ctx.k)
          :: [1].map fun i => readsInPlace (slotAt (tableAt o 0x31000 2) i).addr 1
              (slotAt (tableAt o 0x30000 3) i).addr 1)
        (([1] ++ parityIndices o).map fun i => extent (slotAt (tableAt o 0x30000 3) i).addr 1) = false := by
  decide +kernel

/-- The memory of V188; and an index at k, a count other than m, a length of 0. -/
theorem test_meets_EncodeOneShard :
    let s := withBytes [(0x31000, slotBytes 0x20080 1 1)] (codecState 0 1 1 1)
    let ps := tableAt s 0x31000 s.ctx.m
    CanComplete s ∧ s.ctx.valid = true ∧ s.ctx.variant = .classical
    ∧ s.ctx.k ≤ (2 : Word).toNat ∧ (1 : Word).toNat < s.ctx.k ∧ (2 : Word).toNat ≠ s.ctx.m
    ∧ (1 : Word).toNat = s.ctx.m ∧ 0 < (1 : Word).toNat ∧ TableReadable s 0x31000 s.ctx.m
    ∧ (∀ x ∈ ps, x.len = (1 : Word).toNat)
    ∧ footprintClear [descRange s, reads 0x20040 1, reads 0x31000 (16 * s.ctx.m)]
        (ps.map fun x => extent x.addr 1) = true
    ∧ Readable s 0x20040 1 ∧ ∀ x ∈ ps, Readable s x.addr 1 ∧ Writable s x.addr 1 := by
  unfold TableReadable; decide +kernel

/-- A parity entry whose length is not LEN. -/
theorem test_meets_EncodeOneShard_size :
    let s := withBytes [(0x31000, slotBytes 0x20080 2 2)] (codecState 0 1 1 1)
    0 < s.ctx.m ∧ TableReadable s 0x31000 (0 + 1) ∧ (entryAt s 0x31000 0).len ≠ (1 : Word).toNat := by
  unfold TableReadable; decide +kernel

/-- The parity buffer is the source. -/
theorem test_meets_EncodeOneShard_overlap :
    let s := withBytes [(0x31000, slotBytes 0x20040 1 1)] (codecState 0 1 1 1)
    let ps := tableAt s 0x31000 s.ctx.m
    TableReadable s 0x31000 s.ctx.m ∧ (∀ x ∈ ps, x.len = (1 : Word).toNat)
    ∧ footprintClear [descRange s, reads 0x20040 1, reads 0x31000 (16 * s.ctx.m)]
        (ps.map fun x => extent x.addr 1) = false := by
  unfold TableReadable; decide +kernel

theorem test_meets_StripePlanCovers :
    1 ≤ workerCeiling ready ∧ ready.schedMinsplit ≠ 0 ∧ 999 < 1000
    ∧ 1 < stripeCount { ready with schedMinsplit := 100 } 1000 := by decide +kernel

end Sys2Proof.Tests
end

section
/-! SUPPORT. What a step can do to the part of the state that the invariants speak of (spec/10_state.md R36 to
R53): the registers with a legal range, the context, the inversion cache, and the plan of the command in flight.
`step_effect` says it once for every turn of every agent, and `HeldInvariant.step` packages the induction. -/

namespace Sys2Proof.Machine

/-! ### The held state -/

/-- The part of the state that the invariants of the registers, the context and the cache speak of. -/
structure Held where
  params : Params
  cqBase : Addr
  cqSizeLog2 : BitVec 5
  cqHead : Half
  cqTail : Half
  scrBase : Addr
  scrLimit : Addr
  scrNext : Addr
  schedMinsplit : Word
  ctx : Ctx
  icache : List CacheEntry

/-- The held part of a state. -/
def held (s : State) : Held :=
  { params := s.params, cqBase := s.cqBase, cqSizeLog2 := s.cqSizeLog2, cqHead := s.cqHead, cqTail := s.cqTail,
    scrBase := s.scrBase, scrLimit := s.scrLimit, scrNext := s.scrNext, schedMinsplit := s.schedMinsplit,
    ctx := s.ctx, icache := s.icache }

/-- `commitRegisters` on the held part. -/
def Held.commit (p : Plan) (h : Held) : Held :=
  { h with scrNext := p.scrNext.getD h.scrNext, ctx := p.ctx.getD h.ctx, icache := p.icache.getD h.icache }

/-- `advance` on the held part. -/
def Held.advance (h : Held) : Held :=
  { h with cqHead := BitVec.ofNat 16 ((h.cqHead.toNat + 1) % 2 ^ h.cqSizeLog2.toNat) }

/-- The plan as a raced command commits it (20_memory.md R91). -/
def Plan.raced (n : Nat) (p : Plan) : Plan := { p with ctx := p.ctx.map (racedContext n) }

/-- The validated plan of the command in flight, until its data phase ends. -/
def planInFlight (s : State) : Option Plan :=
  match s.inflight with
  | some { words := _, phase := .working p _ } => some p
  | _ => none

theorem planInFlight_eq_some {s : State} {p : Plan} :
    planInFlight s = some p ↔ ∃ ws rest, s.inflight = some { words := ws, phase := .working p rest } := by
  unfold planInFlight
  split
  case h_1 ws q rest h => simp [h]
  case h_2 h => exact ⟨nofun, fun ⟨ws, rest, e⟩ => absurd e (h ws p rest)⟩

theorem planInFlight_congr {s t : State} (h : t.inflight = s.inflight) : planInFlight t = planInFlight s := by
  simp only [planInFlight, h]

theorem planInFlight_of_idle {s : State} (h : s.inflight = none) : planInFlight s = none := by
  simp [planInFlight, h]

/-! ### What each operation does to it -/

@[simp] theorem held_raiseError (e : Err) (i : Half) (o : BitVec 8) (f : Bool) (s : State) :
    held (raiseError e i o f s) = held s := by simp [held]
@[simp] theorem held_signalDone (q : Bool) (s : State) : held (signalDone q s) = held s := by simp [held]
@[simp] theorem held_advance (v : Word) (s : State) : held (advance v s) = (held s).advance := rfl
@[simp] theorem held_commitRegisters (p : Plan) (s : State) :
    held (commitRegisters p s) = (held s).commit p := rfl
@[simp] theorem held_havoc (xs : List Extent) (s : State) : held (havoc xs s) = held s := by
  rw [havoc_eq]; rfl
@[simp] theorem held_startReport (ws : List Word) (r : Report) (s : State) :
    held (startReport ws r s) = held s := rfl
@[simp] theorem held_report (ws : List Word) (i : Instr) (v : Except Err Plan) (s : State) (x : Ending) :
    held (x.report ws i v s) = held x.state := rfl
@[simp] theorem held_reportW15 (r : Report) (s : State) : held (reportW15 r s) = held s := rfl
@[simp] theorem held_lateRace (r : Report) (s : State) : held (lateRace r s).2 = held s := by
  unfold lateRace; split
  · rw [held_havoc]; rfl
  · rfl
@[simp] theorem held_reportW14 (r : Report) (s : State) : held (reportW14 r s).2 = held s :=
  held_lateRace r s
@[simp] theorem held_workStripe (p : Plan) (x : Stripe) (s : State) : held (workStripe p x s) = held s := by
  unfold workStripe; split <;> rfl
@[simp] theorem held_afterFetch (s : State) : held (afterFetch s) = held s := by
  unfold afterFetch; split <;> rfl
@[simp] theorem held_refuseFetch (s : State) : held (refuseFetch s) = held s := rfl
@[simp] theorem inflight_afterFetch (s : State) : (afterFetch s).inflight = s.inflight := by
  unfold afterFetch; split <;> rfl
@[simp] theorem inflight_workStripe (p : Plan) (x : Stripe) (s : State) :
    (workStripe p x s).inflight = s.inflight := by unfold workStripe; split <;> rfl

@[simp] theorem held_workAll (p : Plan) (xs : List Stripe) (s : State) : held (workAll p xs s) = held s := by
  induction xs generalizing s with
  | nil => rfl
  | cons x xs ih => exact (ih _).trans (held_workStripe p x s)

@[simp] theorem inflight_workAll (p : Plan) (xs : List Stripe) (s : State) :
    (workAll p xs s).inflight = s.inflight := by
  induction xs generalizing s with
  | nil => rfl
  | cons x xs ih => exact (ih _).trans (inflight_workStripe p x s)

@[simp] theorem held_completeRegisters (opc : BitVec 8) (q : Bool) (e : Option Err) (v : Word) (s : State) :
    held (completeRegisters opc q e v s) = (held s).advance := by
  cases e <;> simp [completeRegisters]

@[simp] theorem inflight_completeRegisters (opc : BitVec 8) (q : Bool) (e : Option Err) (v : Word) (s : State) :
    (completeRegisters opc q e v s).inflight = none := by
  cases e <;> simp [completeRegisters]

@[simp] theorem held_refusedRegisters (opc : BitVec 8) (q : Bool) (v : Word) (s : State) :
    held (refusedRegisters opc q v s) = (held s).advance := by simp [refusedRegisters]

@[simp] theorem inflight_refusedRegisters (opc : BitVec 8) (q : Bool) (v : Word) (s : State) :
    (refusedRegisters opc q v s).inflight = none := by simp [refusedRegisters]

@[simp] theorem held_complete (opc : BitVec 8) (q : Bool) (e : Option Err) (r : Word) (s : State) :
    held (complete opc q e r s) = (held s).advance := by
  unfold complete; dsimp only; split
  · rw [held_completeRegisters]; rfl
  · rw [held_refusedRegisters]

@[simp] theorem inflight_complete (opc : BitVec 8) (q : Bool) (e : Option Err) (r : Word) (s : State) :
    (complete opc q e r s).inflight = none := (complete_frame opc q e r s).2.2.2.2.2

@[simp] theorem held_fetchFault (s : State) : held (fetchFault s) = held s := by
  rw [fetchFault, held_raiseError]; rfl

@[simp] theorem inflight_fetchFault (s : State) : (fetchFault s).inflight = none := by simp [fetchFault]

@[simp] theorem held_reportWhole (r : Report) (stage : ReportStage) (s : State) :
    held (reportWhole r stage s) = (held s).advance := by
  cases stage <;> simp [reportWhole, reportRegisters, reportRefused]

@[simp] theorem inflight_reportWhole (r : Report) (stage : ReportStage) (s : State) :
    (reportWhole r stage s).inflight = none := by
  cases stage <;> simp [reportWhole, reportRegisters, reportRefused]

/-! ### What a data phase commits -/

/-- A plan that validation found in `s`, or found earlier for the command in flight. -/
def Planned (s : State) (p : Plan) : Prop := planInFlight s = some p ∨ ∃ i, planOf i s = .ok p

/-- The held state at the end of a data phase that starts in `s`: as it was, or with a plan committed. -/
inductive DataPhase (s : State) : Held → Prop
  | nothing : DataPhase s (held s)
  | plan {p : Plan} : Planned s p → DataPhase s ((held s).commit p)
  | raced {p : Plan} (n : Nat) : Planned s p → DataPhase s ((held s).commit (p.raced n))

theorem DataPhase.of_held_eq {s t : State} (h : held t = held s) : DataPhase s (held t) := h ▸ .nothing

/-- What a raced command commits (20_memory.md R91). -/
theorem racedEnding_dataPhase {i : Instr} {v : Except Err Plan} {s : State}
    (h : ∀ p, v = .ok p → Planned s p) : DataPhase s (held (racedEnding i v s).state) := by
  unfold racedEnding
  have hh : held (havoc (commandWrites i v s) { s with free := s.free + 3 }) = held s := held_havoc _ _
  cases v with
  | error e => exact .of_held_eq hh
  | ok p =>
    dsimp only
    generalize havoc (commandWrites i (.ok p) s) { s with free := s.free + 3 } = u at hh ⊢
    obtain ⟨_, f, e⟩ | ⟨_, f, e⟩ | ⟨f, e⟩ := racedCommit_cases (racedReport i s) p u
    · have : held (racedCommit (racedReport i s) p u) = (held s).commit (p.raced u.free) := by
        rw [e, ← hh]; rfl
      exact this ▸ .raced u.free (h p rfl)
    · have : held (racedCommit (racedReport i s) p u) = (held s).commit p := by rw [e, ← hh]; rfl
      exact this ▸ .plan (h p rfl)
    · exact .of_held_eq (by rw [e, ← hh]; rfl)

theorem errorEnding_dataPhase (i : Instr) (e : Err) (s : State) :
    DataPhase s (held (errorEnding i e s).state) := by
  unfold errorEnding
  split
  · exact racedEnding_dataPhase fun _ h => by cases h
  · exact .nothing

theorem workEnding_dataPhase {i : Instr} {p : Plan} {s : State} (h : Planned s p) :
    DataPhase s (held (workEnding i p s).state) := by
  unfold workEnding
  split
  · exact racedEnding_dataPhase fun q hq => Except.ok.inj hq ▸ h
  · split
    · exact .plan h
    · rw [held_havoc]; exact .plan h

/-! ### Register writes -/

/-- The parameters and the internal state that no host write of a register touches, unless it is a reset. -/
structure SameInternal (s t : State) : Prop where
  params : t.params = s.params
  ctx : t.ctx = s.ctx
  icache : t.icache = s.icache
  inflight : t.inflight = s.inflight

/-- A gated write is ignored or made (10_state.md R49). -/
theorem gated_induction {motive : State → Prop} {s f : State} (hs : motive s) (hf : motive f) :
    motive (gated s f) := by
  unfold gated
  split
  · exact hf
  · exact hs

theorem writeAuto_sameInternal (v : Word) (s : State) : SameInternal s (writeAuto v s) := by
  unfold writeAuto; dsimp only; split <;> exact ⟨rfl, rfl, rfl, rfl⟩

/-- A host write of a register is a reset, or it leaves the internal state alone. -/
theorem writeReg_cases (off : Nat) (v : Word) (s : State) :
    writeReg off v s = resetMachine s ∨ SameInternal s (writeReg off v s) := by
  unfold writeReg
  split
  case h_1 =>
    unfold writeCtrl
    split
    · exact .inl rfl
    · dsimp only; split <;> exact .inr ⟨rfl, rfl, rfl, rfl⟩
  all_goals right
  case h_2 | h_3 | h_4 | h_8 | h_19 => exact ⟨rfl, rfl, rfl, rfl⟩
  case h_17 => exact gated_induction ⟨rfl, rfl, rfl, rfl⟩ (writeAuto_sameInternal v s)
  all_goals exact gated_induction ⟨rfl, rfl, rfl, rfl⟩ ⟨rfl, rfl, rfl, rfl⟩

/-! ### What a step can do -/

/-- What a step from `s` to `t` can do to the held state and the plan in flight. -/
inductive StepEffect (s t : State) : Prop
  /-- a data phase ends, or nothing that is held changes -/
  | ended (hd : DataPhase s (held t)) (hp : planInFlight t = none)
  /-- a validated command is in flight -/
  | working (p : Plan) (h : Planned s p) (ht : held t = held s) (hp : planInFlight t = some p)
  /-- a command completes -/
  | completed (h : Held) (hd : DataPhase s h) (ht : held t = h.advance) (hp : planInFlight t = none)
  /-- a reset -/
  | reset (ht : t = resetMachine s)
  /-- a host write of a register -/
  | write (off : Nat) (v : Word) (ht : t = writeReg off v s) (h : SameInternal s t)

/-- A turn that changes neither the held state nor what is in flight. -/
theorem StepEffect.keep {s t : State} (h : held t = held s) (hi : t.inflight = s.inflight) : StepEffect s t := by
  have hp := planInFlight_congr hi
  cases he : planInFlight s with
  | none => exact .ended (.of_held_eq h) (hp.trans he)
  | some p => exact .working p (.inl he) h (hp.trans he)

theorem writeReg_effect (off : Nat) (v : Word) (s : State) : StepEffect s (writeReg off v s) :=
  (writeReg_cases off v s).elim .reset (.write off v rfl)

theorem hostLoad_effect {a : Addr} {n : Nat} {s t : State} (h : hostLoad a n s = .next t) : StepEffect s t := by
  unfold hostLoad at h
  split at h
  · cases h
  all_goals cases h; exact .keep rfl rfl

theorem hostStore_effect {a : Addr} {bs : List Byte} {s t : State} (h : hostStore a bs s = .next t) :
    StepEffect s t := by
  unfold hostStore at h
  split at h
  · cases h
  · cases h; exact writeReg_effect _ _ s
  all_goals cases h; exact .keep rfl rfl

theorem reportIllegal_effect (ws : List Word) (s : State) : StepEffect s (reportIllegal ws s) :=
  .ended (.of_held_eq (held_startReport ..)) rfl

/-- The completion step of an ending begins. -/
theorem report_effect {s : State} {x : Ending} (ws : List Word) (i : Instr) (v : Except Err Plan)
    (h : DataPhase s (held x.state)) : StepEffect s (x.report ws i v s) :=
  .ended (held_report ws i v s x ▸ h) rfl

theorem validate_effect (ws : List Word) (s : State) : StepEffect s (validate ws s) := by
  unfold validate
  split
  · exact reportIllegal_effect ws s
  · rename_i i _
    split
    · rename_i p hp
      exact .working p (.inr ⟨i, hp⟩) rfl rfl
    · exact report_effect ws i _ (errorEnding_dataPhase i _ s)

theorem reportWords_effect (ws : List Word) {p : Plan} {s : State} (h : Planned s p) :
    StepEffect s (reportWords ws p s) := by
  unfold reportWords
  split
  · exact reportIllegal_effect ws s
  · exact report_effect ws _ _ (workEnding_dataPhase h)

theorem reportTurn_effect (ws : List Word) (r : Report) (stage : ReportStage) (s : State) :
    StepEffect s (reportTurn ws r stage s) := by
  cases stage with
  | w15 => exact .ended (.of_held_eq (held_reportW15 r s)) rfl
  | w14 => exact .ended (.of_held_eq (held_reportW14 r s)) rfl
  | registers =>
    exact .completed _ .nothing (held_completeRegisters ..)
      (planInFlight_of_idle (inflight_completeRegisters ..))
  | refused =>
    exact .completed _ .nothing (by simp [reportTurn, reportRefused])
      (planInFlight_of_idle (inflight_refusedRegisters ..))

theorem fetchFault_effect (s : State) : StepEffect s (fetchFault s) :=
  .ended (.of_held_eq (held_fetchFault s)) (planInFlight_of_idle (inflight_fetchFault s))

theorem fetch_effect (s : State) : StepEffect s (fetch s) :=
  .ended (.of_held_eq (held_afterFetch s)) rfl

theorem cpTurn_effect (s : State) : StepEffect s (cpTurn s) := by
  unfold cpTurn
  split
  · split
    · exact .keep rfl rfl
    · split
      · exact fetch_effect s
      · exact .ended (.of_held_eq (held_refuseFetch s)) rfl
  · exact fetchFault_effect s
  · exact validate_effect _ s
  · rename_i h
    exact reportWords_effect _ (.inl (planInFlight_eq_some.mpr ⟨_, _, h⟩))
  · exact .keep rfl rfl
  · exact reportTurn_effect ..

theorem workerTurn_effect (j : Nat) (s : State) : StepEffect s (workerTurn j s) := by
  unfold workerTurn
  split
  · rename_i ws p pending h
    split
    · rename_i x _
      have hh : held (workStripe p x s) = held s := held_workStripe p x s
      exact .working p (.inl (planInFlight_eq_some.mpr ⟨_, _, h⟩)) hh rfl
    · exact .keep rfl rfl
  · exact .keep rfl rfl

theorem turn_effect {x : Input} {s t : State} (h : turn x s = .next t) : StepEffect s t := by
  cases x with
  | load a n => exact hostLoad_effect h
  | store a bs => exact hostStore_effect h
  | hardReset => cases h; exact .reset rfl
  | cp => cases h; exact cpTurn_effect s
  | worker j => cases h; exact workerTurn_effect j s

/-- The completion step of an ending, at once. -/
theorem complete_effect {s : State} {i : Instr} {x : Ending} (h : DataPhase s (held x.state)) :
    StepEffect s (x.complete i) :=
  .completed _ h (held_complete ..) (planInFlight_of_idle (inflight_complete ..))

theorem illegalCommand_effect (ws : List Word) (s : State) : StepEffect s (illegalCommand ws s) :=
  .completed _ .nothing (held_complete ..) (planInFlight_of_idle (inflight_complete ..))

theorem finish_effect {s : State} {v : Except Err Plan} (opc : BitVec 8) (q : Bool)
    (h : ∀ p, v = .ok p → Planned s p) : StepEffect s (finish opc q v s) := by
  cases v with
  | error e => exact .completed _ .nothing (held_complete ..) (planInFlight_of_idle (inflight_complete ..))
  | ok p =>
    refine .completed _ (.plan (h p rfl)) ?_ (planInFlight_of_idle ?_)
    all_goals
      unfold finish finishPlan
      dsimp only
      split <;> simp
    rfl

theorem runWords_effect {ws : List Word} {s t : State} (h : runWords ws s = .next t) : StepEffect s t := by
  unfold runWords at h
  split at h
  · cases h; exact illegalCommand_effect ws s
  · rename_i i _
    have hp : ∀ p, planOf i s = .ok p → Planned s p := fun p hp => .inr ⟨i, hp⟩
    unfold runCommand at h
    split at h
    · cases h; exact complete_effect (racedEnding_dataPhase hp)
    · rw [exec_eq_finish] at h
      cases h; exact finish_effect _ _ hp

theorem completeWords_effect (ws : List Word) {p : Plan} {s : State} (h : Planned s p) :
    StepEffect s (completeWords ws p s) := by
  unfold completeWords
  split
  · exact illegalCommand_effect ws s
  · exact complete_effect (workEnding_dataPhase h)

/-- Two states that agree on the held part and on the plan in flight. -/
def HeldEq (s u : State) : Prop := held u = held s ∧ planInFlight u = planInFlight s

theorem HeldEq.of_inflight {s u : State} (h : held u = held s) (hi : u.inflight = s.inflight) : HeldEq s u :=
  ⟨h, planInFlight_congr hi⟩

theorem cpWhole_effect {s t : State} (h : cpWhole s = .next t) : ∃ u, HeldEq s u ∧ StepEffect u t := by
  unfold cpWhole at h
  split at h
  · split at h
    · cases h; exact ⟨s, ⟨rfl, rfl⟩, .keep rfl rfl⟩
    · split at h
      · exact ⟨afterFetch s, .of_inflight (held_afterFetch s) (inflight_afterFetch s), runWords_effect h⟩
      · cases h; exact ⟨s, ⟨rfl, rfl⟩, fetchFault_effect s⟩
  · cases h; exact ⟨s, ⟨rfl, rfl⟩, fetchFault_effect s⟩
  · exact ⟨s, ⟨rfl, rfl⟩, runWords_effect h⟩
  · rename_i ws p pending hi
    cases h
    refine ⟨workAll p pending s, .of_inflight (held_workAll ..) (inflight_workAll ..),
      completeWords_effect ws (.inl ?_)⟩
    exact planInFlight_eq_some.mpr ⟨ws, pending, (inflight_workAll ..).trans hi⟩
  · cases h
    exact ⟨s, ⟨rfl, rfl⟩,
      .completed _ .nothing (held_reportWhole ..) (planInFlight_of_idle (inflight_reportWhole ..))⟩

/-- What a step can do to the held state and the plan in flight. The step starts from `s`, but for the turn that
is taken off the list, the free values that a fetch uses up and the stores that the stripes of a whole command make. -/
theorem step_effect {s t : State} (h : step s = .next t) : ∃ u, HeldEq s u ∧ StepEffect u t := by
  unfold step at h
  split at h
  · exact cpWhole_effect h
  · rename_i x xs _
    exact ⟨{ s with inputs := xs }, .of_inflight rfl rfl, turn_effect h⟩

/-! ### Invariants -/

/-- `R` is an invariant of the held state, and `P` says of a plan that committing it keeps `R`. -/
structure HeldInvariant (R : Held → Prop) (P : Held → Plan → Prop) : Prop where
  planned : ∀ {i s p}, R (held s) → planOf i s = .ok p → P (held s) p
  commit : ∀ {h p}, R h → P h p → R (h.commit p)
  raced : ∀ {h p} n, R h → P h p → R (h.commit (p.raced n))
  advance : ∀ {h}, R h → R h.advance
  reset : ∀ {s}, R (held s) → R (held (resetMachine s))
  write : ∀ {s} off v, R (held s) → SameInternal s (writeReg off v s) → R (held (writeReg off v s))
  plan_congr : ∀ {s t p}, SameInternal s t → P (held s) p → P (held t) p

/-- An invariant of the held state, with every plan in flight safe to commit, is kept by every step. -/
theorem HeldInvariant.step {R : Held → Prop} {P : Held → Plan → Prop} (I : HeldInvariant R P) {s t : State}
    (h : Machine.step s = .next t) (hr : R (held s)) (hp : ∀ p, planInFlight s = some p → P (held s) p) :
    R (held t) ∧ ∀ p, planInFlight t = some p → P (held t) p := by
  obtain ⟨u, ⟨hh, hi⟩, e⟩ := step_effect h
  rw [← hh] at hr hp
  rw [← hi] at hp
  have planned : ∀ {p}, Planned u p → P (held u) p := fun h =>
    h.elim (hp _) fun ⟨_, h⟩ => I.planned hr h
  have dataPhase : ∀ {h}, DataPhase u h → R h := by
    rintro _ (_ | h | ⟨n, h⟩)
    · exact hr
    · exact I.commit hr (planned h)
    · exact I.raced n hr (planned h)
  cases e with
  | ended hd h => exact ⟨dataPhase hd, by simp [h]⟩
  | working p h ht hp' =>
    rw [ht]
    refine ⟨hr, fun q hq => ?_⟩
    obtain rfl := Option.some.inj (hp'.symm.trans hq)
    exact planned h
  | completed h hd ht hp' => exact ⟨ht ▸ I.advance (dataPhase hd), by simp [hp']⟩
  | reset ht => subst ht; exact ⟨I.reset hr, by simp [planInFlight_of_idle (resetMachine_inflight u)]⟩
  | write off v ht hs =>
    subst ht
    exact ⟨I.write off v hr hs, fun p h => I.plan_congr hs (hp p (planInFlight_congr hs.inflight ▸ h))⟩

end Sys2Proof.Machine
end

section
/-! SUPPORT. The context (spec/10_state.md R50): every matrix a CONFIGURE can commit has k + m rows of k entries,
so the shape of the context is an invariant. -/

namespace Sys2Proof.Machine

/-! ### Shapes of matrices -/

/-- A matrix of `r` rows of `c` entries. -/
def Shaped (r c : Nat) (m : Matrix) : Prop := m.length = r ∧ ∀ row ∈ m, row.length = c

theorem shaped_tabulate (r c : Nat) (f : Nat → Nat → Nat) : Shaped r c (tabulate r c f) := by
  refine ⟨by simp [tabulate], fun row h => ?_⟩
  obtain ⟨i, _, rfl⟩ := List.mem_map.mp h
  simp

theorem Shaped.append {r r' c : Nat} {m m' : Matrix} (h : Shaped r c m) (h' : Shaped r' c m') :
    Shaped (r + r') c (m ++ m') := by
  refine ⟨by simp [h.1, h'.1], fun row hr => ?_⟩
  exact (List.mem_append.mp hr).elim (h.2 row) (h'.2 row)

theorem Shaped.length_getD {r c i : Nat} {m : Matrix} (h : Shaped r c m) (hi : i < r) :
    (m.getD i []).length = c := by
  have hi : i < m.length := h.1.symm ▸ hi
  rw [List.getD_eq_getElem _ _ hi]
  exact h.2 _ (List.getElem_mem hi)

theorem Shaped.map {r c : Nat} {m : Matrix} {f : List Nat → List Nat} (h : Shaped r c m)
    (hf : ∀ row, row.length = c → (f row).length = c) : Shaped r c (m.map f) := by
  refine ⟨by simp [h.1], fun row hr => ?_⟩
  obtain ⟨row, hm, rfl⟩ := List.mem_map.mp hr
  exact hf row (h.2 row hm)

theorem length_mapRowsFrom (f : Nat → List Nat → List Nat) (i : Nat) (m : Matrix) :
    (mapRowsFrom f i m).length = m.length := by
  induction m generalizing i with
  | nil => rfl
  | cons row m ih => simp [mapRowsFrom, ih]

/-- Each row of the result is the image of a row, by its index. -/
theorem mem_mapRowsFrom {f : Nat → List Nat → List Nat} {i : Nat} {m : Matrix} {x : List Nat}
    (h : x ∈ mapRowsFrom f i m) : ∃ j row, j < i + m.length ∧ row ∈ m ∧ x = f j row := by
  induction m generalizing i with
  | nil => simp [mapRowsFrom] at h
  | cons row m ih =>
    simp only [mapRowsFrom, List.mem_cons] at h
    rcases h with rfl | h
    · exact ⟨i, row, by simp, by simp, rfl⟩
    · obtain ⟨j, r, hj, hr, rfl⟩ := ih h
      exact ⟨j, r, by simp only [List.length_cons]; omega, by simp [hr], rfl⟩

theorem Shaped.mapRowsFrom {r c : Nat} {m : Matrix} {f : Nat → List Nat → List Nat} (h : Shaped r c m)
    (hf : ∀ j row, j < r → row.length = c → (f j row).length = c) : Shaped r c (mapRowsFrom f 0 m) := by
  refine ⟨(length_mapRowsFrom ..).trans h.1, fun x hx => ?_⟩
  obtain ⟨j, row, hj, hr, rfl⟩ := mem_mapRowsFrom hx
  exact hf j row (by rw [← h.1]; omega) (h.2 row hr)

theorem Shaped.swapRows {r c i q : Nat} {m : Matrix} (h : Shaped r c m) (hi : i < r) (hq : q < r) :
    Shaped r c (swapRows m i q) := by
  refine h.mapRowsFrom fun j row _ hr => ?_
  split
  · exact h.length_getD hq
  · split
    · exact h.length_getD hi
    · exact hr

theorem shaped_matrixOfBytes {r c : Nat} {bs : List Byte} (h : bs.length = r * c) :
    Shaped r c (matrixOfBytes r c bs) := by
  induction r generalizing bs with
  | zero => exact ⟨rfl, nofun⟩
  | succ r ih =>
    rw [Nat.succ_mul] at h
    have ih := ih (bs := bs.drop c) (by simp [h])
    refine ⟨by simp [matrixOfBytes, ih.1], fun row hr => ?_⟩
    rcases List.mem_cons.mp hr with rfl | hr
    · simp [h]
    · exact ih.2 row hr

theorem shaped_customMatrix {k m : Nat} {c : Matrix} (h : Shaped m k c) : Shaped (k + m) k (customMatrix k c) :=
  (shaped_tabulate ..).append h

theorem shaped_fastOne {k m : Nat} {mat : Matrix} (flag : Bool) (h : Shaped (k + m) k mat) :
    Shaped (k + m) k (fastOne flag k m mat) := by
  unfold fastOne
  split
  · rename_i hm
    obtain rfl := hm.2
    refine Shaped.append ⟨by simp [h.1], fun row hr => h.2 row (List.mem_of_mem_take hr)⟩ ⟨rfl, ?_⟩
    simp
  · exact h

/-! ### The builders (43_generator.md R192 to R195) -/

theorem shaped_jerasureRound {r c i : Nat} {m d : Matrix} (h : Shaped r c m) (hi : i < r)
    (hd : jerasureRound r m i = some d) : Shaped r c d := by
  unfold jerasureRound at hd
  split at hd
  · cases hd
  · rename_i q hq
    obtain rfl := Option.some.inj hd
    have hs := h.swapRows hi (List.mem_range.mp (List.mem_of_find?_eq_some hq))
    have clear : ∀ {m : Matrix}, Shaped r c m → Shaped r c (clearRowByColumn i m) :=
      fun h => h.map fun row hr => by simp [hr]
    refine clear ?_
    split
    · exact hs
    · exact hs.map fun row hr => by simp [hr]

theorem shaped_jerasureReduce {r c : Nat} {is : List Nat} {m d : Matrix} (h : Shaped r c m)
    (hi : ∀ i ∈ is, i < r) (hd : jerasureReduce r is m = some d) : Shaped r c d := by
  induction is generalizing m with
  | nil => exact Option.some.inj hd ▸ h
  | cons i is ih =>
    simp only [jerasureReduce] at hd
    split at hd
    · cases hd
    · exact ih (shaped_jerasureRound h (hi i (by simp)) ‹_›) (fun j hj => hi j (by simp [hj])) hd

theorem shaped_onesRow {r k : Nat} {m : Matrix} (h : Shaped r k m) : Shaped r k (onesRow k m) := by
  refine h.mapRowsFrom fun j row hj hr => ?_
  split
  · exact hr
  · rw [List.length_zipWith, h.length_getD (by omega), hr, Nat.min_self]

theorem shaped_onesColumn {r k : Nat} {m : Matrix} (h : Shaped r k m) : Shaped r k (onesColumn k m) := by
  refine h.mapRowsFrom fun j row _ hr => ?_
  split
  · exact hr
  · split
    · exact hr
    · simp [scaleRow, hr]

/-- Every builder makes k + m rows of k entries. -/
theorem shaped_buildMatrix {kind : Kind} {k m : Nat} {mat : Matrix} (h : buildMatrix kind k m = some mat) :
    Shaped (k + m) k mat := by
  cases kind with
  | vandermonde =>
    simp only [buildMatrix, buildVandermonde] at h
    split at h
    · cases h
    · obtain rfl := Option.some.inj h
      exact shaped_tabulate ..
  | cauchy => obtain rfl := Option.some.inj h; exact (shaped_tabulate ..).append (shaped_tabulate ..)
  | par1 => obtain rfl := Option.some.inj h; exact (shaped_tabulate ..).append (shaped_tabulate ..)
  | jerasure =>
    simp only [buildMatrix, buildJerasure] at h
    split at h
    · cases h
    · rename_i d hd
      obtain rfl := Option.some.inj h
      have hi : ∀ i ∈ (List.range k).drop 1, i < k + m := fun i hi => by
        have := List.mem_range.mp (List.mem_of_mem_drop hi)
        omega
      exact shaped_onesColumn (shaped_onesRow (shaped_jerasureReduce (shaped_tabulate ..) hi hd))
  | custom => cases h

theorem shaped_codingMatrix {kind : Kind} {k m : Nat} {mat : Addr} {s : State} {mx : Matrix}
    (h : codingMatrix kind k m mat s = .ok mx) : Shaped (k + m) k mx := by
  unfold codingMatrix at h
  split at h
  · obtain ⟨bs, hb, h⟩ := bind_eq_ok.mp h
    obtain rfl := Except.ok.inj h
    rw [readEach_eq_ok] at hb
    exact shaped_customMatrix (shaped_matrixOfBytes (by simp [hb.2]))
  · split at h
    · cases h
    · obtain rfl := Except.ok.inj h
      exact shaped_buildMatrix ‹_›

/-! ### Contexts -/

theorem fits_of_selectVariant {want v : Variant} {auto up : Bool} {k m : Nat}
    (h : selectVariant want auto k m = .ok (v, up)) : fits v k m = true := by
  unfold selectVariant at h
  split at h
  · cases h; assumption
  · split at h
    · rename_i h'
      cases h; exact h'.2.2
    · cases h

theorem fftContext_legal {v : Variant} {up : Bool} {k m : Nat} (hv : v ≠ .classical) (hk : 1 ≤ k)
    (hf : fits v k m = true) : (fftContext v up k m).Legal :=
  ⟨fun _ => hk, fun _ => hf, fun _ => rfl, fun _ h => absurd h hv, fun _ h => absurd h hv, fun _ => ⟨rfl, rfl⟩⟩

theorem classicalContext_legal {kind : Kind} {fastone noicache : Bool} {k m : Nat} {mat : Matrix} (hk : 1 ≤ k)
    (hf : fits .classical k m = true) (hm : Shaped (k + m) k mat) :
    (classicalContext kind fastone noicache k m mat).Legal :=
  have h := shaped_fastOne fastone hm
  ⟨fun _ => hk, fun _ => hf, fun _ => rfl, fun _ _ => h.1, fun _ _ => h.2, fun h => absurd rfl h⟩

/-- A custom matrix read during a race has its shape, whatever bytes it read. -/
theorem racedContext_legal {c : Ctx} (n : Nat) (h : c.Legal) : (racedContext n c).Legal := by
  unfold racedContext
  split
  · rename_i hc
    have hs := shaped_fastOne c.fastone (shaped_customMatrix
      (shaped_matrixOfBytes (r := c.m) (c := c.k) (bs := freeBytes n (c.m * c.k)) (by simp [freeBytes])))
    refine ⟨h.k, h.fits, h.ssm, fun _ _ => hs.1, fun _ _ => hs.2, fun hv => ?_⟩
    have := (h.noMatrix hv).1
    simp [hc] at this
  · exact h

/-- What a successful CONFIGURE commits (45_codec.md R244). -/
theorem planConfigure_ctx {fastone noicache auto : Bool} {k m opts shape : Word} {mat : Addr} {s : State}
    {p : Plan} (h : planConfigure fastone noicache auto k m opts shape mat s = .ok p) :
    ∃ c, p.ctx = some c ∧ c.Legal := by
  simp only [planConfigure, bind_eq_ok, check_eq_ok] at h
  obtain ⟨_, _, _, ⟨hk, _⟩, _, _, ⟨v, up⟩, hv, h⟩ := h
  have hk : 1 ≤ k.toNat := by
    rw [BitVec.toInt_eq_toNat_cond] at hk
    omega
  have hf := fits_of_selectVariant hv
  cases v with
  | classical =>
    simp only [bind_eq_ok] at h
    obtain ⟨_, _, mx, hm, h⟩ := h
    obtain rfl := Except.ok.inj h
    exact ⟨_, rfl, classicalContext_legal hk hf (shaped_codingMatrix hm)⟩
  | fft8 =>
    obtain rfl := Except.ok.inj h
    exact ⟨_, rfl, fftContext_legal nofun hk hf⟩
  | fft16 =>
    obtain rfl := Except.ok.inj h
    exact ⟨_, rfl, fftContext_legal nofun hk hf⟩

/-- Every context that a plan commits is legal. -/
theorem ctx_legal_of_plan {i : Instr} {s : State} {p : Plan} {c : Ctx} (h : planOf i s = .ok p)
    (hc : p.ctx = some c) : c.Legal := by
  cases hi : isConfigure i with
  | false => simp [(plan_commits h).ctx hi] at hc
  | true =>
    cases i
    case configure =>
      obtain ⟨d, hd, hl⟩ := planConfigure_ctx h
      obtain rfl := Option.some.inj (hc.symm.trans hd)
      exact hl
    all_goals cases hi

/-! ### The invariant -/

/-- A plan commits only legal contexts. -/
def Plan.ContextLegal (p : Plan) : Prop := ∀ c, p.ctx = some c → c.Legal

theorem contextLegal_iff {s : State} :
    s.ContextLegal ↔ s.ctx.Legal ∧ ∀ p, planInFlight s = some p → p.ContextLegal := by
  constructor
  · rintro ⟨hc, hp⟩
    refine ⟨hc, fun p h => ?_⟩
    obtain ⟨ws, rest, h⟩ := planInFlight_eq_some.mp h
    exact hp ws p rest h
  · exact fun ⟨hc, hp⟩ => ⟨hc, fun ws p rest h => hp p (planInFlight_eq_some.mpr ⟨ws, rest, h⟩)⟩

theorem unconfigured_legal : Ctx.unconfigured.Legal :=
  ⟨nofun, nofun, nofun, nofun, nofun, fun h => absurd rfl h⟩

theorem Plan.ContextLegal.getD {p : Plan} {c : Ctx} (h : p.ContextLegal) (hc : c.Legal) :
    (p.ctx.getD c).Legal := by
  cases hp : p.ctx with
  | none => exact hc
  | some d => exact h d hp

theorem Plan.ContextLegal.raced {p : Plan} (n : Nat) (h : p.ContextLegal) : (p.raced n).ContextLegal := by
  intro c hc
  obtain ⟨d, hd, rfl⟩ := Option.map_eq_some_iff.mp hc
  exact racedContext_legal n (h d hd)

theorem contextLegal_invariant : HeldInvariant (fun h => h.ctx.Legal) (fun _ p => p.ContextLegal) where
  planned _ hp _ hc := ctx_legal_of_plan hp hc
  commit h hp := hp.getD h
  raced n h hp := (hp.raced n).getD h
  advance h := h
  reset _ := unconfigured_legal
  write _ _ h hs := (congrArg Ctx.Legal hs.ctx).mpr h
  plan_congr _ h := h

/-- Settles O27: the shape is an invariant of the context and of what a plan commits. -/
theorem stepKeepsContextLegal : Obligations.StepKeepsContextLegal := by
  intro s t h hst
  rw [contextLegal_iff] at h ⊢
  exact contextLegal_invariant.step hst h.1 h.2

end Sys2Proof.Machine
end

section
/-! SUPPORT. The inversion cache (spec/10_state.md R53, spec/45_codec.md R245, R264): what a plan commits to it. -/

namespace Sys2Proof.Machine

/-! ### What a plan commits to the cache -/

/-- A plan with outputs commits the cache it is given. -/
theorem outputPlan_icache {s : State} {tab : Addr} {xs : List Slot} {outs : List Nat}
    {bytes : List (List Byte)} {extra : List ReadRange} {cache : Option (List CacheEntry)} {p : Plan}
    (h : outputPlan s tab xs outs bytes extra cache = .ok p) : p.icache = cache := by
  unfold outputPlan at h
  dsimp only at h
  split at h
  · obtain ⟨_, _, h⟩ := bind_eq_ok.mp h
    obtain ⟨_, rfl⟩ := guarded_eq_ok.mp h
    rfl
  · obtain ⟨_, rfl⟩ := guarded_eq_ok.mp h
    rfl

/-- A recovery finds nothing to do, or it is a plan with outputs, whose cache is that of the decoding matrix if it
needs one (45_codec.md R263, R264). -/
theorem planRecovery_cases {s : State} {tab : Addr} {xs : List Slot} {needed : List Nat}
    {extra : List ReadRange} {p : Plan} (h : planRecovery s tab xs needed extra = .ok p) :
    p = idlePlan s (reads tab.toNat (16 * shardCount s) :: extra)
    ∨ ∃ bytes cache, outputPlan s tab xs needed bytes extra cache = .ok p
        ∧ (cache = none ∨ ∃ d, decodingMatrix s (validSet s xs) = .ok (d, cache)) := by
  unfold planRecovery at h
  split at h
  · exact .inl (Except.ok.inj h).symm
  · right
    split at h
    · split at h
      · exact ⟨_, _, h, .inl rfl⟩
      · obtain ⟨dm, hd, h⟩ := bind_eq_ok.mp h
        exact ⟨_, _, h, .inr ⟨dm.1, hd⟩⟩
    · exact ⟨_, _, h, .inl rfl⟩

theorem isConfigure_of_movesArena {i : Instr} (h : movesArena i = true) : isConfigure i = false := by
  cases i
  case configure => cases h
  all_goals rfl

/-- The commands that both allocate and use the cache are the reconstructions (45_codec.md R265 to R267). -/
theorem planRecovery_of_plan {i : Instr} {s : State} {p : Plan} (hm : movesArena i = true)
    (hc : usesCache i = true) (h : planOf i s = .ok p) :
    ∃ tab xs needed extra, planRecovery s tab xs needed extra = .ok p := by
  cases i
  case recon | reconData =>
    simp only [planOf, planRecon, planReconData, planReconOf, bind_eq_ok] at h
    obtain ⟨_, _, xs, _, _, _, h⟩ := h
    exact ⟨_, xs, _, _, h⟩
  case reconSome =>
    simp only [planOf, planReconSome, bind_eq_ok] at h
    obtain ⟨_, _, _, _, xs, _, _, _, _, _, h⟩ := h
    exact ⟨_, xs, _, _, h⟩
  all_goals simp [movesArena, usesCache] at hm hc

/-! ### Correct caches -/

theorem cacheCorrect_nil (p : Params) (c : Ctx) : CacheCorrect p c [] := ⟨Nat.zero_le _, nofun⟩

theorem validSet_pairwise (s : State) (xs : List Slot) : (validSet s xs).Pairwise (· < ·) :=
  (List.pairwise_lt_range.filter _).take

theorem lt_of_mem_validSet {s : State} {xs : List Slot} {i : Nat} (h : i ∈ validSet s xs) :
    i < s.ctx.k + s.ctx.m :=
  List.mem_range.mp (List.mem_of_mem_filter (List.mem_of_mem_take h))

/-- The cache after an inversion holds the new entry and the newest of the old ones. -/
theorem decodingMatrix_cache {s : State} {xs : List Slot} {d : Matrix} {es : List CacheEntry}
    (hs : CacheCorrect s.params s.ctx s.icache) (h : decodingMatrix s (validSet s xs) = .ok (d, some es)) :
    CacheCorrect s.params s.ctx es := by
  unfold decodingMatrix at h
  split at h
  · cases h
  · split at h
    · cases h
    · rename_i d' hd
      have hc : cacheInsert s (validSet s xs) d' = some es := (Prod.mk.inj (Except.ok.inj h)).2
      unfold cacheInsert at hc
      split at hc
      · obtain rfl := Option.some.inj hc
        refine ⟨List.length_take_le _ _, fun e he => ?_⟩
        rcases List.mem_cons.mp (List.mem_of_mem_take he) with rfl | he
        · exact ⟨validSet s xs, validSet_pairwise s xs, fun _ => lt_of_mem_validSet, rfl, hd⟩
        · exact hs.2 e he
      · cases hc

/-- Every cache that a plan commits is correct under the context it commits, and a new context comes with an empty
cache (45_codec.md R244). -/
theorem icache_correct_of_plan {i : Instr} {s : State} {p : Plan} {es : List CacheEntry}
    (hs : CacheCorrect s.params s.ctx s.icache) (h : planOf i s = .ok p) (he : p.icache = some es) :
    es = [] ∨ p.ctx = none ∧ CacheCorrect s.params s.ctx es := by
  have hcommits := plan_commits h
  cases hc : usesCache i with
  | false => simp [hcommits.icache hc] at he
  | true =>
    cases hm : movesArena i with
    | false =>
      left
      cases i
      case icflush => obtain rfl := Except.ok.inj h; exact (Option.some.inj he).symm
      case configure =>
        obtain ⟨c, hctx, _⟩ := planConfigure_ctx h
        exact (Option.some.inj ((hcommits.configured c hctx).symm.trans he)).symm
      all_goals simp [movesArena, usesCache] at hm hc
    | true =>
      have hctx : p.ctx = none := hcommits.ctx (isConfigure_of_movesArena hm)
      obtain ⟨tab, xs, needed, extra, h⟩ := planRecovery_of_plan hm hc h
      obtain rfl | ⟨bytes, cache, h, hcache⟩ := planRecovery_cases h
      · cases he
      · obtain rfl := (outputPlan_icache h).symm.trans he
        rcases hcache with hnone | ⟨d, hd⟩
        · cases hnone
        · exact .inr ⟨hctx, decodingMatrix_cache hs hd⟩

/-! ### The invariant -/

/-- The cache of the held state is correct. -/
def Held.CacheCorrect (h : Held) : Prop := Machine.CacheCorrect h.params h.ctx h.icache

/-- A plan commits a correct cache, and an empty one with a new context. -/
def Plan.CacheCorrect (h : Held) (p : Plan) : Prop :=
  (h.commit p).CacheCorrect ∧ ∀ c, p.ctx = some c → p.icache = some []

theorem cacheLegal_iff {s : State} :
    s.CacheLegal ↔ (held s).CacheCorrect ∧ ∀ p, planInFlight s = some p → p.CacheCorrect (held s) := by
  constructor
  · rintro ⟨hc, hp⟩
    refine ⟨hc, fun p h => ?_⟩
    obtain ⟨ws, rest, h⟩ := planInFlight_eq_some.mp h
    exact hp ws p rest h
  · exact fun ⟨hc, hp⟩ => ⟨hc, fun ws p rest h => hp p (planInFlight_eq_some.mpr ⟨ws, rest, h⟩)⟩

theorem cacheCorrect_of_plan {i : Instr} {s : State} {p : Plan} (hs : (held s).CacheCorrect)
    (h : planOf i s = .ok p) : p.CacheCorrect (held s) := by
  refine ⟨?_, (plan_commits h).configured⟩
  unfold Held.CacheCorrect Held.commit
  cases he : p.icache with
  | none =>
    have hctx : p.ctx = none := Option.eq_none_iff_forall_ne_some.mpr fun c hc => by
      simp [(plan_commits h).configured c hc] at he
    rw [hctx]
    exact hs
  | some es =>
    obtain rfl | ⟨hctx, hes⟩ := icache_correct_of_plan hs h he
    · exact cacheCorrect_nil ..
    · rw [hctx]
      exact hes

/-- A race changes the context that is committed, and then the cache is empty. -/
theorem Plan.CacheCorrect.raced {h : Held} {p : Plan} (n : Nat) (hp : p.CacheCorrect h) :
    (h.commit (p.raced n)).CacheCorrect := by
  unfold Held.CacheCorrect Held.commit Plan.raced
  cases hc : p.ctx with
  | none =>
    have := hp.1
    rwa [Held.CacheCorrect, Held.commit, hc] at this
  | some c =>
    rw [hp.2 c hc]
    exact cacheCorrect_nil ..

theorem cacheCorrect_invariant : HeldInvariant Held.CacheCorrect fun h p => p.CacheCorrect h where
  planned := cacheCorrect_of_plan
  commit _ hp := hp.1
  raced n _ hp := hp.raced n
  advance h := h
  reset _ := cacheCorrect_nil ..
  write _ _ h hs := by
    simpa only [Held.CacheCorrect, held, hs.params, hs.ctx, hs.icache] using h
  plan_congr hs h := by
    simpa only [Plan.CacheCorrect, Held.CacheCorrect, Held.commit, held, hs.params, hs.ctx, hs.icache] using h

/-- Settles O28: a cache entry is new and computed from the context, or old; a new context empties the cache. -/
theorem stepKeepsCacheCorrect : Obligations.StepKeepsCacheCorrect := by
  intro s t h hst
  rw [cacheLegal_iff] at h ⊢
  exact cacheCorrect_invariant.step hst h.1 h.2

end Sys2Proof.Machine
end

section
/-! SUPPORT. The registers with a legal range (spec/10_state.md R36 to R44): what a host write stores in the halves of
a 64-bit register, how the arena pointer moves, and that every value stays legal. -/

namespace Sys2Proof.Machine

/-! ### The halves of a 64-bit register (10_state.md R36, R40 to R42) -/

@[simp] theorem lowWord_append (h l : Word) : lowWord (h ++ l) = l := BitVec.extractLsb'_append_eq_right

@[simp] theorem highWord_append (h l : Word) : highWord (h ++ l) = h := BitVec.extractLsb'_append_eq_left

@[simp] theorem lowWord_setLow (a : Addr) (v : Word) : lowWord (setLow a v) = v &&& 0xFFFFFFC0 :=
  lowWord_append ..

@[simp] theorem highWord_setLow (a : Addr) (v : Word) : highWord (setLow a v) = highWord a := highWord_append ..

@[simp] theorem lowWord_setHigh (a : Addr) (v : Word) : lowWord (setHigh a v) = lowWord a := lowWord_append ..

@[simp] theorem highWord_setHigh (a : Addr) (v : Word) : highWord (setHigh a v) = v := highWord_append ..

/-- Whether an address is aligned is in its low word. -/
theorem toNat_mod_64 (a : Addr) : a.toNat % 64 = (lowWord a).toNat % 64 := by
  simp only [lowWord, BitVec.extractLsb'_toNat, Nat.shiftRight_zero]
  omega

theorem toNat_masked_mod_64 (v : Word) : (v &&& 0xFFFFFFC0).toNat % 64 = 0 := by
  have h : (v &&& 0xFFFFFFC0).setWidth 6 = 0 := by
    rw [BitVec.setWidth_and]
    exact BitVec.and_zero
  exact congrArg BitVec.toNat h

theorem setLow_aligned (a : Addr) (v : Word) : (setLow a v).toNat % 64 = 0 := by
  rw [toNat_mod_64, lowWord_setLow, toNat_masked_mod_64]

theorem setHigh_aligned {a : Addr} (v : Word) (h : a.toNat % 64 = 0) : (setHigh a v).toNat % 64 = 0 := by
  rw [toNat_mod_64, lowWord_setHigh, ← toNat_mod_64, h]

/-! ### How the arena pointer moves (20_memory.md R77) -/

theorem ofNat_aligned {n : Nat} (h : n % 64 = 0) : (BitVec.ofNat 64 n).toNat % 64 = 0 := by
  rw [BitVec.toNat_ofNat]
  omega

theorem roundup64_aligned (n : Nat) : roundup64 n % 64 = 0 := Nat.mul_mod_left ..

theorem allocAddr_aligned {s : State} (h : s.scrNext.toNat % 64 = 0) (size i : Nat) :
    allocAddr s size i % 64 = 0 := by
  have := Nat.mul_mod i (roundup64 size) 64
  rw [roundup64_aligned] at this
  unfold allocAddr
  omega

theorem placeOutputs_aligned (xs : List Slot) (size : Nat) (outs : List Nat) {next : Nat} (h : next % 64 = 0) :
    (placeOutputs xs size outs next).2 % 64 = 0 := by
  induction outs generalizing next with
  | nil => exact h
  | cons i is ih =>
    simp only [placeOutputs]
    split
    · exact ih h
    · split
      · exact ih h
      · have := roundup64_aligned size
        exact ih (by omega)

/-- A plan moves the arena pointer to aligned addresses only. -/
def Plan.ArenaAligned (p : Plan) : Prop := ∀ a, p.scrNext = some a → a.toNat % 64 = 0

theorem outputPlan_aligned {s : State} {tab : Addr} {xs : List Slot} {outs : List Nat}
    {bytes : List (List Byte)} {extra : List ReadRange} {cache : Option (List CacheEntry)} {p : Plan}
    (hs : s.scrNext.toNat % 64 = 0) (h : outputPlan s tab xs outs bytes extra cache = .ok p) :
    p.ArenaAligned := by
  unfold outputPlan at h
  dsimp only at h
  split at h
  · obtain ⟨_, _, h⟩ := bind_eq_ok.mp h
    obtain ⟨_, rfl⟩ := guarded_eq_ok.mp h
    intro a ha
    obtain rfl := Option.some.inj ha
    exact ofNat_aligned (placeOutputs_aligned _ _ _ hs)
  · obtain ⟨_, rfl⟩ := guarded_eq_ok.mp h
    exact nofun

theorem planAlloc_aligned {n len : Word} {tab : Addr} {s : State} {p : Plan} (hs : s.scrNext.toNat % 64 = 0)
    (h : planAlloc n len tab s = .ok p) : p.ArenaAligned := by
  have key : ∀ q : Plan, q.guarded = .ok p → q.scrNext = some (BitVec.ofNat 64 (allocAddr s len.toNat n.toNat)) →
      p.ArenaAligned := by
    intro q hq hn a ha
    obtain ⟨_, rfl⟩ := guarded_eq_ok.mp hq
    obtain rfl := Option.some.inj (hn.symm.trans ha)
    exact ofNat_aligned (allocAddr_aligned hs _ _)
  simp only [planAlloc, bind_eq_ok] at h
  obtain ⟨_, _, h⟩ := h
  split at h
  · obtain ⟨_, _, h⟩ := bind_eq_ok.mp h
    exact key _ h rfl
  · exact key _ h rfl

theorem arenaAligned_of_plan {i : Instr} {s : State} {p : Plan} (hb : s.scrBase.toNat % 64 = 0)
    (hn : s.scrNext.toNat % 64 = 0) (h : planOf i s = .ok p) : p.ArenaAligned := by
  cases hm : movesArena i with
  | false => simp [Plan.ArenaAligned, (plan_commits h).scrNext hm]
  | true =>
    cases hc : usesCache i with
    | true =>
      obtain ⟨tab, xs, needed, extra, h⟩ := planRecovery_of_plan hm hc h
      obtain rfl | ⟨bytes, cache, h, _⟩ := planRecovery_cases h
      · exact nofun
      · exact outputPlan_aligned hn h
    | false =>
      cases i
      case alloc => exact planAlloc_aligned hn h
      case areset =>
        obtain rfl := Except.ok.inj h
        exact fun a ha => Option.some.inj ha ▸ hb
      case encode =>
        simp only [planOf, planEncode, bind_eq_ok] at h
        obtain ⟨_, _, _, _, _, _, h⟩ := h
        exact outputPlan_aligned hn h
      all_goals simp [movesArena, usesCache] at hm hc

/-! ### The invariant -/

/-- The registers of the held state are legal. -/
structure Held.RegistersLegal (h : Held) : Prop where
  params : h.params.legal
  size : h.cqSizeLog2.toNat ≤ 16
  head : h.cqHead.toNat < 2 ^ h.cqSizeLog2.toNat
  tail : h.cqTail.toNat < 2 ^ h.cqSizeLog2.toNat
  cqBase : h.cqBase.toNat % 64 = 0
  scrBase : h.scrBase.toNat % 64 = 0
  scrLimit : h.scrLimit.toNat % 64 = 0
  scrNext : h.scrNext.toNat % 64 = 0
  minsplit : h.schedMinsplit ≠ 0

theorem registersLegal_iff {s : State} :
    s.RegistersLegal ↔ (held s).RegistersLegal ∧ ∀ p, planInFlight s = some p → p.ArenaAligned := by
  constructor
  · rintro ⟨params, size, head, tail, cqBase, scrBase, scrLimit, scrNext, minsplit, planned⟩
    refine ⟨⟨params, size, head, tail, cqBase, scrBase, scrLimit, scrNext, minsplit⟩, fun p h => ?_⟩
    obtain ⟨ws, rest, h⟩ := planInFlight_eq_some.mp h
    exact planned ws p rest h
  · rintro ⟨⟨params, size, head, tail, cqBase, scrBase, scrLimit, scrNext, minsplit⟩, planned⟩
    exact ⟨params, size, head, tail, cqBase, scrBase, scrLimit, scrNext, minsplit,
      fun ws p rest h => planned p (planInFlight_eq_some.mpr ⟨ws, rest, h⟩)⟩

/-- An index reduced modulo a legal ring size fits its register (10_state.md R37). -/
theorem toNat_ofNat_mod_ring {n : Nat} (h : n ≤ 16) (x : Nat) :
    (BitVec.ofNat 16 (x % 2 ^ n)).toNat = x % 2 ^ n := by
  rw [BitVec.toNat_ofNat]
  refine Nat.mod_eq_of_lt (lt_of_lt_of_le (Nat.mod_lt _ (Nat.two_pow_pos n)) ?_)
  exact Nat.pow_le_pow_right (by omega) h

theorem ofNat_mod_ring_lt {n : Nat} (h : n ≤ 16) (x : Nat) : (BitVec.ofNat 16 (x % 2 ^ n)).toNat < 2 ^ n := by
  rw [toNat_ofNat_mod_ring h]
  exact Nat.mod_lt _ (Nat.two_pow_pos n)

theorem freeMinsplit_ne_zero (c : Nat) : freeMinsplit c ≠ 0 := by
  unfold freeMinsplit
  dsimp only
  split
  · decide
  · assumption

namespace Held.RegistersLegal

theorem commit {h : Held} {p : Plan} (hr : h.RegistersLegal) (hp : p.ArenaAligned) :
    (h.commit p).RegistersLegal := by
  refine { hr with scrNext := ?_ }
  unfold Held.commit
  cases hn : p.scrNext with
  | none => exact hr.scrNext
  | some a => exact hp a hn

theorem advance {h : Held} (hr : h.RegistersLegal) : h.advance.RegistersLegal :=
  { hr with head := ofNat_mod_ring_lt hr.size _ }

theorem reset {s : State} (hr : (held s).RegistersLegal) : (held (resetMachine s)).RegistersLegal where
  params := hr.params
  size := Nat.zero_le _
  head := Nat.two_pow_pos _
  tail := Nat.two_pow_pos _
  cqBase := rfl
  scrBase := rfl
  scrLimit := rfl
  scrNext := rfl
  minsplit := (by decide : State.reset.schedMinsplit ≠ 0)

theorem restartRing {s : State} {b : Addr} {l : BitVec 5} (hr : (held s).RegistersLegal) (hb : b.toNat % 64 = 0)
    (hl : l.toNat ≤ 16) : (held (Machine.restartRing { s with cqBase := b, cqSizeLog2 := l })).RegistersLegal :=
  { hr with cqBase := hb, size := hl, head := Nat.two_pow_pos _, tail := Nat.two_pow_pos _ }

theorem writeAuto {s : State} (v : Word) (hr : (held s).RegistersLegal) :
    (held (Machine.writeAuto v s)).RegistersLegal := by
  unfold Machine.writeAuto
  dsimp only
  split
  · rename_i h
    refine { hr with minsplit := fun h0 => ?_ }
    have h0 : autoMinsplit s v.toNat = 0 := by
      have := congrArg BitVec.toNat h0
      rwa [held, BitVec.toNat_ofNat, Nat.mod_eq_of_lt h] at this
    have : 64 ≤ autoMinsplit s v.toNat := Nat.le_max_left ..
    omega
  · exact { hr with minsplit := freeMinsplit_ne_zero _ }

/-- A host write of a register keeps every register legal. -/
theorem writeReg {s : State} (off : Nat) (v : Word) (hr : (held s).RegistersLegal) :
    (held (Machine.writeReg off v s)).RegistersLegal := by
  unfold Machine.writeReg
  have gate : ∀ {f : State}, (held f).RegistersLegal → (held (gated s f)).RegistersLegal :=
    fun hf => gated_induction (motive := fun t => (held t).RegistersLegal) hr hf
  split
  case h_1 =>
    unfold writeCtrl
    split
    · exact hr.reset
    · dsimp only; split <;> exact hr
  case h_2 | h_3 | h_4 | h_19 => exact hr
  case h_5 => exact gate (hr.restartRing (setLow_aligned ..) hr.size)
  case h_6 => exact gate (hr.restartRing (setHigh_aligned v hr.cqBase) hr.size)
  case h_7 =>
    refine gate (hr.restartRing hr.cqBase ?_)
    rw [BitVec.toNat_ofNat]
    omega
  case h_8 => exact { hr with tail := ofNat_mod_ring_lt hr.size _ }
  case h_9 => exact gate { hr with scrBase := setLow_aligned .. }
  case h_10 => exact gate { hr with scrBase := setHigh_aligned v hr.scrBase }
  case h_11 => exact gate { hr with scrLimit := setLow_aligned .. }
  case h_12 => exact gate { hr with scrLimit := setHigh_aligned v hr.scrLimit }
  case h_13 => exact gate { hr with scrNext := setLow_aligned .. }
  case h_14 => exact gate { hr with scrNext := setHigh_aligned v hr.scrNext }
  case h_15 => exact gate hr
  case h_16 =>
    refine gate { hr with minsplit := ?_ }
    dsimp only [held]
    split
    · decide
    · assumption
  case h_17 => exact gate (hr.writeAuto v)
  case h_18 => exact gate hr

end Held.RegistersLegal

theorem registersLegal_invariant : HeldInvariant Held.RegistersLegal fun _ p => p.ArenaAligned where
  planned hr h := arenaAligned_of_plan hr.scrBase hr.scrNext h
  commit hr hp := hr.commit hp
  raced _ hr hp := hr.commit hp
  advance hr := hr.advance
  reset hr := hr.reset
  write off v hr _ := hr.writeReg off v
  plan_congr _ h := h

/-- Settles O26: legal registers, with every plan in flight moving the arena pointer to an aligned address, are kept
by every turn. -/
theorem stepKeepsRegistersLegal : Obligations.StepKeepsRegistersLegal := by
  intro s t h hst
  rw [registersLegal_iff] at h ⊢
  exact registersLegal_invariant.step hst h.1 h.2

end Sys2Proof.Machine
end

section
/-! SUPPORT. Reading and writing single registers (spec/10_state.md R24 to R49). -/

namespace Sys2Proof.Machine

/-! ### Gated registers (R49) -/

theorem gateOpen_eq_false_iff (s : State) : gateOpen s = false ↔ s.ctrlEn = true ∨ busy s = true := by
  cases hc : s.ctrlEn <;> simp [gateOpen, hc]

theorem gateOpen_of_idle {s : State} (he : s.ctrlEn = false) (hb : busy s = false) : gateOpen s = true := by
  simp [gateOpen, he, hb]

theorem gated_of_closed {s : State} (h : gateOpen s = false) (f : State) : gated s f = s := by simp [gated, h]

theorem gated_of_open {s : State} (h : gateOpen s = true) (f : State) : gated s f = f := by simp [gated, h]

/-- The registers that take a write only with the gate open (R49). -/
def gatedOffsets : List Nat :=
  [0x030, 0x034, 0x038, 0x050, 0x054, 0x058, 0x05C, 0x060, 0x064, 0x070, 0x074, 0x078, 0x07C]

theorem writeReg_gated {off : Nat} (h : off ∈ gatedOffsets) (v : Word) (s : State) :
    ∃ f, writeReg off v s = gated s f := by
  simp only [gatedOffsets, List.mem_cons, List.not_mem_nil, or_false] at h
  rcases h with rfl | rfl | rfl | rfl | rfl | rfl | rfl | rfl | rfl | rfl | rfl | rfl | rfl <;> exact ⟨_, rfl⟩

/-- A field that is narrower than its register reads back masked. -/
theorem setWidth_setWidth_mask {n : Nat} (v : Word) (h : n ≤ 32) :
    (v.setWidth n).setWidth 32 = v &&& BitVec.ofNat 32 (2 ^ n - 1) := by
  apply BitVec.eq_of_toNat_eq
  have hp : 2 ^ n ≤ 2 ^ 32 := Nat.pow_le_pow_right (by omega) h
  have h1 : 2 ^ n - 1 < 2 ^ 32 := by have := Nat.two_pow_pos n; omega
  rw [BitVec.toNat_and, BitVec.toNat_ofNat, Nat.mod_eq_of_lt h1, Nat.and_two_pow_sub_one_eq_mod,
    BitVec.toNat_setWidth, BitVec.toNat_setWidth]
  exact Nat.mod_eq_of_lt (lt_of_lt_of_le (Nat.mod_lt _ (Nat.two_pow_pos n)) hp)

/-- Settles O17: every gated write goes through `gated`, and an open gate makes it. -/
theorem gatedRegisterWrites : Obligations.GatedRegisterWrites := by
  refine fun s v => ⟨fun off hoff hclosed => ?_, fun he hb => ?_⟩
  · obtain ⟨f, hf⟩ := writeReg_gated hoff v s
    rw [hf, gated_of_closed ((gateOpen_eq_false_iff s).mpr hclosed)]
  · have hopen := gated_of_open (gateOpen_of_idle he hb)
    simp only [writeReg, hopen, readReg, lowWord_setLow, highWord_setHigh, true_and]
    exact ⟨setWidth_setWidth_mask v (by omega), setWidth_setWidth_mask v (by omega)⟩

/-! ### The ring (R36, R37, R39) -/

/-- Settles O18: the geometry writes restart the ring, and the doorbell reduces the index by the ring size. -/
theorem ringRegisterWrites : Obligations.RingRegisterWrites := by
  refine ⟨fun s v he hb => ?_, fun s v hs => ⟨?_, rfl, fun x hx => List.mem_of_mem_filter hx⟩⟩
  · have hopen := gated_of_open (gateOpen_of_idle he hb)
    simp only [writeReg, hopen, readReg, restartRing, lowWord_setLow, highWord_setLow, lowWord_setHigh,
      highWord_setHigh, and_self, true_and, and_true]
    rw [BitVec.toNat_ofNat]
    omega
  · exact toNat_ofNat_mod_ring hs _

/-! ### Computed registers (R26, R28, R47, R48) -/

theorem variant_number_lt (v : Variant) : v.number < 3 := by cases v <;> decide

theorem kind_number_lt (k : Kind) : k.number < 5 := by cases k <;> decide

/-- Bit `i` of a register is a flag, if the flag is the number's binary digit there. -/
theorem getLsbD_ofNat_flag {n i : Nat} {b : Bool} (hi : i < 32) (h : n / 2 ^ i % 2 = b.toNat) :
    (BitVec.ofNat 32 n).getLsbD i = b := by
  rw [BitVec.getLsbD_ofNat, Nat.testBit_eq_decide_div_mod_eq, h]
  cases b <;> simp [hi]

theorem toNat_ofNat_of_lt {n : Nat} (h : n < 2 ^ 32) : (BitVec.ofNat 32 n).toNat = n := by
  rw [BitVec.toNat_ofNat, Nat.mod_eq_of_lt h]

/-- The fields of STATUS (R28). -/
theorem statusValue_fields (s : State) :
    (statusValue s).getLsbD 0 = busy s ∧ (statusValue s).getLsbD 1 = s.halted
    ∧ (statusValue s).getLsbD 2 = s.ctx.valid
    ∧ ((statusValue s).toNat / 8 % 4 = if s.ctx.valid then s.ctx.variant.number else 0)
    ∧ (statusValue s).getLsbD 5 = decide (s.cqHead = s.cqTail) ∧ (statusValue s).toNat < 64 := by
  have hv : (if s.ctx.valid then s.ctx.variant.number else 0) < 3 := by
    split
    · exact variant_number_lt _
    · omega
  have h0 := Bool.toNat_le (busy s)
  have h1 := Bool.toNat_le s.halted
  have h2 := Bool.toNat_le s.ctx.valid
  have h5 := Bool.toNat_le (decide (s.cqHead = s.cqTail))
  unfold statusValue
  rw [toNat_ofNat_of_lt (by omega)]
  refine ⟨getLsbD_ofNat_flag ?_ ?_, getLsbD_ofNat_flag ?_ ?_, getLsbD_ofNat_flag ?_ ?_, ?_,
    getLsbD_ofNat_flag ?_ ?_, ?_⟩
  all_goals omega

/-- The kind field of CFG_OPTS: 0 for an FFT variant (R48). -/
def kindField (c : Ctx) : Nat := if c.variant = .classical then c.kind.number else 0

theorem optsValue_eq (c : Ctx) : optsValue c = kindField c
    + 2 ^ 4 * c.variant.number + 2 ^ 8 * c.fastone.toNat + 2 ^ 9 * c.icache.toNat + 2 ^ 10 * c.upgraded.toNat := by
  unfold optsValue kindField
  cases c.variant <;> rfl

theorem kindField_lt (c : Ctx) : kindField c < 5 := by
  unfold kindField
  split
  · exact kind_number_lt _
  · omega

/-- The fields of CFG_OPTS (R48). -/
theorem optsValue_fields (c : Ctx) :
    ((BitVec.ofNat 32 (optsValue c)).toNat % 16 = if c.variant = .classical then c.kind.number else 0)
    ∧ (BitVec.ofNat 32 (optsValue c)).toNat / 16 % 4 = c.variant.number
    ∧ (BitVec.ofNat 32 (optsValue c)).toNat / 64 % 4 = 0
    ∧ (BitVec.ofNat 32 (optsValue c)).getLsbD 8 = c.fastone ∧ (BitVec.ofNat 32 (optsValue c)).getLsbD 9 = c.icache
    ∧ (BitVec.ofNat 32 (optsValue c)).getLsbD 10 = c.upgraded ∧ (BitVec.ofNat 32 (optsValue c)).toNat < 2 ^ 11 := by
  have hk := kindField_lt c
  have hv := variant_number_lt c.variant
  have h8 := Bool.toNat_le c.fastone
  have h9 := Bool.toNat_le c.icache
  have h10 := Bool.toNat_le c.upgraded
  rw [← kindField, optsValue_eq, toNat_ofNat_of_lt (by omega)]
  refine ⟨?_, ?_, ?_, getLsbD_ofNat_flag ?_ ?_, getLsbD_ofNat_flag ?_ ?_, getLsbD_ofNat_flag ?_ ?_, ?_⟩
  all_goals omega

/-- The fields of HWCFG (R26). -/
theorem hwcfgValue_fields {s : State} (h : s.params.legal) :
    (hwcfgValue s).toNat % 256 = s.params.numWorkers ∧ (hwcfgValue s).toNat / 256 % 256 = s.params.cacheEntries
    ∧ (hwcfgValue s).getLsbD 16 = true ∧ (hwcfgValue s).getLsbD 17 = true ∧ (hwcfgValue s).toNat < 2 ^ 18 := by
  obtain ⟨_, hw, hc, _⟩ := h
  unfold hwcfgValue
  rw [Nat.mod_eq_of_lt (by omega : s.params.numWorkers < 256),
    Nat.mod_eq_of_lt (by omega : s.params.cacheEntries < 256), toNat_ofNat_of_lt (by omega)]
  have ht : true.toNat = 1 := rfl
  refine ⟨?_, ?_, getLsbD_ofNat_flag ?_ ?_, getLsbD_ofNat_flag ?_ ?_, ?_⟩
  all_goals omega

theorem configValue_of_invalid {s : State} (h : s.ctx.valid = false) (v : Nat) : configValue s v = 0 := by
  simp [configValue, h]

theorem configValue_of_valid {s : State} (h : s.ctx.valid = true) (v : Nat) :
    configValue s v = BitVec.ofNat 32 v := by simp [configValue, h]

/-- Settles O21: each computed register is a sum of fields that do not overlap. -/
theorem statusAndConfigReads : Obligations.StatusAndConfigReads := by
  intro s
  obtain ⟨hbusy, hhalted, hvalid, hvariant, hempty, hlt⟩ := statusValue_fields s
  refine ⟨hbusy, hhalted, hvalid, hvariant, ?_, hlt, fun hv off hoff => ?_, fun hv => ?_, hwcfgValue_fields⟩
  · exact (Bool.eq_iff_iff.mp hempty).trans decide_eq_true_iff
  · simp only [List.mem_cons, List.not_mem_nil, or_false] at hoff
    rcases hoff with rfl | rfl | rfl | rfl | rfl <;> exact configValue_of_invalid hv _
  · simp only [readReg, configValue_of_valid hv, true_and]
    exact optsValue_fields s.ctx

/-! ### Host accesses to the register block (R24) -/

/-- Every reserved offset reads 0 (R24). -/
theorem readReg_reserved {off : Nat} (h : off = 0x02C ∨ (0x044 ≤ off ∧ off ≤ 0x04C)
    ∨ (0x068 ≤ off ∧ off ≤ 0x06C) ∨ (0x094 ≤ off ∧ off ≤ 0x0FF)) (s : State) : readReg off s = 0 := by
  unfold readReg
  split
  case h_31 => rfl
  all_goals omega

/-- Every reserved offset ignores a write (R24). -/
theorem writeReg_reserved {off : Nat} (h : off = 0x02C ∨ (0x044 ≤ off ∧ off ≤ 0x04C)
    ∨ (0x068 ≤ off ∧ off ≤ 0x06C) ∨ (0x094 ≤ off ∧ off ≤ 0x0FF)) (v : Word) (s : State) :
    writeReg off v s = s := by
  unfold writeReg
  split
  case h_19 => rfl
  all_goals omega

theorem writeReg_readOnly {off : Nat}
    (h : off ∈ [0x000, 0x004, 0x00C, 0x014, 0x018, 0x024, 0x028, 0x03C, 0x080, 0x084, 0x088, 0x08C, 0x090])
    (v : Word) (s : State) : writeReg off v s = s := by
  simp only [List.mem_cons, List.not_mem_nil, or_false] at h
  rcases h with rfl | rfl | rfl | rfl | rfl | rfl | rfl | rfl | rfl | rfl | rfl | rfl | rfl <;> rfl

/-- Settles O22: what an access that shares a byte with the block reaches is settled by its length and alignment. -/
theorem registerBlockAccess : Obligations.RegisterBlockAccess := by
  intro s a n bs hn hblock
  have hblock : (extent a.toNat n).overlaps (registerBlock s) = true := by simpa using hblock
  subst hn
  refine ⟨fun h4 hle hal => ?_, fun hother => ?_,
    fun off hoff v => ⟨readReg_reserved hoff s, writeReg_reserved hoff v s⟩,
    fun off hoff v => writeReg_readOnly hoff v s, rfl⟩
  · have ht : hostTarget a.toNat bs.length s = .register (a.toNat - s.params.mmioBase.toNat) := by
      unfold hostTarget
      rw [if_pos hblock, if_pos ⟨h4, hle, hal⟩]
    simp [turn, hostLoad, hostStore, ht]
  · have ht : hostTarget a.toNat bs.length s = .ignored := by
      unfold hostTarget
      rw [if_pos hblock, if_neg]
      omega
    simp [turn, hostLoad, hostStore, ht]

end Sys2Proof.Machine
end

section
/-! SUPPORT. Host memory under single fields and under whole steps (spec/20_memory.md R71): what a field write does to
every byte, and that every step keeps the canonical form (log 2). -/

namespace Sys2Proof.Machine

/-! ### Bytes outside ranges -/

theorem SameOutside.trans {xs : List Extent} {m m' m'' : Memory} (h : SameOutside xs m m')
    (h' : SameOutside xs m' m'') : SameOutside xs m m'' := fun a ha => (h' a ha).trans (h a ha)

theorem SameOutside.mono {xs ys : List Extent} {m m' : Memory} (h : SameOutside xs m m') (hs : xs ⊆ ys) :
    SameOutside ys m m' := fun a ha => h a fun x hx => ha x (hs hx)

theorem Extent.contains_eq_false {x : Extent} {a : Nat} :
    x.contains a = false ↔ a < x.lo ∨ x.lo + x.len ≤ a := by
  simp only [Extent.contains, decide_eq_false_iff_not]
  omega

theorem Memory.sameOutside_writeBytes (m : Memory) (a : Nat) (bs : List Byte) :
    SameOutside [extent a bs.length] m (m.writeBytes a bs) := fun _ hx =>
  Memory.read_writeBytes_other (Extent.contains_eq_false.mp (hx _ (List.mem_singleton.mpr rfl)))

/-! ### Fields (R71) -/

/-- Byte `j` of a number. -/
theorem toNat_getD_bytesOfNat {n j : Nat} (h : j < n) (v : Nat) :
    ((bytesOfNat n v).getD j 0).toNat = v / 2 ^ (8 * j) % 256 := by
  induction n generalizing j v with
  | zero => omega
  | succ n ih =>
    cases j with
    | zero => simp [bytesOfNat]
    | succ j =>
      have hp : 2 ^ (8 * (j + 1)) = 256 * 2 ^ (8 * j) := by
        rw [show 8 * (j + 1) = 8 + 8 * j by omega, Nat.pow_add]
      rw [bytesOfNat, List.getD_cons_succ, ih (by omega), hp, Nat.div_div_eq_div_mul]

/-- Byte `j` of a field that was written. -/
theorem Memory.toNat_read_writeNat {m : Memory} {a n v j : Nat} (hj : j < n) (ha : a + j < 2 ^ 64) :
    ((m.writeNat a n v).read (a + j)).toNat = v / 2 ^ (8 * j) % 256 := by
  rw [Memory.writeNat, Memory.read_writeBytes,
    if_pos ⟨Nat.le_add_right a j, by rw [length_bytesOfNat]; omega⟩, if_pos ha, Nat.add_sub_cancel_left]
  exact toNat_getD_bytesOfNat hj v

/-- A field read after it was written. -/
theorem Memory.readNat_writeNat {m : Memory} {a n : Nat} (h : a + n ≤ 2 ^ 64) (v : Nat) :
    (m.writeNat a n v).readNat a n = v % 2 ^ (8 * n) := by
  have hr := Memory.readBytes_writeBytes m a (bytesOfNat n v) (by rwa [length_bytesOfNat])
  rw [length_bytesOfNat] at hr
  rw [Memory.readNat, Memory.writeNat, hr, natOfBytes_bytesOfNat]

theorem Memory.sameOutside_writeNat (m : Memory) (a n v : Nat) :
    SameOutside [extent a n] m (m.writeNat a n v) := by
  have h := m.sameOutside_writeBytes a (bytesOfNat n v)
  rwa [length_bytesOfNat] at h

/-- Settles O24: a field is the bytes of its value, written and read as one range. -/
theorem littleEndianFields : Obligations.LittleEndianFields := fun m a n v h =>
  ⟨Memory.readNat_writeNat h v, fun _ hj => Memory.toNat_read_writeNat hj (by omega), m.sameOutside_writeNat a n v⟩

/-! ### The memory of each operation -/

@[simp] theorem completeRegisters_mem (opc : BitVec 8) (q : Bool) (e : Option Err) (v : Word) (s : State) :
    (completeRegisters opc q e v s).mem = s.mem := by
  cases e <;> simp [completeRegisters]

@[simp] theorem refusedRegisters_mem (opc : BitVec 8) (q : Bool) (v : Word) (s : State) :
    (refusedRegisters opc q v s).mem = s.mem := by simp [refusedRegisters]

@[simp] theorem fetchFault_mem (s : State) : (fetchFault s).mem = s.mem := by simp [fetchFault]

@[simp] theorem afterFetch_mem (s : State) : (afterFetch s).mem = s.mem := by
  unfold afterFetch; split <;> rfl

@[simp] theorem fetch_mem (s : State) : (fetch s).mem = s.mem := afterFetch_mem s

@[simp] theorem reportRegisters_mem (r : Report) (s : State) : (reportRegisters r s).mem = s.mem :=
  completeRegisters_mem ..

@[simp] theorem racedCommit_mem (e : Option Err) (p : Plan) (s : State) : (racedCommit e p s).mem = s.mem := by
  obtain ⟨_, _, h⟩ | ⟨_, _, h⟩ | ⟨_, h⟩ := racedCommit_cases e p s <;> rw [h] <;> rfl

/-! ### Canonical memory -/

theorem workStripe_wf {s : State} (h : s.mem.wf) (p : Plan) (x : Stripe) : (workStripe p x s).mem.wf := by
  unfold workStripe
  split
  · exact Memory.wf_putAll h _
  · exact h

theorem workAll_wf {s : State} (h : s.mem.wf) (p : Plan) (xs : List Stripe) : (workAll p xs s).mem.wf := by
  induction xs generalizing s with
  | nil => exact h
  | cons x xs ih => exact ih (workStripe_wf h p x)

theorem racedEnding_wf {s : State} (h : s.mem.wf) (i : Instr) (v : Except Err Plan) :
    (racedEnding i v s).state.mem.wf := by
  have hh := havoc_wf (s := { s with free := s.free + 3 }) h (commandWrites i v s)
  cases v with
  | error e => exact hh
  | ok p => simpa [racedEnding] using hh

theorem errorEnding_wf {s : State} (h : s.mem.wf) (i : Instr) (e : Err) : (errorEnding i e s).state.mem.wf := by
  unfold errorEnding
  split
  · exact racedEnding_wf h i _
  · exact h

theorem workEnding_wf {s : State} (h : s.mem.wf) (i : Instr) (p : Plan) : (workEnding i p s).state.mem.wf := by
  unfold workEnding
  split
  · exact racedEnding_wf h i _
  · split
    · exact Memory.wf_putAll h _
    · exact havoc_wf (s := commitRegisters p s) h _

theorem lateRace_wf {s : State} (h : s.mem.wf) (r : Report) : (lateRace r s).2.mem.wf := by
  unfold lateRace
  split
  · exact havoc_wf (s := { s with free := s.free + 2 }) h _
  · exact h

theorem reportW15_wf {s : State} (h : s.mem.wf) (r : Report) : (reportW15 r s).mem.wf :=
  Memory.wf_writeNat h _ _ _

theorem reportW14_wf {s : State} (h : s.mem.wf) (r : Report) : (reportW14 r s).2.mem.wf :=
  Memory.wf_writeNat (lateRace_wf h r) _ _ _

theorem reportRefused_wf {s : State} (h : s.mem.wf) (r : Report) : (reportRefused r s).mem.wf := by
  rw [reportRefused, refusedRegisters_mem]
  exact lateRace_wf h r

theorem reportTurn_wf {s : State} (h : s.mem.wf) (ws : List Word) (r : Report) (stage : ReportStage) :
    (reportTurn ws r stage s).mem.wf := by
  cases stage with
  | w15 => exact reportW15_wf h r
  | w14 => exact reportW14_wf h r
  | registers => rwa [reportTurn, reportRegisters_mem]
  | refused => exact reportRefused_wf h r

theorem reportWhole_wf {s : State} (h : s.mem.wf) (r : Report) (stage : ReportStage) :
    (reportWhole r stage s).mem.wf := by
  cases stage with
  | w15 => simpa [reportWhole] using reportW14_wf (reportW15_wf h r) r
  | w14 => simpa [reportWhole] using reportW14_wf h r
  | registers => rwa [reportWhole, reportRegisters_mem]
  | refused => exact reportRefused_wf h r

theorem validate_wf {s : State} (h : s.mem.wf) (ws : List Word) : (validate ws s).mem.wf := by
  unfold validate
  split
  · exact h
  · split
    · exact h
    · exact errorEnding_wf h _ _

theorem reportWords_wf {s : State} (h : s.mem.wf) (ws : List Word) (p : Plan) : (reportWords ws p s).mem.wf := by
  unfold reportWords
  split
  · exact h
  · exact workEnding_wf h _ p

theorem completeWords_wf {s : State} (h : s.mem.wf) (ws : List Word) (p : Plan) :
    (completeWords ws p s).mem.wf := by
  unfold completeWords
  split
  · exact complete_wf h _ _ _ _
  · exact complete_wf (workEnding_wf h _ p) _ _ _ _

theorem cpTurn_wf {s : State} (h : s.mem.wf) : (cpTurn s).mem.wf := by
  unfold cpTurn
  split
  · split
    · exact h
    · split
      · rwa [fetch_mem]
      · exact h
  · rwa [fetchFault_mem]
  · exact validate_wf h _
  · exact reportWords_wf h _ _
  · exact h
  · exact reportTurn_wf h _ _ _

theorem workerTurn_wf {s : State} (h : s.mem.wf) (j : Nat) : (workerTurn j s).mem.wf := by
  unfold workerTurn
  split
  · split
    · exact workStripe_wf h _ _
    · exact h
  · exact h

theorem resetMachine_wf {s : State} (h : s.mem.wf) : (resetMachine s).mem.wf := havoc_wf h _

theorem writeReg_wf {s : State} (h : s.mem.wf) (off : Nat) (v : Word) : (writeReg off v s).mem.wf := by
  have gate : ∀ f : State, f.mem = s.mem → (gated s f).mem.wf := fun f hf =>
    gated_induction (motive := fun t => t.mem.wf) h ((congrArg Memory.wf hf).mpr h)
  unfold writeReg
  split
  case h_1 =>
    unfold writeCtrl
    split
    · exact resetMachine_wf h
    · dsimp only; split <;> exact h
  case h_17 => exact gate _ (by unfold writeAuto; dsimp only; split <;> rfl)
  case h_2 | h_3 | h_4 | h_8 | h_19 => exact h
  all_goals exact gate _ rfl

theorem hostLoad_wf {a : Addr} {n : Nat} {s t : State} (h : s.mem.wf) (ht : hostLoad a n s = .next t) :
    t.mem.wf := by
  unfold hostLoad at ht
  split at ht
  · cases ht
  all_goals cases ht; exact h

theorem hostStore_wf {a : Addr} {bs : List Byte} {s t : State} (h : s.mem.wf) (ht : hostStore a bs s = .next t) :
    t.mem.wf := by
  unfold hostStore at ht
  split at ht
  · cases ht
  · cases ht; exact writeReg_wf h _ _
  · cases ht; exact h
  · cases ht; exact Memory.wf_writeBytes h _ _

theorem turn_wf {x : Input} {s t : State} (h : s.mem.wf) (ht : turn x s = .next t) : t.mem.wf := by
  cases x with
  | load a n => exact hostLoad_wf h ht
  | store a bs => exact hostStore_wf h ht
  | hardReset => cases ht; exact resetMachine_wf h
  | cp => cases ht; exact cpTurn_wf h
  | worker j => cases ht; exact workerTurn_wf h j

theorem runWords_wf {ws : List Word} {s t : State} (h : s.mem.wf) (ht : runWords ws s = .next t) : t.mem.wf := by
  unfold runWords at ht
  split at ht
  · cases ht; exact complete_wf h _ _ _ _
  · unfold runCommand at ht
    split at ht
    · cases ht; exact complete_wf (racedEnding_wf h _ _) _ _ _ _
    · rw [exec_eq_finish] at ht
      cases ht; exact finish_wf h _ _ _

theorem cpWhole_wf {s t : State} (h : s.mem.wf) (ht : cpWhole s = .next t) : t.mem.wf := by
  have fault : (fetchFault s).mem.wf := by rwa [fetchFault_mem]
  unfold cpWhole at ht
  split at ht
  · split at ht
    · cases ht; exact h
    · split at ht
      · exact runWords_wf ((by rwa [afterFetch_mem])) ht
      · cases ht; exact fault
  · cases ht; exact fault
  · exact runWords_wf h ht
  · cases ht; exact completeWords_wf (workAll_wf h _ _) _ _
  · cases ht; exact reportWhole_wf h _ _

/-- Settles O25: every turn of every agent, and a whole command, writes memory by `Memory.writeBytes` alone. -/
theorem stepKeepsMemoryCanonical : Obligations.StepKeepsMemoryCanonical := by
  intro s t h ht
  unfold step at ht
  split at ht
  · exact cpWhole_wf h ht
  · rename_i x xs _
    exact turn_wf (s := { s with inputs := xs }) h ht

end Sys2Proof.Machine
end

section
/-! SUPPORT. What a host load of memory returns (spec/20_memory.md R82, R87, R88). -/

namespace Sys2Proof.Machine

/-- A host access apart from the register block that ends within the address space reaches memory. -/
theorem hostTarget_eq_memory {a n : Nat} {s : State} (h : a + n ≤ 2 ^ 64)
    (hb : Apart (extent a n) (registerBlock s)) : hostTarget a n s = .memory := by
  unfold hostTarget
  rw [if_neg (by simp [hb]), if_neg (by omega)]

theorem tornW15_eq_some {s : State} {v : Word} :
    tornW15 s = some v
      ↔ ∃ ws r, s.inflight = some { words := ws, phase := .reporting r .w15 } ∧ r.result = v := by
  unfold tornW15
  split
  case h_1 ws r h => simp [h]
  case h_2 h => exact ⟨nofun, fun ⟨ws, r, e, _⟩ => absurd e (h ws r)⟩

theorem tornW15_eq_none {s : State} :
    tornW15 s = none ↔ ∀ ws r, s.inflight ≠ some { words := ws, phase := .reporting r .w15 } := by
  simp only [Option.eq_none_iff_forall_ne_some, ne_eq, tornW15_eq_some]
  exact ⟨fun h ws r e => h _ ⟨ws, r, e, rfl⟩, fun h _ ⟨ws, r, e, _⟩ => h ws r e⟩

/-- An address is settled once W14 is written, and everywhere outside the write ranges (R87, R88). -/
theorem unsettledWrites_contains {s : State} {a : Nat}
    (h : w14Written s = true ∨ ∀ x ∈ inflightWrites s, x.contains a = false) :
    ((unsettledWrites s).any fun x => x.contains a) = false := by
  by_cases hw : w14Written s = true
  · simp [unsettledWrites_of_w14Written hw]
  · simpa [unsettledWrites, hw] using h

/-- A settled byte is the byte in memory, unless W15 is being written. -/
theorem observedByte_of_whole {s : State} {a : Nat} (c : Nat)
    (h : ((unsettledWrites s).any fun x => x.contains a) = false) (ht : tornW15 s = none) :
    observedByte s a c = s.mem.read a := by
  simp only [observedByte, h, ht, Bool.false_eq_true, if_false]

theorem observedByte_of_torn {s : State} {a : Nat} {v : Word} (c : Nat)
    (h : ((unsettledWrites s).any fun x => x.contains a) = false) (ht : tornW15 s = some v) :
    observedByte s a c = tornByte s v a c := by
  simp only [observedByte, h, ht, Bool.false_eq_true, if_false]

/-- Every byte outside W15 is whole while W15 is being written (R82). -/
theorem tornByte_outside {s : State} {a : Nat} (v : Word) (c : Nat)
    (h : (extent (descAddr s + 60) 4).contains a = false) : tornByte s v a c = s.mem.read a := by
  rw [tornByte, if_neg (by simp [h])]

/-- A byte of W15 is the old one or the new one (R82). -/
theorem tornByte_w15 {s : State} {b : Nat} (v : Word) (c : Nat) (hb : b < 4) (ha : descAddr s + 60 + b < 2 ^ 64) :
    tornByte s v (descAddr s + 60 + b) c = s.mem.read (descAddr s + 60 + b)
      ∨ tornByte s v (descAddr s + 60 + b) c = BitVec.ofNat 8 (v.toNat / 2 ^ (8 * b)) := by
  unfold tornByte
  split
  · refine .inr (BitVec.eq_of_toNat_eq ?_)
    rw [BitVec.toNat_ofNat]
    exact Memory.toNat_read_writeNat hb ha
  · exact .inl rfl

theorem getElem?_observedBytes {s : State} {a n j : Nat} (h : j < n) :
    (observedBytes s a n)[j]? = some (observedByte s (a + j) (s.free + j)) := by
  simp [observedBytes, h]

/-- Settles O23: `observedByte` is the byte in memory outside the unsettled ranges, and torn in W15 alone. -/
theorem hostLoadOutsideWriteRanges : Obligations.HostLoadOutsideWriteRanges := by
  intro s a n hn hb
  have hload : turn (.load a n) s
      = .next { s with hostRead := observedBytes s a.toNat n, free := s.free + n } := by
    simp only [turn, hostLoad, hostTarget_eq_memory hn hb]
  refine ⟨_, hload, rfl, by simp [observedBytes], fun j hj hset => ?_⟩
  have hset := unsettledWrites_contains hset
  dsimp only
  rw [getElem?_observedBytes hj]
  constructor
  · intro hwhole
    rw [observedByte_of_whole _ hset (tornW15_eq_none.mpr hwhole)]
  · intro ws r hr
    rw [observedByte_of_torn _ hset (tornW15_eq_some.mpr ⟨ws, r, hr, rfl⟩)]
    constructor
    · intro hout
      rw [tornByte_outside _ _ hout]
    · intro b hb4 he
      rw [he]
      exact (tornByte_w15 r.result _ hb4 (by omega)).imp (congrArg some) (congrArg some)

end Sys2Proof.Machine
end

section
/-! SUPPORT. Where the elements of a buffer lie (spec/20_memory.md R72), and how long buffers of elements are. -/

namespace Sys2Proof.Machine

/-! ### Whole FS2 blocks -/

/-- The elements of a block and its bytes: low bytes first, high bytes after them (R72). -/
theorem map_low_zipWith {lo hi : List Byte} (h : lo.length = hi.length) :
    (List.zipWith (fun l h : Byte => l.toNat + 256 * h.toNat) lo hi).map (BitVec.ofNat 8) = lo := by
  refine List.ext_getElem (by simp [h]) fun i h1 h2 => BitVec.eq_of_toNat_eq ?_
  have := lo[i].isLt
  simp; omega

theorem map_high_zipWith {lo hi : List Byte} (h : lo.length = hi.length) :
    (List.zipWith (fun l h : Byte => l.toNat + 256 * h.toNat) lo hi).map (fun e => BitVec.ofNat 8 (e / 256)) = hi := by
  refine List.ext_getElem (by simp [h]) fun i h1 h2 => BitVec.eq_of_toNat_eq ?_
  have := (lo[i]'(by omega)).isLt
  have := hi[i].isLt
  simp; omega

/-- The elements of whole blocks determine the bytes. -/
theorem bytes16_elems16 {n : Nat} {bs : List Byte} (h : bs.length = 64 * n) : bytes16 n (elems16 n bs) = bs := by
  induction n generalizing bs with
  | zero => exact (List.eq_nil_of_length_eq_zero (by omega)).symm
  | succ n ih =>
    have hl : (bs.take 32).length = ((bs.drop 32).take 32).length := by simp; omega
    have hz : (List.zipWith (fun l h : Byte => l.toNat + 256 * h.toNat) (bs.take 32)
        ((bs.drop 32).take 32)).length = 32 := by simp; omega
    rw [elems16, bytes16, List.take_left' hz, List.drop_left' hz, map_low_zipWith hl, map_high_zipWith hl,
      ih (by simp; omega), ← List.take_add, show 32 + 32 = 64 from rfl, List.take_append_drop]

/-- Element `j` of block `b`. -/
theorem getElem?_elems16 {n b j : Nat} {bs : List Byte} (h : bs.length = 64 * n) (hb : b < n) (hj : j < 32) :
    (elems16 n bs)[32 * b + j]?
      = some ((bs.getD (64 * b + j) 0).toNat + 256 * (bs.getD (64 * b + 32 + j) 0).toNat) := by
  induction n generalizing b bs with
  | zero => omega
  | succ n ih =>
    have hz : (List.zipWith (fun l h : Byte => l.toNat + 256 * h.toNat) (bs.take 32)
        ((bs.drop 32).take 32)).length = 32 := by simp; omega
    rw [elems16]
    cases b with
    | zero =>
      rw [List.getElem?_append_left (by omega)]
      simp [List.getElem?_zipWith, hj, List.getD_eq_getElem?_getD,
        List.getElem?_eq_getElem (show j < bs.length by omega),
        List.getElem?_eq_getElem (show 32 + j < bs.length by omega)]
    | succ b =>
      rw [List.getElem?_append_right (by omega), hz, show 32 * (b + 1) + j - 32 = 32 * b + j by omega,
        ih (by simp; omega) (by omega)]
      simp only [List.getD_eq_getElem?_getD, List.getElem?_drop]
      rw [show 64 + (64 * b + j) = 64 * (b + 1) + j by omega,
        show 64 + (64 * b + 32 + j) = 64 * (b + 1) + 32 + j by omega]

/-! ### Buffers -/

theorem toElems_of_byte {fs : FS} (h : fs ≠ .gf16c) (bs : List Byte) : toElems fs bs = bs.map BitVec.toNat := by
  cases fs with
  | gf8 => rfl
  | gf8c => rfl
  | gf16c => exact absurd rfl h

theorem ofElems_of_byte {fs : FS} (h : fs ≠ .gf16c) (es : List Nat) : ofElems fs es = es.map (BitVec.ofNat 8) := by
  cases fs with
  | gf8 => rfl
  | gf8c => rfl
  | gf16c => exact absurd rfl h

theorem length_toElems16 {bs : List Byte} {n : Nat} (h : bs.length = 64 * n) :
    (toElems .gf16c bs).length = 32 * n := by
  rw [toElems, show bs.length / 64 = n by omega, length_elems16 n bs h]

/-- The elements of a buffer determine its bytes (R72). -/
theorem ofElems_toElems {fs : FS} {bs : List Byte} (h : fs = .gf16c → bs.length % 64 = 0) :
    ofElems fs (toElems fs bs) = bs := by
  by_cases hfs : fs = .gf16c
  · subst hfs
    obtain ⟨n, hn⟩ := Nat.dvd_of_mod_eq_zero (h rfl)
    rw [ofElems, length_toElems16 hn, toElems, show bs.length / 64 = n by omega,
      show 32 * n / 32 = n by omega, bytes16_elems16 hn]
  · rw [toElems_of_byte hfs, ofElems_of_byte hfs, List.map_map]
    simp [Function.comp_def]

/-- Settles O32: block by block, the halves of an FS2 block are the low and the high bytes of its elements. -/
theorem gf16BufferLayout : Obligations.Gf16BufferLayout := by
  intro bs
  refine ⟨fun h => ?_, fun fs hfs => ⟨toElems_of_byte hfs bs, ofElems_toElems fun e => absurd e hfs⟩⟩
  obtain ⟨n, hn⟩ := Nat.dvd_of_mod_eq_zero h
  refine ⟨by rw [length_toElems16 hn]; omega, ofElems_toElems fun _ => h, fun b j hb hj => ?_⟩
  rw [toElems, show bs.length / 64 = n by omega]
  exact getElem?_elems16 hn (by omega) hj

end Sys2Proof.Machine
end

section
/-! SUPPORT. Commands whose completion writeback is admitted (spec/60_exceptions.md R364, R365): the state after a
validation error and after a carried-out plan; and KAXPY and KMULC (spec/44_kernel.md R224, R225). -/

namespace Sys2Proof.Machine

/-! ### Completions -/

theorem signalDone_eq (q : Bool) (s : State) : signalDone q s = { s with irqStat := doneStat q s.irqStat } := by
  cases q <;> rfl

/-- Taking an error, field by field (R365, R368). -/
theorem raiseError_eq (e : Err) (index : Half) (opc : BitVec 8) (s : State) :
    raiseError e index opc false s
      = { s with errCode := e.code.number, errIndex := index, errIdx := e.idx, errOpc := opc,
                 irqStat := if s.ctrlHoe then haltStat s (s.irqStat ||| 2) else s.irqStat ||| 2,
                 halted := s.halted || s.ctrlHoe } := by
  unfold raiseError
  cases hoe : s.ctrlHoe
  · simp only [Bool.or_false, Bool.false_eq_true, if_false]; rfl
  · simp only [Bool.or_false, Bool.or_true, if_true]; rfl

/-- The completion step of a success, field by field (R364). -/
theorem complete_eq_succeeded {s : State} (h : CanComplete s) (opc : BitVec 8) (q : Bool) (r : Word) :
    complete opc q none r s = succeeded q r s := by
  unfold complete
  rw [if_pos (show writebackAdmitted s = true from h), completeRegisters, signalDone_eq]
  rfl

/-- The completion step of an error, field by field (R364, R365, R368). -/
theorem complete_eq_failed {s : State} (h : CanComplete s) (opc : BitVec 8) (q : Bool) (e : Err) (r : Word) :
    complete opc q (some e) r s = failed opc q e s := by
  unfold complete
  rw [if_pos (show writebackAdmitted s = true from h), completeRegisters, signalDone_eq, raiseError_eq]
  rfl

/-- A command that fails validation (R362). -/
theorem exec_eq_failed {i : Instr} {s : State} {e : Err} (hc : CanComplete s) (h : planOf i s = .error e) :
    exec i s = .next (failed (opcodeOf i) (irqFlagOf i) e s) := by
  rw [exec_eq_finish, h, finish, complete_eq_failed hc]

/-- A validated command whose accesses are all admitted (R363 step 8, R364). -/
theorem exec_eq_succeeded {i : Instr} {s : State} {p : Plan} (hc : CanComplete s) (h : planOf i s = .ok p)
    (ha : accessesPermitted s p = true) :
    exec i s = .next (succeeded (irqFlagOf i) p.result (commit p s)) := by
  have hc' : CanComplete (commit p s) := hc
  rw [exec_eq_finish, h, finish, finishPlan, if_pos ha, complete_eq_succeeded hc']

/-! ### KAXPY and KMULC -/

/-- The overlap check of one destination and one source that may be in place (20_memory.md R79). -/
theorem footprintClear_inPlace (s : State) (src dst n : Nat) :
    footprintClear [descRange s, readsInPlace src n dst n] [extent dst n] = true
      ↔ Apart (extent dst n) (descriptor s) ∧ (src = dst ∨ Apart (extent dst n) (extent src n)) := by
  have hr : extent src n = extent dst n ↔ src = dst := by simp [extent]
  simp [footprintClear, pairwiseClear, pairClear, descRange, readsInPlace, hr, or_comm]

/-- `v` validates a command that reads `src`, possibly in place, and writes `dst`, to the plan `p`. -/
structure InPlaceKernel (fs : FS) (c len : Word) (src dst : Addr) (s : State) (v : Except Err Plan) (p : Plan) :
    Prop where
  checks : v = do
    checkElement fs c detailA
    checkBlocks fs len
    p.guarded
  reads : p.reads = [descRange s, readsInPlace src.toNat len.toNat dst.toNat len.toNat]
  writes : p.writes = [extent dst.toNat len.toNat]

namespace InPlaceKernel

variable {fs : FS} {c len : Word} {src dst : Addr} {s : State} {v : Except Err Plan} {p : Plan}

theorem clear_iff (h : InPlaceKernel fs c len src dst s v p) : footprintClear p.reads p.writes = true
    ↔ Apart (extent dst.toNat len.toNat) (descriptor s)
      ∧ (src = dst ∨ Apart (extent dst.toNat len.toNat) (extent src.toNat len.toNat)) := by
  rw [h.reads, h.writes, footprintClear_inPlace, BitVec.toNat_inj]

theorem badArgument (h : InPlaceKernel fs c len src dst s v p) (hc : ¬ c.toNat < 2 ^ width fs) :
    v = .error { code := .badArgument, idx := detailA } := by
  rw [h.checks, checkElement, check_neg hc, error_bind]

theorem shardSize (h : InPlaceKernel fs c len src dst s v p) (hc : c.toNat < 2 ^ width fs)
    (hl : ¬ (fs = .gf16c → len.toNat % 64 = 0)) : v = .error { code := .shardSize, idx := noDetail } := by
  rw [h.checks, checkElement, check_pos hc, ok_bind, checkBlocks, check_neg hl, error_bind]

theorem guarded (h : InPlaceKernel fs c len src dst s v p) (hc : c.toNat < 2 ^ width fs)
    (hl : fs = .gf16c → len.toNat % 64 = 0) : v = p.guarded := by
  rw [h.checks, checkElement, check_pos hc, ok_bind, checkBlocks, check_pos hl, ok_bind]

theorem overlap (h : InPlaceKernel fs c len src dst s v p) (hc : c.toNat < 2 ^ width fs)
    (hl : fs = .gf16c → len.toNat % 64 = 0)
    (ho : ¬ Apart (extent dst.toNat len.toNat) (descriptor s)
      ∨ (src ≠ dst ∧ ¬ Apart (extent dst.toNat len.toNat) (extent src.toNat len.toNat))) :
    v = .error { code := .overlap, idx := noDetail } := by
  rw [h.guarded hc hl, guarded_eq_error, ← Bool.not_eq_true, h.clear_iff]
  exact ⟨by tauto, rfl⟩

theorem ok (h : InPlaceKernel fs c len src dst s v p) (hc : c.toNat < 2 ^ width fs)
    (hl : fs = .gf16c → len.toNat % 64 = 0) (hd : Apart (extent dst.toNat len.toNat) (descriptor s))
    (hs : src = dst ∨ Apart (extent dst.toNat len.toNat) (extent src.toNat len.toNat)) : v = .ok p := by
  rw [h.guarded hc hl, guarded_eq_ok, h.clear_iff]
  exact ⟨⟨hd, hs⟩, rfl⟩

end InPlaceKernel

/-- What KAXPY carries out (R224). -/
def kaxpyPlan (fs : FS) (c len : Word) (src dst : Addr) (s : State) : Plan :=
  { reads := [descRange s, readsInPlace src.toNat len.toNat dst.toNat len.toNat]
    writes := [extent dst.toNat len.toNat]
    accesses := [readAccess src.toNat len.toNat, readAccess dst.toNat len.toNat, writeAccess dst.toNat len.toNat]
    stores := [shardStore dst.toNat (axpyBuf fs c.toNat (s.mem.readBytes dst.toNat len.toNat)
      (s.mem.readBytes src.toNat len.toNat))]
    span := some len.toNat, scrNext := none, ctx := none, icache := none, result := 0 }

/-- What KMULC carries out (R225). -/
def kmulcPlan (fs : FS) (c len : Word) (src dst : Addr) (s : State) : Plan :=
  { reads := [descRange s, readsInPlace src.toNat len.toNat dst.toNat len.toNat]
    writes := [extent dst.toNat len.toNat]
    accesses := [readAccess src.toNat len.toNat, writeAccess dst.toNat len.toNat]
    stores := [shardStore dst.toNat (scaleBuf fs c.toNat (s.mem.readBytes src.toNat len.toNat))]
    span := some len.toNat, scrNext := none, ctx := none, icache := none, result := 0 }

theorem inPlaceKernel_kaxpy (irq : Bool) (fs : FS) (c len : Word) (src dst : Addr) (s : State) :
    InPlaceKernel fs c len src dst s (planOf (.kaxpy irq fs c len src dst) s) (kaxpyPlan fs c len src dst s) :=
  ⟨rfl, rfl, rfl⟩

theorem inPlaceKernel_kmulc (irq : Bool) (fs : FS) (c len : Word) (src dst : Addr) (s : State) :
    InPlaceKernel fs c len src dst s (planOf (.kmulc irq fs c len src dst) s) (kmulcPlan fs c len src dst s) :=
  ⟨rfl, rfl, rfl⟩

/-- Settles O44: KAXPY and KMULC are validated alike and differ in the bytes they store. -/
theorem kernelMultiplyAccumulate : Obligations.KernelMultiplyAccumulate := by
  intro irq fs c len src dst s hcan
  have ka := inPlaceKernel_kaxpy irq fs c len src dst s
  have km := inPlaceKernel_kmulc irq fs c len src dst s
  refine ⟨fun hc hl hsrc hdst hdesc hapart => ⟨fun hold => ?_, ?_⟩, fun hc => ?_, fun hc hfs hl => ?_,
    fun hc hl ho => ?_⟩
  · exact exec_eq_succeeded hcan (ka.ok hc hl hdesc hapart)
      (by simp [accessesPermitted, kaxpyPlan, readAccess, writeAccess, hsrc, hold, hdst])
  · exact exec_eq_succeeded hcan (km.ok hc hl hdesc hapart)
      (by simp [accessesPermitted, kmulcPlan, readAccess, writeAccess, hsrc, hdst])
  · exact ⟨exec_eq_failed hcan (ka.badArgument hc), exec_eq_failed hcan (km.badArgument hc)⟩
  · have hl : ¬ (fs = .gf16c → len.toNat % 64 = 0) := fun h => hl (h hfs)
    exact ⟨exec_eq_failed hcan (ka.shardSize hc hl), exec_eq_failed hcan (km.shardSize hc hl)⟩
  · exact ⟨exec_eq_failed hcan (ka.overlap hc hl ho), exec_eq_failed hcan (km.overlap hc hl ho)⟩

end Sys2Proof.Machine
end

section
/-! SUPPORT. How long the outputs of commands are: no operation on buffers, vectors of elements or matrices makes more
bytes than the write range of its rule holds (spec/20_memory.md R78). -/

namespace Sys2Proof.Machine

/-! ### Lists of bounded rows -/

theorem mem_zipWith {α β γ : Type} {f : α → β → γ} {xs : List α} {ys : List β} {z : γ}
    (h : z ∈ List.zipWith f xs ys) : ∃ x ∈ xs, ∃ y ∈ ys, z = f x y := by
  rw [← List.map_uncurry_zip_eq_zipWith] at h
  obtain ⟨⟨x, y⟩, hxy, rfl⟩ := List.mem_map.mp h
  obtain ⟨hx, hy⟩ := List.of_mem_zip hxy
  exact ⟨x, hx, y, hy, rfl⟩

/-- Buffers or vectors of at most `n` entries. -/
def RowsWithin {α : Type} (n : Nat) (xs : List (List α)) : Prop := ∀ x ∈ xs, x.length ≤ n

namespace RowsWithin

variable {α β : Type} {n m : Nat} {xs ys : List (List α)}

theorem mono (h : RowsWithin n xs) (hs : ys ⊆ xs) : RowsWithin n ys := fun y hy => h y (hs hy)

theorem le (h : RowsWithin n xs) (hn : n ≤ m) : RowsWithin m xs := fun x hx => (h x hx).trans hn

theorem append (hx : RowsWithin n xs) (hy : RowsWithin n ys) : RowsWithin n (xs ++ ys) := fun z hz =>
  (List.mem_append.mp hz).elim (hx z) (hy z)

theorem take (h : RowsWithin n xs) (k : Nat) : RowsWithin n (xs.take k) := h.mono (List.take_subset k xs)

theorem drop (h : RowsWithin n xs) (k : Nat) : RowsWithin n (xs.drop k) := h.mono (List.drop_subset k xs)

theorem of_map {ι : Type} {is : List ι} {f : ι → List α} (h : ∀ i ∈ is, (f i).length ≤ n) :
    RowsWithin n (is.map f) := by
  intro z hz
  obtain ⟨i, hi, rfl⟩ := List.mem_map.mp hz
  exact h i hi

theorem getD (h : RowsWithin n xs) (i : Nat) : (xs.getD i []).length ≤ n := by
  by_cases hi : i < xs.length
  · rw [List.getD_eq_getElem _ _ hi]
    exact h _ (List.getElem_mem hi)
  · rw [List.getD_eq_default _ _ (Nat.le_of_not_lt hi)]
    exact Nat.zero_le n

end RowsWithin

/-! ### Buffers (44_kernel.md) -/

/-- The number of elements in a buffer of `n` bytes (20_memory.md R72). -/
def elemCount (fs : FS) (n : Nat) : Nat :=
  match fs with
  | .gf8 => n
  | .gf8c => n
  | .gf16c => 32 * (n / 64)

theorem elemCount_mono (fs : FS) {n m : Nat} (h : n ≤ m) : elemCount fs n ≤ elemCount fs m := by
  cases fs with
  | gf8 => exact h
  | gf8c => exact h
  | gf16c => exact Nat.mul_le_mul_left 32 (Nat.div_le_div_right h)

/-- The first `n` whole blocks of a buffer give 32 elements each. -/
theorem length_elems16_of_le {n : Nat} {bs : List Byte} (h : 64 * n ≤ bs.length) :
    (elems16 n bs).length = 32 * n := by
  induction n generalizing bs with
  | zero => rfl
  | succ n ih =>
    simp only [elems16, List.length_append, List.length_zipWith, List.length_take, List.length_drop,
      ih (bs := bs.drop 64) (by simp; omega)]
    omega

theorem length_bytes16_le (n : Nat) (es : List Nat) : (bytes16 n es).length ≤ 64 * n := by
  induction n generalizing es with
  | zero => simp [bytes16]
  | succ n ih =>
    have := ih (es.drop 32)
    simp only [bytes16, List.length_append, List.length_map, List.length_take]
    omega

theorem length_toElems (fs : FS) (bs : List Byte) : (toElems fs bs).length = elemCount fs bs.length := by
  cases fs with
  | gf8 => simp [toElems, elemCount]
  | gf8c => simp [toElems, elemCount]
  | gf16c => exact length_elems16_of_le (Nat.mul_div_le ..)

theorem length_ofElems_le {fs : FS} {es : List Nat} {n : Nat} (h : es.length ≤ elemCount fs n) :
    (ofElems fs es).length ≤ n := by
  cases fs with
  | gf8 => simpa [ofElems, elemCount] using h
  | gf8c => simpa [ofElems, elemCount] using h
  | gf16c =>
    have hb := length_bytes16_le (es.length / 32) es
    simp only [elemCount] at h
    simp only [ofElems]
    omega

theorem length_scaleBuf_le (fs : FS) (c : Nat) (bs : List Byte) : (scaleBuf fs c bs).length ≤ bs.length :=
  length_ofElems_le (by simp [length_toElems])

theorem length_axpyBuf_le (fs : FS) (c : Nat) (dst src : List Byte) :
    (axpyBuf fs c dst src).length ≤ dst.length := by
  simp [axpyBuf]

theorem length_linearCombination_le (n : Nat) (cs : List Nat) (bufs : List (List Byte)) :
    (linearCombination n cs bufs).length ≤ n := by
  induction cs generalizing bufs with
  | nil => simp [linearCombination]
  | cons c cs ih =>
    cases bufs with
    | nil => simp [linearCombination]
    | cons b bs =>
      rw [linearCombination, length_xorBuf]
      exact (Nat.min_le_right ..).trans (ih bs)

theorem length_codeOutput_le (acc : Bool) (n : Nat) (cs : List Nat) (ins : List (List Byte)) (old : List Byte) :
    (codeOutput acc n cs ins old).length ≤ n := by
  have h := length_linearCombination_le n cs ins
  unfold codeOutput
  split
  · rw [length_xorBuf]
    exact (Nat.min_le_right ..).trans h
  · exact h

theorem RowsWithin.map_ofElems {fs : FS} {n : Nat} {ws : List Vec} (h : RowsWithin (elemCount fs n) ws) :
    RowsWithin n (ws.map (ofElems fs)) := .of_map fun w hw => length_ofElems_le (h w hw)

/-! ### Transforms (46_fft.md) -/

theorem length_addVec_le (x y : Vec) : (addVec x y).length ≤ x.length := by simp [addVec]

/-- A butterfly makes vectors no longer than its operands. -/
def ButterflyWithin (e : Nat) (bfly : Nat → Vec → Vec → Vec × Vec) : Prop :=
  ∀ sk x y, x.length ≤ e → y.length ≤ e → (bfly sk x y).1.length ≤ e ∧ (bfly sk x y).2.length ≤ e

theorem bflyFft_within (fs : FS) (e : Nat) : ButterflyWithin e (bflyFft fs) := fun _ _ _ hx hy =>
  ⟨(length_addVec_le ..).trans hx, (length_addVec_le ..).trans hy⟩

theorem bflyIfft_within (fs : FS) (e : Nat) : ButterflyWithin e (bflyIfft fs) := fun _ _ _ hx hy =>
  ⟨(length_addVec_le ..).trans hx, (length_addVec_le ..).trans hy⟩

theorem RowsWithin.zipWith_addVec {e : Nat} {ws : List Vec} (h : RowsWithin e ws) (us : List Vec) :
    RowsWithin e (List.zipWith addVec ws us) := by
  intro z hz
  obtain ⟨x, hx, y, _, rfl⟩ := mem_zipWith hz
  exact (length_addVec_le x y).trans (h x hx)

theorem transformLevel_within {e : Nat} {bfly : Nat → Vec → Vec → Vec × Vec} (hb : ButterflyWithin e bfly)
    (d nb p : Nat) {w : List Vec} (h : RowsWithin e w) : RowsWithin e (transformLevel bfly d nb p w) := by
  induction nb generalizing p w with
  | zero => exact nofun
  | succ nb ih =>
    have pair : ∀ z ∈ List.zipWith (bfly (skew p d)) (w.take d) ((w.drop d).take d),
        z.1.length ≤ e ∧ z.2.length ≤ e := by
      intro z hz
      obtain ⟨x, hx, y, hy, rfl⟩ := mem_zipWith hz
      exact hb _ x y (h.take d x hx) ((h.drop d).take d y hy)
    exact ((RowsWithin.of_map fun z hz => (pair z hz).1).append (.of_map fun z hz => (pair z hz).2)).append
      (ih _ (h.drop _))

theorem fft_within (fs : FS) (n b : Nat) {e : Nat} {w : List Vec} (h : RowsWithin e w) :
    RowsWithin e (fft fs n b w) :=
  List.foldlRecOn _ _ h fun _ h _ _ => transformLevel_within (bflyFft_within fs e) _ _ _ h

theorem ifft_within (fs : FS) (n b : Nat) {e : Nat} {w : List Vec} (h : RowsWithin e w) :
    RowsWithin e (ifft fs n b w) :=
  List.foldlRecOn _ _ h fun _ h _ _ => transformLevel_within (bflyIfft_within fs e) _ _ _ h

theorem fderiv_within (n : Nat) {e : Nat} {w : List Vec} (h : RowsWithin e w) : RowsWithin e (fderiv n w) :=
  List.foldlRecOn _ _ h fun _ h _ _ =>
    ((h.take _).append (((h.drop _).take _).zipWith_addVec _)).append (h.drop _)

theorem loadVecs_within (fs : FS) (s : State) (n : Nat) (bufs : List Nat) :
    RowsWithin (elemCount fs n) (loadVecs fs s n bufs) :=
  .of_map fun a _ => by simp [length_toElems]

theorem fftEncode_within (fs : FS) (m e : Nat) (d : List Vec) : RowsWithin e (fftEncode fs m e d) := by
  have start : RowsWithin e (List.replicate (pow2 m) (zeroVec e)) := fun x hx => by
    simp [List.eq_of_mem_replicate hx, zeroVec]
  exact (fft_within fs _ _ (List.foldlRecOn _ _ start fun _ h _ _ => h.zipWith_addVec _)).take m

theorem length_workStart_le (fs : FS) (k m : Nat) {e : Nat} (present : Nat → Bool) {shard : Nat → Vec}
    (h : ∀ i, (shard i).length ≤ e) (es : List Nat) (x : Nat) :
    (workStart fs k m e present shard es x).length ≤ e := by
  unfold workStart
  dsimp only
  split
  · simpa [scaleVec] using h _
  · split
    · simpa [scaleVec] using h _
    · simp [zeroVec]

theorem fftDecode_within (fs : FS) (k m : Nat) {e : Nat} (present : Nat → Bool) {shard : Nat → Vec}
    (h : ∀ i, (shard i).length ≤ e) (needed : List Nat) :
    RowsWithin e (fftDecode fs k m e present shard needed) := by
  have work : RowsWithin e (fftDecodeWork fs k m e present shard) :=
    fft_within fs _ _ (fderiv_within _ (ifft_within fs _ _
      (.of_map fun x _ => length_workStart_le fs k m present h _ x)))
  exact .of_map fun i _ => by simpa [scaleVec] using work.getD _

/-! ### Shards (45_codec.md) -/

@[simp] theorem length_shardBytes (s : State) (xs : List Slot) (i : Nat) :
    (shardBytes s xs i).length = shardLength xs := Memory.length_readBytes ..

theorem dataBytes_within (s : State) (xs : List Slot) : RowsWithin (shardLength xs) (dataBytes s xs) :=
  .of_map fun i _ => (length_shardBytes s xs i).le

theorem parityBytes_within (s : State) {size : Nat} {data : List (List Byte)} (h : RowsWithin size data) :
    RowsWithin size (parityBytes s size data) := by
  unfold parityBytes
  split
  · exact .of_map fun p _ => length_linearCombination_le ..
  · dsimp only
    split
    · exact nofun
    · have vecs : ∀ fs, RowsWithin (elemCount fs size) (data.map (toElems fs)) := fun fs =>
        .of_map fun b hb => (length_toElems fs b).trans_le (elemCount_mono fs (h b hb))
      exact RowsWithin.map_ofElems ((fftEncode_within _ _ _ _).le ((vecs _).getD 0))

theorem recoveredData_within (s : State) (xs : List Slot) (v : List Nat) (d : Matrix) :
    RowsWithin (shardLength xs) (recoveredData s xs v d) := by
  refine .of_map fun j _ => ?_
  split
  · exact (length_shardBytes s xs j).le
  · exact length_linearCombination_le ..

theorem recoveredShards_within (s : State) (xs : List Slot) (v : List Nat) (d : Matrix) (needed : List Nat) :
    RowsWithin (shardLength xs) (recoveredShards s xs v d needed) := by
  refine .of_map fun i _ => ?_
  split
  · exact (recoveredData_within s xs v d).getD i
  · exact length_linearCombination_le ..

theorem fftRecovered_within (s : State) (xs : List Slot) (needed : List Nat) :
    RowsWithin (shardLength xs) (fftRecovered s xs needed) := by
  refine RowsWithin.map_ofElems ((fftDecode_within _ _ _ _ (fun i => ?_) _).le ?_) <;> simp [length_toElems]

/-! ### Matrices (42_matrix.md) -/

theorem length_matrixBytes {r c : Nat} {m : Matrix} (h : Shaped r c m) : (matrixBytes m).length = r * c := by
  obtain ⟨rfl, hc⟩ := h
  have hm : m.map List.length = List.replicate m.length c := by
    rw [List.eq_replicate_iff]
    exact ⟨by simp, by simpa using hc⟩
  rw [matrixBytes, List.length_map, List.length_flatMap]
  simp [hm]

theorem shaped_matrixAt (s : State) (a r c : Nat) : Shaped r c (matrixAt s a r c) :=
  shaped_matrixOfBytes (by simp)

theorem shaped_augment {r c c' : Nat} {x y : Matrix} (hx : Shaped r c x) (hy : Shaped r c' y) :
    Shaped r (c + c') (augment x y) := by
  refine ⟨by simp [augment, hx.1, hy.1], fun row hr => ?_⟩
  obtain ⟨a, ha, b, hb, rfl⟩ := mem_zipWith hr
  rw [List.length_append, hx.2 a ha, hy.2 b hb]

theorem shaped_subMatrix (m : Matrix) (ris cis : List Nat) : Shaped ris.length cis.length (subMatrix m ris cis) := by
  refine ⟨by simp [subMatrix], fun row hr => ?_⟩
  obtain ⟨i, _, rfl⟩ := List.mem_map.mp hr
  simp

theorem length_addScaledRow {row other : List Nat} {c : Nat} (hr : row.length = c) (ho : other.length = c)
    (t : Nat) : (addScaledRow row t other).length = c := by
  simp [addScaledRow, hr, ho]

theorem shaped_forwardRound {n c r : Nat} {m d : Matrix} (h : Shaped n c m) (hr : r < n)
    (hd : forwardRound n m r = some d) : Shaped n c d := by
  unfold forwardRound at hd
  split at hd
  · cases hd
  · rename_i q hq
    obtain rfl := Option.some.inj hd
    have hs := h.swapRows hr (List.mem_range.mp (List.mem_of_find?_eq_some hq))
    have pivot : ∀ t, (scaleRow t ((swapRows m r q).getD r [])).length = c := fun t => by
      simpa [scaleRow] using hs.length_getD hr
    refine hs.mapRowsFrom fun j row _ hrow => ?_
    split
    · exact pivot _
    · split
      · exact length_addScaledRow hrow (pivot _) _
      · exact hrow

theorem shaped_forwardPass {n c : Nat} {rs : List Nat} {m d : Matrix} (h : Shaped n c m) (hr : ∀ r ∈ rs, r < n)
    (hd : forwardPass n rs m = some d) : Shaped n c d := by
  induction rs generalizing m with
  | nil => exact Option.some.inj hd ▸ h
  | cons r rs ih =>
    simp only [forwardPass] at hd
    split at hd
    · cases hd
    · exact ih (shaped_forwardRound h (hr r (by simp)) ‹_›) (fun q hq => hr q (by simp [hq])) hd

theorem shaped_backwardRound {n c d : Nat} {m : Matrix} (h : Shaped n c m) (hd : d < n) :
    Shaped n c (backwardRound m d) := by
  refine h.mapRowsFrom fun j row _ hrow => ?_
  split
  · exact length_addScaledRow hrow (h.length_getD hd) _
  · exact hrow

/-- The inverse of an n×n matrix is one. -/
theorem shaped_invert {n : Nat} {x y : Matrix} (h : Shaped n n x) (hy : invert n x = some y) : Shaped n n y := by
  unfold invert at hy
  split at hy
  · cases hy
  · rename_i m hm
    obtain rfl := Option.some.inj hy
    have forward : Shaped n (n + n) m :=
      shaped_forwardPass (shaped_augment h (shaped_tabulate ..)) (fun r hr => List.mem_range.mp hr) hm
    have backward : Shaped n (n + n) ((List.range n).foldl backwardRound m) :=
      List.foldlRecOn _ _ forward fun _ h d hd => shaped_backwardRound h (List.mem_range.mp hd)
    refine ⟨by simp [backward.1], fun row hrow => ?_⟩
    obtain ⟨row, hm, rfl⟩ := List.mem_map.mp hrow
    simp [backward.2 row hm]

theorem length_readRowIndices {s : State} {a rows i n : Nat} {prev : Option Nat} {rs : List Nat}
    (h : readRowIndices s a rows prev i n = .ok rs) : rs.length = n := by
  induction n generalizing prev i rs with
  | zero => exact Except.ok.inj h ▸ rfl
  | succ n ih =>
    simp only [readRowIndices, bind_eq_ok] at h
    obtain ⟨_, _, _, _, _, _, qs, hq, h⟩ := h
    obtain rfl := Except.ok.inj h
    rw [List.length_cons, ih hq]

theorem length_readColIndices {s : State} {a cols j n : Nat} {cs : List Nat}
    (h : readColIndices s a cols j n = .ok cs) : cs.length = n := by
  induction n generalizing j cs with
  | zero => exact Except.ok.inj h ▸ rfl
  | succ n ih =>
    simp only [readColIndices, bind_eq_ok] at h
    obtain ⟨_, _, _, _, qs, hq, h⟩ := h
    obtain rfl := Except.ok.inj h
    rw [List.length_cons, ih hq]

end Sys2Proof.Machine
end

section
/-! SUPPORT. The memory frame of commands (spec/20_memory.md R78): every store of a plan lies in one of its write
ranges, so a command changes no byte outside W14, W15 and the ranges of its rule. -/

namespace Sys2Proof.Machine

/-! ### Stores inside write ranges -/

/-- The bytes of a store lie in one of the ranges. -/
def Store.Inside (ws : List Extent) (st : Store) : Prop :=
  ∃ w ∈ ws, w.lo ≤ st.addr ∧ st.addr + st.bytes.length ≤ w.lo + w.len

/-- Every store of a plan lies in one of its write ranges. -/
def Plan.StoresInside (p : Plan) : Prop := ∀ st ∈ p.stores, st.Inside p.writes

theorem Store.inside_of_mem {ws : List Extent} {st : Store} {n : Nat} (h : extent st.addr n ∈ ws)
    (hl : st.bytes.length ≤ n) : st.Inside ws :=
  ⟨_, h, Nat.le_refl _, Nat.add_le_add_left hl _⟩

theorem Store.inside_head {w : Extent} {ws : List Extent} {st : Store} (hlo : w.lo ≤ st.addr)
    (hhi : st.addr + st.bytes.length ≤ w.lo + w.len) : st.Inside (w :: ws) :=
  ⟨w, List.mem_cons_self, hlo, hhi⟩

/-- The one store of a command with one write range. -/
theorem Store.inside_singleton {a n : Nat} {bs : List Byte} {striped : Bool} {st : Store} (hl : bs.length ≤ n)
    (h : st ∈ [{ addr := a, bytes := bs, striped := striped }]) : st.Inside [extent a n] := by
  obtain rfl := List.mem_singleton.mp h
  exact Store.inside_of_mem (List.mem_singleton.mpr rfl) hl

theorem Memory.sameOutside_putAll {ws : List Extent} {sts : List Store} (h : ∀ st ∈ sts, st.Inside ws)
    (m : Memory) : SameOutside ws m (m.putAll sts) := by
  intro a ha
  refine Memory.read_putAll_other fun st hst => ?_
  obtain ⟨w, hw, hlo, hhi⟩ := h st hst
  have := Extent.contains_eq_false.mp (ha w hw)
  omega

theorem storesInside_of_guarded {p q : Plan} (h : p.guarded = .ok q) (hp : p.StoresInside) : q.StoresInside := by
  obtain ⟨_, rfl⟩ := guarded_eq_ok.mp h
  exact hp

theorem storesInside_of_nil {p : Plan} (h : p.stores = []) : p.StoresInside := by
  simp [Plan.StoresInside, h]

/-! ### The plans of each unit -/

theorem matrixPlan_storesInside {s : State} {ins : List ReadRange} {dst : Addr} {r c : Nat} {out : Matrix}
    {q : Plan} (ho : Shaped r c out) (h : matrixPlan s ins dst (r * c) out = .ok q) : q.StoresInside :=
  storesInside_of_guarded h fun _ => Store.inside_singleton (length_matrixBytes ho).le

theorem transformPlan_storesInside {s : State} {tables : List ReadRange} {bufs : List Nat} {n : Nat}
    {out : List (List Byte)} {q : Plan} (ho : RowsWithin n out)
    (h : transformPlan s tables bufs n out = .ok q) : q.StoresInside := by
  refine storesInside_of_guarded h fun st hst => ?_
  obtain ⟨a, ha, bs, hb, rfl⟩ := mem_zipWith hst
  exact Store.inside_of_mem (List.mem_map_of_mem ha) (ho bs hb)

/-- The two buffers of a butterfly command (46_fft.md R320, R321). -/
theorem butterflyOutputs_within {fs : FS} {n : Nat} {bfly : Nat → Vec → Vec → Vec × Vec}
    (hb : ButterflyWithin (elemCount fs n) bfly) (sk : Nat) (s : State) (x y : Nat) :
    let o := bfly sk (toElems fs (s.mem.readBytes x n)) (toElems fs (s.mem.readBytes y n))
    RowsWithin n [ofElems fs o.1, ofElems fs o.2] := by
  have vecs : ∀ a, (toElems fs (s.mem.readBytes a n)).length ≤ elemCount fs n := fun a => by simp [length_toElems]
  obtain ⟨hx, hy⟩ := hb sk _ _ (vecs x) (vecs y)
  exact RowsWithin.map_ofElems (ws := [_, _]) (by simpa [RowsWithin] using ⟨hx, hy⟩)

theorem planXform_storesInside {transform : FS → Nat → Nat → List Vec → List Vec} {fs : FS} {n base len : Word}
    {tab : Addr} {s : State} {q : Plan}
    (ht : ∀ {m b e w}, RowsWithin e w → RowsWithin e (transform fs m b w))
    (h : planXform transform fs n base len tab s = .ok q) : q.StoresInside := by
  simp only [planXform, bind_eq_ok] at h
  obtain ⟨_, _, _, _, _, _, bufs, _, h⟩ := h
  exact transformPlan_storesInside (ht (loadVecs_within fs s _ bufs)).map_ofElems h

theorem le_roundup64 (n : Nat) : n ≤ roundup64 n := by
  unfold roundup64
  omega

/-- ALLOC's buffer `i` and its table entry lie in their ranges (48_control.md R348). -/
theorem allocStores_inside {s : State} {t size n i : Nat} {st : Store} (hi : i < n)
    (h : st ∈ allocStores s t size i) :
    st.Inside (extent t (16 * n) :: (List.range n).map fun i => extent (allocAddr s size i) (roundup64 size)) := by
  simp only [allocStores, List.mem_cons, List.not_mem_nil, or_false] at h
  rcases h with rfl | rfl | rfl | rfl
  · refine Store.inside_of_mem (List.mem_cons_of_mem _ (List.mem_map_of_mem (List.mem_range.mpr hi))) ?_
    simpa using le_roundup64 size
  all_goals
    refine Store.inside_head ?_ ?_ <;> simp only [extent, fieldStore, length_bytesOfNat] <;> omega

/-- The table entry of an output lies in the shard table (20_memory.md R75). -/
theorem entryStores_inside {t size n : Nat} {ws : List Extent} {p : Placed} {st : Store} (hp : p.index < n)
    (h : st ∈ p.entryStores t size) : st.Inside (extent t (16 * n) :: ws) := by
  have field : ∀ o k v, o + k ≤ 16 →
      (fieldStore (t + 16 * p.index + o) k v).Inside (extent t (16 * n) :: ws) := fun o k v hok => by
    refine Store.inside_head ?_ ?_ <;> simp only [extent, fieldStore, length_bytesOfNat] <;> omega
  unfold Placed.entryStores at h
  dsimp only at h
  split at h
  · simp at h
  · split at h
    · simp only [List.mem_cons, List.not_mem_nil, or_false] at h
      rcases h with rfl | rfl | rfl
      · exact field 0 8 _ (by omega)
      · exact field 12 4 _ (by omega)
      · exact field 8 4 _ (by omega)
    · obtain rfl := List.mem_singleton.mp h
      exact field 8 4 _ (by omega)

/-- The bytes of an output lie in its range (20_memory.md R78). -/
theorem shardStore_inside {size : Nat} {ps : List Placed} {p : Placed} {bs : List Byte} {w : Extent} (hp : p ∈ ps)
    (hb : bs.length ≤ size) : (shardStore p.addr bs).Inside (w :: ps.map (Placed.range size)) := by
  refine Store.inside_of_mem (List.mem_cons_of_mem _ (List.mem_map_of_mem hp)) (hb.trans ?_)
  split
  · exact le_roundup64 size
  · exact Nat.le_refl size

theorem outputPlan_storesInside {s : State} {tab : Addr} {xs : List Slot} {outs : List Nat}
    {bytes : List (List Byte)} {extra : List ReadRange} {cache : Option (List CacheEntry)} {q : Plan}
    (hi : ∀ i ∈ outs, i < shardCount s) (hb : RowsWithin (shardLength xs) bytes)
    (h : outputPlan s tab xs outs bytes extra cache = .ok q) : q.StoresInside := by
  unfold outputPlan at h
  dsimp only at h
  have index : ∀ p ∈ (placeOutputs xs (shardLength xs) outs s.scrNext.toNat).1, p.index < shardCount s :=
    fun p hp => hi _ (placeOutputs_indices xs (shardLength xs) outs _ ▸ List.mem_map_of_mem hp)
  generalize (placeOutputs xs (shardLength xs) outs s.scrNext.toNat).1 = ps at index h
  have inside : ∀ st ∈ ps.flatMap (Placed.entryStores tab.toNat (shardLength xs))
      ++ List.zipWith (fun p bs => shardStore (Placed.addr p) bs) ps bytes,
      st.Inside (extent tab.toNat (16 * shardCount s) :: ps.map (Placed.range (shardLength xs))) := by
    intro st hst
    rcases List.mem_append.mp hst with hst | hst
    · obtain ⟨p, hp, hst⟩ := List.mem_flatMap.mp hst
      exact entryStores_inside (index p hp) hst
    · obtain ⟨p, hp, bs, hbs, rfl⟩ := mem_zipWith hst
      exact shardStore_inside hp (hb bs hbs)
  split at h
  · obtain ⟨_, _, h⟩ := bind_eq_ok.mp h
    exact storesInside_of_guarded h inside
  · exact storesInside_of_guarded h inside

theorem planRecovery_storesInside {s : State} {tab : Addr} {xs : List Slot} {needed : List Nat}
    {extra : List ReadRange} {q : Plan} (hi : ∀ i ∈ needed, i < shardCount s)
    (h : planRecovery s tab xs needed extra = .ok q) : q.StoresInside := by
  unfold planRecovery at h
  split at h
  · obtain rfl := Except.ok.inj h
    exact storesInside_of_nil rfl
  · split at h
    · split at h
      · exact outputPlan_storesInside hi (recoveredShards_within s xs _ _ needed) h
      · obtain ⟨_, _, h⟩ := bind_eq_ok.mp h
        exact outputPlan_storesInside hi (recoveredShards_within s xs _ _ needed) h
    · exact outputPlan_storesInside hi (fftRecovered_within s xs needed) h

/-- Every store of UPDATE is a parity shard or an updated data shard (45_codec.md R272). -/
theorem planUpdate_storesInside {cnt n : Word} {tab newTab : Addr} {s : State} {q : Plan}
    (h : planUpdate cnt n tab newTab s = .ok q) : q.StoresInside := by
  simp only [planUpdate, bind_eq_ok] at h
  obtain ⟨_, _, _, _, xs, _, _, _, news, _, _, _, _, _, _, _, h⟩ := h
  split at h
  · obtain rfl := Except.ok.inj h
    exact storesInside_of_nil rfl
  · refine storesInside_of_guarded h fun st hst => ?_
    rcases List.mem_append.mp hst with hst | hst
    · obtain ⟨p, hp, rfl⟩ := List.mem_map.mp hst
      refine Store.inside_of_mem (n := shardLength xs) (List.mem_map_of_mem
        (List.mem_append_right _ (List.mem_map_of_mem hp))) ?_
      simp [shardStore, updatedParity]
    · obtain ⟨i, hi, rfl⟩ := List.mem_map.mp hst
      refine Store.inside_of_mem (n := shardLength xs) (List.mem_map_of_mem (List.mem_append_left _ hi)) ?_
      simp [shardStore]

theorem mem_parityIndices_lt {s : State} {i : Nat} (h : i ∈ parityIndices s) : i < shardCount s := by
  obtain ⟨p, hp, rfl⟩ := List.mem_map.mp h
  have := List.mem_range.mp hp
  unfold shardCount
  omega

theorem mem_filter_range_lt {f : Nat → Bool} {n m i : Nat} (hn : n ≤ m) (h : i ∈ (List.range n).filter f) :
    i < m := (List.mem_range.mp (List.mem_filter.mp h).1).trans_le hn

/-- Every store of a validated command lies in one of its write ranges. The matrix of CTX_READM has the shape of a
legal context. -/
theorem plan_storesInside {i : Instr} {s : State} {p : Plan} (hc : s.ctx.Legal) (h : planOf i s = .ok p) :
    p.StoresInside := by
  cases i <;> simp only [planOf] at h
  case nop | icflush | areset => obtain rfl := Except.ok.inj h; exact storesInside_of_nil rfl
  case alloc =>
    simp only [planAlloc, bind_eq_ok] at h
    obtain ⟨_, _, h⟩ := h
    have inside : ∀ {size n t} {st : Store}, st ∈ (List.range n).flatMap (allocStores s t size) →
        st.Inside (extent t (16 * n)
          :: (List.range n).map fun i => extent (allocAddr s size i) (roundup64 size)) := fun h => by
      obtain ⟨i, hi, h⟩ := List.mem_flatMap.mp h
      exact allocStores_inside (List.mem_range.mp hi) h
    split at h
    · obtain ⟨_, _, h⟩ := bind_eq_ok.mp h
      exact storesInside_of_guarded h fun _ => inside
    · exact storesInside_of_guarded h fun _ => inside
  case configure =>
    simp only [planConfigure, bind_eq_ok] at h
    obtain ⟨_, _, _, _, _, _, ⟨v, up⟩, _, h⟩ := h
    cases v
    · simp only [bind_eq_ok] at h
      obtain ⟨_, _, _, _, h⟩ := h
      obtain rfl := Except.ok.inj h
      exact storesInside_of_nil rfl
    all_goals
      obtain rfl := Except.ok.inj h
      exact storesInside_of_nil rfl
  case ctxReadm =>
    simp only [planCtxReadm, checkConfigured, checkClassical, bind_eq_ok, check_eq_ok] at h
    obtain ⟨_, hv, _, hcl, q, hq, h⟩ := h
    have := matrixPlan_storesInside ⟨hc.rows hv hcl, hc.cols hv hcl⟩ hq
    obtain rfl := Except.ok.inj h
    exact this
  case gfAdd | gfMul | gfInv | gfLog =>
    simp only [planGfAdd, planGfMul, planGfInv, planGfLog, bind_eq_ok] at h
    obtain ⟨_, _, _, _, h⟩ := h
    obtain rfl := Except.ok.inj h
    exact storesInside_of_nil rfl
  case gfPow =>
    obtain ⟨_, _, h⟩ := bind_eq_ok.mp h
    obtain rfl := Except.ok.inj h
    exact storesInside_of_nil rfl
  case gfAlog => obtain rfl := Except.ok.inj h; exact storesInside_of_nil rfl
  case matIdent =>
    simp only [planMatIdent, bind_eq_ok] at h
    obtain ⟨_, _, q, hq, h⟩ := h
    have := matrixPlan_storesInside (shaped_tabulate ..) hq
    obtain rfl := Except.ok.inj h
    exact this
  case matMul =>
    simp only [planMatMul, bind_eq_ok] at h
    obtain ⟨_, _, _, _, _, _, _, _, _, _, _, _, _, _, h⟩ := h
    exact matrixPlan_storesInside (shaped_tabulate ..) h
  case matInv =>
    simp only [planMatInv, bind_eq_ok, readMatrix_eq_ok] at h
    obtain ⟨_, _, _, _, _, _, _, ⟨_, rfl⟩, h⟩ := h
    split at h
    · cases h
    · exact matrixPlan_storesInside (shaped_invert (shaped_matrixAt ..) ‹_›) h
  case matSub =>
    simp only [planMatSub, bind_eq_ok] at h
    obtain ⟨_, _, _, _, _, _, _, _, ri, hr, ci, hcol, _, _, h⟩ := h
    rw [← length_readRowIndices hr, ← length_readColIndices hcol] at h
    exact matrixPlan_storesInside (shaped_subMatrix ..) h
  case matAug =>
    simp only [planMatAug, bind_eq_ok, check_eq_ok, readMatrix_eq_ok] at h
    obtain ⟨_, _, _, _, _, _, _, _, _, hrows, _, _, _, ⟨_, rfl⟩, _, ⟨_, rfl⟩, h⟩ := h
    subst hrows
    exact matrixPlan_storesInside (shaped_augment (shaped_matrixAt ..) (shaped_matrixAt ..)) h
  case matVand =>
    simp only [planMatVand, bind_eq_ok] at h
    obtain ⟨_, _, _, _, _, _, h⟩ := h
    exact matrixPlan_storesInside (shaped_tabulate ..) h
  case matGen =>
    simp only [planMatGen, bind_eq_ok] at h
    obtain ⟨_, _, _, _, _, _, h⟩ := h
    split at h
    · cases h
    · exact matrixPlan_storesInside (shaped_fastOne _ (shaped_buildMatrix ‹_›)) h
  case kaxpy =>
    simp only [planKaxpy, bind_eq_ok] at h
    obtain ⟨_, _, _, _, h⟩ := h
    exact storesInside_of_guarded h fun _ =>
      Store.inside_singleton ((length_axpyBuf_le ..).trans (Memory.length_readBytes ..).le)
  case kmulc =>
    simp only [planKmulc, bind_eq_ok] at h
    obtain ⟨_, _, _, _, h⟩ := h
    exact storesInside_of_guarded h fun _ =>
      Store.inside_singleton ((length_scaleBuf_le ..).trans (Memory.length_readBytes ..).le)
  case kcode =>
    simp only [planKcode, bind_eq_ok] at h
    obtain ⟨_, _, _, _, _, _, _, _, _, _, h⟩ := h
    refine storesInside_of_guarded h fun st hst => ?_
    obtain ⟨row, _, a, ha, rfl⟩ := mem_zipWith hst
    exact Store.inside_of_mem (List.mem_map_of_mem ha) (length_codeOutput_le ..)
  case bflyFft =>
    obtain ⟨_, _, h⟩ := bind_eq_ok.mp h
    obtain ⟨_, _, h⟩ := bind_eq_ok.mp h
    exact transformPlan_storesInside (butterflyOutputs_within (bflyFft_within _ _) _ s _ _) h
  case bflyIfft =>
    obtain ⟨_, _, h⟩ := bind_eq_ok.mp h
    obtain ⟨_, _, h⟩ := bind_eq_ok.mp h
    exact transformPlan_storesInside (butterflyOutputs_within (bflyIfft_within _ _) _ s _ _) h
  case xformFft => exact planXform_storesInside (fft_within _ _ _) h
  case xformIfft => exact planXform_storesInside (ifft_within _ _ _) h
  case fderiv =>
    simp only [planFderiv, bind_eq_ok] at h
    obtain ⟨_, _, _, _, bufs, _, h⟩ := h
    exact transformPlan_storesInside (fderiv_within _ (loadVecs_within _ s _ bufs)).map_ofElems h
  case encode =>
    simp only [planEncode, bind_eq_ok] at h
    obtain ⟨_, _, _, _, _, _, h⟩ := h
    exact outputPlan_storesInside (fun _ => mem_parityIndices_lt) (parityBytes_within s (dataBytes_within s _)) h
  case verify =>
    simp only [planVerify, bind_eq_ok] at h
    obtain ⟨_, _, _, _, _, _, h⟩ := h
    exact storesInside_of_guarded h (storesInside_of_nil rfl)
  case recon =>
    simp only [planRecon, planReconOf, bind_eq_ok] at h
    obtain ⟨_, _, _, _, _, _, h⟩ := h
    exact planRecovery_storesInside (fun _ => mem_filter_range_lt (Nat.le_refl _)) h
  case reconData =>
    simp only [planReconData, planReconOf, bind_eq_ok] at h
    obtain ⟨_, _, _, _, _, _, h⟩ := h
    exact planRecovery_storesInside (fun _ => mem_filter_range_lt (Nat.le_add_right ..)) h
  case reconSome =>
    simp only [planReconSome, bind_eq_ok] at h
    obtain ⟨_, _, _, _, _, _, _, _, _, _, h⟩ := h
    exact planRecovery_storesInside (fun _ => mem_filter_range_lt (Nat.le_refl _)) h
  case update => exact planUpdate_storesInside h
  case encodeIdx =>
    simp only [planEncodeIdx, bind_eq_ok] at h
    obtain ⟨_, _, _, _, _, _, _, _, _, _, ps, _, h⟩ := h
    refine storesInside_of_guarded h fun st hst => ?_
    obtain ⟨x, hx, p, _, rfl⟩ := mem_zipWith hst
    exact Store.inside_of_mem (List.mem_map_of_mem hx)
      ((length_axpyBuf_le ..).trans (Memory.length_readBytes ..).le)

/-! ### Commands -/

/-- Carrying out a validated command changes no byte outside W14, W15 and its write ranges. -/
theorem finishPlan_sameOutside (opc : BitVec 8) (q : Bool) {p : Plan} {s : State} (hp : p.StoresInside) :
    SameOutside (completionBytes s :: p.writes) s.mem (finishPlan opc q p s).mem := by
  have tail : p.writes ⊆ completionBytes s :: p.writes := List.subset_cons_self ..
  have head : [completionBytes s] ⊆ completionBytes s :: p.writes := by simp
  unfold finishPlan
  split
  · have data : SameOutside p.writes s.mem (commit p s).mem := Memory.sameOutside_putAll hp s.mem
    exact (data.mono tail).trans ((complete_sameOutside _ _ _ _ (commit p s)).mono head)
  · have data : SameOutside p.writes s.mem (havoc p.writes (commitRegisters p s)).mem :=
      havoc_sameOutside p.writes (commitRegisters p s)
    have bytes : completionBytes (havoc p.writes (commitRegisters p s)) = completionBytes s := by
      rw [havoc_eq]; rfl
    have done := complete_sameOutside opc q (some busError) 0 (havoc p.writes (commitRegisters p s))
    rw [bytes] at done
    exact (data.mono tail).trans (done.mono head)

/-- Settles O13: a plan stores inside its write ranges, which are those of the command's rule. -/
theorem memoryFrameOfCommands : Obligations.MemoryFrameOfCommands := by
  intro i s t hc h
  rw [exec_eq_finish] at h
  cases h
  cases hv : planOf i s with
  | error e => exact (complete_sameOutside _ _ (some e) 0 s).mono (by simp)
  | ok p =>
    exact (finishPlan_sameOutside _ _ (plan_storesInside hc hv)).mono
      (List.cons_subset_cons _ (plan_writes hv).ranges)

end Sys2Proof.Machine
end

section
/-! SUPPORT. Encoding and decoding of descriptors (spec/30_encoding.md): words as bytes, the header's fields as numbers,
and that decoding gives back what was encoded. -/

namespace Sys2Proof.Machine

/-! ### Words and bytes (R101, R102) -/

/-- Word `n` of the bytes of descriptor words is the `n`-th of them. -/
theorem wordAt_bytesOfWords (ws : List Word) (n : Nat) (h : n < ws.length) :
    wordAt (bytesOfWords ws) n = wordOf ws n := by
  induction ws generalizing n with
  | nil => simp at h
  | cons w ws ih =>
    cases n with
    | zero =>
      have head : (bytesOfWords (w :: ws)).take 4 = bytesOfNat 4 w.toNat := List.take_left' (length_bytesOfNat ..)
      simp only [wordAt, Nat.mul_zero, List.drop_zero, head, natOfBytes_bytesOfNat]
      exact BitVec.eq_of_toNat_eq (by simp [wordOf, w.isLt])
    | succ n =>
      have tail : (bytesOfWords (w :: ws)).drop (4 * (n + 1)) = (bytesOfWords ws).drop (4 * n) := by
        rw [Nat.mul_add, Nat.mul_one, Nat.add_comm, ← List.drop_drop, bytesOfWords,
          List.drop_left' (length_bytesOfNat ..)]
      simp only [wordAt, tail]
      exact ih n (Nat.lt_of_succ_lt_succ h)

theorem length_bytesOfWords (ws : List Word) : (bytesOfWords ws).length = 4 * ws.length := by
  induction ws with
  | nil => rfl
  | cons w ws ih => simp only [bytesOfWords, List.length_append, length_bytesOfNat, ih, List.length_cons]; omega

/-- The sixteen words of a descriptor's bytes (R101, R102). -/
theorem wordsOfBytes_bytesOfWords {ws : List Word} (h : ws.length = 16) : wordsOfBytes (bytesOfWords ws) = ws := by
  apply List.ext_getElem (by simp [wordsOfBytes, h])
  intro n _ hn
  simp only [wordsOfBytes, List.getElem_map, List.getElem_range, wordAt_bytesOfWords ws n hn]
  exact (List.getElem_eq_getD 0).symm

theorem decode_eq_decodeWords {bs : List Byte} (h : bs.length = 64) : decode bs = decodeWords (wordsOfBytes bs) :=
  if_pos h

theorem wordOf_wordsOfBytes_zero (bs : List Byte) : wordOf (wordsOfBytes bs) 0 = wordAt bs 0 := rfl

/-! ### The header's fields as numbers (R102) -/

theorem toNat_opcOf (w : Word) : (opcOf w).toNat = w.toNat % 2 ^ 8 := by
  simp [opcOf]

theorem irqOf_eq (w : Word) : irqOf w = decide (w.toNat / 2 ^ 16 % 2 = 1) :=
  Nat.testBit_eq_decide_div_mod_eq

theorem fsOf_eq_some {w : Word} {fs : FS} : fsOf w = some fs ↔ w.toNat / 2 ^ 8 % 2 ^ 2 = fsCode fs := by
  have field : (w.extractLsb' 8 2).toNat = w.toNat / 2 ^ 8 % 2 ^ 2 := by simp [Nat.shiftRight_eq_div_pow]
  unfold fsOf
  rw [field]
  split <;> cases fs <;> simp_all [fsCode]

theorem reservedClear_iff {w : Word} :
    reservedClear w = true ↔ w.toNat / 2 ^ 10 % 2 ^ 6 = 0 ∧ w.toNat / 2 ^ 24 = 0 := by
  have := w.isLt
  simp only [reservedClear, Bool.and_eq_true, beq_iff_eq, ← BitVec.toNat_inj, BitVec.extractLsb'_toNat,
    Nat.shiftRight_eq_div_pow, BitVec.ofNat_eq_ofNat, BitVec.toNat_ofNat]
  omega

theorem flagsWithin_eq (n : Nat) (w : Word) : flagsWithin n w = decide (w.toNat / 2 ^ 17 % 2 ^ 7 < 2 ^ n) := by
  simp [flagsWithin, Nat.shiftRight_eq_div_pow]

/-! ### The header that `encode` writes (R118) -/

@[simp] theorem fsCode_lt (fs : FS) : fsCode fs < 4 := by cases fs <;> decide

section
variable {o f c : Nat} (ho : o < 256) (hf : f < 4) (q : Bool) (hc : c < 128)
include ho hf hc

theorem toNat_headerWord :
    (headerWord o f q c).toNat = o + f * 2 ^ 8 + q.toNat * 2 ^ 16 + c * 2 ^ 17 := by
  have := q.toNat_lt
  simp only [headerWord, BitVec.toNat_ofNat]
  omega

@[simp] theorem opcOf_headerWord : (opcOf (headerWord o f q c)).toNat = o := by
  rw [toNat_opcOf, toNat_headerWord ho hf q hc]
  omega

@[simp] theorem irqOf_headerWord : irqOf (headerWord o f q c) = q := by
  have bit : (headerWord o f q c).toNat / 2 ^ 16 % 2 = q.toNat := by
    have := q.toNat_lt
    rw [toNat_headerWord ho hf q hc]
    omega
  rw [irqOf_eq, bit]
  cases q <;> rfl

theorem fsOf_headerWord {fs : FS} : fsOf (headerWord o f q c) = some fs ↔ f = fsCode fs := by
  have field : (headerWord o f q c).toNat / 2 ^ 8 % 2 ^ 2 = f := by
    have := q.toNat_lt
    rw [toNat_headerWord ho hf q hc]
    omega
  rw [fsOf_eq_some, field]

@[simp] theorem reservedClear_headerWord : reservedClear (headerWord o f q c) = true := by
  have := q.toNat_lt
  rw [reservedClear_iff, toNat_headerWord ho hf q hc]
  omega

theorem flags_headerWord : (headerWord o f q c).toNat / 2 ^ 17 = c := by
  have := q.toNat_lt
  rw [toNat_headerWord ho hf q hc]
  omega

theorem flagsWithin_headerWord (n : Nat) : flagsWithin n (headerWord o f q c) = decide (c < 2 ^ n) := by
  rw [flagsWithin_eq, flags_headerWord ho hf q hc, Nat.mod_eq_of_lt (show c < 2 ^ 7 from hc)]

/-- The CFLAGS bits of the header, from bit 17 on, are the bits of the CFLAGS value. -/
@[simp] theorem getElem_headerWord {n : Nat} (hn : 17 ≤ n) (h : n < 32) :
    (headerWord o f q c)[n] = c.testBit (n - 17) := by
  have flags := flags_headerWord ho hf q hc
  calc (headerWord o f q c)[n]
      = (headerWord o f q c).toNat.testBit (n - 17 + 17) := by rw [Nat.sub_add_cancel hn]; rfl
    _ = c.testBit (n - 17) := by rw [← Nat.testBit_div_two_pow, flags]

end

section
variable {o : Nat} (ho : o < 256) (q : Bool)
include ho

theorem classical_headerWord {c n : Nat} (hc : c < 128) (hn : c < 2 ^ n) (i : Instr) :
    classical (headerWord o 0 q c) n i = .ok i := by
  have hfs : fsOf (headerWord o 0 q c) = some .gf8 := (fsOf_headerWord ho (by decide) q hc).mpr rfl
  simp [classical, hfs, flagsWithin_headerWord ho, hc, hn]

theorem anyField_headerWord (fs : FS) (i : FS → Instr) :
    anyField (headerWord o (fsCode fs) q 0) i = .ok (i fs) := by
  have hfs : fsOf (headerWord o (fsCode fs) q 0) = some fs := (fsOf_headerWord ho (fsCode_lt fs) q (by decide)).mpr rfl
  simp [anyField, hfs, flagsWithin_headerWord ho]

theorem cantorField_headerWord {fs : FS} (hf : fs.isCantor = true) (i : FS → Instr) :
    cantorField (headerWord o (fsCode fs) q 0) i = .ok (i fs) := by
  have hfs : fsOf (headerWord o (fsCode fs) q 0) = some fs := (fsOf_headerWord ho (fsCode_lt fs) q (by decide)).mpr rfl
  simp [cantorField, hfs, hf, flagsWithin_headerWord ho]

end

/-! ### Decoding what `encode` writes -/

section
variable (w a b c d l : Word) (p q r t : Addr)

@[simp] theorem wordOf_d64_header : wordOf (d64 w a b c d l p q r t) 0 = w := rfl
@[simp] theorem wordOf_d64_a : wordOf (d64 w a b c d l p q r t) 1 = a := rfl
@[simp] theorem wordOf_d64_b : wordOf (d64 w a b c d l p q r t) 2 = b := rfl
@[simp] theorem wordOf_d64_c : wordOf (d64 w a b c d l p q r t) 3 = c := rfl
@[simp] theorem wordOf_d64_d : wordOf (d64 w a b c d l p q r t) 4 = d := rfl
@[simp] theorem wordOf_d64_len : wordOf (d64 w a b c d l p q r t) 5 = l := rfl

/-- A pointer's halves, put together again (R103). -/
theorem append_halves : p.extractLsb' 32 32 ++ p.extractLsb' 0 32 = p := by
  rw [BitVec.extractLsb'_append_extractLsb'_eq_extractLsb' (by rfl)]
  exact BitVec.extractLsb'_eq_self

@[simp] theorem pointerOf_d64_p0 : pointerOf (d64 w a b c d l p q r t) 6 = p := append_halves p
@[simp] theorem pointerOf_d64_p1 : pointerOf (d64 w a b c d l p q r t) 8 = q := append_halves q
@[simp] theorem pointerOf_d64_p2 : pointerOf (d64 w a b c d l p q r t) 10 = r := append_halves r
@[simp] theorem pointerOf_d64_p3 : pointerOf (d64 w a b c d l p q r t) 12 = t := append_halves t

end

theorem length_encode (i : Instr) : (encode i).length = 16 := by cases i <;> rfl

/-- The CFLAGS value of CONFIGURE has the three flags as its bits (R106). -/
theorem configureFlags_bits (f g h : Bool) :
    let c := f.toNat + 2 * g.toNat + 4 * h.toNat
    c < 8 ∧ c.testBit 0 = f ∧ c.testBit 1 = g ∧ c.testBit 2 = h := by
  decide +revert

theorem flag_bits (f : Bool) : f.toNat < 2 ∧ f.toNat.testBit 0 = f := by
  decide +revert

/-- The words of a command decode to it. -/
theorem decodeWords_encode {i : Instr} (h : i.wellFormed = true) : decodeWords (encode i) = .ok i := by
  cases i
  case configure irq f g k _ _ _ _ _ =>
    obtain ⟨hc, h0, h1, h2⟩ := configureFlags_bits f g k
    have hc' := hc.trans (show 8 < 128 by decide)
    simp [encode, decodeWords, classical_headerWord, hc, hc', h0, h1, h2]
  case matGen irq f _ _ _ _ | kcode irq f _ _ _ _ _ _ =>
    obtain ⟨hc, h0⟩ := flag_bits f
    have hc' := hc.trans (show 2 < 128 by decide)
    simp [encode, decodeWords, classical_headerWord, hc, hc', h0]
  case nop | icflush | alloc | areset | ctxReadm | matIdent | matMul | matInv | matSub | matAug | matVand | encode
      | verify | recon | reconData | reconSome | update | encodeIdx =>
    simp [encode, decodeWords, classical_headerWord]
  case gfAdd | gfMul | gfInv | gfPow | gfLog | gfAlog | kaxpy | kmulc =>
    simp [encode, decodeWords, anyField_headerWord]
  case bflyFft fs _ _ _ _ | bflyIfft fs _ _ _ _ | xformFft fs _ _ _ _ | xformIfft fs _ _ _ _ | fderiv fs _ _ _ =>
    have hf : fs.isCantor = true := h
    simp [encode, decodeWords, cantorField_headerWord, hf]

/-- Settles O1: the bytes give the words back, and the words the command, whose header and operands are read
where they were written. -/
theorem decodeEncodeRoundTrip : Obligations.DecodeEncodeRoundTrip := by
  intro i hi
  have len : (encodeBytes i).length = 64 := by rw [encodeBytes, length_bytesOfWords, length_encode]
  rw [decode_eq_decodeWords len, encodeBytes, wordsOfBytes_bytesOfWords (length_encode i), decodeWords_encode hi]

/-- Settles O2: the words are those that `encode` writes. -/
theorem specWordsDecode : Obligations.SpecWordsDecode :=
  ⟨decodeWords_encode (i := .nop true) rfl, decodeWords_encode (i := .configure false true false false 5 5 0 0 0) rfl,
   decodeWords_encode (i := .gfPow false .gf16c 2 16) rfl,
   decodeWords_encode (i := .matInv false 2 2 0x2000 0x2100) rfl,
   decodeWords_encode (i := .kcode false false 2 3 4 0x6000 0x6100 0x6180) rfl,
   decodeWords_encode (i := .verify true 10 0x30000) rfl⟩

end Sys2Proof.Machine
end

section
/-! SUPPORT. Which descriptors decode (spec/30_encoding.md R105, R106, R109, R111): the row of the opcode map decides,
opcode by opcode, and no other word of the descriptor does. -/

namespace Sys2Proof.Machine

/-! ### The row of an opcode -/

theorem headerLegal_iff {w : Word} : headerLegal w = true ↔ reservedClear w = true ∧ ∃ r ∈ opcodeMap,
    (opcOf w).toNat = r.1 ∧ w.toNat / 2 ^ 8 % 2 ^ 2 ∈ r.2.1 ∧ flagsWithin r.2.2 w = true := by
  simp only [headerLegal, reservedClear_iff, flagsWithin_eq, toNat_opcOf, Bool.and_eq_true, beq_iff_eq,
    List.any_eq_true, List.contains_iff_mem, and_assoc]

/-- The row of an opcode decides (R109). -/
theorem headerLegal_iff_of_row {w : Word} {fss : List FS} {o n : Nat} (hr : reservedClear w = true)
    (ho : (opcOf w).toNat = o) (hm : (o, fss.map fsCode, n) ∈ opcodeMap) :
    headerLegal w = true ↔ (∃ fs ∈ fss, fsOf w = some fs) ∧ flagsWithin n w = true := by
  have unique : (opcodeMap.map Prod.fst).Nodup := by decide
  have field : w.toNat / 2 ^ 8 % 2 ^ 2 ∈ fss.map fsCode ↔ ∃ fs ∈ fss, fsOf w = some fs := by
    simp only [List.mem_map, fsOf_eq_some, eq_comm (a := fsCode _)]
  rw [headerLegal_iff, ← field]
  constructor
  · rintro ⟨-, r, hr', he, hl⟩
    obtain rfl := List.inj_on_of_nodup_map unique hr' hm (he.symm.trans ho)
    exact hl
  · exact fun hl => ⟨hr, _, hm, ho, hl⟩

/-! ### What decoding may answer -/

/-- What decoding a descriptor with the header `w` may answer: a command with this opcode and IRQ flag if the opcode
map accepts the header, and an error if not. -/
def DecodesAs (w : Word) : Except DecodeError Instr → Prop
  | .ok i => headerLegal w = true ∧ i.wellFormed = true ∧ opcOf w = opcodeOf i ∧ irqOf w = irqFlagOf i
  | .error _ => headerLegal w = false

theorem DecodesAs.illegal {w : Word} {e : DecodeError} (h : headerLegal w = true → False) : DecodesAs w (.error e) :=
  Bool.eq_false_iff.mpr h

section
variable {w : Word} {o : Nat} (hr : reservedClear w = true) (ho : (opcOf w).toNat = o)
include hr ho

theorem classical_decodesAs {n : Nat} {i : Instr} (hm : (o, [FS.gf8].map fsCode, n) ∈ opcodeMap)
    (hi : i.wellFormed = true ∧ (opcodeOf i).toNat = o ∧ irqFlagOf i = irqOf w) : DecodesAs w (classical w n i) := by
  obtain ⟨hw, hc, hq⟩ := hi
  have legal := headerLegal_iff_of_row hr ho hm
  simp only [List.mem_singleton, exists_eq_left] at legal
  unfold classical
  split
  next hfs => exact .illegal fun h => hfs (legal.mp h).1
  next hfs =>
    split
    next hn => exact .illegal fun h => by simp [(legal.mp h).2] at hn
    next hn =>
      exact ⟨legal.mpr ⟨not_not.mp hfs, by simpa using hn⟩, hw, BitVec.eq_of_toNat_eq (ho.trans hc.symm), hq.symm⟩

theorem anyField_decodesAs {i : FS → Instr} (hm : (o, [FS.gf8, .gf8c, .gf16c].map fsCode, 0) ∈ opcodeMap)
    (hi : ∀ fs, (i fs).wellFormed = true ∧ (opcodeOf (i fs)).toNat = o ∧ irqFlagOf (i fs) = irqOf w) :
    DecodesAs w (anyField w i) := by
  have legal := headerLegal_iff_of_row hr ho hm
  unfold anyField
  split
  next hfs =>
    refine .illegal fun h => ?_
    obtain ⟨⟨_, -, h'⟩, -⟩ := legal.mp h
    cases hfs.symm.trans h'
  next fs hfs =>
    obtain ⟨hw, hc, hq⟩ := hi fs
    have accepted : fs ∈ [FS.gf8, .gf8c, .gf16c] := by cases fs <;> decide
    split
    next hn => exact .illegal fun h => by simp [(legal.mp h).2] at hn
    next hn =>
      exact ⟨legal.mpr ⟨⟨fs, accepted, hfs⟩, by simpa using hn⟩, hw, BitVec.eq_of_toNat_eq (ho.trans hc.symm),
        hq.symm⟩

theorem cantorField_decodesAs {i : FS → Instr} (hm : (o, [FS.gf8c, .gf16c].map fsCode, 0) ∈ opcodeMap)
    (hi : ∀ fs, (i fs).wellFormed = fs.isCantor ∧ (opcodeOf (i fs)).toNat = o ∧ irqFlagOf (i fs) = irqOf w) :
    DecodesAs w (cantorField w i) := by
  have legal := headerLegal_iff_of_row hr ho hm
  unfold cantorField
  split
  next hfs =>
    refine .illegal fun h => ?_
    obtain ⟨⟨_, -, h'⟩, -⟩ := legal.mp h
    cases hfs.symm.trans h'
  next fs hfs =>
    obtain ⟨hw, hc, hq⟩ := hi fs
    have accepted : fs ∈ [FS.gf8c, .gf16c] ↔ fs.isCantor = true := by cases fs <;> decide
    split
    next hf =>
      refine .illegal fun h => ?_
      obtain ⟨⟨_, hm', h'⟩, -⟩ := legal.mp h
      obtain rfl := Option.some.inj (hfs.symm.trans h')
      simp [accepted.mp hm'] at hf
    next hf =>
      have hf : fs.isCantor = true := by simpa using hf
      split
      next hn => exact .illegal fun h => by simp [(legal.mp h).2] at hn
      next hn =>
        exact ⟨legal.mpr ⟨⟨fs, accepted.mpr hf, hfs⟩, by simpa using hn⟩, hw.trans hf,
          BitVec.eq_of_toNat_eq (ho.trans hc.symm), hq.symm⟩

end

/-- Decoding accepts the headers of the opcode map. -/
theorem decodeWords_decodesAs (ws : List Word) : DecodesAs (wordOf ws 0) (decodeWords ws) := by
  unfold decodeWords
  dsimp only
  split
  next hr => exact .illegal fun h => by simp [(headerLegal_iff.mp h).1] at hr
  next hr =>
    have hr : reservedClear (wordOf ws 0) = true := by simpa using hr
    split
    case h_1 | h_2 | h_3 | h_4 | h_5 | h_6 | h_13 | h_14 | h_15 | h_16 | h_17 | h_18 | h_19 | h_22 | h_28 | h_29 | h_30
        | h_31 | h_32 | h_33 | h_34 =>
      rename_i ho
      exact classical_decodesAs hr ho (by decide) ⟨rfl, rfl, rfl⟩
    case h_7 | h_8 | h_9 | h_10 | h_11 | h_12 | h_20 | h_21 =>
      rename_i ho
      exact anyField_decodesAs hr ho (by decide) fun _ => ⟨rfl, rfl, rfl⟩
    case h_23 | h_24 | h_25 | h_26 | h_27 =>
      rename_i ho
      exact cantorField_decodesAs hr ho (by decide) fun _ => ⟨rfl, rfl, rfl⟩
    case h_35 =>
      have unlisted : ∀ r ∈ opcodeMap, (opcOf (wordOf ws 0)).toNat ≠ r.1 := by
        simp only [opcodeMap, List.cons_append, List.nil_append, List.forall_mem_cons, List.not_mem_nil,
          false_implies, implies_true, and_true]
        and_intros <;> assumption
      refine .illegal fun h => ?_
      obtain ⟨-, r, hm, ho, -⟩ := headerLegal_iff.mp h
      exact unlisted r hm ho

/-- Settles O3: the header decides, and no field lies in W14 or W15. -/
theorem decodedCommandMatchesHeader : Obligations.DecodedCommandMatchesHeader := by
  refine ⟨fun ws i h => ?_, fun ws vs h => ?_⟩
  · have spec := decodeWords_decodesAs ws
    rw [h] at spec
    obtain ⟨hl, hw, ho, hq⟩ := spec
    exact ⟨hw, hl, ho, hq⟩
  · have pointers : ∀ n, n < 13 → pointerOf ws n = pointerOf vs n := fun n hn => by
      rw [pointerOf, pointerOf, h n (by omega), h (n + 1) (by omega)]
    simp only [decodeWords, h, pointers, Nat.reduceLT]

end Sys2Proof.Machine
end

section
/-! SUPPORT. Steps of the ready machine (spec/30_encoding.md R101, R111): it runs the command that the descriptor at
CQ_HEAD decodes to, or completes with ILLEGAL_COMMAND. -/

namespace Sys2Proof.Machine

/-! ### Completions whose writeback is refused (60_exceptions.md R364, R370) -/

/-- Taking an error that halts, field by field (60_exceptions.md R365, R368). -/
theorem raiseError_eq_halted (e : Err) (index : Half) (opc : BitVec 8) (s : State) :
    raiseError e index opc true s
      = { s with errCode := e.code.number, errIndex := index, errIdx := e.idx, errOpc := opc,
                 irqStat := haltStat s (s.irqStat ||| 2), halted := true } := by
  simp only [raiseError, Bool.or_true, if_true]
  rfl

/-- A completion whose writeback is refused, field by field (60_exceptions.md R364, R370). -/
theorem complete_eq_unreported {s : State} (h : ¬ CanComplete s) (opc : BitVec 8) (q : Bool) (e : Option Err)
    (r : Word) : complete opc q e r s = unreported opc q (completionResult e r) s := by
  unfold complete
  rw [if_neg (show ¬ writebackAdmitted s = true from h), refusedRegisters, signalDone_eq, raiseError_eq_halted]
  rfl

/-! ### The step of the ready machine -/

/-- The ready machine runs the words of the descriptor at CQ_HEAD (R101, R381). -/
theorem step_of_ready {s : State} (h : ReadyToFetch s) :
    step s = runWords (wordsOfBytes (s.mem.readBytes (descAddr s) 64)) s := by
  have ready : fetchReady s = true := by
    simp [fetchReady, busy, h.enabled, h.running, h.queuedOne, h.inflight]
  have permitted : fetchPermitted s = true := h.descriptor
  simp [step, cpWhole, h.inputs, h.inflight, ready, permitted, fetchBytes, afterFetch, h.dirty]

/-- Without a logged host write nothing races. -/
theorem runCommand_of_clean {s : State} (h : s.dirty = []) (i : Instr) : runCommand i s = exec i s := by
  simp [runCommand, raced, h]

/-- Settles O5: the ready machine runs the decoded words, and nothing races with them. -/
theorem stepRunsDecodedCommand : Obligations.StepRunsDecodedCommand := by
  intro s i h hd
  rw [decode_eq_decodeWords (Memory.length_readBytes ..)] at hd
  rw [step_of_ready h, runWords, hd]
  exact runCommand_of_clean h.dirty i

/-- The ready machine completes a descriptor that does not decode with ILLEGAL_COMMAND (R111). -/
theorem step_of_undecoded {s : State} {e : DecodeError} (h : ReadyToFetch s)
    (hd : decodeWords (wordsOfBytes (s.mem.readBytes (descAddr s) 64)) = .error e) :
    step s = .next (illegalCommand (wordsOfBytes (s.mem.readBytes (descAddr s) 64)) s) := by
  rw [step_of_ready h, runWords, hd]

/-- Settles O4: a header decodes exactly if it is legal, and the completion of ILLEGAL_COMMAND is a reported or an
unreported one. -/
theorem illegalDescriptorsRejected : Obligations.IllegalDescriptorsRejected := by
  intro s h
  have spec := decodeWords_decodesAs (wordsOfBytes (s.mem.readBytes (descAddr s) 64))
  rw [wordOf_wordsOfBytes_zero] at spec
  cases hd : decodeWords (wordsOfBytes (s.mem.readBytes (descAddr s) 64)) with
  | error e =>
    rw [hd] at spec
    have illegal : headerLegal (wordAt (s.mem.readBytes (descAddr s) 64) 0) = false := spec
    rw [step_of_undecoded h hd, illegalCommand, wordOf_wordsOfBytes_zero]
    refine ⟨fun _ hc => ?_, fun _ hc => ?_, fun hl => ?_⟩
    · rw [complete_eq_failed hc]; rfl
    · rw [complete_eq_unreported hc]; rfl
    · rw [illegal] at hl; cases hl
  | ok i =>
    rw [hd] at spec
    have legal : headerLegal (wordAt (s.mem.readBytes (descAddr s) 64) 0) = true := spec.1
    have decoded : decode (s.mem.readBytes (descAddr s) 64) = .ok i := by
      rw [decode_eq_decodeWords (Memory.length_readBytes ..), hd]
    simp only [legal, Bool.true_eq_false, false_implies, true_and, forall_const]
    exact ⟨i, decoded, stepRunsDecodedCommand s i h decoded⟩

end Sys2Proof.Machine
end

section
/-! SUPPORT. Polynomials modulo the field polynomial (spec/41_field.md R133, R136, R137): multiplication by x is linear,
and a product with x^i is i multiplications by x. -/

namespace Sys2Proof.Machine

/-! ### Multiplication by x -/

theorem two_mul_xor (a b : Nat) : 2 * (a ^^^ b) = 2 * a ^^^ 2 * b := by
  simpa [Nat.shiftLeft_eq, Nat.mul_comm] using Nat.shiftLeft_xor_distrib (a := a) (b := b) (i := 1)

/-- `xtime` by the number that leaves the element's width: 0 or 1. -/
theorem xtime_eq {fs : FS} {p : Nat} (hp : p < 2 ^ width fs) :
    xtime fs p = 2 * p ^^^ (if 2 * p / 2 ^ width fs = 1 then poly fs else 0) := by
  unfold xtime
  split
  · rw [Nat.div_eq_of_lt ‹_›]; simp
  · rw [if_pos (Nat.div_eq_of_lt_le (by omega) (by omega))]

theorem poly_div_width (fs : FS) : poly fs / 2 ^ width fs = 1 := by cases fs <;> rfl

theorem xtime_lt {fs : FS} {p : Nat} (hp : p < 2 ^ width fs) : xtime fs p < 2 ^ width fs := by
  unfold xtime
  split
  · assumption
  · have high : 2 * p / 2 ^ width fs = 1 := Nat.div_eq_of_lt_le (by omega) (by omega)
    have : (2 * p ^^^ poly fs) / 2 ^ width fs = 0 := by rw [Nat.xor_div_two_pow, high, poly_div_width, Nat.xor_self]
    exact (Nat.div_eq_zero_iff_lt (Nat.two_pow_pos _)).mp this

/-- Multiplication by x is linear. -/
theorem xtime_xor {fs : FS} {p q : Nat} (hp : p < 2 ^ width fs) (hq : q < 2 ^ width fs) :
    xtime fs (p ^^^ q) = xtime fs p ^^^ xtime fs q := by
  have bit : ∀ r < 2 ^ width fs, 2 * r / 2 ^ width fs = 0 ∨ 2 * r / 2 ^ width fs = 1 := fun r hr =>
    Nat.le_one_iff_eq_zero_or_eq_one.mp (Nat.le_of_lt_succ (Nat.div_lt_of_lt_mul (by omega)))
  rw [xtime_eq hp, xtime_eq hq, xtime_eq (Nat.xor_lt_two_pow hp hq), two_mul_xor, Nat.xor_div_two_pow]
  rcases bit p hp with h | h <;> rcases bit q hq with h' | h' <;>
    simp [h, h', Nat.xor_assoc, Nat.xor_comm, Nat.xor_left_comm]

@[simp] theorem xtime_zero (fs : FS) : xtime fs 0 = 0 := by simp [xtime]

/-- The field polynomial has a constant term, so no multiplication by x gives 0. -/
theorem xtime_ne_zero {fs : FS} {p : Nat} (hp : p ≠ 0) : xtime fs p ≠ 0 := by
  unfold xtime
  split
  · omega
  · intro h
    have even := Nat.xor_eq_zero_iff.mp h
    cases fs <;> simp only [poly] at even <;> omega

theorem xtime_two_pow {fs : FS} {k : Nat} (hk : k + 1 < width fs) : xtime fs (2 ^ k) = 2 ^ (k + 1) := by
  have : 2 ^ (k + 1) < 2 ^ width fs := Nat.pow_lt_pow_right (by decide) hk
  rw [xtime, if_pos] <;> omega

/-! ### Products -/

theorem select_lt {w c : Nat} (hc : c < 2 ^ w) (b : Prop) [Decidable b] : (if b then c else 0) < 2 ^ w := by
  split
  · exact hc
  · exact Nat.two_pow_pos w

theorem polyMulBits_lt {fs : FS} (n : Nat) {p : Nat} (q : Nat) (hp : p < 2 ^ width fs) :
    polyMulBits fs n p q < 2 ^ width fs := by
  induction n generalizing p q with
  | zero => exact Nat.two_pow_pos _
  | succ n ih => exact Nat.xor_lt_two_pow (select_lt hp _) (ih _ (xtime_lt hp))

/-- Multiplication by x passes into a product. -/
theorem xtime_polyMulBits {fs : FS} (n : Nat) {p : Nat} (q : Nat) (hp : p < 2 ^ width fs) :
    xtime fs (polyMulBits fs n p q) = polyMulBits fs n (xtime fs p) q := by
  induction n generalizing p q with
  | zero => exact xtime_zero fs
  | succ n ih =>
    rw [polyMulBits, xtime_xor (select_lt hp _) (polyMulBits_lt _ _ (xtime_lt hp)), ih _ (xtime_lt hp), polyMulBits]
    split <;> simp

/-- A product is linear in its second factor. -/
theorem polyMulBits_xor (fs : FS) (n p q r : Nat) :
    polyMulBits fs n p (q ^^^ r) = polyMulBits fs n p q ^^^ polyMulBits fs n p r := by
  induction n generalizing p q r with
  | zero => exact (Nat.xor_self 0).symm
  | succ n ih =>
    simp only [polyMulBits, Nat.xor_div_two, ih, Nat.xor_mod_two_eq]
    rcases Nat.mod_two_eq_zero_or_one q with hq | hq <;> rcases Nat.mod_two_eq_zero_or_one r with hr | hr <;>
      simp [Nat.add_mod, hq, hr, Nat.xor_assoc, Nat.xor_left_comm]

theorem polyMulBits_zero_left (fs : FS) (n q : Nat) : polyMulBits fs n 0 q = 0 := by
  induction n generalizing q with
  | zero => rfl
  | succ n ih => simp [polyMulBits, ih]

theorem polyMulBits_zero_right (fs : FS) (n p : Nat) : polyMulBits fs n p 0 = 0 := by
  induction n generalizing p with
  | zero => rfl
  | succ n ih => simp [polyMulBits, ih]

/-- The product of x^k and a polynomial whose degree leaves room is a shift. -/
theorem polyMulBits_two_pow {fs : FS} (n k q : Nat) (hn : n + k ≤ width fs) (hq : q < 2 ^ n) :
    polyMulBits fs n (2 ^ k) q = q * 2 ^ k := by
  induction n generalizing k q with
  | zero => simp [polyMulBits, show q = 0 by omega]
  | succ n ih =>
    have rest : polyMulBits fs n (xtime fs (2 ^ k)) (q / 2) = q / 2 * 2 ^ (k + 1) := by
      cases n with
      | zero => simp [polyMulBits, show q / 2 = 0 by omega]
      | succ n =>
        rw [xtime_two_pow (by omega)]
        exact ih (k + 1) (q / 2) (by omega) (by rw [Nat.pow_succ] at hq; omega)
    rw [polyMulBits, rest, low_bit_xor]

theorem polyMul_one_left {fs : FS} {q : Nat} (hq : q < 2 ^ width fs) : polyMul fs 1 q = q := by
  simpa [polyMul] using polyMulBits_two_pow (fs := fs) (width fs) 0 q le_rfl hq

/-! ### Powers of x -/

theorem xpow_eq_iterate (fs : FS) (i : Nat) : xpow fs i = (xtime fs)^[i] 1 := by
  induction i with
  | zero => rfl
  | succ i ih => rw [Function.iterate_succ_apply', ← ih, xpow]

theorem xpow_lt (fs : FS) (i : Nat) : xpow fs i < 2 ^ width fs := by
  induction i with
  | zero => cases fs <;> decide
  | succ i ih => exact xtime_lt ih

theorem xpow_ne_zero (fs : FS) (i : Nat) : xpow fs i ≠ 0 := by
  induction i with
  | zero => exact Nat.one_ne_zero
  | succ i ih => exact xtime_ne_zero ih

/-- A product with x^i is i multiplications by x. -/
theorem polyMul_xpow {fs : FS} (i : Nat) {q : Nat} (hq : q < 2 ^ width fs) :
    polyMul fs (xpow fs i) q = (xtime fs)^[i] q := by
  induction i with
  | zero => exact polyMul_one_left hq
  | succ i ih =>
    rw [Function.iterate_succ_apply', ← ih]
    exact (xtime_polyMulBits _ _ (xpow_lt fs i)).symm

theorem polyMul_xpow_xpow (fs : FS) (i j : Nat) : polyMul fs (xpow fs i) (xpow fs j) = xpow fs (i + j) := by
  rw [polyMul_xpow i (xpow_lt fs j), xpow_eq_iterate, xpow_eq_iterate, Function.iterate_add_apply]

end Sys2Proof.Machine
end

section
/-! SUPPORT. The elements of each field representation as powers of x (spec/41_field.md R133, R136, R137): x has order
Q, so its powers are the nonzero elements, and the log table names their exponents. -/

namespace Sys2Proof.Machine

/-! ### The change of basis (R137) -/

theorem xorSelect_lt {w : Nat} {cs : List Nat} (h : ∀ c ∈ cs, c < 2 ^ w) (a : Nat) : xorSelect cs a < 2 ^ w := by
  induction cs generalizing a with
  | nil => exact Nat.two_pow_pos w
  | cons c cs ih =>
    exact Nat.xor_lt_two_pow (select_lt (h c (by simp)) _) (ih (fun d hd => h d (by simp [hd])) _)

theorem toPoly_lt {fs : FS} {a : Nat} (ha : a < 2 ^ width fs) : toPoly fs a < 2 ^ width fs := by
  cases fs with
  | gf8 => exact ha
  | gf8c => exact xorSelect_lt (w := 8) (by decide) a
  | gf16c => exact xorSelect_lt (w := 16) (by decide) a

theorem fromPoly_lt {fs : FS} {p : Nat} (hp : p < 2 ^ width fs) : fromPoly fs p < 2 ^ width fs := by
  cases fs with
  | gf8 => exact hp
  | gf8c => exact xorSelect_lt (w := 8) (by decide) p
  | gf16c => exact xorSelect_lt (w := 16) (by decide) p

theorem toPoly_xor (fs : FS) (a b : Nat) : toPoly fs (a ^^^ b) = toPoly fs a ^^^ toPoly fs b := by
  cases fs with
  | gf8 => rfl
  | gf8c => exact xorSelect_xor _ a b
  | gf16c => exact xorSelect_xor _ a b

theorem fromPoly_xor (fs : FS) (p q : Nat) : fromPoly fs (p ^^^ q) = fromPoly fs p ^^^ fromPoly fs q := by
  cases fs with
  | gf8 => rfl
  | gf8c => exact xorSelect_xor _ p q
  | gf16c => exact xorSelect_xor _ p q

@[simp] theorem toPoly_zero (fs : FS) : toPoly fs 0 = 0 := by cases fs <;> rfl

@[simp] theorem fromPoly_zero (fs : FS) : fromPoly fs 0 = 0 := by cases fs <;> rfl

/-- The bases begin with 1 (R138). -/
@[simp] theorem toPoly_one (fs : FS) : toPoly fs 1 = 1 := by cases fs <;> rfl

@[simp] theorem fromPoly_one (fs : FS) : fromPoly fs 1 = 1 := by cases fs <;> rfl

/-! ### Products of named powers -/

@[simp] theorem mul_zero_left (fs : FS) (b : Nat) : mul fs 0 b = 0 := by
  rw [mul, toPoly_zero, polyMul, polyMulBits_zero_left, fromPoly_zero]

@[simp] theorem mul_zero_right (fs : FS) (a : Nat) : mul fs a 0 = 0 := by
  rw [mul, toPoly_zero, polyMul, polyMulBits_zero_right, fromPoly_zero]

theorem mul_lt_width {fs : FS} {a : Nat} (ha : a < 2 ^ width fs) (b : Nat) : mul fs a b < 2 ^ width fs :=
  fromPoly_lt (polyMulBits_lt _ _ (toPoly_lt ha))

/-- Multiplication distributes over addition (R132, R148). -/
theorem mul_xor (fs : FS) (a b c : Nat) : mul fs a (b ^^^ c) = mul fs a b ^^^ mul fs a c := by
  rw [mul, toPoly_xor, polyMul, polyMulBits_xor, fromPoly_xor]; rfl

theorem fromPoly_xpow_lt (fs : FS) (i : Nat) : fromPoly fs (xpow fs i) < 2 ^ width fs := fromPoly_lt (xpow_lt fs i)

theorem toPoly_fromPoly_xpow (fs : FS) (i : Nat) : toPoly fs (fromPoly fs (xpow fs i)) = xpow fs i :=
  toPoly_fromPoly fs _ (xpow_lt fs i)

theorem fromPoly_xpow_ne_zero (fs : FS) (i : Nat) : fromPoly fs (xpow fs i) ≠ 0 := fun h =>
  xpow_ne_zero fs i (by rw [← toPoly_fromPoly_xpow, h, toPoly_zero])

theorem mul_fromPoly_xpow (fs : FS) (i j : Nat) :
    mul fs (fromPoly fs (xpow fs i)) (fromPoly fs (xpow fs j)) = fromPoly fs (xpow fs (i + j)) := by
  rw [mul, toPoly_fromPoly_xpow, toPoly_fromPoly_xpow, polyMul_xpow_xpow]

/-- Powers by squaring are powers. -/
theorem powBits_fromPoly_xpow (fs : FS) (f i n : Nat) (hn : n < 2 ^ f) :
    powBits fs f (fromPoly fs (xpow fs i)) n = fromPoly fs (xpow fs (i * n)) := by
  induction f generalizing i n with
  | zero => simp [powBits, show n = 0 by omega, xpow]
  | succ f ih =>
    have half := ih (i + i) (n / 2) (by rw [Nat.pow_succ] at hn; omega)
    unfold powBits
    split_ifs with h0 h1
    · simp [h0, xpow]
    · rw [mul_fromPoly_xpow, half, mul_fromPoly_xpow]
      obtain ⟨m, rfl⟩ : ∃ m, n = 2 * m + 1 := ⟨n / 2, by omega⟩
      congr 2
      rw [show (2 * m + 1) / 2 = m by omega]; ring
    · rw [mul_fromPoly_xpow, half]
      obtain ⟨m, rfl⟩ : ∃ m, n = 2 * m := ⟨n / 2, by omega⟩
      congr 2
      rw [show 2 * m / 2 = m by omega]; ring

/-! ### x has order Q (R133, R136) -/

/-- A point returns first after n steps if it is back after n, and not after n / r for any prime factor r of n. -/
theorem minimalPeriod_eq_of_prime_quotients {α : Type} {f : α → α} {x : α} {n : Nat}
    (h : Function.IsPeriodicPt f n x)
    (hq : ∀ r : Nat, r.Prime → r ∣ n → ¬ Function.IsPeriodicPt f (n / r) x) :
    Function.minimalPeriod f x = n := by
  obtain ⟨c, hc⟩ := h.minimalPeriod_dvd
  by_cases h1 : c = 1
  · rw [hc, h1, Nat.mul_one]
  · obtain ⟨r, hr, d, rfl⟩ := Nat.exists_prime_and_dvd h1
    refine absurd ?_ (hq r hr ⟨Function.minimalPeriod f x * d, by rw [hc]; ring⟩)
    rw [hc, Nat.mul_left_comm, Nat.mul_div_cancel_left _ hr.pos]
    exact (Function.isPeriodicPt_minimalPeriod f x).mul_const d

theorem order_pos (fs : FS) : 0 < order fs := by cases fs <;> decide

theorem order_lt (fs : FS) : order fs < 2 ^ 16 := by cases fs <;> decide

/-- x^n is computed by squaring. -/
theorem xpow_eq_one_iff (fs : FS) {n : Nat} (hn : n < 2 ^ 16) :
    xpow fs n = 1 ↔ powBits fs 16 (fromPoly fs 2) n = 1 := by
  have hx : xpow fs 1 = 2 := by cases fs <;> rfl
  have hp := powBits_fromPoly_xpow fs 16 1 n hn
  rw [hx, Nat.one_mul] at hp
  rw [hp]
  exact ⟨fun h => by rw [h, fromPoly_one], fun h => by rw [← toPoly_fromPoly_xpow, h, toPoly_one]⟩

theorem isPeriodicPt_xtime_iff (fs : FS) {n : Nat} (hn : n < 2 ^ 16) :
    Function.IsPeriodicPt (xtime fs) n 1 ↔ powBits fs 16 (fromPoly fs 2) n = 1 := by
  rw [← xpow_eq_one_iff fs hn, xpow_eq_iterate]; rfl

/-- The prime factors of both orders are Fermat primes. -/
theorem prime_dvd_order {fs : FS} {r : Nat} (hr : r.Prime) (h : r ∣ order fs) : r ∈ [3, 5, 17, 257] := by
  have h' : r ∣ 3 * 5 * 17 * 257 := h.trans (by cases fs <;> decide)
  simp only [hr.dvd_mul] at h'
  rcases h' with ((h | h) | h) | h <;> simp [(Nat.prime_dvd_prime_iff_eq hr (by norm_num)).mp h]

theorem powBits_two_order (fs : FS) : powBits fs 16 (fromPoly fs 2) (order fs) = 1 := by
  cases fs <;> decide +kernel

theorem xpow_order (fs : FS) : xpow fs (order fs) = 1 := (xpow_eq_one_iff fs (order_lt fs)).mpr (powBits_two_order fs)

theorem powBits_two_quotient (fs : FS) :
    ∀ r ∈ [3, 5, 17, 257], r ∣ order fs → powBits fs 16 (fromPoly fs 2) (order fs / r) ≠ 1 := by
  cases fs <;> decide +kernel

/-- x is primitive (R133, R136). -/
theorem minimalPeriod_xtime (fs : FS) : Function.minimalPeriod (xtime fs) 1 = order fs := by
  refine minimalPeriod_eq_of_prime_quotients
    ((isPeriodicPt_xtime_iff fs (order_lt fs)).mpr (powBits_two_order fs)) fun r hr hd h => ?_
  rw [isPeriodicPt_xtime_iff fs ((Nat.div_le_self _ _).trans_lt (order_lt fs))] at h
  exact powBits_two_quotient fs r (prime_dvd_order hr hd) hd h

theorem xpow_mod_order (fs : FS) (i : Nat) : xpow fs (i % order fs) = xpow fs i := by
  rw [xpow_eq_iterate, xpow_eq_iterate, ← minimalPeriod_xtime, Function.iterate_mod_minimalPeriod_eq]

theorem xpow_eq_of_modEq {fs : FS} {i j : Nat} (h : i ≡ j [MOD order fs]) : xpow fs i = xpow fs j := by
  rw [← xpow_mod_order, h, xpow_mod_order]

theorem xpow_injOn (fs : FS) : Set.InjOn (xpow fs) (Set.Iio (order fs)) := by
  rw [← minimalPeriod_xtime, show xpow fs = fun i => (xtime fs)^[i] 1 from funext (xpow_eq_iterate fs)]
  exact Function.iterate_injOn_Iio_minimalPeriod

/-- Every nonzero polynomial is a power of x: there are as many powers as nonzero residues. -/
theorem exists_xpow_eq {fs : FS} {p : Nat} (hp : p < 2 ^ width fs) (h0 : p ≠ 0) :
    ∃ i < order fs, xpow fs i = p := by
  have onto : Set.SurjOn (xpow fs) (Finset.range (order fs)) (Finset.Ico 1 (2 ^ width fs)) := by
    refine Finset.surjOn_of_injOn_of_card_le (xpow fs) (fun i _ => ?_) ?_ (by simp [order])
    · simp [Nat.one_le_iff_ne_zero, xpow_ne_zero, xpow_lt]
    · simpa using xpow_injOn fs
  simpa using onto (by simp [hp, Nat.one_le_iff_ne_zero, h0] : p ∈ (Finset.Ico 1 (2 ^ width fs) : Set Nat))

/-- Every nonzero element names a power of x. -/
theorem exists_fromPoly_xpow_eq {fs : FS} {a : Nat} (ha : a < 2 ^ width fs) (h0 : a ≠ 0) :
    ∃ i < order fs, fromPoly fs (xpow fs i) = a := by
  have hp : toPoly fs a ≠ 0 := fun h => h0 (by rw [← fromPoly_toPoly fs a ha, h, fromPoly_zero])
  obtain ⟨i, hi, h⟩ := exists_xpow_eq (toPoly_lt ha) hp
  exact ⟨i, hi, by rw [h, fromPoly_toPoly fs a ha]⟩

/-- An element is 0 or names a power of x. -/
theorem eq_zero_or_eq_fromPoly_xpow {fs : FS} {a : Nat} (ha : a < 2 ^ width fs) :
    a = 0 ∨ ∃ i, fromPoly fs (xpow fs i) = a := by
  by_cases h0 : a = 0
  · exact .inl h0
  · obtain ⟨i, -, h⟩ := exists_fromPoly_xpow_eq ha h0
    exact .inr ⟨i, h⟩

/-! ### The tables (R133, R136, R137) -/

theorem expTable_eq (fs : FS) (i : Nat) : expTable fs i = fromPoly fs (xpow fs i) := by
  rw [expTable, xpow_mod_order]

theorem expTable_mod_order (fs : FS) (i : Nat) : expTable fs (i % order fs) = fromPoly fs (xpow fs i) := by
  rw [expTable_eq, xpow_mod_order]

/-- The search of the log table stops at the exponent it looks for. -/
theorem plogFrom_xpow {fs : FS} {j : Nat} (hj : j < order fs) (fuel i : Nat) (hi : i ≤ j) (hf : j ≤ i + fuel) :
    plogFrom fs fuel i (xpow fs i) (xpow fs j) = j := by
  induction fuel generalizing i with
  | zero => exact Nat.le_antisymm hi hf
  | succ fuel ih =>
    unfold plogFrom
    split
    · next h => exact xpow_injOn fs (hi.trans_lt hj) hj h
    · next h =>
      have : i ≠ j := fun e => h (by rw [e])
      exact ih (i + 1) (by omega) (by omega)

theorem logTable_fromPoly_xpow {fs : FS} {i : Nat} (hi : i < order fs) :
    logTable fs (fromPoly fs (xpow fs i)) = i := by
  rw [logTable, if_neg (fromPoly_xpow_ne_zero fs i), toPoly_fromPoly_xpow]
  exact plogFrom_xpow hi (order fs) 0 (Nat.zero_le i) (by omega)

theorem logTable_lt {fs : FS} {a : Nat} (ha : a < 2 ^ width fs) (h0 : a ≠ 0) : logTable fs a < order fs := by
  obtain ⟨i, hi, rfl⟩ := exists_fromPoly_xpow_eq ha h0
  rwa [logTable_fromPoly_xpow hi]

/-- The log table names the exponents. -/
theorem fromPoly_xpow_logTable {fs : FS} {a : Nat} (ha : a < 2 ^ width fs) (h0 : a ≠ 0) :
    fromPoly fs (xpow fs (logTable fs a)) = a := by
  obtain ⟨i, hi, rfl⟩ := exists_fromPoly_xpow_eq ha h0
  rw [logTable_fromPoly_xpow hi]

/-! ### The operations on powers of x -/

/-- The power Q - 1 of x^i is x^(Q-i): each exponent and i add up to a multiple of Q. -/
theorem inv_fromPoly_xpow {fs : FS} {i : Nat} (hi : i < order fs) :
    inv fs (fromPoly fs (xpow fs i)) = fromPoly fs (xpow fs (order fs - i)) := by
  have exponents : i * (order fs - 1) ≡ order fs - i [MOD order fs] := by
    apply Nat.ModEq.add_right_cancel' i
    calc i * (order fs - 1) + i = i * order fs := by
          rw [← Nat.mul_succ, Nat.succ_eq_add_one, Nat.sub_add_cancel (order_pos fs)]
      _ ≡ order fs [MOD order fs] := by simp [Nat.ModEq]
      _ = order fs - i + i := (Nat.sub_add_cancel hi.le).symm
  rw [inv, powBits_fromPoly_xpow fs 16 i _ ((Nat.sub_le _ _).trans_lt (order_lt fs)), xpow_eq_of_modEq exponents]

theorem pow_fromPoly_xpow (fs : FS) (i n : Nat) :
    pow fs (fromPoly fs (xpow fs i)) n = fromPoly fs (xpow fs (i * n)) := by
  by_cases hn : n = 0
  · simp [pow, hn, xpow]
  · rw [pow, if_neg hn, if_neg (fromPoly_xpow_ne_zero fs i),
      powBits_fromPoly_xpow fs 16 i _ ((Nat.mod_lt _ (order_pos fs)).trans (order_lt fs)),
      xpow_eq_of_modEq ((Nat.mod_modEq n (order fs)).mul_left i)]

theorem inv_lt_width {fs : FS} {a : Nat} (ha : a < 2 ^ width fs) (h0 : a ≠ 0) : inv fs a < 2 ^ width fs := by
  obtain ⟨i, hi, rfl⟩ := exists_fromPoly_xpow_eq ha h0
  rw [inv_fromPoly_xpow hi]
  exact fromPoly_xpow_lt fs _

/-- Settles O30: every nonzero element is the power of x that its log table entry names. -/
theorem fieldTableFormulas : Obligations.FieldTableFormulas := by
  intro fs a b ha hb
  refine ⟨?_, fun h0 => ?_, fun n _ => ?_, fun h0 => ⟨logTable_lt ha h0, ?_⟩⟩
  · split
    · next h => rcases h with rfl | rfl <;> simp
    · next h =>
      obtain ⟨ha0, hb0⟩ := not_or.mp h
      rw [expTable_mod_order, ← mul_fromPoly_xpow, fromPoly_xpow_logTable ha ha0, fromPoly_xpow_logTable hb hb0]
  · obtain ⟨i, hi, rfl⟩ := exists_fromPoly_xpow_eq ha h0
    rw [inv_fromPoly_xpow hi, logTable_fromPoly_xpow hi, expTable_mod_order]
  · split_ifs with hn h0
    · simp [pow, hn]
    · simp [pow, hn, h0]
    · rw [expTable_mod_order, ← pow_fromPoly_xpow, fromPoly_xpow_logTable ha h0]
  · rw [expTable_eq, fromPoly_xpow_logTable ha h0]

/-! ### The laws (R148) -/

theorem mul_comm_of_lt {fs : FS} {a b : Nat} (ha : a < 2 ^ width fs) (hb : b < 2 ^ width fs) :
    mul fs a b = mul fs b a := by
  obtain rfl | ⟨i, rfl⟩ := eq_zero_or_eq_fromPoly_xpow ha
  · simp
  obtain rfl | ⟨j, rfl⟩ := eq_zero_or_eq_fromPoly_xpow hb
  · simp
  rw [mul_fromPoly_xpow, mul_fromPoly_xpow, Nat.add_comm]

theorem mul_assoc_of_lt {fs : FS} {a b c : Nat} (ha : a < 2 ^ width fs) (hb : b < 2 ^ width fs)
    (hc : c < 2 ^ width fs) : mul fs (mul fs a b) c = mul fs a (mul fs b c) := by
  obtain rfl | ⟨i, rfl⟩ := eq_zero_or_eq_fromPoly_xpow ha
  · simp
  obtain rfl | ⟨j, rfl⟩ := eq_zero_or_eq_fromPoly_xpow hb
  · simp
  obtain rfl | ⟨k, rfl⟩ := eq_zero_or_eq_fromPoly_xpow hc
  · simp
  simp only [mul_fromPoly_xpow, Nat.add_assoc]

theorem mul_one_of_lt {fs : FS} {a : Nat} (ha : a < 2 ^ width fs) : mul fs a 1 = a := by
  obtain rfl | ⟨i, rfl⟩ := eq_zero_or_eq_fromPoly_xpow ha
  · simp
  · simpa [xpow] using mul_fromPoly_xpow fs i 0

theorem mul_inv_of_lt {fs : FS} {a : Nat} (ha : a < 2 ^ width fs) (h0 : a ≠ 0) : mul fs a (inv fs a) = 1 := by
  obtain ⟨i, hi, rfl⟩ := exists_fromPoly_xpow_eq ha h0
  rw [inv_fromPoly_xpow hi, mul_fromPoly_xpow, Nat.add_sub_cancel' hi.le, xpow_order, fromPoly_one]

theorem eq_zero_or_eq_zero_of_mul {fs : FS} {a b : Nat} (ha : a < 2 ^ width fs) (hb : b < 2 ^ width fs)
    (h : mul fs a b = 0) : a = 0 ∨ b = 0 := by
  obtain ha0 | ⟨i, rfl⟩ := eq_zero_or_eq_fromPoly_xpow ha
  · exact .inl ha0
  obtain hb0 | ⟨j, rfl⟩ := eq_zero_or_eq_fromPoly_xpow hb
  · exact .inr hb0
  rw [mul_fromPoly_xpow] at h
  exact absurd h (fromPoly_xpow_ne_zero fs _)

/-- Settles O31: the nonzero elements multiply as exponents of x add, and multiplication is linear. -/
theorem fieldArithmeticLaws : Obligations.FieldArithmeticLaws := by
  intro fs a b c ha hb hc
  exact ⟨mul_lt_width ha b, mul_comm_of_lt ha hb, mul_assoc_of_lt ha hb hc, mul_xor fs a b c, Nat.xor_comm a b,
    Nat.xor_assoc a b c, Nat.xor_zero a, Nat.xor_self a, mul_one_of_lt ha, mul_zero_right fs a, mul_inv_of_lt ha,
    eq_zero_or_eq_zero_of_mul ha hb⟩

end Sys2Proof.Machine
end

section
/-! SUPPORT. The scalar field commands (spec/41_field.md R141 to R147): what each answers, command by command. -/

namespace Sys2Proof.Machine

/-! ### Operand checks (R141) -/

theorem checkElement_pos {fs : FS} {a : Word} (h : a.toNat < 2 ^ width fs) (idx : Half) :
    checkElement fs a idx = .ok () := check_pos h _ idx

theorem checkElement_neg {fs : FS} {a : Word} (h : ¬ a.toNat < 2 ^ width fs) (idx : Half) :
    checkElement fs a idx = .error { code := .badArgument, idx := idx } := check_neg h _ idx

/-- A command that writes nothing but its result. -/
theorem exec_eq_reply {i : Instr} {s : State} {r : Word} (hc : CanComplete s)
    (h : planOf i s = .ok (replyPlan s r)) : exec i s = .next (succeeded (irqFlagOf i) r s) :=
  exec_eq_succeeded hc h rfl

/-! ### Plans -/

section
variable {irq : Bool} {fs : FS} {a b n : Word} {s : State}

theorem planOf_gfAdd (ha : a.toNat < 2 ^ width fs) (hb : b.toNat < 2 ^ width fs) :
    planOf (.gfAdd irq fs a b) s = .ok (replyPlan s (a ^^^ b)) := by
  rw [planOf, planGfAdd, checkElement_pos ha, ok_bind, checkElement_pos hb, ok_bind]; rfl

theorem planOf_gfMul (ha : a.toNat < 2 ^ width fs) (hb : b.toNat < 2 ^ width fs) :
    planOf (.gfMul irq fs a b) s = .ok (replyPlan s (resultWord (mul fs a.toNat b.toNat))) := by
  rw [planOf, planGfMul, checkElement_pos ha, ok_bind, checkElement_pos hb, ok_bind]; rfl

theorem planOf_gfInv (ha : a.toNat < 2 ^ width fs) (h0 : a ≠ 0) :
    planOf (.gfInv irq fs a) s = .ok (replyPlan s (resultWord (inv fs a.toNat))) := by
  rw [planOf, planGfInv, checkElement_pos ha, ok_bind, check_pos h0, ok_bind]; rfl

theorem planOf_gfLog (ha : a.toNat < 2 ^ width fs) (h0 : a ≠ 0) :
    planOf (.gfLog irq fs a) s = .ok (replyPlan s (resultWord (logTable fs a.toNat))) := by
  rw [planOf, planGfLog, checkElement_pos ha, ok_bind, check_pos h0, ok_bind]; rfl

theorem planOf_gfPow (ha : a.toNat < 2 ^ width fs) :
    planOf (.gfPow irq fs a n) s = .ok (replyPlan s (resultWord (pow fs a.toNat n.toNat))) := by
  rw [planOf, planGfPow, checkElement_pos ha, ok_bind]; rfl

end

/-- Settles O33: the operands are checked in order, and the result is the sum or the product. -/
theorem fieldAddAndMultiply : Obligations.FieldAddAndMultiply := by
  intro irq fs a b s hc
  refine ⟨fun ha hb => ⟨?_, ?_⟩, fun ha => ⟨?_, ?_⟩, fun ha hb => ⟨?_, ?_⟩⟩
  · exact exec_eq_reply hc (planOf_gfAdd ha hb)
  · exact exec_eq_reply hc (planOf_gfMul ha hb)
  · exact exec_eq_failed hc (by rw [planOf, planGfAdd, checkElement_neg ha, error_bind]; rfl)
  · exact exec_eq_failed hc (by rw [planOf, planGfMul, checkElement_neg ha, error_bind]; rfl)
  · exact exec_eq_failed hc
      (by rw [planOf, planGfAdd, checkElement_pos ha, ok_bind, checkElement_neg hb, error_bind]; rfl)
  · exact exec_eq_failed hc
      (by rw [planOf, planGfMul, checkElement_pos ha, ok_bind, checkElement_neg hb, error_bind]; rfl)

/-- Settles O34: the inverse and the logarithm are those of the field, and 0 has neither. -/
theorem fieldInversePowerLogarithm : Obligations.FieldInversePowerLogarithm := by
  intro irq fs a n s hc
  have zero : (0 : Word).toNat < 2 ^ width fs := Nat.two_pow_pos _
  refine ⟨fun ha h0 => ?_, fun ha => exec_eq_reply hc (planOf_gfPow ha), exec_eq_reply hc rfl, ⟨?_, ?_⟩,
    fun ha => ⟨?_, ?_, ?_⟩⟩
  · have h0' : a.toNat ≠ 0 := fun h => h0 (BitVec.eq_of_toNat_eq h)
    exact ⟨⟨inv fs a.toNat, exec_eq_reply hc (planOf_gfInv ha h0), inv_lt_width ha h0', mul_inv_of_lt ha h0'⟩,
      logTable fs a.toNat, exec_eq_reply hc (planOf_gfLog ha h0), logTable_lt ha h0', fromPoly_xpow_logTable ha h0'⟩
  · exact exec_eq_failed hc
      (by rw [planOf, planGfInv, checkElement_pos zero, ok_bind, check_neg (by simp), error_bind]; rfl)
  · exact exec_eq_failed hc
      (by rw [planOf, planGfLog, checkElement_pos zero, ok_bind, check_neg (by simp), error_bind]; rfl)
  · exact exec_eq_failed hc (by rw [planOf, planGfInv, checkElement_neg ha, error_bind]; rfl)
  · exact exec_eq_failed hc (by rw [planOf, planGfPow, checkElement_neg ha, error_bind]; rfl)
  · exact exec_eq_failed hc (by rw [planOf, planGfLog, checkElement_neg ha, error_bind]; rfl)

end Sys2Proof.Machine
end

section
/-! SUPPORT. Matrices by their entries (spec/42_matrix.md, spec/20_memory.md R85): the entries of rewritten and
joined matrices and of matrices in memory, and equality of matrices of one shape. -/

namespace Sys2Proof.Machine

/-! ### Rows and entries -/

theorem entry_of_row_out {m : Matrix} {i : Nat} (h : m.length ≤ i) (j : Nat) : entry m i j = 0 := by
  rw [entry, List.getD_eq_default _ _ h, List.getD_nil]

theorem Shaped.entry_of_column_out {r c i j : Nat} {m : Matrix} (h : Shaped r c m) (hj : c ≤ j) : entry m i j = 0 := by
  obtain hi | hi := Nat.lt_or_ge i r
  · rw [entry, List.getD_eq_default _ _ (by rwa [h.length_getD hi])]
  · exact entry_of_row_out (by rwa [h.1]) j

theorem entry_tabulate {r c i j : Nat} (f : Nat → Nat → Nat) (hi : i < r) (hj : j < c) :
    entry (tabulate r c f) i j = f i j := by
  simp [entry, tabulate, List.getD_eq_getElem?_getD, hi, hj]

/-- A matrix is determined by its shape and its entries. -/
theorem Shaped.eq_tabulate {r c : Nat} {m : Matrix} {f : Nat → Nat → Nat} (h : Shaped r c m)
    (hf : ∀ i j, i < r → j < c → entry m i j = f i j) : m = tabulate r c f := by
  refine List.ext_getElem (by simp [h.1, tabulate]) fun i hi _ => ?_
  have row : m[i].length = c := h.2 _ (List.getElem_mem hi)
  refine List.ext_getElem (by simp [row, tabulate]) fun j hj _ => ?_
  simpa [entry, tabulate, List.getD_eq_getElem?_getD, hi, hj] using hf i j (h.1 ▸ hi) (row ▸ hj)

theorem tabulate_eq_iff {r c : Nat} {f g : Nat → Nat → Nat} :
    tabulate r c f = tabulate r c g ↔ ∀ i j, i < r → j < c → f i j = g i j := by
  refine ⟨fun h i j hi hj => ?_, fun h => (shaped_tabulate r c f).eq_tabulate fun i j hi hj => ?_⟩
  · rw [← entry_tabulate f hi hj, h, entry_tabulate g hi hj]
  · rw [entry_tabulate f hi hj, h i j hi hj]

/-- Every entry is a byte. -/
def Bytes (m : Matrix) : Prop := ∀ i j, entry m i j < 256

theorem squareMatrix_iff {n : Nat} {x : Matrix} : SquareMatrix n x ↔ Shaped n n x ∧ Bytes x := by
  refine ⟨fun ⟨hl, hr, hb⟩ => ⟨⟨hl, hr⟩, fun i j => ?_⟩, fun ⟨hs, hb⟩ => ⟨hs.1, hs.2, fun row hrow e he => ?_⟩⟩
  · obtain hi | hi := Nat.lt_or_ge i x.length
    · obtain hj | hj := Nat.lt_or_ge j x[i].length
      · simpa [entry, hi, hj] using hb _ (List.getElem_mem hi) _ (List.getElem_mem hj)
      · simp [entry, hi, hj]
    · rw [entry_of_row_out hi]; decide
  · obtain ⟨i, hi, rfl⟩ := List.mem_iff_getElem.mp hrow
    obtain ⟨j, hj, rfl⟩ := List.mem_iff_getElem.mp he
    simpa [entry, hi, hj] using hb i j

theorem getD_mapRowsFrom (f : Nat → List Nat → List Nat) (k : Nat) {m : Matrix} {i : Nat} (h : i < m.length) :
    (mapRowsFrom f k m).getD i [] = f (k + i) (m.getD i []) := by
  induction m generalizing k i with
  | nil => simp at h
  | cons row m ih =>
    cases i with
    | zero => rfl
    | succ i =>
      rw [mapRowsFrom, List.getD_cons_succ, List.getD_cons_succ, ih (k + 1) (by simpa using h), Nat.add_right_comm,
        Nat.add_assoc]

theorem mapRowsFrom_mapRowsFrom (f g : Nat → List Nat → List Nat) (k : Nat) (m : Matrix) :
    mapRowsFrom f k (mapRowsFrom g k m) = mapRowsFrom (fun i row => f i (g i row)) k m := by
  induction m generalizing k with
  | nil => rfl
  | cons row m ih => simp only [mapRowsFrom, ih]

theorem mapRowsFrom_congr {f g : Nat → List Nat → List Nat} {k : Nat} {m : Matrix}
    (h : ∀ i, i < m.length → f (k + i) (m.getD i []) = g (k + i) (m.getD i [])) :
    mapRowsFrom f k m = mapRowsFrom g k m := by
  induction m generalizing k with
  | nil => rfl
  | cons row m ih =>
    have first : f k row = g k row := h 0 (by simp)
    have rest := ih (k := k + 1) fun i hi => by
      simpa only [List.getD_cons_succ, Nat.add_right_comm, Nat.add_assoc] using h (i + 1) (by simpa using hi)
    simp only [mapRowsFrom, first, rest]

/-! ### Joined rows (R164, R167) -/

theorem entry_augment {r c c' i : Nat} {x y : Matrix} (hx : Shaped r c x) (hy : Shaped r c' y) (hi : i < r) (j : Nat) :
    entry (augment x y) i j = if j < c then entry x i j else entry y i (j - c) := by
  have row : (augment x y).getD i [] = x.getD i [] ++ y.getD i [] := by
    have hix : i < x.length := hx.1.symm ▸ hi
    have hiy : i < y.length := hy.1.symm ▸ hi
    simp [augment, List.getD_eq_getElem?_getD, hix, hiy]
  have len : (x.getD i []).length = c := hx.length_getD hi
  rw [entry, row]
  split
  · rw [List.getD_append _ _ _ _ (by omega)]; rfl
  · rw [List.getD_append_right _ _ _ _ (by omega), len]; rfl

/-! ### Matrices in memory (20_memory.md R85) -/

theorem getD_matrixOfBytes {r c i : Nat} (bs : List Byte) (hi : i < r) :
    (matrixOfBytes r c bs).getD i [] = ((bs.drop (i * c)).take c).map BitVec.toNat := by
  induction r generalizing i bs with
  | zero => omega
  | succ r ih =>
    cases i with
    | zero => simp [matrixOfBytes]
    | succ i =>
      rw [matrixOfBytes, List.getD_cons_succ, ih _ (by omega), List.drop_drop, Nat.succ_mul, Nat.add_comm c]

/-- Row-major order (20_memory.md R85). -/
theorem entry_matrixAt {s : State} {a r c i j : Nat} (hi : i < r) (hj : j < c) :
    entry (matrixAt s a r c) i j = (s.mem.read (a + i * c + j)).toNat := by
  have inside : i * c + j < r * c := by
    calc i * c + j < i * c + c := by omega
      _ = (i + 1) * c := (Nat.succ_mul i c).symm
      _ ≤ r * c := Nat.mul_le_mul_right c hi
  have byte := Memory.getD_readBytes s.mem a (r * c) (i * c + j) 0
  rw [if_pos inside, ← Nat.add_assoc, List.getD_eq_getElem?_getD] at byte
  rw [← byte, entry, matrixAt, getD_matrixOfBytes _ hi]
  simp [hj, inside]

end Sys2Proof.Machine
end

section
/-! SUPPORT. Gauss-Jordan inversion (spec/42_matrix.md R164). Each row operation keeps the solutions of the linear
system [X | I] u = 0, and the elimination brings the left half to the identity or stops at a column without a pivot. -/

namespace Sys2Proof.Machine

/-! ### Sums -/

theorem xorSum_append (as bs : List Nat) : xorSum (as ++ bs) = xorSum as ^^^ xorSum bs := by
  induction as with
  | nil => exact (Nat.zero_xor _).symm
  | cons a as ih => simp only [List.cons_append, xorSum, ih, Nat.xor_assoc]

theorem xorSum_lt {w : Nat} {as : List Nat} (h : ∀ a ∈ as, a < 2 ^ w) : xorSum as < 2 ^ w := by
  induction as with
  | nil => exact Nat.two_pow_pos w
  | cons a as ih => exact Nat.xor_lt_two_pow (h a (by simp)) (ih fun b hb => h b (by simp [hb]))

theorem xorSum_map_xor {α : Type} (is : List α) (f g : α → Nat) :
    xorSum (is.map fun i => f i ^^^ g i) = xorSum (is.map f) ^^^ xorSum (is.map g) := by
  induction is with
  | nil => exact (Nat.xor_self 0).symm
  | cons i is ih => simp only [List.map_cons, xorSum, ih]; ac_rfl

theorem xorSum_map_zero {α : Type} {is : List α} {f : α → Nat} (h : ∀ i ∈ is, f i = 0) : xorSum (is.map f) = 0 := by
  induction is with
  | nil => rfl
  | cons i is ih => simp [xorSum, h i (by simp), ih fun j hj => h j (by simp [hj])]

/-- The order of a double sum does not matter. -/
theorem xorSum_map_comm {α β : Type} (is : List α) (js : List β) (f : α → β → Nat) :
    xorSum (is.map fun i => xorSum (js.map (f i))) = xorSum (js.map fun j => xorSum (is.map fun i => f i j)) := by
  induction is with
  | nil => exact (xorSum_map_zero fun _ _ => rfl).symm
  | cons i is ih => simp only [List.map_cons, xorSum, ih, ← xorSum_map_xor]

/-- A sum with one nonzero summand. -/
theorem xorSum_range_single {n i : Nat} {f : Nat → Nat} (hi : i < n) (h : ∀ e, e < n → e ≠ i → f e = 0) :
    xorSum ((List.range n).map f) = f i := by
  induction n with
  | zero => omega
  | succ n ih =>
    rw [List.range_succ, List.map_append, xorSum_append]
    obtain rfl | hne := eq_or_ne i n
    · rw [xorSum_map_zero fun e he => by
        have := List.mem_range.mp he
        exact h e (by omega) (by omega)]
      simp [xorSum]
    · rw [ih (by omega) fun e he => h e (by omega)]
      simp [xorSum, h n (by omega) (Ne.symm hne)]

/-! ### Products of bytes (41_field.md R148) -/

theorem mul8_lt {a : Nat} (ha : a < 256) (b : Nat) : mul8 a b < 256 := mul_lt_width (fs := .gf8) ha b

theorem mul8_comm {a b : Nat} (ha : a < 256) (hb : b < 256) : mul8 a b = mul8 b a := mul_comm_of_lt (fs := .gf8) ha hb

theorem mul8_assoc {a b c : Nat} (ha : a < 256) (hb : b < 256) (hc : c < 256) :
    mul8 (mul8 a b) c = mul8 a (mul8 b c) := mul_assoc_of_lt (fs := .gf8) ha hb hc

theorem one_mul8 {a : Nat} (ha : a < 256) : mul8 1 a = a :=
  (mul8_comm (by decide) ha).trans (mul_one_of_lt (fs := .gf8) ha)

theorem mul8_one {a : Nat} (ha : a < 256) : mul8 a 1 = a := mul_one_of_lt (fs := .gf8) ha

theorem xor_mul8 {a b c : Nat} (ha : a < 256) (hb : b < 256) (hc : c < 256) :
    mul8 (a ^^^ b) c = mul8 a c ^^^ mul8 b c := by
  rw [mul8_comm (Nat.xor_lt_two_pow (n := 8) ha hb) hc, mul8_comm ha hc, mul8_comm hb hc]
  exact mul_xor .gf8 c a b

theorem mul8_xorSum {α : Type} (t : Nat) (is : List α) (f : α → Nat) :
    mul8 t (xorSum (is.map f)) = xorSum (is.map fun i => mul8 t (f i)) := by
  induction is with
  | nil => exact mul_zero_right ..
  | cons i is ih => simp only [List.map_cons, xorSum, ← ih, mul8, mul_xor]

theorem xorSum_mul8 {α : Type} {is : List α} {f : α → Nat} {t : Nat} (hf : ∀ i ∈ is, f i < 256) (ht : t < 256) :
    mul8 (xorSum (is.map f)) t = xorSum (is.map fun i => mul8 (f i) t) := by
  induction is with
  | nil => exact mul_zero_left ..
  | cons i is ih =>
    have rest : ∀ j ∈ is, f j < 256 := fun j hj => hf j (by simp [hj])
    have sum : xorSum (is.map f) < 256 := xorSum_lt (w := 8) (by simpa using rest)
    simp only [List.map_cons, xorSum, ← ih rest, xor_mul8 (hf i (by simp)) sum ht]

/-! ### A matrix applied to a vector -/

/-- Element `i` of the product of a matrix of `c` columns and the vector `v`. -/
def matVec (c : Nat) (m : Matrix) (v : Nat → Nat) (i : Nat) : Nat :=
  xorSum ((List.range c).map fun e => mul8 (entry m i e) (v e))

theorem entry_matProduct {r t c i j : Nat} (x y : Matrix) (hi : i < r) (hj : j < c) :
    entry (matProduct r t c x y) i j = matVec t x (fun e => entry y e j) i := entry_tabulate _ hi hj

theorem matVec_congr {c i : Nat} {m m' : Matrix} {v v' : Nat → Nat} (hm : ∀ e, e < c → entry m i e = entry m' i e)
    (hv : ∀ e, e < c → v e = v' e) : matVec c m v i = matVec c m' v' i := by
  unfold matVec
  rw [List.map_congr_left fun e he => by rw [hm e (List.mem_range.mp he), hv e (List.mem_range.mp he)]]

theorem matVec_eq_zero {c i : Nat} {m : Matrix} {v : Nat → Nat} (hv : ∀ e, e < c → v e = 0) : matVec c m v i = 0 :=
  xorSum_map_zero fun e he => by rw [hv e (List.mem_range.mp he)]; exact mul_zero_right ..

theorem matVec_lt {c : Nat} {m : Matrix} (hm : Bytes m) (v : Nat → Nat) (i : Nat) : matVec c m v i < 256 :=
  xorSum_lt (w := 8) (by simpa using fun e _ => mul8_lt (hm i e) (v e))

/-- The columns of a matrix in two groups. -/
theorem matVec_add (c c' : Nat) (m : Matrix) (v : Nat → Nat) (i : Nat) :
    matVec (c + c') m v i
      = matVec c m v i ^^^ xorSum ((List.range c').map fun e => mul8 (entry m i (c + e)) (v (c + e))) := by
  unfold matVec
  rw [List.range_add, List.map_append, xorSum_append, List.map_map]
  rfl

/-- A row of the identity selects one element. -/
theorem xorSum_identity_row {n i : Nat} {v : Nat → Nat} (hi : i < n) (hv : ∀ e, v e < 256) :
    xorSum ((List.range n).map fun e => mul8 (if i = e then 1 else 0) (v e)) = v i := by
  rw [xorSum_range_single hi fun e _ he => by rw [if_neg (Ne.symm he)]; exact mul_zero_left .., if_pos rfl,
    one_mul8 (hv i)]

theorem matVec_eq_of_identity_row {n i : Nat} {m : Matrix} {v : Nat → Nat} (hi : i < n) (hv : ∀ e, v e < 256)
    (hm : ∀ e, e < n → entry m i e = if i = e then 1 else 0) : matVec n m v i = v i := by
  refine Eq.trans ?_ (xorSum_identity_row hi hv)
  unfold matVec
  rw [List.map_congr_left fun e he => by rw [hm e (List.mem_range.mp he)]]

/-- A product of matrices applied to a vector. -/
theorem matVec_matProduct {r t c i : Nat} {x y : Matrix} {v : Nat → Nat} (hx : Bytes x) (hy : Bytes y)
    (hv : ∀ e, v e < 256) (hi : i < r) : matVec c (matProduct r t c x y) v i = matVec t x (matVec c y v) i := by
  have left : ∀ j, j < c → mul8 (entry (matProduct r t c x y) i j) (v j)
      = xorSum ((List.range t).map fun e => mul8 (entry x i e) (mul8 (entry y e j) (v j))) := fun j hj => by
    rw [entry_matProduct x y hi hj, matVec, xorSum_mul8 (fun e _ => mul8_lt (hx i e) _) (hv j)]
    rw [List.map_congr_left fun e _ => mul8_assoc (hx i e) (hy e j) (hv j)]
  calc matVec c (matProduct r t c x y) v i
      = xorSum ((List.range c).map fun j =>
          xorSum ((List.range t).map fun e => mul8 (entry x i e) (mul8 (entry y e j) (v j)))) := by
        rw [matVec, List.map_congr_left fun j hj => left j (List.mem_range.mp hj)]
    _ = matVec t x (matVec c y v) i := by
        rw [xorSum_map_comm]
        simp only [matVec, mul8_xorSum]

/-! ### Row operations -/

/-- Row `r` scaled by `t`. -/
def scaleRowAt (t r : Nat) (m : Matrix) : Matrix := mapRowsFrom (fun i row => if i = r then scaleRow t row else row) 0 m

/-- Column `r` cleared, by multiples of row `r`, from the rows in `rows`. -/
def clearColumn (rows : Nat → Bool) (r : Nat) (m : Matrix) : Matrix :=
  mapRowsFrom (fun i row => if rows i then addScaledRow row (row.getD r 0) (m.getD r []) else row) 0 m

theorem inv_mul8 {a : Nat} (ha : a < 256) (h0 : a ≠ 0) : mul8 (inv .gf8 a) a = 1 :=
  (mul8_comm (inv_lt_width (fs := .gf8) ha h0) ha).trans (mul_inv_of_lt (fs := .gf8) ha h0)

theorem inv_ne_zero_of_lt {a : Nat} (ha : a < 256) (h0 : a ≠ 0) : inv .gf8 a ≠ 0 := fun h => by
  have one := inv_mul8 ha h0
  rw [h, mul8, mul_zero_left] at one
  cases one

/-- A forward round is a swap, a scaling and a clearing below the pivot. -/
theorem forwardRound_eq_some {n r : Nat} {m d : Matrix} (hn : m.length = n) (h : forwardRound n m r = some d) :
    ∃ q, q < n ∧ r ≤ q ∧ entry m q r ≠ 0 ∧ ∃ sw sc, sw = swapRows m r q
      ∧ sc = scaleRowAt (inv .gf8 (entry sw r r)) r sw ∧ d = clearColumn (fun i => decide (r < i)) r sc := by
  unfold forwardRound at h
  split at h
  · cases h
  · rename_i q hq
    have hqn := List.mem_range.mp (List.mem_of_find?_eq_some hq)
    have hqr := List.find?_some hq
    simp only [decide_eq_true_eq] at hqr
    refine ⟨q, hqn, hqr.1, hqr.2, _, _, rfl, rfl, ?_⟩
    obtain rfl := Option.some.inj h
    have hr : r < (swapRows m r q).length := by rw [swapRows, length_mapRowsFrom]; omega
    rw [clearColumn, scaleRowAt, getD_mapRowsFrom _ _ hr, Nat.zero_add, if_pos rfl, mapRowsFrom_mapRowsFrom]
    refine mapRowsFrom_congr fun i _ => ?_
    rw [Nat.zero_add]
    obtain hi | rfl | hi := Nat.lt_trichotomy i r
    · simp [hi.ne, hi.not_gt]
    · simp
    · simp [hi.ne', hi]

theorem backwardRound_eq (m : Matrix) (d : Nat) : backwardRound m d = clearColumn (fun i => decide (i < d)) d m := by
  simp [backwardRound, clearColumn]

/-- Every pivot candidate of a round without a pivot is zero. -/
theorem forwardRound_eq_none {n r : Nat} {m : Matrix} :
    forwardRound n m r = none ↔ ∀ q, q < n → r ≤ q → entry m q r = 0 := by
  unfold forwardRound
  split
  · rename_i h
    simpa using h
  · rename_i q hq
    have hqn := List.mem_range.mp (List.mem_of_find?_eq_some hq)
    have hqr := List.find?_some hq
    simp only [decide_eq_true_eq] at hqr
    exact ⟨nofun, fun h => absurd (h q hqn hqr.1) hqr.2⟩

theorem entry_scaleRow (t : Nat) (row : List Nat) (j : Nat) : (scaleRow t row).getD j 0 = mul8 t (row.getD j 0) := by
  obtain hj | hj := Nat.lt_or_ge j row.length
  · simp [scaleRow, hj]
  · simp [scaleRow, hj]

theorem entry_addScaledRow {row other : List Nat} (h : row.length = other.length) (t j : Nat) :
    (addScaledRow row t other).getD j 0 = row.getD j 0 ^^^ mul8 t (other.getD j 0) := by
  obtain hj | hj := Nat.lt_or_ge j row.length
  · have hj' : j < other.length := h ▸ hj
    simp [addScaledRow, hj, hj']
  · have hj' : other.length ≤ j := h ▸ hj
    simp [addScaledRow, hj, hj']

section
variable {n c : Nat} {m : Matrix} {r q i : Nat} (h : Shaped n c m) (hr : r < n)
include h

theorem getD_mapRowsFrom_of_shaped (f : Nat → List Nat → List Nat) (hi : i < n) :
    (mapRowsFrom f 0 m).getD i [] = f i (m.getD i []) := by
  rw [getD_mapRowsFrom _ _ (h.1.symm ▸ hi), Nat.zero_add]

theorem entry_swapRows (hi : i < n) (j : Nat) :
    entry (swapRows m r q) i j = if i = r then entry m q j else if i = q then entry m r j else entry m i j := by
  unfold entry
  rw [swapRows, getD_mapRowsFrom_of_shaped h _ hi]
  split
  · rfl
  · split <;> rfl

theorem entry_scaleRowAt (t : Nat) (hi : i < n) (j : Nat) :
    entry (scaleRowAt t r m) i j = if i = r then mul8 t (entry m i j) else entry m i j := by
  unfold entry
  rw [scaleRowAt, getD_mapRowsFrom_of_shaped h _ hi]
  split
  · exact entry_scaleRow ..
  · rfl

include hr in
theorem entry_clearColumn (rows : Nat → Bool) (hi : i < n) (j : Nat) :
    entry (clearColumn rows r m) i j
      = if rows i then entry m i j ^^^ mul8 (entry m i r) (entry m r j) else entry m i j := by
  unfold entry
  rw [clearColumn, getD_mapRowsFrom_of_shaped h _ hi]
  split
  · exact entry_addScaledRow ((h.length_getD hi).trans (h.length_getD hr).symm) ..
  · rfl

theorem shaped_scaleRowAt (t : Nat) : Shaped n c (scaleRowAt t r m) := by
  refine h.mapRowsFrom fun j row _ hrow => ?_
  split
  · simpa [scaleRow] using hrow
  · exact hrow

include hr in
theorem shaped_clearColumn (rows : Nat → Bool) : Shaped n c (clearColumn rows r m) := by
  refine h.mapRowsFrom fun j row _ hrow => ?_
  split
  · exact length_addScaledRow hrow (h.length_getD hr) _
  · exact hrow

theorem bytes_of_rows (hb : ∀ i j, i < n → entry m i j < 256) : Bytes m := fun i j => by
  obtain hi | hi := Nat.lt_or_ge i n
  · exact hb i j hi
  · rw [entry_of_row_out (h.1.symm ▸ hi)]; decide

end

/-! ### Stages of the elimination -/

/-- `m` has the solutions of [X | I] u = 0 (R164): X maps the first half of u to the second. -/
structure Stage (n : Nat) (x m : Matrix) : Prop where
  shaped : Shaped n (n + n) m
  bytes : Bytes m
  solutions : ∀ u : Nat → Nat, (∀ e, u e < 256) →
    ((∀ i, i < n → matVec (n + n) m u i = 0) ↔ ∀ i, i < n → matVec n x u i = u (n + i))

namespace Stage

variable {n : Nat} {x m : Matrix} {r q : Nat}

/-- [X | I] itself. -/
theorem start (hx : Shaped n n x) (hb : Bytes x) : Stage n x (withIdentity n x) := by
  have shaped : Shaped n (n + n) (withIdentity n x) := shaped_augment hx (shaped_tabulate ..)
  have entries : ∀ i, i < n → ∀ j, entry (withIdentity n x) i j
      = if j < n then entry x i j else entry (identity n) i (j - n) :=
    fun i hi j => entry_augment hx (shaped_tabulate ..) hi j
  have unit : ∀ i e, i < n → e < n → entry (identity n) i e = if i = e then 1 else 0 :=
    fun i e hi he => entry_tabulate _ hi he
  refine ⟨shaped, bytes_of_rows shaped fun i j hi => ?_, fun u hu => ?_⟩
  · rw [entries i hi]
    split
    · exact hb i j
    · obtain hj | hj := Nat.lt_or_ge (j - n) n
      · rw [unit i _ hi hj]; split <;> decide
      · rw [(show Shaped n n (identity n) from shaped_tabulate ..).entry_of_column_out hj]; decide
  · refine forall₂_congr fun i hi => ?_
    have left : matVec n (withIdentity n x) u i = matVec n x u i :=
      matVec_congr (fun e he => by rw [entries i hi, if_pos he]) fun _ _ => rfl
    have right : (List.range n).map (fun e => mul8 (entry (withIdentity n x) i (n + e)) (u (n + e)))
        = (List.range n).map fun e => mul8 (if i = e then 1 else 0) (u (n + e)) :=
      List.map_congr_left fun e he => by
        rw [entries i hi, if_neg (by omega), Nat.add_sub_cancel_left, unit i e hi (List.mem_range.mp he)]
    rw [matVec_add, left, right, xorSum_identity_row hi fun e => hu (n + e), Nat.xor_eq_zero_iff]

/-- Rows that change places keep the solutions. -/
theorem swap (h : Stage n x m) (hr : r < n) (hq : q < n) : Stage n x (swapRows m r q) := by
  have shaped := h.shaped.swapRows hr hq
  have entries : ∀ i j, i < n → entry (swapRows m r q) i j = entry m (Equiv.swap r q i) j := fun i j hi => by
    rw [entry_swapRows h.shaped hi, Equiv.swap_apply_def]
    split_ifs <;> rfl
  have row : ∀ u i, i < n → matVec (n + n) (swapRows m r q) u i = matVec (n + n) m u (Equiv.swap r q i) :=
    fun u i hi => by simp only [matVec, entries i _ hi]
  have inside : ∀ i, i < n → Equiv.swap r q i < n := fun i hi => by
    rw [Equiv.swap_apply_def]
    split_ifs <;> assumption
  refine ⟨shaped, bytes_of_rows shaped fun i j hi => (entries i j hi).symm ▸ h.bytes _ j, fun u hu => ?_⟩
  rw [← h.solutions u hu]
  refine ⟨fun hz i hi => ?_, fun hz i hi => by rw [row u i hi]; exact hz _ (inside i hi)⟩
  have back := hz _ (inside i hi)
  rwa [row u _ (inside i hi), Equiv.swap_apply_self] at back

/-- A row scaled by a nonzero element keeps the solutions. -/
theorem scale (h : Stage n x m) {t : Nat} (ht : t < 256) (h0 : t ≠ 0) : Stage n x (scaleRowAt t r m) := by
  have shaped := shaped_scaleRowAt (r := r) h.shaped t
  refine ⟨shaped, bytes_of_rows shaped fun i j hi => ?_, fun u hu => ?_⟩
  · rw [entry_scaleRowAt h.shaped t hi]
    split
    · exact mul8_lt ht _
    · exact h.bytes i j
  · rw [← h.solutions u hu]
    refine forall₂_congr fun i hi => ?_
    obtain rfl | hne := eq_or_ne i r
    · have row : matVec (n + n) (scaleRowAt t i m) u i = mul8 t (matVec (n + n) m u i) := by
        unfold matVec
        simp only [mul8_xorSum, entry_scaleRowAt h.shaped t hi, if_true]
        rw [List.map_congr_left fun e _ => mul8_assoc ht (h.bytes i e) (hu e)]
      rw [row]
      refine ⟨fun hz => ?_, fun hz => by rw [hz]; exact mul_zero_right ..⟩
      exact (eq_zero_or_eq_zero_of_mul (fs := .gf8) ht (matVec_lt h.bytes u i) hz).resolve_left h0
    · rw [matVec_congr (m' := m) (fun e _ => by rw [entry_scaleRowAt h.shaped t hi, if_neg hne]) fun _ _ => rfl]

/-- Clearing a column, in any rows but its own, keeps the solutions. -/
theorem clear (h : Stage n x m) (hr : r < n) {rows : Nat → Bool} (hrows : rows r = false) :
    Stage n x (clearColumn rows r m) := by
  have shaped := shaped_clearColumn h.shaped hr rows
  have entries := fun i hi j => entry_clearColumn (i := i) h.shaped hr rows hi j
  have row : ∀ u : Nat → Nat, (∀ e, u e < 256) → ∀ i, i < n → matVec (n + n) (clearColumn rows r m) u i
      = if rows i then matVec (n + n) m u i ^^^ mul8 (entry m i r) (matVec (n + n) m u r)
        else matVec (n + n) m u i := fun u hu i hi => by
    unfold matVec
    simp only [entries i hi]
    split
    · rw [mul8_xorSum, ← xorSum_map_xor]
      refine congrArg xorSum (List.map_congr_left fun e _ => ?_)
      rw [xor_mul8 (h.bytes i e) (mul8_lt (h.bytes i r) _) (hu e)]
      exact congrArg _ (mul8_assoc (h.bytes i r) (h.bytes r e) (hu e))
    · rfl
  refine ⟨shaped, bytes_of_rows shaped fun i j hi => ?_, fun u hu => ?_⟩
  · rw [entries i hi]
    split
    · exact Nat.xor_lt_two_pow (n := 8) (h.bytes i j) (mul8_lt (h.bytes i r) _)
    · exact h.bytes i j
  · rw [← h.solutions u hu]
    have rowOf : matVec (n + n) (clearColumn rows r m) u r = matVec (n + n) m u r := by
      rw [row u hu r hr, if_neg (by simp [hrows])]
    have others : matVec (n + n) m u r = 0 → ∀ i, i < n →
        matVec (n + n) (clearColumn rows r m) u i = matVec (n + n) m u i := fun hz i hi => by
      rw [row u hu i hi, hz]
      split
      · rw [mul8, mul_zero_right, Nat.xor_zero]
      · rfl
    exact ⟨fun hz i hi => by rw [← others (rowOf ▸ hz r hr) i hi]; exact hz i hi,
      fun hz i hi => by rw [others (hz r hr) i hi]; exact hz i hi⟩

/-- A backward round. -/
theorem backward (h : Stage n x m) (hr : r < n) : Stage n x (backwardRound m r) := by
  rw [backwardRound_eq]
  exact h.clear hr (by simp)

end Stage

/-! ### Columns of the working matrix -/

/-- The first `r` columns have ones on the diagonal and zeros below it, and the first `k` of them zeros above it. -/
def UnitColumns (n r k : Nat) (m : Matrix) : Prop :=
  ∀ c i, c < r → i < n → c ≤ i ∨ c < k → entry m i c = if i = c then 1 else 0

namespace UnitColumns

variable {n r k : Nat} {m : Matrix}

theorem below {c i : Nat} (h : UnitColumns n r k m) (hc : c < r) (hi : i < n) (hci : c < i) : entry m i c = 0 := by
  rw [h c i hc hi (.inl hci.le), if_neg hci.ne']

theorem swap {w q : Nat} (h : UnitColumns n r k m) (hm : Shaped n w m) (hrq : r ≤ q) (hq : q < n) :
    UnitColumns n r k (swapRows m r q) := by
  intro c i hc hi hci
  rw [entry_swapRows hm hi]
  obtain hir | hri := Nat.lt_or_ge i r
  · rw [if_neg hir.ne, if_neg (by omega), h c i hc hi hci]
  · rw [if_neg (show ¬ i = c by omega)]
    split_ifs
    · exact h.below hc hq (by omega)
    · exact h.below hc (by omega) hc
    · exact h.below hc hi (by omega)

theorem scale {w : Nat} (h : UnitColumns n r k m) (hm : Shaped n w m) (t : Nat) :
    UnitColumns n r k (scaleRowAt t r m) := by
  intro c i hc hi hci
  rw [entry_scaleRowAt hm t hi]
  split
  · subst i
    rw [h.below hc hi hc, if_neg hc.ne']
    exact mul_zero_right ..
  · exact h c i hc hi hci

theorem clearBelow {w : Nat} (h : UnitColumns n r 0 m) (hm : Shaped n w m) (hb : Bytes m) (hr : r < n)
    (pivot : entry m r r = 1) : UnitColumns n (r + 1) 0 (clearColumn (fun i => decide (r < i)) r m) := by
  intro c i hc hi hci
  have hci : c ≤ i := by omega
  rw [entry_clearColumn hm hr _ hi]
  obtain rfl | hcr := eq_or_ne c r
  · obtain rfl | hlt := eq_or_lt_of_le hci
    · simpa using pivot
    · simp [hlt, hlt.ne', pivot, mul8_one (hb i c)]
  · rw [h c i (by omega) hi (.inl hci)]
    split
    · rw [h.below (by omega) hr (by omega), mul8, mul_zero_right, Nat.xor_zero]
    · rfl

theorem clearAbove {w : Nat} (h : UnitColumns n r k m) (hm : Shaped n w m) (hb : Bytes m) (hk : k < r) (hr : r ≤ n) :
    UnitColumns n r (k + 1) (clearColumn (fun i => decide (i < k)) k m) := by
  intro c i hc hi hci
  have hkn : k < n := by omega
  rw [entry_clearColumn hm hkn _ hi]
  obtain hik | hki := Nat.lt_or_ge i k
  · rw [if_pos (decide_eq_true hik)]
    obtain rfl | hck := eq_or_ne c k
    · rw [h c c hc hkn (.inl (Nat.le_refl c)), if_pos rfl, mul8_one (hb i c), Nat.xor_self, if_neg hik.ne]
    · rw [h.below hc hkn (by omega), mul8, mul_zero_right, Nat.xor_zero, h c i hc hi (by omega)]
  · rw [if_neg (by simpa using hki), h c i hc hi (by omega)]

end UnitColumns

/-- A stage whose first `r` columns are cleared below the diagonal, and the first `k` above it. -/
structure Reduced (n : Nat) (x : Matrix) (r k : Nat) (m : Matrix) : Prop extends Stage n x m where
  columns : UnitColumns n r k m

namespace Reduced

variable {n r k : Nat} {x m d : Matrix}

/-- A forward round clears its column below the diagonal. -/
theorem forward (h : Reduced n x r 0 m) (hr : r < n) (hd : forwardRound n m r = some d) :
    Reduced n x (r + 1) 0 d := by
  obtain ⟨q, hq, hrq, hpivot, sw, sc, hsw, hsc, rfl⟩ := forwardRound_eq_some h.shaped.1 hd
  have swapped : Reduced n x r 0 sw := hsw ▸ ⟨h.swap hr hq, h.columns.swap h.shaped hrq hq⟩
  have pivot : entry sw r r ≠ 0 := by rwa [hsw, entry_swapRows h.shaped hr, if_pos rfl]
  have byte : entry sw r r < 256 := swapped.bytes r r
  have scaled : Reduced n x r 0 sc := hsc ▸
    ⟨swapped.scale (inv_lt_width (fs := .gf8) byte pivot) (inv_ne_zero_of_lt byte pivot),
      swapped.columns.scale swapped.shaped _⟩
  have one : entry sc r r = 1 := by
    rw [hsc, entry_scaleRowAt swapped.shaped _ hr, if_pos rfl, inv_mul8 byte pivot]
  exact ⟨scaled.clear hr (by simp), scaled.columns.clearBelow scaled.shaped scaled.bytes hr one⟩

/-- The backward pass over the first `j` columns (R164). -/
theorem backward (h : Reduced n x r 0 m) (hr : r ≤ n) {j : Nat} (hj : j ≤ r) :
    Reduced n x r j ((List.range j).foldl backwardRound m) := by
  induction j with
  | zero => exact h
  | succ j ih =>
    have ih := ih (by omega)
    rw [List.range_succ, List.foldl_append]
    refine ⟨ih.toStage.backward (by omega), ?_⟩
    rw [List.foldl_cons, List.foldl_nil, backwardRound_eq]
    exact ih.columns.clearAbove ih.shaped ih.bytes (by omega) hr

/-- The backward pass changes rows above its last column only. -/
theorem entry_backward (h : Reduced n x r 0 m) (hr : r ≤ n) {j i : Nat} (hj : j ≤ r) (hi : i < n) (hji : j ≤ i)
    (c : Nat) : entry ((List.range j).foldl backwardRound m) i c = entry m i c := by
  induction j with
  | zero => rfl
  | succ j ih =>
    rw [List.range_succ, List.foldl_append, List.foldl_cons, List.foldl_nil, backwardRound_eq,
      entry_clearColumn (h.backward hr (by omega : j ≤ r)).shaped (by omega) _ hi,
      if_neg (by simp only [decide_eq_true_eq]; omega)]
    exact ih (by omega) (by omega)

end Reduced

/-- The forward pass over `j` columns from `r` on clears them. -/
theorem Reduced.forwardPass_some {n j r : Nat} {x m d : Matrix} (h : Reduced n x r 0 m) (hj : r + j ≤ n)
    (hd : forwardPass n (List.range' r j) m = some d) : Reduced n x (r + j) 0 d := by
  induction j generalizing r m with
  | zero => exact Option.some.inj hd ▸ h
  | succ j ih =>
    rw [List.range'_succ, forwardPass] at hd
    split at hd
    · cases hd
    · rw [show r + (j + 1) = r + 1 + j by omega]
      exact ih (h.forward (by omega) ‹_›) (by omega) hd

/-- A forward pass that fails has a round without a pivot. -/
theorem Reduced.exists_stuck {n j r : Nat} {x m : Matrix} (h : Reduced n x r 0 m) (hj : r + j ≤ n)
    (hd : forwardPass n (List.range' r j) m = none) :
    ∃ q d, q < n ∧ Reduced n x q 0 d ∧ forwardRound n d q = none := by
  induction j generalizing r m with
  | zero => cases hd
  | succ j ih =>
    rw [List.range'_succ, forwardPass] at hd
    split at hd
    · exact ⟨r, m, by omega, h, ‹_›⟩
    · exact ih (h.forward (by omega) ‹_›) (by omega) hd

/-! ### Inversion (R164) -/

theorem reduced_start {n : Nat} {x : Matrix} (hx : SquareMatrix n x) : Reduced n x 0 0 (withIdentity n x) :=
  ⟨.start (squareMatrix_iff.mp hx).1 (squareMatrix_iff.mp hx).2, fun _ _ h => absurd h (Nat.not_lt_zero _)⟩

theorem entry_map_drop (n : Nat) (m : Matrix) (i j : Nat) : entry (m.map (List.drop n)) i j = entry m i (n + j) := by
  obtain hi | hi := Nat.lt_or_ge i m.length
  · simp [entry, List.getD_eq_getElem?_getD, hi]
  · rw [entry_of_row_out hi, entry_of_row_out (by simpa using hi)]

/-- The vector whose first `n` elements are those of `v`, and whose next ones are those of `w`. -/
def joined (n : Nat) (v w : Nat → Nat) (e : Nat) : Nat := if e < n then v e else w (e - n)

/-- X takes v to w exactly if the inverse takes w to v. -/
theorem invert_some {n : Nat} {x y : Matrix} (hx : SquareMatrix n x) (h : invert n x = some y) :
    SquareMatrix n y ∧ ∀ v w : Nat → Nat, (∀ e, v e < 256) → (∀ e, w e < 256) →
      ((∀ i, i < n → matVec n x v i = w i) ↔ ∀ i, i < n → v i = matVec n y w i) := by
  have shaped := shaped_invert (squareMatrix_iff.mp hx).1 h
  unfold invert at h
  split at h
  · cases h
  · rename_i m hm
    rw [List.range_eq_range'] at hm
    have forward := (reduced_start hx).forwardPass_some (by omega) hm
    rw [Nat.zero_add] at forward
    have final := forward.backward (Nat.le_refl n) (Nat.le_refl n)
    obtain rfl := Option.some.inj h
    refine ⟨squareMatrix_iff.mpr ⟨shaped, fun i j => ?_⟩, fun v w hv hw => ?_⟩
    · rw [entry_map_drop]; exact final.bytes ..
    · have bytes : ∀ e, joined n v w e < 256 := fun e => by unfold joined; split <;> [exact hv e; exact hw _]
      have first : ∀ e, e < n → joined n v w e = v e := fun e he => if_pos he
      have second : ∀ e, joined n v w (n + e) = w e := fun e => by simp [joined]
      have solutions := final.solutions _ bytes
      simp only [second] at solutions
      have start : (∀ i, i < n → matVec n x v i = w i) ↔ ∀ i, i < n → matVec n x (joined n v w) i = w i :=
        forall₂_congr fun i _ => by rw [matVec_congr (fun _ _ => rfl) first]
      rw [start, ← solutions]
      refine forall₂_congr fun i hi => ?_
      have left := matVec_eq_of_identity_row hi bytes fun e he => final.columns e i he hi (.inr he)
      rw [matVec_add, left, first i hi, Nat.xor_eq_zero_iff]
      simp only [second, matVec, entry_map_drop]

/-- The vector that a column `q` without a pivot gives, once the columns before it are those of the identity. -/
def kernelVector (m : Matrix) (q e : Nat) : Nat := if e < q then entry m e q else if e = q then 1 else 0

theorem kernelVector_lt {m : Matrix} (hb : Bytes m) (q e : Nat) : kernelVector m q e < 256 := by
  unfold kernelVector
  split_ifs
  · exact hb e q
  · decide
  · decide

theorem matVec_kernelVector {n q i : Nat} {x m : Matrix} (h : Reduced n x q q m) (hq : q < n)
    (hz : ∀ j, q ≤ j → j < n → entry m j q = 0) (hi : i < n) : matVec (n + n) m (kernelVector m q) i = 0 := by
  have after : ∀ e, kernelVector m q (q + 1 + e) = 0 := fun e => by
    rw [kernelVector, if_neg (by omega), if_neg (by omega)]
  have last : kernelVector m q q = 1 := by simp [kernelVector]
  have before : matVec q m (kernelVector m q) i = entry m i q := by
    obtain hiq | hqi := Nat.lt_or_ge i q
    · rw [matVec_eq_of_identity_row hiq (kernelVector_lt h.bytes q) fun e he => h.columns e i he hi (.inr he),
        kernelVector, if_pos hiq]
    · rw [hz i hqi hi]
      exact xorSum_map_zero fun e he => by
        rw [h.columns.below (List.mem_range.mp he) hi (by have := List.mem_range.mp he; omega)]
        exact mul_zero_left ..
  obtain ⟨b, hb⟩ : ∃ b, n + n = q + 1 + b := ⟨n + n - (q + 1), by omega⟩
  rw [hb, matVec_add, xorSum_map_zero fun e _ => by rw [after e]; exact mul_zero_right .., Nat.xor_zero, matVec_add,
    before]
  simp [xorSum, last, mul8_one (h.bytes i q)]

/-- Without an inverse, X takes a vector other than 0 to 0. -/
theorem invert_none {n : Nat} {x : Matrix} (hx : SquareMatrix n x) (h : invert n x = none) :
    ∃ v : Nat → Nat, (∀ e, v e < 256) ∧ (∀ i, i < n → matVec n x v i = 0) ∧ ∃ i, i < n ∧ v i ≠ 0 := by
  unfold invert at h
  split at h
  · rename_i hm
    rw [List.range_eq_range'] at hm
    obtain ⟨q, d, hq, hd, stuck⟩ := (reduced_start hx).exists_stuck (by omega) hm
    have final := hd.backward hq.le (Nat.le_refl q)
    have column : ∀ j, q ≤ j → j < n → entry ((List.range q).foldl backwardRound d) j q = 0 := fun j hqj hj => by
      rw [hd.entry_backward hq.le (Nat.le_refl q) hj hqj]
      exact forwardRound_eq_none.mp stuck j hj hqj
    have bytes := kernelVector_lt final.bytes q
    refine ⟨_, bytes, fun i hi => ?_, q, hq, by simp [kernelVector]⟩
    rw [(final.solutions _ bytes).mp (fun j hj => matVec_kernelVector final hq column hj) i hi, kernelVector,
      if_neg (by omega), if_neg (by omega)]
  · cases h

/-- A right inverse brings every vector back. -/
theorem matVec_matVec_of_product {n : Nat} {x y : Matrix} (hx : Bytes x) (hy : Bytes y)
    (h : matProduct n n n x y = identity n) {v : Nat → Nat} (hv : ∀ e, v e < 256) {i : Nat} (hi : i < n) :
    matVec n x (matVec n y v) i = v i := by
  rw [← matVec_matProduct hx hy hv hi, h]
  exact matVec_eq_of_identity_row hi hv fun e he => entry_tabulate _ hi he

/-- A matrix applied to a column of the identity. -/
theorem matVec_unit {n j : Nat} {y : Matrix} (hy : Bytes y) (hj : j < n) (i : Nat) :
    matVec n y (fun e => if e = j then 1 else 0) i = entry y i j := by
  rw [matVec, xorSum_range_single hj fun e _ he => by rw [if_neg he]; exact mul_zero_right .., if_pos rfl,
    mul8_one (hy i j)]

/-- `invert` answers a right inverse: each of its columns is the solution for a column of the identity. -/
theorem matProduct_invert {n : Nat} {x y : Matrix} (hx : SquareMatrix n x) (h : invert n x = some y) :
    matProduct n n n x y = identity n := by
  obtain ⟨hy, solves⟩ := invert_some hx h
  have bytes := (squareMatrix_iff.mp hy).2
  refine tabulate_eq_iff.mpr fun i j hi hj => ?_
  have column := solves (fun e => entry y e j) (fun e => if e = j then 1 else 0) (fun e => bytes e j)
    (fun e => by split <;> decide)
  exact column.mpr (fun k _ => (matVec_unit bytes hj k).symm) i hi

/-- A matrix with a right inverse takes no vector but 0 to 0. Nor does the right inverse, so the elimination inverts it,
and each vector is the image of one under the right inverse. -/
theorem eq_zero_of_matVec_eq_zero {n : Nat} {x y : Matrix} (hx : SquareMatrix n x) (hy : SquareMatrix n y)
    (h : matProduct n n n x y = identity n) {v : Nat → Nat} (hv : ∀ e, v e < 256)
    (hz : ∀ i, i < n → matVec n x v i = 0) {i : Nat} (hi : i < n) : v i = 0 := by
  have back : ∀ {u : Nat → Nat}, (∀ e, u e < 256) → ∀ k, k < n → matVec n x (matVec n y u) k = u k :=
    fun hu _ hk => matVec_matVec_of_product (squareMatrix_iff.mp hx).2 (squareMatrix_iff.mp hy).2 h hu hk
  cases hinv : invert n y with
  | none =>
    obtain ⟨u, hu, huz, k, hk, hne⟩ := invert_none hy hinv
    exact absurd ((back hu k hk).symm.trans (matVec_eq_zero huz)) hne
  | some z =>
    obtain ⟨hsz, solves⟩ := invert_some hy hinv
    have bytes : ∀ e, matVec n z v e < 256 := matVec_lt (squareMatrix_iff.mp hsz).2 v
    have image : ∀ k, k < n → matVec n y (matVec n z v) k = v k := (solves _ _ bytes hv).mpr fun _ _ => rfl
    have zero : ∀ k, k < n → matVec n z v k = 0 := fun k hk => by
      rw [← back bytes k hk, matVec_congr (fun _ _ => rfl) image, hz k hk]
    rw [← image i hi, matVec_eq_zero zero]

/-- Settles O40: `invert` solves [X | I] u = 0, and fails only where X has a kernel, which excludes a right inverse. -/
theorem gaussJordanInverts : Obligations.GaussJordanInverts := by
  intro n x hx
  refine ⟨fun y hy => ⟨(invert_some hx hy).1, matProduct_invert hx hy⟩, fun hnone => ?_, fun hno => ?_⟩
  · rintro ⟨y, hy, hxy⟩
    obtain ⟨v, hv, hz, i, hi, hne⟩ := invert_none hx hnone
    exact hne (eq_zero_of_matVec_eq_zero hx hy hxy hv hz hi)
  · cases hi : invert n x with
    | none => rfl
    | some y => exact absurd ⟨y, (invert_some hx hi).1, matProduct_invert hx hi⟩ hno

end Sys2Proof.Machine
end

section
/-! SUPPORT. The matrix unit's commands (spec/42_matrix.md R160 to R167, spec/43_generator.md R197): dimensions, the
output matrix and its overlap check, and what each command answers. -/

namespace Sys2Proof.Machine

/-! ### Dimensions (R160) -/

theorem checkDim_pos {d : Word} (h : DimensionLegal d) (idx : Half) : checkDim d idx = .ok () := check_pos h _ idx

theorem checkDim_neg {d : Word} (h : ¬ DimensionLegal d) (idx : Half) :
    checkDim d idx = .error { code := .badArgument, idx := idx } := check_neg h _ idx

/-- The checks of the dimensions `ds`, operand `i` and those after it, and what follows them. -/
def withDims (v : Except Err Plan) : Nat → List Word → Except Err Plan
  | _, [] => v
  | i, d :: ds => do
    checkDim d (BitVec.ofNat 16 i)
    withDims v (i + 1) ds

theorem withDims_of_legal (v : Except Err Plan) (i : Nat) {ds : List Word} (h : ∀ d ∈ ds, DimensionLegal d) :
    withDims v i ds = v := by
  induction ds generalizing i with
  | nil => rfl
  | cons d ds ih => rw [withDims, checkDim_pos (h d (by simp)), ok_bind, ih _ fun e he => h e (by simp [he])]

theorem withDims_of_illegal (v : Except Err Plan) (i : Nat) {ds : List Word} {j : Nat} (h : FirstIllegal ds j) :
    withDims v i ds = .error { code := .badArgument, idx := BitVec.ofNat 16 (i + j) } := by
  obtain ⟨bad, good⟩ := h
  induction ds generalizing i j with
  | nil => exact absurd (show DimensionLegal 1 by decide) bad
  | cons d ds ih =>
    rw [withDims]
    cases j with
    | zero => exact congrArg (· >>= _) (checkDim_neg bad _)
    | succ j =>
      have first : DimensionLegal d := good 0 (Nat.succ_pos j)
      rw [checkDim_pos first, ok_bind, ih (i + 1) bad fun k hk => good (k + 1) (Nat.succ_lt_succ hk),
        Nat.add_right_comm, Nat.add_assoc]

/-- A matrix command whose first illegal dimension is operand `j`. -/
theorem exec_of_illegal_dim {i : Instr} {s : State} {v : Except Err Plan} {ds : List Word} (hc : CanComplete s)
    (hp : planOf i s = withDims v 0 ds) {j : Nat} (h : FirstIllegal ds j) :
    exec i s = .next (failed (opcodeOf i) (irqFlagOf i) { code := .badArgument, idx := BitVec.ofNat 16 j } s) :=
  exec_eq_failed hc (by rw [hp, withDims_of_illegal v 0 h, Nat.zero_add])

/-! ### Sources and destination (R161) -/

theorem readMatrix_of_readable {s : State} {a r c : Nat} (h : Readable s a (r * c)) :
    readMatrix s a r c = .ok (matrixAt s a r c) := readMatrix_eq_ok.mpr ⟨h, rfl⟩

/-- The overlap check of one destination (20_memory.md R79), for a command without a source. -/
theorem footprintClear_noSource {s : State} {w : Extent} :
    footprintClear [descRange s] [w] = true ↔ Apart w (descriptor s) := by
  simp [footprintClear, pairwiseClear, pairClear, descRange]

/-- The overlap check of one destination (20_memory.md R79), for a command with two sources, neither in place. -/
theorem footprintClear_twoSources {s : State} {w : Extent} {a n b m : Nat} :
    footprintClear [descRange s, reads a n, reads b m] [w] = true
      ↔ Apart w (descriptor s) ∧ Apart w (extent a n) ∧ Apart w (extent b m) := by
  simp [footprintClear, pairwiseClear, pairClear, descRange, reads]

/-- What a matrix command carries out whose footprint is clear (R161). -/
def outputMatrixPlan (s : State) (ins : List ReadRange) (dst : Addr) (n : Nat) (out : Matrix) : Plan :=
  { reads := descRange s :: ins
    writes := [extent dst.toNat n]
    accesses := [writeAccess dst.toNat n]
    stores := [matrixStore dst.toNat out]
    span := none, scrNext := none, ctx := none, icache := none, result := 0 }

section
variable {i : Instr} {s : State} {ins : List ReadRange} {dst : Addr} {n : Nat} {out : Matrix}

theorem matrixPlan_of_overlap (h : footprintClear (descRange s :: ins) [extent dst.toNat n] = false) :
    matrixPlan s ins dst n out = .error { code := .overlap, idx := noDetail } := guarded_eq_error.mpr ⟨h, rfl⟩

theorem matrixPlan_of_clear (h : footprintClear (descRange s :: ins) [extent dst.toNat n] = true) :
    matrixPlan s ins dst n out = .ok (outputMatrixPlan s ins dst n out) := guarded_eq_ok.mpr ⟨h, rfl⟩

/-- A matrix command whose destination overlaps its footprint. -/
theorem exec_eq_overlap (hc : CanComplete s) (hp : planOf i s = matrixPlan s ins dst n out)
    (h : footprintClear (descRange s :: ins) [extent dst.toNat n] = false) :
    exec i s = .next (failed (opcodeOf i) (irqFlagOf i) { code := .overlap, idx := 0xFFFF } s) :=
  exec_eq_failed hc (hp.trans (matrixPlan_of_overlap h))

/-- A matrix command that writes its output. -/
theorem exec_eq_written (hc : CanComplete s) (hp : planOf i s = matrixPlan s ins dst n out)
    (h : footprintClear (descRange s :: ins) [extent dst.toNat n] = true) (hw : Writable s dst.toNat n) :
    exec i s = .next (succeeded (irqFlagOf i) 0 { s with mem := s.mem.writeBytes dst.toNat (matrixBytes out) }) :=
  exec_eq_succeeded hc (hp.trans (matrixPlan_of_clear h))
    (by simp [accessesPermitted, outputMatrixPlan, writeAccess, hw])

end

/-! ### MAT_MUL and MAT_AUG (R163, R167) -/

section
variable {irq : Bool} {ra ca rb cb : Word} {x y dst : Addr} {s : State}

theorem planOf_matMul (hd : ∀ d ∈ [ra, ca, rb, cb], DimensionLegal d) (hs : ca = rb)
    (hx : Readable s x.toNat (ra.toNat * ca.toNat)) (hy : Readable s y.toNat (rb.toNat * cb.toNat)) :
    planOf (.matMul irq ra ca rb cb x y dst) s
      = matrixPlan s [reads x.toNat (ra.toNat * ca.toNat), reads y.toNat (rb.toNat * cb.toNat)] dst
        (ra.toNat * cb.toNat) (matProduct ra.toNat ca.toNat cb.toNat (matrixAt s x.toNat ra.toNat ca.toNat)
          (matrixAt s y.toNat rb.toNat cb.toNat)) := by
  refine (withDims_of_legal _ 0 hd).trans ?_
  rw [check_pos hs, ok_bind, readMatrix_of_readable hx, ok_bind, readMatrix_of_readable hy, ok_bind]

theorem planOf_matMul_of_mismatch (hd : ∀ d ∈ [ra, ca, rb, cb], DimensionLegal d) (hs : ca ≠ rb) :
    planOf (.matMul irq ra ca rb cb x y dst) s = .error { code := .shapeMismatch, idx := noDetail } := by
  refine (withDims_of_legal _ 0 hd).trans ?_
  rw [check_neg hs, error_bind]

theorem planOf_matAug (hd : ∀ d ∈ [ra, ca, rb, cb], DimensionLegal d) (hs : ra = rb)
    (hw : ca.toNat + cb.toNat ≤ 512) (hx : Readable s x.toNat (ra.toNat * ca.toNat))
    (hy : Readable s y.toNat (rb.toNat * cb.toNat)) :
    planOf (.matAug irq ra ca rb cb x y dst) s
      = matrixPlan s [reads x.toNat (ra.toNat * ca.toNat), reads y.toNat (rb.toNat * cb.toNat)] dst
        (ra.toNat * (ca.toNat + cb.toNat))
        (augment (matrixAt s x.toNat ra.toNat ca.toNat) (matrixAt s y.toNat rb.toNat cb.toNat)) := by
  refine (withDims_of_legal _ 0 hd).trans ?_
  rw [check_pos hs, ok_bind, check_pos hw, ok_bind, readMatrix_of_readable hx, ok_bind, readMatrix_of_readable hy,
    ok_bind]

theorem planOf_matAug_of_mismatch (hd : ∀ d ∈ [ra, ca, rb, cb], DimensionLegal d) (hs : ra ≠ rb) :
    planOf (.matAug irq ra ca rb cb x y dst) s = .error { code := .shapeMismatch, idx := noDetail } := by
  refine (withDims_of_legal _ 0 hd).trans ?_
  rw [check_neg hs, error_bind]

theorem planOf_matAug_of_wide (hd : ∀ d ∈ [ra, ca, rb, cb], DimensionLegal d) (hs : ra = rb)
    (hw : 512 < ca.toNat + cb.toNat) :
    planOf (.matAug irq ra ca rb cb x y dst) s = .error { code := .badArgument, idx := detailD } := by
  refine (withDims_of_legal _ 0 hd).trans ?_
  rw [check_pos hs, ok_bind, check_neg (by omega), error_bind]

end

/-- The product of two matrices in memory. -/
theorem matProduct_matrixAt (s : State) (a b r t c : Nat) :
    matProduct r t c (matrixAt s a r t) (matrixAt s b t c) = tabulate r c fun i j =>
      xorSum ((List.range t).map fun e =>
        mul .gf8 (s.mem.read (a + i * t + e)).toNat (s.mem.read (b + e * c + j)).toNat) := by
  refine tabulate_eq_iff.mpr fun i j hi hj => congrArg xorSum (List.map_congr_left fun e he => ?_)
  have he := List.mem_range.mp he
  rw [entry_matrixAt hi he, entry_matrixAt he hj]

/-- Two matrices in memory side by side. -/
theorem augment_matrixAt (s : State) (a b r c c' : Nat) :
    augment (matrixAt s a r c) (matrixAt s b r c') = tabulate r (c + c') fun i j =>
      if j < c then (s.mem.read (a + i * c + j)).toNat else (s.mem.read (b + i * c' + (j - c))).toNat := by
  have hx := shaped_matrixAt s a r c
  have hy := shaped_matrixAt s b r c'
  refine (shaped_augment hx hy).eq_tabulate fun i j hi hj => ?_
  rw [entry_augment hx hy hi]
  split
  · rw [entry_matrixAt hi ‹_›]
  · rw [entry_matrixAt hi (by omega)]

/-- Settles O38: both commands read two matrices and differ in their shape check and in the matrix they make of them. -/
theorem matrixProductAndAugment : Obligations.MatrixProductAndAugment := by
  intro irq ra ca rb cb x y dst s hc
  refine ⟨fun j hj => ⟨exec_of_illegal_dim hc rfl hj, exec_of_illegal_dim hc rfl hj⟩, fun hra hca hrb hcb => ?_⟩
  have dims : ∀ d ∈ [ra, ca, rb, cb], DimensionLegal d := by
    simpa using ⟨hra, hca, hrb, hcb⟩
  refine ⟨fun hx hy => ⟨fun hs ho => ?_, fun hs hw ho => ?_, fun hs hd h0 h1 h2 => ?_, fun hs hw hd h0 h1 h2 => ?_⟩,
    fun hs => ?_, fun hs => ?_, fun hs hw => ?_⟩
  · exact exec_eq_overlap hc (planOf_matMul dims hs hx hy)
      (Bool.eq_false_iff.mpr (mt footprintClear_twoSources.mp ho))
  · exact exec_eq_overlap hc (planOf_matAug dims hs hw hx hy)
      (Bool.eq_false_iff.mpr (mt footprintClear_twoSources.mp ho))
  · subst hs
    rw [← matProduct_matrixAt]
    exact exec_eq_written hc (planOf_matMul dims rfl hx hy) (footprintClear_twoSources.mpr ⟨h0, h1, h2⟩) hd
  · subst hs
    rw [← augment_matrixAt]
    exact exec_eq_written hc (planOf_matAug dims rfl hw hx hy) (footprintClear_twoSources.mpr ⟨h0, h1, h2⟩) hd
  · exact exec_eq_failed hc (planOf_matMul_of_mismatch dims hs)
  · exact exec_eq_failed hc (planOf_matAug_of_mismatch dims hs)
  · exact exec_eq_failed hc (planOf_matAug_of_wide dims hs hw)

/-! ### MAT_INV (R165) -/

section
variable {irq : Bool} {n cols : Word} {src dst : Addr} {s : State}

theorem planOf_matInv (hn : DimensionLegal n) (hr : Readable s src.toNat (n.toNat * n.toNat)) {y : Matrix}
    (hy : invert n.toNat (matrixAt s src.toNat n.toNat n.toNat) = some y) :
    planOf (.matInv irq n n src dst) s
      = matrixPlan s [readsInPlace src.toNat (n.toNat * n.toNat) dst.toNat (n.toNat * n.toNat)] dst
        (n.toNat * n.toNat) y := by
  refine (withDims_of_legal _ 0 (ds := [n, n]) (by simpa using hn)).trans ?_
  rw [check_pos rfl, ok_bind]
  simp only [readMatrix_of_readable hr, ok_bind, hy]

theorem planOf_matInv_of_singular (hn : DimensionLegal n) (hr : Readable s src.toNat (n.toNat * n.toNat))
    (hy : invert n.toNat (matrixAt s src.toNat n.toNat n.toNat) = none) :
    planOf (.matInv irq n n src dst) s = .error { code := .singular, idx := noDetail } := by
  refine (withDims_of_legal _ 0 (ds := [n, n]) (by simpa using hn)).trans ?_
  rw [check_pos rfl, ok_bind]
  simp only [readMatrix_of_readable hr, ok_bind, hy]

theorem planOf_matInv_of_mismatch (hn : DimensionLegal n) (hcols : DimensionLegal cols) (hs : n ≠ cols) :
    planOf (.matInv irq n cols src dst) s = .error { code := .shapeMismatch, idx := noDetail } := by
  refine (withDims_of_legal _ 0 (ds := [n, cols]) (by simpa using ⟨hn, hcols⟩)).trans ?_
  rw [check_neg hs, error_bind]

end

/-- Settles O39: the source is read and inverted before the overlap check, which exempts an inversion in place. -/
theorem matrixInverse : Obligations.MatrixInverse := by
  intro irq n cols src dst s hc
  refine ⟨fun j hj => exec_of_illegal_dim hc rfl hj, fun hn hcols => ⟨fun hs hr => ?_, fun hs => ?_⟩⟩
  · subst hs
    have clear : footprintClear [descRange s, readsInPlace src.toNat (n.toNat * n.toNat) dst.toNat (n.toNat * n.toNat)]
          [extent dst.toNat (n.toNat * n.toNat)] = true
        ↔ Apart (extent dst.toNat (n.toNat * n.toNat)) (descriptor s)
          ∧ (src = dst ∨ Apart (extent dst.toNat (n.toNat * n.toNat)) (extent src.toNat (n.toNat * n.toNat))) := by
      rw [footprintClear_inPlace, BitVec.toNat_inj]
    refine ⟨fun y hy ho => ?_, fun y hy hw h0 h1 => ?_, fun hy => ?_⟩
    · exact exec_eq_overlap hc (planOf_matInv hn hr hy) (Bool.eq_false_iff.mpr (mt clear.mp (by tauto)))
    · exact exec_eq_written hc (planOf_matInv hn hr hy) (clear.mpr ⟨h0, h1⟩) hw
    · exact exec_eq_failed hc (planOf_matInv_of_singular hn hr hy)
  · exact exec_eq_failed hc (planOf_matInv_of_mismatch hn hcols hs)

/-! ### MAT_SUB (R166) -/

/-- Entry `i` of the index list at `a` (20_memory.md R85). -/
def indexAt (s : State) (a i : Nat) : Nat := s.mem.readNat (a + 2 * i) 2

theorem memRead_index {s : State} {a i : Nat} (h : Readable s (a + 2 * i) 2) :
    memRead s (a + 2 * i) 2 = .ok (indexAt s a i) := memRead_of_readable h

theorem indicesAt_eq (s : State) (a n : Nat) : indicesAt s a n = (List.range' 0 n).map (indexAt s a) := by
  rw [← List.range_eq_range']; rfl

/-- `read i n` reads the `n` entries of the index list at `a` from entry `i` on, checks that each is good, and reports
the first that is not with the detail index `detail`. -/
structure ReadsIndices (s : State) (a : Nat) (good : Nat → Prop) (detail : Nat → Half)
    (read : Nat → Nat → Except Err (List Nat)) : Prop where
  nil : ∀ i, read i 0 = .ok []
  cons : ∀ i n, Readable s (a + 2 * i) 2 → good i →
    read i (n + 1) = do
      let rs ← read (i + 1) n
      return indexAt s a i :: rs
  bad : ∀ i n, Readable s (a + 2 * i) 2 → ¬ good i → read i (n + 1) = .error { code := .badArgument, idx := detail i }

namespace ReadsIndices

variable {s : State} {a : Nat} {good : Nat → Prop} {detail : Nat → Half} {read : Nat → Nat → Except Err (List Nat)}

theorem ok (h : ReadsIndices s a good detail read) {i n : Nat}
    (hr : ∀ k, i ≤ k → k < i + n → Readable s (a + 2 * k) 2) (hg : ∀ k, i ≤ k → k < i + n → good k) :
    read i n = .ok ((List.range' i n).map (indexAt s a)) := by
  induction n generalizing i with
  | zero => exact h.nil i
  | succ n ih =>
    rw [h.cons i n (hr i (by omega) (by omega)) (hg i (by omega) (by omega)),
      ih (fun k hk hkn => hr k (by omega) (by omega)) fun k hk hkn => hg k (by omega) (by omega)]
    rfl

theorem firstBad (h : ReadsIndices s a good detail read) {i j n : Nat} (hij : i ≤ j) (hj : j < i + n)
    (hr : ∀ k, i ≤ k → k ≤ j → Readable s (a + 2 * k) 2) (hg : ∀ k, i ≤ k → k < j → good k) (hb : ¬ good j) :
    read i n = .error { code := .badArgument, idx := detail j } := by
  induction n generalizing i with
  | zero => omega
  | succ n ih =>
    obtain rfl | hlt := eq_or_lt_of_le hij
    · exact h.bad i n (hr i (by omega) (by omega)) hb
    · rw [h.cons i n (hr i (by omega) (by omega)) (hg i (by omega) (by omega)),
        ih (by omega) (by omega) (fun k hk hkj => hr k (by omega) hkj) fun k hk hkj => hg k (by omega) hkj, error_bind]

end ReadsIndices

/-- Row index `i` is in range and above its predecessor. -/
def RowIndexGood (s : State) (a rows i : Nat) : Prop :=
  indexAt s a i < rows ∧ (0 < i → indexAt s a (i - 1) < indexAt s a i)

/-- The row index before entry `i`. -/
def rowBefore (s : State) (a i : Nat) : Option Nat := if i = 0 then none else some (indexAt s a (i - 1))

theorem forall_mem_rowBefore {s : State} {a i r : Nat} :
    (∀ p ∈ rowBefore s a i, p < r) ↔ (0 < i → indexAt s a (i - 1) < r) := by
  cases i <;> simp [rowBefore]

theorem readsIndices_rows (s : State) (a rows : Nat) :
    ReadsIndices s a (RowIndexGood s a rows) (BitVec.ofNat 16)
      fun i n => readRowIndices s a rows (rowBefore s a i) i n where
  nil _ := rfl
  cons i n hr hg := by
    obtain ⟨range, above⟩ := hg
    rw [readRowIndices, memRead_index hr, ok_bind, check_pos range, ok_bind,
      check_pos (forall_mem_rowBefore.mpr above), ok_bind]
    rfl
  bad i n hr hg := by
    rw [readRowIndices, memRead_index hr, ok_bind]
    by_cases range : indexAt s a i < rows
    · rw [check_pos range, ok_bind, check_neg fun h => hg ⟨range, forall_mem_rowBefore.mp h⟩, error_bind]
    · rw [check_neg range, error_bind]

theorem readsIndices_cols (s : State) (a cols : Nat) :
    ReadsIndices s a (fun i => indexAt s a i < cols) (fun i => 0x8000 ||| BitVec.ofNat 16 i)
      (readColIndices s a cols) where
  nil _ := rfl
  cons i n hr hg := by rw [readColIndices, memRead_index hr, ok_bind, check_pos hg, ok_bind]
  bad i n hr hg := by rw [readColIndices, memRead_index hr, ok_bind, check_neg hg, error_bind]

/-- The detail index of a column position (R166). -/
theorem columnDetail_eq {j : Nat} (h : j < 0x8000) :
    (0x8000 ||| BitVec.ofNat 16 j : Half) = BitVec.ofNat 16 (0x8000 + j) := by
  have sum : 0x8000 + j = 0x8000 ||| j := Nat.two_pow_add_eq_or_of_lt (i := 15) h 1
  rw [sum, BitVec.ofNat_or]
  rfl

section
variable {irq : Bool} {rows cols nr nc : Word} {src rl cl dst : Addr} {s : State} {ris cis : List Nat}

theorem rowIndexGood_of_rising {a r n k : Nat} (hp : (indicesAt s a n).Pairwise (· < ·))
    (hg : ∀ i ∈ indicesAt s a n, i < r) (hk : k < n) : RowIndexGood s a r k := by
  refine ⟨hg _ (List.mem_map.mpr ⟨k, List.mem_range.mpr hk, rfl⟩), fun h0 => ?_⟩
  have len : (indicesAt s a n).length = n := by simp [indicesAt]
  have step := List.pairwise_iff_getElem.mp hp (k - 1) k (by omega) (by omega) (by omega)
  simpa [indicesAt, indexAt] using step

theorem readRowIndices_of_rising {a r n : Nat} (hr : IndicesReadable s a n)
    (hp : (indicesAt s a n).Pairwise (· < ·)) (hg : ∀ i ∈ indicesAt s a n, i < r) :
    readRowIndices s a r none 0 n = .ok (indicesAt s a n) := by
  rw [indicesAt_eq]
  exact (readsIndices_rows s a r).ok (i := 0) (n := n) (fun k _ hk => hr k (by omega)) fun k _ hk =>
    rowIndexGood_of_rising hp hg (by omega)

theorem readColIndices_of_good {a c n : Nat} (hr : IndicesReadable s a n) (hg : ∀ i ∈ indicesAt s a n, i < c) :
    readColIndices s a c 0 n = .ok (indicesAt s a n) := by
  rw [indicesAt_eq]
  exact (readsIndices_cols s a c).ok (i := 0) (n := n) (fun k _ hk => hr k (by omega)) fun k _ hk =>
    hg _ (List.mem_map.mpr ⟨k, List.mem_range.mpr (by omega), rfl⟩)

theorem planOf_matSub_of_badRow {e : Err} (hd : ∀ d ∈ [rows, cols, nr, nc], DimensionLegal d)
    (hri : readRowIndices s rl.toNat rows.toNat none 0 nr.toNat = .error e) :
    planOf (.matSub irq rows cols nr nc src rl cl dst) s = .error e := by
  refine (withDims_of_legal _ 0 hd).trans ?_
  rw [hri, error_bind]

theorem planOf_matSub_of_badCol {e : Err} (hd : ∀ d ∈ [rows, cols, nr, nc], DimensionLegal d)
    (hri : readRowIndices s rl.toNat rows.toNat none 0 nr.toNat = .ok ris)
    (hci : readColIndices s cl.toNat cols.toNat 0 nc.toNat = .error e) :
    planOf (.matSub irq rows cols nr nc src rl cl dst) s = .error e := by
  refine (withDims_of_legal _ 0 hd).trans ?_
  rw [hri, ok_bind, hci, error_bind]

theorem planOf_matSub (hd : ∀ d ∈ [rows, cols, nr, nc], DimensionLegal d)
    (hri : readRowIndices s rl.toNat rows.toNat none 0 nr.toNat = .ok ris)
    (hci : readColIndices s cl.toNat cols.toNat 0 nc.toNat = .ok cis)
    (hr : Readable s src.toNat (rows.toNat * cols.toNat)) :
    planOf (.matSub irq rows cols nr nc src rl cl dst) s
      = matrixPlan s [reads src.toNat (rows.toNat * cols.toNat), reads rl.toNat (2 * nr.toNat),
          reads cl.toNat (2 * nc.toNat)] dst (nr.toNat * nc.toNat)
        (subMatrix (matrixAt s src.toNat rows.toNat cols.toNat) ris cis) := by
  refine (withDims_of_legal _ 0 hd).trans ?_
  rw [hri, ok_bind, hci, ok_bind, readMatrix_of_readable hr, ok_bind]

end

/-- The selected elements of a matrix in memory. -/
theorem subMatrix_matrixAt {s : State} {a r c : Nat} {ris cis : List Nat} (hr : ∀ i ∈ ris, i < r)
    (hc : ∀ j ∈ cis, j < c) : subMatrix (matrixAt s a r c) ris cis
      = ris.map fun i => cis.map fun j => (s.mem.read (a + i * c + j)).toNat :=
  List.map_congr_left fun i hi => List.map_congr_left fun j hj => entry_matrixAt (hr i hi) (hc j hj)

/-- Settles O41: the row indices are read and checked before the column indices, and the source after both. -/
theorem matrixSubmatrix : Obligations.MatrixSubmatrix := by
  intro irq rows cols nr nc src rl cl dst s hc
  refine ⟨fun j hj => exec_of_illegal_dim hc rfl hj, fun hrows hcols hnr hnc => ?_⟩
  have dims : ∀ d ∈ [rows, cols, nr, nc], DimensionLegal d := by simpa using ⟨hrows, hcols, hnr, hnc⟩
  refine ⟨fun j hj hread hgood hbad => ?_, fun hread hrise hrange => ?_⟩
  · have bad : ¬ RowIndexGood s rl.toNat rows.toNat j := fun ⟨range, above⟩ =>
      hbad.elim (Nat.not_le.mpr range) fun ⟨h0, h⟩ => Nat.not_le.mpr (above h0) h
    exact exec_eq_failed hc (planOf_matSub_of_badRow dims ((readsIndices_rows s rl.toNat rows.toNat).firstBad
      (Nat.zero_le j) (by omega) (fun k _ hk => hread k (by omega)) (fun k _ hk => hgood k hk) bad))
  · have rowsRead := readRowIndices_of_rising hread hrise hrange
    refine ⟨fun j hj hcread hgood hbad => ?_, fun hcread hgood hr ho => ?_, fun hcread hgood hr hw ho => ?_⟩
    · rw [← columnDetail_eq (by have := hnc.2; omega)]
      exact exec_eq_failed hc (planOf_matSub_of_badCol dims rowsRead ((readsIndices_cols s cl.toNat cols.toNat).firstBad
        (Nat.zero_le j) (by omega) (fun k _ hk => hcread k (by omega)) (fun k _ hk => hgood k hk)
        (Nat.not_lt.mpr hbad)))
    · exact exec_eq_overlap hc (planOf_matSub dims rowsRead (readColIndices_of_good hcread hgood) hr) ho
    · rw [← subMatrix_matrixAt hrange hgood]
      exact exec_eq_written hc (planOf_matSub dims rowsRead (readColIndices_of_good hcread hgood) hr) ho hw

/-! ### MAT_IDENT and MAT_VAND (R162, 43_generator.md R197) -/

section
variable {irq : Bool} {a b : Word} {dst : Addr} {s : State}

theorem planOf_matVand (ha : DimensionLegal a) (hb : DimensionLegal b) (h : a.toNat ≤ 256) :
    planOf (.matVand irq a b dst) s
      = matrixPlan s [] dst (a.toNat * b.toNat) (vandermondeRaw a.toNat b.toNat) := by
  refine (withDims_of_legal _ 0 (ds := [a, b]) (by simpa using ⟨ha, hb⟩)).trans ?_
  rw [check_pos h, ok_bind]

theorem planOf_matVand_of_many (ha : DimensionLegal a) (hb : DimensionLegal b) (h : 256 < a.toNat) :
    planOf (.matVand irq a b dst) s = .error { code := .badArgument, idx := detailA } := by
  refine (withDims_of_legal _ 0 (ds := [a, b]) (by simpa using ⟨ha, hb⟩)).trans ?_
  rw [check_neg (by omega), error_bind]

/-- The accesses of MAT_IDENT, one for each byte (log 10). -/
def byteWrites (a n : Nat) : List Access := (List.range n).map fun j => writeAccess (a + j) 1

theorem planOf_matIdent (ha : DimensionLegal a) (h : Apart (extent dst.toNat (a.toNat * a.toNat)) (descriptor s)) :
    planOf (.matIdent irq a dst) s
      = .ok { outputMatrixPlan s [] dst (a.toNat * a.toNat) (identity a.toNat) with
          accesses := byteWrites dst.toNat (a.toNat * a.toNat) } := by
  refine (withDims_of_legal _ 0 (ds := [a]) (by simpa using ha)).trans ?_
  rw [matrixPlan_of_clear (footprintClear_noSource.mpr h), ok_bind]
  rfl

theorem planOf_matIdent_of_overlap (ha : DimensionLegal a)
    (h : ¬ Apart (extent dst.toNat (a.toNat * a.toNat)) (descriptor s)) :
    planOf (.matIdent irq a dst) s = .error { code := .overlap, idx := noDetail } := by
  refine (withDims_of_legal _ 0 (ds := [a]) (by simpa using ha)).trans ?_
  rw [matrixPlan_of_overlap (Bool.eq_false_iff.mpr (mt footprintClear_noSource.mp h)), error_bind]

end

/-- Settles O37: MAT_VAND is admitted as one range, MAT_IDENT byte by byte. -/
theorem matrixIdentityAndVandermonde : Obligations.MatrixIdentityAndVandermonde := by
  intro irq a b dst s hc
  refine ⟨fun j hj => exec_of_illegal_dim hc rfl hj, fun j hj => exec_of_illegal_dim hc rfl hj,
    fun ha => ⟨fun ho => ?_, fun ho hw => ?_⟩, fun ha hb => ⟨fun h => ?_, fun h ho => ?_, fun h hw ho => ?_⟩⟩
  · exact exec_eq_failed hc (planOf_matIdent_of_overlap ha ho)
  · exact exec_eq_succeeded hc (planOf_matIdent ha ho) (by simpa [accessesPermitted, byteWrites, writeAccess] using hw)
  · exact exec_eq_failed hc (planOf_matVand_of_many ha hb h)
  · exact exec_eq_overlap hc (planOf_matVand ha hb h) (Bool.eq_false_iff.mpr (mt footprintClear_noSource.mp ho))
  · exact exec_eq_written hc (planOf_matVand ha hb h) (footprintClear_noSource.mpr ho) hw

end Sys2Proof.Machine
end

section
/-! SUPPORT. FS0 as a Mathlib field (spec/41_field.md R132, R139, R148), and the polynomials over it: one of fewer
coefficients than it has roots is zero. -/

namespace Sys2Proof.Machine

/-! ### Powers and inverses of bytes -/

theorem pow8_zero (a : Nat) : pow .gf8 a 0 = 1 := if_pos rfl

theorem zero_pow8_succ (n : Nat) : pow .gf8 0 (n + 1) = 0 := by rw [pow, if_neg (Nat.succ_ne_zero n), if_pos rfl]

theorem pow8_succ {a : Nat} (ha : a < 256) (n : Nat) : pow .gf8 a (n + 1) = mul8 a (pow .gf8 a n) := by
  obtain rfl | ⟨i, rfl⟩ := eq_zero_or_eq_fromPoly_xpow (fs := .gf8) ha
  · rw [zero_pow8_succ, mul8, mul_zero_left]
  · rw [pow_fromPoly_xpow, pow_fromPoly_xpow, mul8, mul_fromPoly_xpow, Nat.mul_succ, Nat.add_comm]

theorem pow8_lt {a : Nat} (ha : a < 256) (n : Nat) : pow .gf8 a n < 256 := by
  cases n with
  | zero => rw [pow8_zero]; decide
  | succ n => rw [pow8_succ ha]; exact mul8_lt ha _

theorem inv8_zero : inv .gf8 0 = 0 := by decide

theorem inv8_one : inv .gf8 1 = 1 := by decide

theorem inv8_lt {a : Nat} (ha : a < 256) : inv .gf8 a < 256 := by
  obtain rfl | h0 := eq_or_ne a 0
  · rw [inv8_zero]; decide
  · exact inv_lt_width (fs := .gf8) ha h0

/-! ### The field -/

/-- The elements of FS0. -/
@[ext] structure Gf8 where
  val : Nat
  lt : val < 256

/-- FS0 is a field (R148). -/
@[reducible] def gf8Field : Field Gf8 :=
  @Field.ofMinimalAxioms Gf8 ⟨fun a b => ⟨a.val ^^^ b.val, Nat.xor_lt_two_pow (n := 8) a.lt b.lt⟩⟩
    ⟨fun a b => ⟨mul8 a.val b.val, mul8_lt a.lt b.val⟩⟩ ⟨id⟩ ⟨fun a => ⟨inv .gf8 a.val, inv8_lt a.lt⟩⟩
    ⟨⟨0, by decide⟩⟩ ⟨⟨1, by decide⟩⟩
    (fun a b c => Gf8.ext (Nat.xor_assoc a.val b.val c.val))
    (fun a => Gf8.ext (Nat.zero_xor a.val))
    (fun a => Gf8.ext (Nat.xor_self a.val))
    (fun a b c => Gf8.ext (mul8_assoc a.lt b.lt c.lt))
    (fun a b => Gf8.ext (mul8_comm a.lt b.lt))
    (fun a => Gf8.ext (one_mul8 a.lt))
    (fun a h0 => Gf8.ext (mul_inv_of_lt (fs := .gf8) a.lt fun h => h0 (Gf8.ext h)))
    (Gf8.ext inv8_zero)
    (fun a b c => Gf8.ext (mul_xor .gf8 a.val b.val c.val))
    ⟨⟨0, by decide⟩, ⟨1, by decide⟩, fun h => absurd (congrArg Gf8.val h) Nat.zero_ne_one⟩

/-- The field's powers are those of R139. -/
theorem val_gf8_pow (a : Gf8) (n : Nat) : (letI := gf8Field; a ^ n).val = pow .gf8 a.val n := by
  let := gf8Field
  induction n with
  | zero => rw [pow_zero, pow8_zero]; rfl
  | succ n ih => rw [pow_succ', pow8_succ a.lt, ← ih]; rfl

/-- The field's sums are XOR-sums. -/
theorem val_gf8_sum (n : Nat) (f : Nat → Gf8) :
    (letI := gf8Field; ∑ i : Fin n, f i).val = xorSum ((List.range n).map fun e => (f e).val) := by
  let := gf8Field
  rw [← Finset.sum_range]
  induction n with
  | zero => rfl
  | succ n ih =>
    rw [Finset.sum_range_succ, List.range_succ, List.map_append, xorSum_append, ← ih]
    exact congrArg (_ ^^^ ·) (Nat.xor_zero _).symm

/-! ### Polynomials -/

/-- The polynomial of the `n` coefficients `v` at the node `a`: one row of a Vandermonde matrix (R191) applied to `v`. -/
def polyValue (n : Nat) (v : Nat → Nat) (a : Nat) : Nat :=
  xorSum ((List.range n).map fun j => mul8 (pow .gf8 a j) (v j))

theorem exists_gf8_nodes {n : Nat} {nodes : Finset Nat} (hbyte : ∀ a ∈ nodes, a < 256) (hcard : n ≤ nodes.card) :
    ∃ node : Fin n → Gf8, Function.Injective node ∧ ∀ i, (node i).val ∈ nodes := by
  have inside := nodes.orderEmbOfCardLe_mem hcard
  exact ⟨fun i => ⟨nodes.orderEmbOfCardLe hcard i, hbyte _ (inside i)⟩,
    fun i i' h => (nodes.orderEmbOfCardLe hcard).injective (congrArg Gf8.val h), inside⟩

/-- A polynomial of `n` coefficients with `n` roots is zero. -/
theorem eq_zero_of_polyValue_eq_zero {n : Nat} {nodes : Finset Nat} {v : Nat → Nat} (hv : ∀ e, v e < 256)
    (hbyte : ∀ a ∈ nodes, a < 256) (hcard : n ≤ nodes.card) (hz : ∀ a ∈ nodes, polyValue n v a = 0) {j : Nat}
    (hj : j < n) : v j = 0 := by
  let := gf8Field
  obtain ⟨node, distinct, inside⟩ := exists_gf8_nodes hbyte hcard
  have root : ∀ i, ∑ e : Fin n, node i ^ (e : Nat) * (⟨v e, hv e⟩ : Gf8) = 0 := fun i => by
    have term : ∀ e, (node i ^ e * (⟨v e, hv e⟩ : Gf8)).val = mul8 (pow .gf8 (node i).val e) (v e) := fun e =>
      congrArg (mul8 · (v e)) (val_gf8_pow (node i) e)
    refine Gf8.ext ((val_gf8_sum n fun e => node i ^ e * ⟨v e, hv e⟩).trans ?_)
    rw [List.map_congr_left fun e _ => term e]
    exact hz _ (inside i)
  exact congrArg Gf8.val (congrFun (Matrix.eq_zero_of_forall_index_sum_pow_mul_eq_zero distinct root) ⟨j, hj⟩)

end Sys2Proof.Machine
end

section
/-! SUPPORT. The Cauchy and PAR1 builders, whose rules give the entries, and the Vandermonde builder
(spec/43_generator.md R191 to R194). -/

namespace Sys2Proof.Machine

/-! ### Systems with a nonsingular matrix -/

/-- A matrix that takes no vector but 0 to 0 has an inverse. -/
theorem exists_invert_of_kernel {n : Nat} {x : Matrix} (hx : SquareMatrix n x)
    (hk : ∀ v : Nat → Nat, (∀ e, v e < 256) → (∀ i, i < n → matVec n x v i = 0) → ∀ i, i < n → v i = 0) :
    ∃ y, invert n x = some y := by
  refine Option.ne_none_iff_exists'.mp fun hnone => ?_
  obtain ⟨v, hv, hz, i, hi, hne⟩ := invert_none hx hnone
  exact hne (hk v hv hz i hi)

/-- The inverse brings every vector back. -/
theorem matVec_invert_matVec {n : Nat} {x y : Matrix} (hx : SquareMatrix n x) (h : invert n x = some y)
    {v : Nat → Nat} (hv : ∀ e, v e < 256) {i : Nat} (hi : i < n) : matVec n y (matVec n x v) i = v i := by
  obtain ⟨-, solves⟩ := invert_some hx h
  exact ((solves v _ hv (matVec_lt (squareMatrix_iff.mp hx).2 v)).mp (fun _ _ => rfl) i hi).symm

theorem Shaped.bytes {r c : Nat} {x : Matrix} (h : Shaped r c x) (hb : ∀ i j, i < r → j < c → entry x i j < 256) :
    Bytes x := by
  refine bytes_of_rows h fun i j hi => ?_
  obtain hj | hj := Nat.lt_or_ge j c
  · exact hb i j hi hj
  · rw [h.entry_of_column_out hj]; decide

theorem bytes_tabulate {r c : Nat} {f : Nat → Nat → Nat} (hf : ∀ i j, i < r → j < c → f i j < 256) :
    Bytes (tabulate r c f) :=
  (shaped_tabulate r c f).bytes fun i j hi hj => by rw [entry_tabulate f hi hj]; exact hf i j hi hj

/-! ### Rows of a matrix -/

theorem entry_append_left {x y : Matrix} {i : Nat} (h : i < x.length) (j : Nat) : entry (x ++ y) i j = entry x i j :=
  congrArg (·.getD j 0) (List.getD_append _ _ _ _ h)

theorem entry_append_right {x y : Matrix} {i : Nat} (h : x.length ≤ i) (j : Nat) :
    entry (x ++ y) i j = entry y (i - x.length) j :=
  congrArg (·.getD j 0) (List.getD_append_right _ _ _ _ h)

theorem entry_take {x : Matrix} {k i : Nat} (h : i < k) (j : Nat) : entry (x.take k) i j = entry x i j := by
  simp [entry, List.getD_eq_getElem?_getD, List.getElem?_take_of_lt h]

theorem shaped_take {r c k : Nat} {x : Matrix} (h : Shaped r c x) (hk : k ≤ r) : Shaped k c (x.take k) :=
  ⟨by simp [h.1, hk], fun row hr => h.2 row (List.mem_of_mem_take hr)⟩

/-- The first rows of a matrix, by their entries. -/
theorem take_eq_tabulate {r c k : Nat} {x : Matrix} {f : Nat → Nat → Nat} (h : Shaped r c x) (hk : k ≤ r)
    (hf : ∀ i j, i < k → j < c → entry x i j = f i j) : x.take k = tabulate k c f :=
  (shaped_take h hk).eq_tabulate fun i j hi hj => (entry_take hi j).trans (hf i j hi hj)

theorem take_tabulate {r k : Nat} (c : Nat) (f : Nat → Nat → Nat) (hk : k ≤ r) :
    (tabulate r c f).take k = tabulate k c f :=
  take_eq_tabulate (shaped_tabulate ..) hk fun _ _ hi hj => entry_tabulate f (by omega) hj

/-- The rows of a product are the products of the rows. -/
theorem take_matProduct {r k : Nat} (t c : Nat) (x y : Matrix) (hk : k ≤ r) :
    (matProduct r t c x y).take k = matProduct k t c (x.take k) y := by
  refine take_eq_tabulate (shaped_tabulate ..) hk fun i j hi hj => ?_
  refine (entry_matProduct x y (by omega) hj).trans ?_
  exact matVec_congr (fun e _ => (entry_take hi e).symm) fun _ _ => rfl

theorem squareMatrix_identity (n : Nat) : SquareMatrix n (identity n) :=
  squareMatrix_iff.mpr ⟨shaped_tabulate .., bytes_tabulate fun i j _ _ => by split <;> decide⟩

/-! ### Cauchy and PAR1 (R193, R194) -/

/-- Parity rows below the identity. -/
theorem entry_identity_append {k m i j : Nat} (f : Nat → Nat → Nat) (hi : i < k + m) (hj : j < k) :
    entry (identity k ++ tabulate m k f) i j = if i < k then (if i = j then 1 else 0) else f (i - k) j := by
  have len : (identity k).length = k := (shaped_tabulate k k _).1
  split
  · rw [entry_append_left (by omega)]
    exact entry_tabulate _ (by omega) hj
  · rw [entry_append_right (by omega), len, entry_tabulate f (by omega) hj]

theorem entry_buildCauchy {k m i j : Nat} (hi : i < k + m) (hj : j < k) :
    entry (buildCauchy k m) i j = if i < k then (if i = j then 1 else 0) else inv .gf8 (i ^^^ j) := by
  rw [buildCauchy, entry_identity_append _ hi hj]
  refine ite_congr rfl (fun _ => rfl) fun h => ?_
  rw [Nat.add_sub_cancel' (Nat.not_lt.mp h)]

theorem entry_buildPar1 {k m i j : Nat} (hi : i < k + m) (hj : j < k) :
    entry (buildPar1 k m) i j = if i < k then (if i = j then 1 else 0) else pow .gf8 (j + 1) (i - k) :=
  entry_identity_append _ hi hj

/-! ### Vandermonde (R191, R192) -/

theorem bytes_vandermondeRaw {r c : Nat} (hr : r ≤ 256) : Bytes (vandermondeRaw r c) :=
  bytes_tabulate fun i j hi _ => pow8_lt (by omega) j

theorem squareMatrix_vandermondeRaw {n : Nat} (hn : n ≤ 256) : SquareMatrix n (vandermondeRaw n n) :=
  squareMatrix_iff.mpr ⟨shaped_tabulate .., bytes_vandermondeRaw hn⟩

/-- A row of a Vandermonde matrix evaluates a polynomial at its node. -/
theorem matVec_eq_polyValue {c i : Nat} {x : Matrix} (v : Nat → Nat) (hx : ∀ j, j < c → entry x i j = pow .gf8 i j) :
    matVec c x v i = polyValue c v i := by
  unfold matVec polyValue
  rw [List.map_congr_left fun j hj => by rw [hx j (List.mem_range.mp hj)]]

/-- The nodes 0 to n-1 are distinct (R192). -/
theorem exists_invert_vandermondeRaw {n : Nat} (hn : n ≤ 256) : ∃ y, invert n (vandermondeRaw n n) = some y := by
  refine exists_invert_of_kernel (squareMatrix_vandermondeRaw hn) fun v hv hz i hi => ?_
  refine eq_zero_of_polyValue_eq_zero (nodes := Finset.range n) hv
    (fun a ha => (Finset.mem_range.mp ha).trans_le hn) (by simp) (fun a ha => ?_) hi
  have ha := Finset.mem_range.mp ha
  rw [← matVec_eq_polyValue v fun j hj => entry_tabulate _ ha hj]
  exact hz a ha

/-- A matrix times the inverse of a square matrix, times that matrix. -/
theorem matProduct_matProduct_invert {r n : Nat} {x t y : Matrix} (hx : Bytes x) (ht : SquareMatrix n t)
    (h : invert n t = some y) : matProduct r n n (matProduct r n n x y) t = tabulate r n (entry x) := by
  have bytes := (squareMatrix_iff.mp ht).2
  have ybytes := (squareMatrix_iff.mp (invert_some ht h).1).2
  refine tabulate_eq_iff.mpr fun i j hi hj => ?_
  have column : ∀ e, matVec n t (fun e => if e = j then 1 else 0) e = entry t e j := fun e => matVec_unit bytes hj e
  have unit : ∀ e, (if e = j then 1 else 0) < 256 := fun e => by split <;> decide
  calc matVec n (matProduct r n n x y) (fun e => entry t e j) i
      = matVec n x (matVec n y fun e => entry t e j) i := matVec_matProduct hx ybytes (fun e => bytes e j) hi
    _ = matVec n x (fun e => if e = j then 1 else 0) i :=
        matVec_congr (fun _ _ => rfl) fun e he => by
          rw [← funext column]
          exact matVec_invert_matVec ht h unit he
    _ = entry x i j := matVec_unit hx hj i

theorem buildVandermonde_spec {k m : Nat} (h : k + m ≤ 256) :
    ∃ mx, buildVandermonde k m = some mx ∧ mx.take k = identity k
      ∧ matProduct (k + m) k k mx (vandermondeRaw k k) = vandermondeRaw (k + m) k := by
  have top : (vandermondeRaw (k + m) k).take k = vandermondeRaw k k := take_tabulate _ _ (by omega)
  have square : SquareMatrix k (vandermondeRaw k k) := squareMatrix_vandermondeRaw (by omega)
  obtain ⟨y, hy⟩ := exists_invert_vandermondeRaw (n := k) (by omega)
  refine ⟨matProduct (k + m) k k (vandermondeRaw (k + m) k) y, ?_, ?_, ?_⟩
  · simp only [buildVandermonde, top, hy]
  · rw [take_matProduct k k _ y (by omega), top, matProduct_invert square hy]
  · rw [matProduct_matProduct_invert (bytes_vandermondeRaw h) square hy]
    exact tabulate_eq_iff.mpr fun i j hi hj => entry_tabulate _ hi hj

end Sys2Proof.Machine
end

section
/-! SUPPORT. The Jerasure builder (spec/43_generator.md R195). The start matrix evaluates polynomials at distinct nodes,
the last of them infinity, so any k of its rows determine a polynomial of k coefficients. The reduced columns recombine to
those of the start matrix, so a zero pivot or a zero parity entry would be a dependency among such rows. -/

namespace Sys2Proof.Machine

/-! ### The start matrix -/

theorem shaped_jerasureStart (k m : Nat) : Shaped (k + m) k (jerasureStart (k + m) k) := shaped_tabulate ..

section
variable {k m i j : Nat}

theorem entry_jerasureStart (hi : i < k + m) (hj : j < k) : entry (jerasureStart (k + m) k) i j
    = if i = k + m - 1 then (if j = k - 1 then 1 else 0) else pow .gf8 i j := by
  rw [jerasureStart, entry_tabulate _ hi hj]
  obtain rfl | h0 := eq_or_ne i 0
  · cases j with
    | zero => simp only [pow8_zero]; split_ifs <;> omega
    | succ j => rw [zero_pow8_succ]; split_ifs <;> omega
  · rw [if_neg h0]

theorem bytes_jerasureStart (h : k + m ≤ 256) : Bytes (jerasureStart (k + m) k) := by
  refine (shaped_jerasureStart k m).bytes fun i j hi hj => ?_
  rw [entry_jerasureStart hi hj]
  split_ifs
  · decide
  · decide
  · exact pow8_lt (by omega) j

/-- The row of a finite node evaluates a polynomial there. -/
theorem matVec_jerasureStart_node {n : Nat} (v : Nat → Nat) (hi : i < k + m) (hlast : i ≠ k + m - 1) (hn : n ≤ k) :
    matVec n (jerasureStart (k + m) k) v i = polyValue n v i :=
  matVec_eq_polyValue v fun j hj => by rw [entry_jerasureStart hi (by omega), if_neg hlast]

/-- The row of infinity gives the leading coefficient. -/
theorem matVec_jerasureStart_infinity {v : Nat → Nat} (hv : ∀ e, v e < 256) (hk : 1 ≤ k) :
    matVec k (jerasureStart (k + m) k) v (k + m - 1) = v (k - 1) := by
  refine Eq.trans ?_ (xorSum_identity_row (n := k) (i := k - 1) (by omega) hv)
  unfold matVec
  rw [List.map_congr_left fun e he => by
    rw [entry_jerasureStart (by omega) (List.mem_range.mp he), if_pos rfl, ite_cond_congr (propext eq_comm)]]

theorem polyValue_of_leading_zero {n : Nat} {v : Nat → Nat} (h : v n = 0) (a : Nat) :
    polyValue (n + 1) v a = polyValue n v a := by
  rw [polyValue, List.range_succ, List.map_append, xorSum_append]
  simp [xorSum, h, polyValue]

/-- A polynomial of `n` coefficients that vanishes on `n` rows is zero; infinity counts for `n = k` only. -/
theorem eq_zero_of_matVec_jerasureStart {n : Nat} {rows : Finset Nat} {v : Nat → Nat} (hk : 1 ≤ k) (h : k + m ≤ 256)
    (hv : ∀ e, v e < 256) (hrows : ∀ r ∈ rows, r < k + m) (hn : n ≤ k) (hcard : n ≤ rows.card)
    (hlast : k + m - 1 ∈ rows → n = k) (hz : ∀ r ∈ rows, matVec n (jerasureStart (k + m) k) v r = 0)
    (hj : j < n) : v j = 0 := by
  by_cases last : k + m - 1 ∈ rows
  · obtain rfl := hlast last
    have leading : v (n - 1) = 0 := (matVec_jerasureStart_infinity hv hk).symm.trans (hz _ last)
    obtain rfl | hne := eq_or_ne j (n - 1)
    · exact leading
    have fewer : n - 1 ≤ (rows.erase (n + m - 1)).card := by rw [Finset.card_erase_of_mem last]; omega
    refine eq_zero_of_polyValue_eq_zero hv (fun a ha => (hrows a (Finset.mem_of_mem_erase ha)).trans_le h) fewer
      (fun a ha => ?_) (by omega : j < n - 1)
    obtain ⟨hal, ha⟩ := Finset.mem_erase.mp ha
    rw [← polyValue_of_leading_zero leading, Nat.sub_add_cancel hk, ← matVec_jerasureStart_node v (hrows a ha) hal hn]
    exact hz a ha
  · refine eq_zero_of_polyValue_eq_zero hv (fun a ha => (hrows a ha).trans_le h) hcard (fun a ha => ?_) hj
    rw [← matVec_jerasureStart_node v (hrows a ha) (fun e => last (e ▸ ha)) hn]
    exact hz a ha

/-- The first `n` rows, in the first `n` columns, take a vector to any vector. -/
theorem exists_matVec_jerasureStart {n : Nat} (hk : 1 ≤ k) (h : k + m ≤ 256) (hn : n ≤ k) {w : Nat → Nat}
    (hw : ∀ e, w e < 256) :
    ∃ v : Nat → Nat, (∀ e, v e < 256) ∧ ∀ r, r < n → matVec n (jerasureStart (k + m) k) v r = w r := by
  have block : ∀ r, r < n → ∀ v, matVec n (tabulate n n (entry (jerasureStart (k + m) k))) v r
      = matVec n (jerasureStart (k + m) k) v r := fun r hr v =>
    matVec_congr (fun e he => entry_tabulate _ hr he) fun _ _ => rfl
  have square : SquareMatrix n (tabulate n n (entry (jerasureStart (k + m) k))) :=
    squareMatrix_iff.mpr ⟨shaped_tabulate .., bytes_tabulate fun r e _ _ => bytes_jerasureStart h r e⟩
  obtain ⟨y, hy⟩ := exists_invert_of_kernel square fun v hv hz r hr => by
    refine eq_zero_of_matVec_jerasureStart (rows := Finset.range n) hk h hv
      (fun e he => (Finset.mem_range.mp he).trans_le (by omega)) hn (by simp) (fun he => ?_) (fun e he => ?_) hr
    · have := Finset.mem_range.mp he
      omega
    · have he := Finset.mem_range.mp he
      exact (block e he v).symm.trans (hz e he)
  obtain ⟨hsy, solves⟩ := invert_some square hy
  have bytes := matVec_lt (c := n) (squareMatrix_iff.mp hsy).2 w
  exact ⟨_, bytes, fun r hr => (block r hr _).symm.trans ((solves _ w bytes hw).mpr (fun _ _ => rfl) r hr)⟩

end

/-! ### Column operations -/

theorem matVec_succ (c : Nat) (m : Matrix) (v : Nat → Nat) (i : Nat) :
    matVec (c + 1) m v i = matVec c m v i ^^^ mul8 (entry m i c) (v c) := by
  rw [matVec_add]
  exact congrArg (matVec c m v i ^^^ ·) (Nat.xor_zero _)

section
variable {rows k i r j : Nat} {m : Matrix}

theorem entry_map {f : List Nat → List Nat} (hm : r < m.length) (j : Nat) :
    entry (m.map f) r j = (f (m.getD r [])).getD j 0 := by
  simp [entry, List.getD_eq_getElem?_getD, hm]

theorem entry_scaleColumn (h : Shaped rows k m) (t : Nat) (hr : r < rows) (hi : i < k) :
    entry (scaleColumn t i m) r j = if j = i then mul8 t (entry m r i) else entry m r j := by
  have len := h.length_getD hr
  rw [scaleColumn, entry_map (h.1.symm ▸ hr), List.getD_eq_getElem?_getD, List.getElem?_set, len, if_pos hi]
  obtain rfl | hne := eq_or_ne j i
  · simp [entry]
  · rw [if_neg hne.symm, if_neg hne, ← List.getD_eq_getElem?_getD]; rfl

theorem entry_clearRowByColumn (h : Shaped rows k m) (hr : r < rows) (hj : j < k) :
    entry (clearRowByColumn i m) r j
      = if j = i then entry m r i else entry m r j ^^^ mul8 (entry m i j) (entry m r i) := by
  have len := h.length_getD hr
  rw [clearRowByColumn, entry_map (h.1.symm ▸ hr), List.getD_eq_getElem?_getD]
  simp only [List.getElem?_map, len, List.getElem?_range hj, Option.map_some, Option.getD_some]
  split
  · subst j; rfl
  · rfl

/-- Column `i` scaled so that its entry in row `i` is 1. -/
def unitColumn (i : Nat) (m : Matrix) : Matrix :=
  if entry m i i = 1 then m else scaleColumn (inv .gf8 (entry m i i)) i m

theorem shaped_unitColumn (h : Shaped rows k m) : Shaped rows k (unitColumn i m) := by
  unfold unitColumn
  split
  · exact h
  · exact h.map fun row hr => by simp [hr]

theorem shaped_clearRowByColumn (h : Shaped rows k m) : Shaped rows k (clearRowByColumn i m) :=
  h.map fun row hr => by simp [hr]

theorem entry_unitColumn (h : Shaped rows k m) (hb : Bytes m) (hr : r < rows) (hi : i < k) : entry (unitColumn i m) r j
    = if j = i then mul8 (inv .gf8 (entry m i i)) (entry m r i) else entry m r j := by
  unfold unitColumn
  split
  · next one =>
    rw [one, inv8_one, one_mul8 (hb r i)]
    split
    · subst j; rfl
    · rfl
  · exact entry_scaleColumn h _ hr hi

theorem swapRows_self (h : Shaped rows k m) (hi : i < rows) : swapRows m i i = m := by
  have shaped := h.swapRows hi hi
  rw [shaped.eq_tabulate fun r j hr _ => by rw [entry_swapRows h hr]]
  refine (h.eq_tabulate fun r j hr _ => ?_).symm
  split_ifs with e
  · rw [e]
  · rfl

/-- A round with a pivot in its own row. -/
theorem jerasureRound_of_pivot (h : Shaped rows k m) (hi : i < rows) (hp : entry m i i ≠ 0) :
    jerasureRound rows m i = some (clearRowByColumn i (unitColumn i m)) := by
  have found : (List.range rows).find? (fun q => decide (i ≤ q ∧ entry m q i ≠ 0)) = some i :=
    List.find?_range_eq_some.mpr ⟨by simpa using hp, List.mem_range.mpr hi, fun q hq => by simp [hq]⟩
  simp only [jerasureRound, found, swapRows_self h hi, unitColumn]

/-- The entries after a round: column `i` over the pivot, and each other column with the multiple of that column that
clears its entry in row `i`. -/
theorem entry_round (h : Shaped rows k m) (hb : Bytes m) (hi : i < rows) (hik : i < k) (hr : r < rows) (hj : j < k) :
    entry (clearRowByColumn i (unitColumn i m)) r j
      = if j = i then mul8 (inv .gf8 (entry m i i)) (entry m r i)
        else entry m r j ^^^ mul8 (entry m i j) (mul8 (inv .gf8 (entry m i i)) (entry m r i)) := by
  rw [entry_clearRowByColumn (shaped_unitColumn h) hr hj]
  refine ite_congr rfl (fun _ => ?_) fun hne => ?_
  · rw [entry_unitColumn h hb hr hik, if_pos rfl]
  · rw [entry_unitColumn h hb hr hik, entry_unitColumn h hb hi hik, entry_unitColumn h hb hr hik, if_neg hne, if_pos rfl,
      if_neg hne]

end

/-! ### The column reduction -/

/-- `m` is the start matrix `x` with its first `i` columns reduced: the first `i` rows are those of the identity, and a
column of `x` is the sum of the reduced columns by its own first `i` entries, and of its remainder in `m` if it is not
reduced yet. -/
structure ColumnsReduced (rows k : Nat) (x : Matrix) (i : Nat) (m : Matrix) : Prop where
  shaped : Shaped rows k m
  bytes : Bytes m
  unit : ∀ r j, r < i → j < k → entry m r j = if r = j then 1 else 0
  recombine : ∀ r j, r < rows → j < k →
    matVec i m (fun e => entry x e j) r ^^^ (if i ≤ j then entry m r j else 0) = entry x r j

namespace ColumnsReduced

variable {k n i : Nat} {m : Matrix}

/-- The first row of the start matrix is that of the identity. -/
theorem start (h : k + n ≤ 256) :
    ColumnsReduced (k + n) k (jerasureStart (k + n) k) 1 (jerasureStart (k + n) k) := by
  have first : ∀ j, j < k → entry (jerasureStart (k + n) k) 0 j = if 0 = j then 1 else 0 := fun j hj => by
    rw [jerasureStart, entry_tabulate _ (by omega) hj, if_pos rfl]
    simp only [eq_comm (a := j)]
  refine ⟨shaped_tabulate .., bytes_jerasureStart h, fun r j hr hj => ?_, fun r j hr hj => ?_⟩
  · obtain rfl : r = 0 := by omega
    exact first j hj
  · have sum : matVec 1 (jerasureStart (k + n) k) (fun e => entry (jerasureStart (k + n) k) e j) r
        = mul8 (entry (jerasureStart (k + n) k) r 0) (if 0 = j then 1 else 0) := by
      rw [← first j hj]
      exact Nat.xor_zero _
    rw [sum]
    cases j with
    | zero => simp [mul8_one (bytes_jerasureStart h r 0)]
    | succ j => simp

/-- On a row whose unreduced entries are 0, the start matrix acts through its first `i` rows. -/
theorem matVec_start {x : Matrix} {rows c r : Nat} (h : ColumnsReduced rows k x i m) (hx : Bytes x) (hc : c ≤ k)
    (hr : r < rows) (hout : ∀ j, j < c → i ≤ j → entry m r j = 0) {v : Nat → Nat} (hv : ∀ e, v e < 256) :
    matVec c x v r = matVec i m (matVec c x v) r := by
  rw [← matVec_matProduct h.bytes hx hv hr]
  refine matVec_congr (fun e he => ?_) fun _ _ => rfl
  rw [entry_matProduct m x hr he, ← h.recombine r e hr (by omega)]
  split
  · rw [hout e he ‹_›, Nat.xor_zero]
  · rw [Nat.xor_zero]

/-- A zero pivot would make row `i` of the start matrix a combination of the rows above it. -/
theorem pivot_ne_zero (h : ColumnsReduced (k + n) k (jerasureStart (k + n) k) i m) (hk : 1 ≤ k) (hn : k + n ≤ 256)
    (hi : i < k) : entry m i i ≠ 0 := fun zero => by
  obtain ⟨v, hv, image⟩ := exists_matVec_jerasureStart (n := i + 1) (w := fun e => if e = i then 1 else 0) hk hn hi
    fun e => by split <;> decide
  have row := h.matVec_start (c := i + 1) (r := i) (bytes_jerasureStart hn) hi (by omega)
    (fun j hj hij => by rwa [show j = i by omega]) hv
  rw [image i (by omega), if_pos rfl, matVec_eq_zero fun e he => by rw [image e (by omega), if_neg he.ne]] at row
  cases row

section
variable {x : Matrix} {rows r j : Nat} (h : ColumnsReduced rows k x i m) (hi : i < rows) (hik : i < k)
include h hi hik

theorem bytes_round : Bytes (clearRowByColumn i (unitColumn i m)) := by
  refine (shaped_clearRowByColumn (shaped_unitColumn h.shaped)).bytes fun r j hr hj => ?_
  rw [entry_round h.shaped h.bytes hi hik hr hj]
  split
  · exact mul8_lt (inv8_lt (h.bytes i i)) _
  · exact Nat.xor_lt_two_pow (n := 8) (h.bytes r j) (mul8_lt (h.bytes i j) _)

/-- A round keeps the rows of the identity and makes row `i` one of them. -/
theorem unit_round (hp : entry m i i ≠ 0) (hr : r < i + 1) (hj : j < k) :
    entry (clearRowByColumn i (unitColumn i m)) r j = if r = j then 1 else 0 := by
  rw [entry_round h.shaped h.bytes hi hik (by omega) hj]
  obtain hri | rfl := Nat.lt_or_eq_of_le (Nat.le_of_lt_succ hr)
  · rw [h.unit r i hri hik, if_neg hri.ne, mul8, mul_zero_right, mul_zero_right, Nat.xor_zero, h.unit r j hri hj]
    split
    · rw [if_neg (by omega)]
    · rfl
  · rw [inv_mul8 (h.bytes r r) hp, mul8_one (h.bytes r j), Nat.xor_self]
    simp only [eq_comm (a := j)]

/-- The reduced columns by the entries `v`, after a round. -/
theorem matVec_round {v : Nat → Nat} (hv : ∀ e, v e < 256) (hr : r < rows) :
    matVec (i + 1) (clearRowByColumn i (unitColumn i m)) v r
      = matVec i m v r ^^^ mul8 (mul8 (inv .gf8 (entry m i i)) (entry m r i)) (matVec i m v i ^^^ v i) := by
  have scaled : mul8 (inv .gf8 (entry m i i)) (entry m r i) < 256 := mul8_lt (inv8_lt (h.bytes i i)) _
  have term : ∀ e, e < i → mul8 (entry (clearRowByColumn i (unitColumn i m)) r e) (v e)
      = mul8 (entry m r e) (v e) ^^^ mul8 (mul8 (inv .gf8 (entry m i i)) (entry m r i)) (mul8 (entry m i e) (v e)) :=
    fun e he => by
      rw [entry_round h.shaped h.bytes hi hik hr (by omega), if_neg he.ne,
        xor_mul8 (h.bytes r e) (mul8_lt (h.bytes i e) _) (hv e), mul8_comm (h.bytes i e) scaled,
        mul8_assoc scaled (h.bytes i e) (hv e)]
  have before : matVec i (clearRowByColumn i (unitColumn i m)) v r
      = matVec i m v r ^^^ mul8 (mul8 (inv .gf8 (entry m i i)) (entry m r i)) (matVec i m v i) := by
    unfold matVec
    rw [List.map_congr_left fun e he => term e (List.mem_range.mp he), xorSum_map_xor, mul8_xorSum]
  have last : entry (clearRowByColumn i (unitColumn i m)) r i = mul8 (inv .gf8 (entry m i i)) (entry m r i) := by
    rw [entry_round h.shaped h.bytes hi hik hr hik, if_pos rfl]
  rw [matVec_succ, before, last, Nat.xor_assoc, ← mul_xor]

/-- A round whose pivot is not zero reduces its column. -/
theorem round (hx : Bytes x) (hp : entry m i i ≠ 0) :
    ColumnsReduced rows k x (i + 1) (clearRowByColumn i (unitColumn i m)) := by
  refine ⟨shaped_clearRowByColumn (shaped_unitColumn h.shaped), h.bytes_round hi hik,
    fun r j hr hj => h.unit_round hi hik hp hr hj, fun r j hr hj => ?_⟩
  have scale := inv8_lt (h.bytes i i)
  have scaled : mul8 (inv .gf8 (entry m i i)) (entry m r i) < 256 := mul8_lt scale _
  have row : matVec i m (fun e => entry x e j) i ^^^ entry x i j = if i ≤ j then entry m i j else 0 := by
    rw [← h.recombine i j hi hj, Nat.xor_xor_cancel_left]
  rw [h.matVec_round hi hik (fun e => hx e j) hr, row, ← h.recombine r j hr hj, Nat.xor_assoc]
  refine congrArg (matVec i m _ r ^^^ ·) ?_
  obtain hji | rfl | hij := Nat.lt_trichotomy j i
  · simp [Nat.not_le.mpr hji, Nat.not_le.mpr (Nat.lt_succ_of_lt hji)]
  · rw [if_pos le_rfl, if_neg (by omega), if_pos le_rfl, Nat.xor_zero, mul8_comm scale (h.bytes r j),
      mul8_assoc (h.bytes r j) scale (h.bytes j j), inv_mul8 (h.bytes j j) hp, mul8_one (h.bytes r j)]
  · rw [if_pos hij.le, if_pos (by omega), if_pos hij.le, entry_round h.shaped h.bytes hi hik hr hj, if_neg hij.ne',
      mul8_comm (h.bytes i j) scaled, Nat.xor_comm, Nat.xor_xor_cancel_right]

end

/-- The rounds of the last `j` columns all find their pivots. -/
theorem reduce {j : Nat} (h : ColumnsReduced (k + n) k (jerasureStart (k + n) k) i m) (hk : 1 ≤ k) (hn : k + n ≤ 256)
    (hj : i + j = k) : ∃ d, jerasureReduce (k + n) (List.range' i j) m = some d
      ∧ ColumnsReduced (k + n) k (jerasureStart (k + n) k) k d := by
  induction j generalizing i m with
  | zero => exact ⟨m, rfl, hj ▸ h⟩
  | succ j ih =>
    have pivot := h.pivot_ne_zero hk hn (by omega)
    have next := h.round (by omega) (by omega) (bytes_jerasureStart hn) pivot
    obtain ⟨d, reduced, final⟩ := ih next (by omega)
    refine ⟨d, ?_, final⟩
    rw [List.range'_succ, jerasureReduce, jerasureRound_of_pivot h.shaped (by omega) pivot]
    exact reduced

/-- The reduced matrix times the top of the start matrix is the start matrix. -/
theorem matProduct_top {x : Matrix} {rows : Nat} (h : ColumnsReduced rows k x k m) (hx : Shaped rows k x) :
    matProduct rows k k m (x.take k) = x := by
  refine (hx.eq_tabulate fun r j hr hj => ?_).symm
  rw [← h.recombine r j hr hj, if_neg (by omega), Nat.xor_zero]
  exact matVec_congr (fun _ _ => rfl) fun e he => (entry_take he j).symm

theorem take_eq_identity {x : Matrix} {rows : Nat} (h : ColumnsReduced rows k x k m) (hk : k ≤ rows) :
    m.take k = identity k := take_eq_tabulate h.shaped hk h.unit

/-- A zero parity entry would make its row of the start matrix a combination of `k - 1` of the top rows. -/
theorem parity_ne_zero {r j : Nat} (h : ColumnsReduced (k + n) k (jerasureStart (k + n) k) k m) (hk : 1 ≤ k)
    (hn : k + n ≤ 256) (hkr : k ≤ r) (hr : r < k + n) (hj : j < k) : entry m r j ≠ 0 := fun zero => by
  obtain ⟨v, hv, image⟩ := exists_matVec_jerasureStart (w := fun e => if e = j then 1 else 0) hk hn le_rfl
    fun e => by split <;> decide
  have row : matVec k (jerasureStart (k + n) k) v r = 0 := by
    rw [h.matVec_start (bytes_jerasureStart hn) le_rfl hr (fun _ _ _ => by omega) hv,
      matVec_congr (fun _ _ => rfl) image, matVec_unit h.bytes hj, zero]
  have vanishes : ∀ e, e < k → v e = 0 := fun e he => by
    refine eq_zero_of_matVec_jerasureStart (rows := insert r ((Finset.range k).erase j)) hk hn hv (fun a ha => ?_)
      le_rfl ?_ (fun _ => rfl) (fun a ha => ?_) he
    · simp only [Finset.mem_insert, Finset.mem_erase, Finset.mem_range] at ha
      omega
    · rw [Finset.card_insert_of_notMem (by simp; omega), Finset.card_erase_of_mem (Finset.mem_range.mpr hj),
        Finset.card_range]
      omega
    · simp only [Finset.mem_insert, Finset.mem_erase, Finset.mem_range] at ha
      obtain rfl | ⟨hne, ha⟩ := ha
      · exact row
      · rw [image a ha, if_neg hne]
  have one := image j hj
  rw [if_pos rfl, matVec_eq_zero vanishes] at one
  cases one

end ColumnsReduced

/-! ### The parity rows scaled to ones -/

section
variable {rows k r j : Nat} {m : Matrix} (h : Shaped rows k m) (hr : r < rows)
include h hr

theorem entry_onesRow (hb : Bytes m) (hj : j < k) :
    entry (onesRow k m) r j = if r < k then entry m r j else mul8 (inv .gf8 (entry m k j)) (entry m r j) := by
  unfold entry
  rw [onesRow, getD_mapRowsFrom_of_shaped h _ hr]
  split
  · rfl
  · have first : j < (m.getD k []).length := by rwa [h.length_getD (by omega)]
    have row : j < (m.getD r []).length := by rwa [h.length_getD hr]
    rw [List.getD_eq_getElem _ _ (by simpa only [List.length_zipWith, lt_min_iff] using ⟨first, row⟩),
      List.getElem_zipWith, ← List.getD_eq_getElem _ 0 first, ← List.getD_eq_getElem _ 0 row]
    split
    · next one => rw [one, inv8_one]; exact (one_mul8 (hb r j)).symm
    · rfl

theorem entry_onesColumn (hb : Bytes m) :
    entry (onesColumn k m) r j = if r ≤ k then entry m r j else mul8 (inv .gf8 (entry m r 0)) (entry m r j) := by
  unfold entry
  rw [onesColumn, getD_mapRowsFrom_of_shaped h _ hr]
  split
  · rfl
  · split
    · next one => rw [one, inv8_one]; exact (one_mul8 (hb r j)).symm
    · exact entry_scaleRow ..

end

/-- The entries of the Jerasure matrix, from the reduced matrix. -/
theorem entry_onesColumn_onesRow {rows k r j : Nat} {x d : Matrix} (h : ColumnsReduced rows k x k d) (hr : r < rows)
    (hj : j < k) (hrow : ∀ e, e < k → k < rows → entry d k e ≠ 0) :
    entry (onesColumn k (onesRow k d)) r j
      = if r < k then (if r = j then 1 else 0)
        else mul8 (mul8 (inv .gf8 (entry d k j)) (entry d r j))
          (inv .gf8 (mul8 (inv .gf8 (entry d k 0)) (entry d r 0))) := by
  have shaped := shaped_onesRow h.shaped
  have entries := fun r e hr he => entry_onesRow (r := r) (j := e) h.shaped hr h.bytes he
  have bytes : Bytes (onesRow k d) := shaped.bytes fun r e hr he => by
    rw [entries r e hr he]
    split
    · exact h.bytes r e
    · exact mul8_lt (inv8_lt (h.bytes k e)) _
  have scaled : ∀ e, mul8 (inv .gf8 (entry d k e)) (entry d r e) < 256 := fun e => mul8_lt (inv8_lt (h.bytes k e)) _
  rw [entry_onesColumn shaped hr bytes, entries r j hr hj, entries r 0 hr (by omega)]
  obtain hrk | rfl | hkr := Nat.lt_trichotomy r k
  · rw [if_pos hrk.le, if_pos hrk, if_pos hrk, h.unit r j hrk hj]
  · have one : ∀ e, e < r → mul8 (inv .gf8 (entry d r e)) (entry d r e) = 1 := fun e he =>
      inv_mul8 (h.bytes r e) (hrow e he hr)
    rw [if_pos le_rfl, if_neg (lt_irrefl r), if_neg (lt_irrefl r), one j hj, one 0 (by omega), inv8_one]
    rfl
  · rw [if_neg hkr.not_ge, if_neg hkr.not_gt, if_neg hkr.not_gt, if_neg hkr.not_gt,
      mul8_comm (inv8_lt (scaled 0)) (scaled j)]

/-- What the Jerasure builder makes, from the reduced matrix. -/
theorem buildJerasure_spec {k m : Nat} (hk : 1 ≤ k) (h : k + m ≤ 256) :
    ∃ d, buildJerasure k m = some (onesColumn k (onesRow k d))
      ∧ ColumnsReduced (k + m) k (jerasureStart (k + m) k) k d := by
  obtain ⟨d, reduced, final⟩ := (ColumnsReduced.start h).reduce (j := k - 1) hk h (by omega)
  have columns : (List.range k).drop 1 = List.range' 1 (k - 1) := by
    rw [List.range_eq_range', List.drop_range']
  exact ⟨d, by simp only [buildJerasure, columns, reduced], final⟩

end Sys2Proof.Machine
end

section
/-! SUPPORT. MAT_GEN (spec/43_generator.md R198): its checks in order, and what its builders make. -/

namespace Sys2Proof.Machine

section
variable {irq fastone : Bool} {k m kind : Word} {dst : Addr} {s : State}

theorem planOf_matGen_of_noData (hk : k = 0) :
    planOf (.matGen irq fastone k m kind dst) s = .error { code := .invShardNum, idx := noDetail } := by
  rw [planOf, planMatGen, check_neg (by simp [hk]), error_bind]

theorem planOf_matGen_of_many (hk : 1 ≤ k.toNat) (hn : ¬ k.toNat + m.toNat ≤ 256) :
    planOf (.matGen irq fastone k m kind dst) s = .error { code := .maxShardNum, idx := noDetail } := by
  rw [planOf, planMatGen, check_pos hk, ok_bind, check_neg hn, error_bind]

theorem planOf_matGen_of_badKind (hk : 1 ≤ k.toNat) (hn : k.toNat + m.toNat ≤ 256) (hkind : ¬ kind.toNat ≤ 3) :
    planOf (.matGen irq fastone k m kind dst) s = .error { code := .badArgument, idx := detailC } := by
  rw [planOf, planMatGen, check_pos hk, ok_bind, check_pos hn, ok_bind, check_neg hkind, error_bind]

theorem planOf_matGen (hk : 1 ≤ k.toNat) (hn : k.toNat + m.toNat ≤ 256) (hkind : kind.toNat ≤ 3) {mx : Matrix}
    (hmx : buildMatrix (kindOf kind.toNat) k.toNat m.toNat = some mx) : planOf (.matGen irq fastone k m kind dst) s
      = matrixPlan s [] dst ((k.toNat + m.toNat) * k.toNat) (fastOne fastone k.toNat m.toNat mx) := by
  rw [planOf, planMatGen, check_pos hk, ok_bind, check_pos hn, ok_bind, check_pos hkind, ok_bind]
  simp only [hmx]

end

/-- Settles O42: every builder succeeds, the Vandermonde and Jerasure builders because any k rows of their start matrices
are independent, and MAT_GEN writes what the builder makes. -/
theorem generatedMatrix : Obligations.GeneratedMatrix := by
  intro irq fastone k m kind dst s hc
  refine ⟨fun hk hn hkind ho mx hmx => ?_, fun hk hn hkind hw ho mx hmx => ?_, fun hk => ?_, fun hk hn => ?_,
    fun hk hn hkind => ?_, fun hk hn => ⟨?_, ?_, ?_, ?_⟩⟩
  · exact exec_eq_overlap hc (planOf_matGen hk hn hkind hmx) (Bool.eq_false_iff.mpr (mt footprintClear_noSource.mp ho))
  · exact exec_eq_written hc (planOf_matGen hk hn hkind hmx) (footprintClear_noSource.mpr ho) hw
  · exact exec_eq_failed hc (planOf_matGen_of_noData hk)
  · exact exec_eq_failed hc (planOf_matGen_of_many hk hn)
  · exact exec_eq_failed hc (planOf_matGen_of_badKind hk hn hkind)
  · exact ⟨_, rfl, (shaped_buildMatrix (kind := .cauchy) rfl).1, fun i j hi hj => entry_buildCauchy hi hj⟩
  · exact ⟨_, rfl, (shaped_buildMatrix (kind := .par1) rfl).1, fun i j hi hj => entry_buildPar1 hi hj⟩
  · obtain ⟨mx, built, top, product⟩ := buildVandermonde_spec hn
    obtain ⟨len, rows⟩ := shaped_buildMatrix (kind := .vandermonde) built
    exact ⟨mx, built, len, rows, top, product⟩
  · obtain ⟨d, built, reduced⟩ := buildJerasure_spec hk hn
    have top := reduced.take_eq_identity (by omega)
    refine ⟨_, d, jerasureStart (k.toNat + m.toNat) k.toNat, built, (shaped_buildMatrix (kind := .jerasure) built).1, rfl,
      ?_, top, reduced.matProduct_top (shaped_jerasureStart ..), fun j hj hm => ?_, fun i hki hi => ?_,
      fun i j hi hj => ?_⟩
    · rw [top]; exact squareMatrix_identity _
    · exact reduced.parity_ne_zero hk hn le_rfl (by omega) hj
    · exact reduced.parity_ne_zero hk hn hki hi hk
    · exact entry_onesColumn_onesRow reduced hi hj fun e he hm => reduced.parity_ne_zero hk hn le_rfl hm he

end Sys2Proof.Machine
end

section
/-! SUPPORT. The XOR-accumulate engine element by element (spec/44_kernel.md R220, R222): buffers made of elements hold
these elements, and the XOR of buffers is the XOR of their elements. -/

namespace Sys2Proof.Machine

/-! ### Buffers made of elements (20_memory.md R72) -/

/-- The low and the high bytes of elements below 2^16 hold the elements. -/
theorem zipWith_low_high {es : List Nat} (h : ∀ e ∈ es, e < 2 ^ 16) :
    List.zipWith (fun l h : Byte => l.toNat + 256 * h.toNat) (es.map (BitVec.ofNat 8))
      (es.map fun e => BitVec.ofNat 8 (e / 256)) = es := by
  refine List.ext_getElem (by simp) fun i h1 h2 => ?_
  have := h _ (List.getElem_mem h2)
  simp
  omega

theorem length_bytes16 {n : Nat} {es : List Nat} (h : es.length = 32 * n) : (bytes16 n es).length = 64 * n := by
  induction n generalizing es with
  | zero => rfl
  | succ n ih =>
    have rest := ih (es := es.drop 32) (by simp; omega)
    simp only [bytes16, List.length_append, List.length_map, List.length_take]
    omega

/-- Whole blocks made of elements hold these elements. -/
theorem elems16_bytes16 {n : Nat} {es : List Nat} (hl : es.length = 32 * n) (h : ∀ e ∈ es, e < 2 ^ 16) :
    elems16 n (bytes16 n es) = es := by
  induction n generalizing es with
  | zero => exact (List.eq_nil_of_length_eq_zero (by omega)).symm
  | succ n ih =>
    have low : ((es.take 32).map (BitVec.ofNat 8)).length = 32 := by simp; omega
    have high : ((es.take 32).map fun e => BitVec.ofNat 8 (e / 256)).length = 32 := by simp; omega
    rw [bytes16, elems16, List.append_assoc, List.take_left' low, List.drop_left' low, List.take_left' high,
      zipWith_low_high fun e he => h e (List.mem_of_mem_take he), ← List.append_assoc,
      List.drop_left' (by rw [List.length_append, low, high]),
      ih (by simp; omega) fun e he => h e (List.mem_of_mem_drop he), List.take_append_drop]

theorem length_ofElems {fs : FS} {es : List Nat} {n : Nat} (hn : fs = .gf16c → n % 64 = 0)
    (h : es.length = elemCount fs n) : (ofElems fs es).length = n := by
  cases fs with
  | gf8 => simpa [ofElems, elemCount] using h
  | gf8c => simpa [ofElems, elemCount] using h
  | gf16c =>
    have := hn rfl
    simp only [elemCount] at h
    rw [ofElems, length_bytes16 (by omega)]
    omega

/-- A buffer made of elements holds these elements (R140). -/
theorem toElems_ofElems {fs : FS} {es : List Nat} (hl : fs = .gf16c → es.length % 32 = 0)
    (h : ∀ e ∈ es, e < 2 ^ width fs) : toElems fs (ofElems fs es) = es := by
  by_cases hfs : fs = .gf16c
  · subst hfs
    obtain ⟨n, hn⟩ := Nat.dvd_of_mod_eq_zero (hl rfl)
    rw [ofElems, show es.length / 32 = n by omega, toElems, length_bytes16 hn, show 64 * n / 64 = n by omega,
      elems16_bytes16 hn h]
  · have hw : width fs = 8 := by
      cases fs with
      | gf8 => rfl
      | gf8c => rfl
      | gf16c => exact absurd rfl hfs
    rw [hw] at h
    rw [toElems_of_byte hfs, ofElems_of_byte hfs, List.map_map]
    exact (List.map_congr_left fun e he => by simpa using Nat.mod_eq_of_lt (h e he)).trans (List.map_id es)

/-! ### XOR of buffers (R132) -/

/-- The XOR of two elements is that of their low and of their high bytes. -/
theorem low_high_xor (l l' h h' : Byte) :
    (l ^^^ l').toNat + 256 * (h ^^^ h').toNat = (l.toNat + 256 * h.toNat) ^^^ (l'.toNat + 256 * h'.toNat) := by
  have value (l h : Byte) : l.toNat + 256 * h.toNat = (h ++ l).toNat := by
    have := l.isLt
    rw [BitVec.toNat_append, ← Nat.shiftLeft_add_eq_or_of_lt l.isLt, Nat.shiftLeft_eq]
    omega
  rw [value, value, value, ← BitVec.toNat_xor, BitVec.xor_append]

theorem elems16_xorBuf (n : Nat) {bs cs : List Byte} (h : bs.length = cs.length) :
    elems16 n (xorBuf bs cs) = List.zipWith (· ^^^ ·) (elems16 n bs) (elems16 n cs) := by
  induction n generalizing bs cs with
  | zero => rfl
  | succ n ih =>
    have drop : (xorBuf bs cs).drop 64 = xorBuf (bs.drop 64) (cs.drop 64) := List.drop_zipWith
    have rest := ih (bs := bs.drop 64) (cs := cs.drop 64) (by simp [h])
    rw [elems16, elems16, elems16, List.zipWith_append (by simp [h]), drop, rest]
    refine congrArg (· ++ _) (List.ext_getElem (by simp [h]) fun i h1 h2 => ?_)
    simp only [xorBuf, List.getElem_zipWith, List.getElem_take, List.getElem_drop]
    exact low_high_xor ..

/-- The XOR of buffers of one length is element by element (R132, R140). -/
theorem toElems_xorBuf (fs : FS) {bs cs : List Byte} (h : bs.length = cs.length) :
    toElems fs (xorBuf bs cs) = List.zipWith (· ^^^ ·) (toElems fs bs) (toElems fs cs) := by
  by_cases hfs : fs = .gf16c
  · subst hfs
    rw [toElems, toElems, toElems, length_xorBuf, h, Nat.min_self, elems16_xorBuf _ h]
  · simp [toElems_of_byte hfs, xorBuf, List.map_zipWith, List.zipWith_map]

/-! ### Scaling (R140) -/

theorem length_scaleBuf {fs : FS} (c : Nat) {bs : List Byte} (h : fs = .gf16c → bs.length % 64 = 0) :
    (scaleBuf fs c bs).length = bs.length :=
  length_ofElems h (by rw [List.length_map, length_toElems])

theorem toElems_scaleBuf {fs : FS} {c : Nat} {bs : List Byte} (hc : c < 2 ^ width fs) :
    toElems fs (scaleBuf fs c bs) = (toElems fs bs).map (mul fs c) := by
  refine toElems_ofElems (fun hfs => ?_) fun e he => ?_
  · subst hfs
    simp [length_toElems, elemCount]
  · obtain ⟨x, _, rfl⟩ := List.mem_map.mp he
    exact mul_lt_width hc x

/-! ### Single bytes -/

theorem getD_xorBuf {bs cs : List Byte} (h : bs.length = cs.length) (e : Nat) :
    (xorBuf bs cs).getD e 0 = bs.getD e 0 ^^^ cs.getD e 0 := by
  obtain he | he := Nat.lt_or_ge e cs.length
  · simp [xorBuf, h, he]
  · simp [xorBuf, h, he]

theorem toNat_getD_scaleBuf {c : Nat} (hc : c < 256) (bs : List Byte) (e : Nat) :
    ((scaleBuf .gf8 c bs).getD e 0).toNat = mul .gf8 c (bs.getD e 0).toNat := by
  have byte (cs : List Byte) : (toElems .gf8 cs).getD e 0 = (cs.getD e 0).toNat := List.getD_map cs 0 BitVec.toNat
  have product := List.getD_map (n := e) (toElems .gf8 bs) 0 (mul .gf8 c)
  rw [mul_zero_right, byte] at product
  rw [← byte, toElems_scaleBuf hc, product]

/-! ### Linear combinations (44_kernel.md R222) -/

theorem length_linearCombination {n : Nat} (cs : List Nat) {bufs : List (List Byte)} (h : ∀ b ∈ bufs, b.length = n) :
    (linearCombination n cs bufs).length = n := by
  induction cs generalizing bufs with
  | nil => simp [linearCombination]
  | cons c cs ih =>
    cases bufs with
    | nil => simp [linearCombination]
    | cons b bs =>
      have head : (scaleBuf .gf8 c b).length = n := (length_scaleBuf (fs := .gf8) c nofun).trans (h b (by simp))
      rw [linearCombination, length_xorBuf, head, ih fun b' hb => h b' (by simp [hb]), Nat.min_self]

theorem toNat_getD_linearCombination {n : Nat} {cs : List Nat} {bufs : List (List Byte)}
    (hb : ∀ b ∈ bufs, b.length = n) (hc : ∀ c ∈ cs, c < 256) (e : Nat) :
    ((linearCombination n cs bufs).getD e 0).toNat
      = xorSum (List.zipWith (fun c b => mul .gf8 c (b.getD e 0).toNat) cs bufs) := by
  have empty : ((List.replicate n (0 : Byte)).getD e 0).toNat = 0 := by
    obtain he | he := Nat.lt_or_ge e n <;> simp [he]
  induction cs generalizing bufs with
  | nil => exact empty
  | cons c cs ih =>
    cases bufs with
    | nil => exact empty
    | cons b bs =>
      have tail : ∀ b' ∈ bs, b'.length = n := fun b' h => hb b' (by simp [h])
      have same : (scaleBuf .gf8 c b).length = (linearCombination n cs bs).length := by
        rw [length_scaleBuf (fs := .gf8) c nofun, hb b (by simp), length_linearCombination cs tail]
      rw [linearCombination, getD_xorBuf same, BitVec.toNat_xor, toNat_getD_scaleBuf (hc c (by simp)),
        ih tail fun c' h => hc c' (by simp [h])]
      rfl

/-- Settles O43: scaling and XOR are each element by element; a linear combination is a chain of both. -/
theorem kernelElementwise : Obligations.KernelElementwise := by
  refine ⟨fun fs c dst src hlen hc h64 => ?_, fun n cs bufs _ hb hc e _ => toNat_getD_linearCombination hb hc e⟩
  have scaled := length_scaleBuf c h64
  refine ⟨?_, toElems_scaleBuf hc, ?_, scaled⟩
  · rw [axpyBuf, toElems_xorBuf fs (hlen.trans scaled.symm), toElems_scaleBuf hc, List.zipWith_map_right]
  · rw [axpyBuf, length_xorBuf, scaled, hlen, Nat.min_self]

end Sys2Proof.Machine
end

section
/-! SUPPORT. KCODE (spec/44_kernel.md R226): its checks in order, and what it carries out. -/

namespace Sys2Proof.Machine

theorem readPointers_of_readable {s : State} {t n : Nat} (h : PointersReadable s t n) :
    readPointers s t n = .ok (pointersAt s t n) := readPointers_eq_ok.mpr ⟨h, rfl⟩

/-- What KCODE carries out whose dimensions are legal and whose tables can be read. -/
def kcodePlan (acc : Bool) (rows cols len : Word) (g inTab outTab : Addr) (s : State) : Plan :=
  let ins := pointersAt s inTab.toNat cols.toNat
  let outs := pointersAt s outTab.toNat rows.toNat
  { reads := [descRange s, reads g.toNat (rows.toNat * cols.toNat), reads inTab.toNat (8 * cols.toNat),
        reads outTab.toNat (8 * rows.toNat)] ++ ins.map fun a => reads a len.toNat
    writes := outs.map fun a => extent a len.toNat
    accesses := (ins.map fun a => readAccess a len.toNat)
        ++ (if acc then outs.map fun a => readAccess a len.toNat else [])
        ++ outs.map fun a => writeAccess a len.toNat
    stores := List.zipWith (fun row a => shardStore a (codeOutput acc len.toNat row
        (ins.map fun b => s.mem.readBytes b len.toNat) (s.mem.readBytes a len.toNat)))
      (matrixAt s g.toNat rows.toNat cols.toNat) outs
    span := some len.toNat, scrNext := none, ctx := none, icache := none, result := 0 }

section
variable {irq acc : Bool} {rows cols len : Word} {g inTab outTab : Addr} {s : State}

theorem planOf_kcode_of_badRows (hr : ¬ (1 ≤ rows.toNat ∧ rows.toNat ≤ 256)) :
    planOf (.kcode irq acc rows cols len g inTab outTab) s = .error { code := .badArgument, idx := detailA } := by
  rw [planOf, planKcode, check_neg hr, error_bind]

theorem planOf_kcode_of_badCols (hr : 1 ≤ rows.toNat ∧ rows.toNat ≤ 256)
    (hc : ¬ (1 ≤ cols.toNat ∧ cols.toNat ≤ 256)) :
    planOf (.kcode irq acc rows cols len g inTab outTab) s = .error { code := .badArgument, idx := detailB } := by
  rw [planOf, planKcode, check_pos hr, ok_bind, check_neg hc, error_bind]

theorem planOf_kcode (hr : 1 ≤ rows.toNat ∧ rows.toNat ≤ 256) (hc : 1 ≤ cols.toNat ∧ cols.toNat ≤ 256)
    (hg : Readable s g.toNat (rows.toNat * cols.toNat)) (hi : PointersReadable s inTab.toNat cols.toNat)
    (ho : PointersReadable s outTab.toNat rows.toNat) :
    planOf (.kcode irq acc rows cols len g inTab outTab) s
      = (kcodePlan acc rows cols len g inTab outTab s).guarded := by
  rw [planOf, planKcode, check_pos hr, ok_bind, check_pos hc, ok_bind]
  simp only [readMatrix_of_readable hg, readPointers_of_readable hi, readPointers_of_readable ho, ok_bind]
  rfl

theorem accessesPermitted_kcodePlan (hi : ∀ a ∈ pointersAt s inTab.toNat cols.toNat, Readable s a len.toNat)
    (ho : ∀ a ∈ pointersAt s outTab.toNat rows.toNat,
      Writable s a len.toNat ∧ (acc = true → Readable s a len.toNat)) :
    accessesPermitted s (kcodePlan acc rows cols len g inTab outTab s) = true := by
  have old : (if acc then (pointersAt s outTab.toNat rows.toNat).map fun a => readAccess a len.toNat else []).all
      (fun x => permits s x.range x.write) = true := by
    cases acc with
    | false => rfl
    | true => simpa [readAccess] using fun a ha => (ho a ha).2 rfl
  simp only [accessesPermitted, kcodePlan, List.all_append, old, List.all_map, Bool.and_eq_true, List.all_eq_true]
  exact ⟨⟨hi, trivial⟩, fun a ha => (ho a ha).1⟩

end

/-- Settles O45: with legal dimensions and readable tables, the overlap check alone decides between OVERLAP and the
stores of `kcodePlan`. -/
theorem kernelCode : Obligations.KernelCode := by
  intro irq acc rows cols len g inTab outTab s clear hcan hclear
  refine ⟨fun hr => ?_, fun hr hr' hc => ?_, fun hr hr' hc hc' hg hi ho => ?_⟩
  · exact exec_eq_failed hcan (planOf_kcode_of_badRows hr)
  · exact exec_eq_failed hcan (planOf_kcode_of_badCols ⟨hr, hr'⟩ hc)
  · have plan := planOf_kcode (irq := irq) (acc := acc) (len := len) ⟨hr, hr'⟩ ⟨hc, hc'⟩ hg hi ho
    refine ⟨fun h => ?_, fun h hin hout => ?_⟩
    · exact exec_eq_failed hcan (plan.trans (guarded_eq_error.mpr ⟨hclear.symm.trans h, rfl⟩))
    · exact exec_eq_succeeded hcan (plan.trans (guarded_eq_ok.mpr ⟨hclear.symm.trans h, rfl⟩))
        (accessesPermitted_kcodePlan hin hout)

end Sys2Proof.Machine
end

section
/-! SUPPORT. CONFIGURE and CTX_READM (spec/45_codec.md R241 to R246): their checks in order, and what each carries
out. -/

namespace Sys2Proof.Machine

/-! ### The variant (R242) -/

section
variable {want : Variant} {auto : Bool} {k m : Nat}

theorem selectVariant_of_fits (auto : Bool) (h : fits want k m = true) :
    selectVariant want auto k m = .ok (want, false) := if_pos h

theorem selectVariant_of_upgrade (h : fits want k m = false) (hauto : auto = true) (hw : want ≠ .fft16)
    (h16 : fits .fft16 k m = true) : selectVariant want auto k m = .ok (.fft16, true) := by
  rw [selectVariant, if_neg (by simp [h]), if_pos ⟨hauto, hw, h16⟩]

theorem selectVariant_of_none (h : fits want k m = false)
    (hauto : auto = false ∨ want = .fft16 ∨ fits .fft16 k m = false) :
    selectVariant want auto k m = .error { code := .maxShardNum, idx := noDetail } := by
  rw [selectVariant, if_neg (by simp [h]), if_neg]
  rintro ⟨ha, hw, h16⟩
  simp [ha, hw, h16] at hauto

end

theorem variantOf_eq_fft16 {f : Nat} : variantOf f = .fft16 ↔ 2 ≤ f := by
  match f with
  | 0 => simp [variantOf]
  | 1 => simp [variantOf]
  | f + 2 => simp [variantOf]

/-! ### The coding matrix (R244, 43_generator.md R199) -/

theorem codingMatrix_of_build {kind : Kind} {k m : Nat} {mx : Matrix} (mat : Addr) (s : State)
    (h : buildMatrix kind k m = some mx) : codingMatrix kind k m mat s = .ok mx := by
  cases kind
  case custom => cases h
  all_goals simp only [codingMatrix, h]

theorem codingMatrix_custom {k m : Nat} {mat : Addr} {s : State}
    (h : ∀ j, j < m * k → Readable s (mat.toNat + j) 1) :
    codingMatrix .custom k m mat s = .ok (identity k ++ matrixAt s mat.toNat m k) := by
  rw [codingMatrix, readEach_eq_ok.mpr ⟨h, rfl⟩, ok_bind]
  rfl

/-! ### CONFIGURE (R241, R242, R244) -/

/-- The options are legal (R241). -/
abbrev OptionsLegal (opts : Word) : Prop := opts.toNat < 64 ∧ opts.toNat % 16 ≤ 4 ∧ opts.toNat / 16 ≤ 2

/-- k and m are legal as signed numbers (R241). -/
abbrev ShardCountsLegal (k m : Word) : Prop := 0 < k.toInt ∧ 0 ≤ m.toInt

section
variable {irq fastone noicache auto : Bool} {k m opts shape : Word} {mat : Addr} {s : State}

theorem planOf_configure_of_badOptions (ho : ¬ OptionsLegal opts) :
    planOf (.configure irq fastone noicache auto k m opts shape mat) s
      = .error { code := .badArgument, idx := detailC } := by
  rw [planOf, planConfigure, check_neg ho, error_bind]

variable (ho : OptionsLegal opts)
include ho

theorem planOf_configure_of_badCounts (hn : ¬ ShardCountsLegal k m) :
    planOf (.configure irq fastone noicache auto k m opts shape mat) s
      = .error { code := .invShardNum, idx := noDetail } := by
  rw [planOf, planConfigure, check_pos ho, ok_bind, check_neg hn, error_bind]

variable (hn : ShardCountsLegal k m)
include hn

theorem planOf_configure_of_large (hl : ¬ k.toInt + m.toInt ≤ 2 ^ 31 - 1) :
    planOf (.configure irq fastone noicache auto k m opts shape mat) s
      = .error { code := .invalidRowSize, idx := noDetail } := by
  rw [planOf, planConfigure, check_pos ho, ok_bind, check_pos hn, ok_bind, check_neg hl, error_bind]

variable (hl : k.toInt + m.toInt ≤ 2 ^ 31 - 1)
include hl

theorem planOf_configure_of_noVariant {e : Err}
    (hv : selectVariant (variantOf (opts.toNat / 16)) auto k.toNat m.toNat = .error e) :
    planOf (.configure irq fastone noicache auto k m opts shape mat) s = .error e := by
  rw [planOf, planConfigure, check_pos ho, ok_bind, check_pos hn, ok_bind, check_pos hl, ok_bind]
  simp only [hv, error_bind]

theorem planOf_configure_fft {v : Variant} {up : Bool}
    (hv : selectVariant (variantOf (opts.toNat / 16)) auto k.toNat m.toNat = .ok (v, up)) (hfft : v ≠ .classical) :
    planOf (.configure irq fastone noicache auto k m opts shape mat) s
      = .ok (configuredPlan s [] (fftContext v up k.toNat m.toNat)) := by
  rw [planOf, planConfigure, check_pos ho, ok_bind, check_pos hn, ok_bind, check_pos hl, ok_bind]
  simp only [hv, ok_bind]
  cases v with
  | classical => exact absurd rfl hfft
  | fft8 => rfl
  | fft16 => rfl

variable {up : Bool}
  (hv : selectVariant (variantOf (opts.toNat / 16)) auto k.toNat m.toNat = .ok (.classical, up))
include hv

theorem planOf_configure_of_badShape (hk : kindOf (opts.toNat % 16) = .custom)
    (hs : ¬ (shape.toNat % 65536 = m.toNat ∧ shape.toNat / 65536 = k.toNat)) :
    planOf (.configure irq fastone noicache auto k m opts shape mat) s
      = .error { code := .invalidRowSize, idx := noDetail } := by
  rw [planOf, planConfigure, check_pos ho, ok_bind, check_pos hn, ok_bind, check_pos hl, ok_bind]
  simp only [hv, ok_bind]
  rw [check_neg fun h => hs (h hk), error_bind]

theorem planOf_configure_classical {mx : Matrix}
    (hs : kindOf (opts.toNat % 16) = .custom → shape.toNat % 65536 = m.toNat ∧ shape.toNat / 65536 = k.toNat)
    (hm : codingMatrix (kindOf (opts.toNat % 16)) k.toNat m.toNat mat s = .ok mx) :
    ∃ extra, planOf (.configure irq fastone noicache auto k m opts shape mat) s = .ok (configuredPlan s extra
      (classicalContext (kindOf (opts.toNat % 16)) fastone noicache k.toNat m.toNat mx)) := by
  rw [planOf, planConfigure, check_pos ho, ok_bind, check_pos hn, ok_bind, check_pos hl, ok_bind]
  simp only [hv, ok_bind]
  rw [check_pos hs, ok_bind, hm, ok_bind]
  exact ⟨_, rfl⟩

end

/-- A CONFIGURE that succeeds writes its context and empties the cache (R244). -/
theorem exec_eq_configured {i : Instr} {s : State} {extra : List ReadRange} {c : Ctx} (hc : CanComplete s)
    (h : planOf i s = .ok (configuredPlan s extra c)) :
    exec i s = .next (succeeded (irqFlagOf i) (BitVec.ofNat 32 c.ssm) { s with ctx := c, icache := [] }) :=
  exec_eq_succeeded hc h rfl

/-- Settles O50: the selection decides the variant; a Classical context takes the builder's matrix or the one read byte
by byte. -/
theorem configureContext : Obligations.ConfigureContext := by
  intro irq fastone noicache auto k m opts shape mat s hc h64 hkind hsel hk hm hl
  have ho : OptionsLegal opts := ⟨h64, hkind, hsel⟩
  have hn : ShardCountsLegal k m := ⟨hk, hm⟩
  refine ⟨fun h0 hfit => ?_, fun v up hv => ?_⟩
  · have classical : selectVariant (variantOf (opts.toNat / 16)) auto k.toNat m.toNat = .ok (.classical, false) := by
      rw [h0]
      exact selectVariant_of_fits auto (decide_eq_true hfit)
    refine ⟨fun mx _ hmx => ?_, fun h4 hrows hcols hread => ?_⟩
    · have builtin : kindOf (opts.toNat % 16) ≠ .custom := fun e => by simp [e, buildMatrix] at hmx
      obtain ⟨_, plan⟩ := planOf_configure_classical ho hn hl classical (fun e => absurd e builtin)
        (codingMatrix_of_build mat s hmx)
      exact exec_eq_configured hc plan
    · have custom : kindOf (opts.toNat % 16) = .custom := by rw [h4]; rfl
      obtain ⟨_, plan⟩ := planOf_configure_classical ho hn hl classical (fun _ => ⟨hrows, hcols⟩)
        (custom ▸ codingMatrix_custom hread)
      rw [custom] at plan
      exact exec_eq_configured hc plan
  · obtain ⟨rfl, rfl, h1, hfit⟩ | ⟨rfl, rfl, h2, hfit⟩ | ⟨rfl, rfl, h2, hauto, hfit, h16⟩ := hv
    · exact exec_eq_configured hc
        (planOf_configure_fft ho hn hl (h1 ▸ selectVariant_of_fits auto hfit) nofun)
    · exact exec_eq_configured hc
        (planOf_configure_fft ho hn hl (h2 ▸ selectVariant_of_fits auto hfit) nofun)
    · have upgradable : variantOf (opts.toNat / 16) ≠ .fft16 := fun e => by
        have := variantOf_eq_fft16.mp e
        omega
      exact exec_eq_configured hc
        (planOf_configure_fft ho hn hl (selectVariant_of_upgrade hfit hauto upgradable h16) nofun)

/-- Settles O51: each check is the first to fail. -/
theorem configureErrors : Obligations.ConfigureErrors := by
  intro irq fastone noicache auto k m opts shape mat s hc
  refine ⟨fun ho => exec_eq_failed hc (planOf_configure_of_badOptions ho), fun h64 hkind hsel => ?_⟩
  have ho : OptionsLegal opts := ⟨h64, hkind, hsel⟩
  refine ⟨fun hn => exec_eq_failed hc (planOf_configure_of_badCounts ho hn), fun hk hm => ?_⟩
  have hn : ShardCountsLegal k m := ⟨hk, hm⟩
  refine ⟨fun hl => ?_, fun hl hfit hauto => ?_, fun h4 hfit hs => ?_⟩
  · exact exec_eq_failed hc (planOf_configure_of_large ho hn (by omega))
  · refine exec_eq_failed hc (planOf_configure_of_noVariant ho hn hl (selectVariant_of_none hfit ?_))
    rw [variantOf_eq_fft16]
    exact hauto.imp_right (Or.imp_left Eq.ge)
  · have hl : k.toInt + m.toInt ≤ 2 ^ 31 - 1 := by
      rw [BitVec.toInt_eq_toNat_of_lt (by omega), BitVec.toInt_eq_toNat_of_lt (by omega)]
      omega
    have classical : selectVariant (variantOf (opts.toNat / 16)) auto k.toNat m.toNat = .ok (.classical, false) := by
      rw [h4]
      exact selectVariant_of_fits auto (decide_eq_true hfit)
    exact exec_eq_failed hc (planOf_configure_of_badShape ho hn hl classical (by rw [h4]; rfl) hs)

/-! ### The preamble of codec commands (R246, R247) -/

theorem checkConfigured_pos {s : State} (h : s.ctx.valid = true) : checkConfigured s = .ok () := check_pos h ..

theorem checkConfigured_neg {s : State} (h : s.ctx.valid = false) :
    checkConfigured s = .error { code := .notConfigured, idx := noDetail } := check_neg (by simp [h]) ..

theorem checkClassical_pos {s : State} (h : s.ctx.variant = .classical) : checkClassical s = .ok () := check_pos h ..

theorem checkClassical_neg {s : State} (h : s.ctx.variant ≠ .classical) :
    checkClassical s = .error { code := .notSupported, idx := noDetail } := check_neg h ..

/-! ### CTX_READM (R246) -/

section
variable {irq : Bool} {dst : Addr} {s : State}

theorem planOf_ctxReadm_of_unconfigured (h : s.ctx.valid = false) :
    planOf (.ctxReadm irq dst) s = .error { code := .notConfigured, idx := noDetail } := by
  rw [planOf, planCtxReadm, checkConfigured_neg h, error_bind]

theorem planOf_ctxReadm_of_fft (h : s.ctx.valid = true) (hv : s.ctx.variant ≠ .classical) :
    planOf (.ctxReadm irq dst) s = .error { code := .notSupported, idx := noDetail } := by
  rw [planOf, planCtxReadm, checkConfigured_pos h, ok_bind, checkClassical_neg hv, error_bind]

variable (h : s.ctx.valid = true) (hv : s.ctx.variant = .classical)
include h hv

theorem planOf_ctxReadm_of_overlap (ho : ¬ Apart (extent dst.toNat ((s.ctx.k + s.ctx.m) * s.ctx.k)) (descriptor s)) :
    planOf (.ctxReadm irq dst) s = .error { code := .overlap, idx := noDetail } := by
  rw [planOf, planCtxReadm, checkConfigured_pos h, ok_bind, checkClassical_pos hv, ok_bind]
  dsimp only
  rw [matrixPlan_of_overlap (Bool.eq_false_iff.mpr (mt footprintClear_noSource.mp ho)), error_bind]

theorem planOf_ctxReadm (ha : Apart (extent dst.toNat ((s.ctx.k + s.ctx.m) * s.ctx.k)) (descriptor s)) :
    planOf (.ctxReadm irq dst) s
      = .ok { outputMatrixPlan s [] dst ((s.ctx.k + s.ctx.m) * s.ctx.k) s.ctx.matrix with
              result := BitVec.ofNat 32 ((s.ctx.k + s.ctx.m) * s.ctx.k) } := by
  rw [planOf, planCtxReadm, checkConfigured_pos h, ok_bind, checkClassical_pos hv, ok_bind]
  dsimp only
  rw [matrixPlan_of_clear (footprintClear_noSource.mpr ha), ok_bind]
  rfl

end

/-- Settles O52: after the preamble CTX_READM is a matrix command without a source. -/
theorem readCodingMatrix : Obligations.ReadCodingMatrix := by
  intro irq dst s hc
  refine ⟨fun h hv ho => ?_, fun h hv hw ha => ?_, fun h => ?_, fun h hv => ?_⟩
  · exact exec_eq_failed hc (planOf_ctxReadm_of_overlap h hv ho)
  · exact exec_eq_succeeded hc (planOf_ctxReadm h hv ha)
      (by simp [accessesPermitted, outputMatrixPlan, writeAccess, hw])
  · exact exec_eq_failed hc (planOf_ctxReadm_of_unconfigured h)
  · exact exec_eq_failed hc (planOf_ctxReadm_of_fft h hv)

end Sys2Proof.Machine
end

section
/-! SUPPORT. The shard table (spec/45_codec.md R247 to R250): what its load answers, and the errors every command with
a shard table shares. -/

namespace Sys2Proof.Machine

/-! ### Checks in index order (60_exceptions.md R363) -/

theorem checkEach_pos {c : Nat → Bool} {is : List Nat} (h : ∀ i ∈ is, c i = true) (code : ErrCode)
    (idx : Nat → Half) : checkEach c code idx is = .ok () := checkEach_eq_ok.mpr h

/-- Of ascending indices the least that fails is reported. -/
theorem checkEach_of_least {c : Nat → Bool} {is : List Nat} {i : Nat} (hs : is.Pairwise (· < ·)) (hi : i ∈ is)
    (hc : c i = false) (hlt : ∀ j ∈ is, j < i → c j = true) (code : ErrCode) (idx : Nat → Half) :
    checkEach c code idx is = .error { code := code, idx := idx i } := by
  obtain ⟨before, after, rfl⟩ := List.append_of_mem hi
  have below := (List.pairwise_append.mp hs).2.2
  exact checkEach_append (fun j hj => hlt j (by simp [hj]) (below j hj i (by simp))) hc

theorem checkEach_range_of_least {c : Nat → Bool} {n i : Nat} (hi : i < n) (hc : c i = false)
    (hlt : ∀ j, j < i → c j = true) (code : ErrCode) (idx : Nat → Half) :
    checkEach c code idx (List.range n) = .error { code := code, idx := idx i } :=
  checkEach_of_least List.pairwise_lt_range (List.mem_range.mpr hi) hc (fun j _ => hlt j) code idx

/-! ### The table load (R248 to R250) -/

theorem readSlots_of_readable {s : State} {t n : Nat} (h : TableReadable s t n) :
    readSlots s t n = .ok (tableAt s t n) := readSlots_eq_ok.mpr ⟨h, rfl⟩

theorem any_present_tableAt {s : State} {t n : Nat} :
    (tableAt s t n).any Slot.present = true ↔ ∃ i, i < n ∧ presentAt (tableAt s t n) i = true := by
  have present : ∀ i, i < n → presentAt (tableAt s t n) i = (entryAt s t i).present := fun i hi => by
    rw [presentAt, slotAt_tableAt hi]
  simp only [tableAt, List.any_map, List.any_eq_true, List.mem_range, Function.comp_apply]
  exact exists_congr fun i => and_congr_right fun hi => by rw [← present i hi]; rfl

theorem lengthAgrees_eq_true {xs : List Slot} {i : Nat} :
    lengthAgrees xs i = true ↔ (presentAt xs i = true → (slotAt xs i).len = shardLength xs) := by
  cases h : presentAt xs i <;> simp [lengthAgrees, h]

section
variable {n : Word} {tab : Addr} {s : State}

theorem loadShards_of_wrongCount (h : n.toNat ≠ shardCount s) :
    loadShards n tab s = .error { code := .tooFewShards, idx := noDetail } := by
  rw [loadShards, check_neg h, error_bind]

theorem loadShards_of_usable {xs : List Slot} (h : TableUsable s n tab xs) : loadShards n tab s = .ok xs := by
  obtain ⟨count, readable, rfl, ⟨present, lengths, multiple⟩⟩ := h
  rw [loadShards, check_pos count, ok_bind, readSlots_of_readable readable, ok_bind,
    check_pos (any_present_tableAt.mpr present), ok_bind,
    checkEach_pos fun i hi => lengthAgrees_eq_true.mpr (lengths i (List.mem_range.mp hi)), ok_bind,
    check_pos multiple, ok_bind]
  rfl

variable (hn : n.toNat = shardCount s) (hr : TableReadable s tab.toNat (shardCount s))
include hn hr

theorem loadShards_of_noData
    (h : ∀ j, j < shardCount s → presentAt (tableAt s tab.toNat (shardCount s)) j = false) :
    loadShards n tab s = .error { code := .shardNoData, idx := noDetail } := by
  have none : ¬ (tableAt s tab.toNat (shardCount s)).any Slot.present = true := fun ha => by
    obtain ⟨j, hj, hp⟩ := any_present_tableAt.mp ha
    simp [h j hj] at hp
  rw [loadShards, check_pos hn, ok_bind, readSlots_of_readable hr, ok_bind, check_neg none, error_bind]

theorem loadShards_of_otherLength {j : Nat} (hj : j < shardCount s)
    (hp : presentAt (tableAt s tab.toNat (shardCount s)) j = true)
    (hl : (slotAt (tableAt s tab.toNat (shardCount s)) j).len ≠ shardLength (tableAt s tab.toNat (shardCount s)))
    (hlt : ∀ l, l < j → presentAt (tableAt s tab.toNat (shardCount s)) l = true →
      (slotAt (tableAt s tab.toNat (shardCount s)) l).len = shardLength (tableAt s tab.toNat (shardCount s))) :
    loadShards n tab s = .error { code := .shardSize, idx := BitVec.ofNat 16 j } := by
  have differs : lengthAgrees (tableAt s tab.toNat (shardCount s)) j = false :=
    Bool.eq_false_iff.mpr fun h => hl (lengthAgrees_eq_true.mp h hp)
  rw [loadShards, check_pos hn, ok_bind, readSlots_of_readable hr, ok_bind,
    check_pos (any_present_tableAt.mpr ⟨j, hj, hp⟩), ok_bind,
    checkEach_range_of_least hj differs fun l hl => lengthAgrees_eq_true.mpr (hlt l hl), error_bind]

theorem loadShards_of_noMultiple
    (hp : ∃ j, j < shardCount s ∧ presentAt (tableAt s tab.toNat (shardCount s)) j = true)
    (hl : ∀ j, j < shardCount s → presentAt (tableAt s tab.toNat (shardCount s)) j = true →
      (slotAt (tableAt s tab.toNat (shardCount s)) j).len = shardLength (tableAt s tab.toNat (shardCount s)))
    (hm : shardLength (tableAt s tab.toNat (shardCount s)) % s.ctx.ssm ≠ 0) :
    loadShards n tab s = .error { code := .shardSize, idx := noDetail } := by
  rw [loadShards, check_pos hn, ok_bind, readSlots_of_readable hr, ok_bind,
    check_pos (any_present_tableAt.mpr hp), ok_bind,
    checkEach_pos fun j hj => lengthAgrees_eq_true.mpr (hl j (List.mem_range.mp hj)), ok_bind,
    check_neg hm, error_bind]

end

/-! ### The shared checks (R247 to R250) -/

/-- The codec commands of every context (R247). -/
def IsCodec (i : Instr) : Prop :=
  ∃ q n tab, i = .encode q n tab ∨ i = .verify q n tab ∨ i = .recon q n tab ∨ i = .reconData q n tab

/-- The codec commands of a Classical context (R247). -/
def IsClassicalCodec (i : Instr) : Prop :=
  (∃ q n tab x, i = .reconSome q n tab x)
    ∨ (∃ q c n tab x, i = .update q c n tab x) ∨ ∃ q j c l a b, i = .encodeIdx q j c l a b

/-- The commands with a shard table of `n` entries at `tab`, in the contexts that support them (R248). -/
def HasShardTable (i : Instr) (q : Bool) (n : Word) (tab : Addr) (s : State) : Prop :=
  (i = .encode q n tab ∨ i = .verify q n tab ∨ i = .recon q n tab ∨ i = .reconData q n tab)
    ∨ (s.ctx.variant = .classical ∧ ((∃ x, i = .reconSome q n tab x) ∨ ∃ c x, i = .update q c n tab x))

section
variable {i : Instr} {s : State}

theorem planOf_of_unconfigured (hi : IsCodec i ∨ IsClassicalCodec i) (h : s.ctx.valid = false) :
    planOf i s = .error { code := .notConfigured, idx := noDetail } := by
  have unconfigured := checkConfigured_neg h
  obtain ⟨_, _, _, rfl | rfl | rfl | rfl⟩ | ⟨_, _, _, _, rfl⟩ | ⟨_, _, _, _, _, rfl⟩ | ⟨_, _, _, _, _, _, rfl⟩ := hi
  · rw [planOf, planEncode, unconfigured, error_bind]
  · rw [planOf, planVerify, unconfigured, error_bind]
  · rw [planOf, planRecon, planReconOf, unconfigured, error_bind]
  · rw [planOf, planReconData, planReconOf, unconfigured, error_bind]
  · rw [planOf, planReconSome, unconfigured, error_bind]
  · rw [planOf, planUpdate, unconfigured, error_bind]
  · rw [planOf, planEncodeIdx, unconfigured, error_bind]

theorem planOf_of_fft (hi : IsClassicalCodec i) (h : s.ctx.valid = true) (hv : s.ctx.variant ≠ .classical) :
    planOf i s = .error { code := .notSupported, idx := noDetail } := by
  have configured := checkConfigured_pos h
  have unsupported := checkClassical_neg hv
  obtain ⟨_, _, _, _, rfl⟩ | ⟨_, _, _, _, _, rfl⟩ | ⟨_, _, _, _, _, _, rfl⟩ := hi
  · rw [planOf, planReconSome, configured, ok_bind, unsupported, error_bind]
  · rw [planOf, planUpdate, configured, ok_bind, unsupported, error_bind]
  · rw [planOf, planEncodeIdx, configured, ok_bind, unsupported, error_bind]

theorem planOf_of_loadShards_error {q : Bool} {n : Word} {tab : Addr} {e : Err} (hi : HasShardTable i q n tab s)
    (h : s.ctx.valid = true) (hl : loadShards n tab s = .error e) : planOf i s = .error e := by
  have configured := checkConfigured_pos h
  obtain (rfl | rfl | rfl | rfl) | ⟨hv, ⟨_, rfl⟩ | ⟨_, _, rfl⟩⟩ := hi
  · rw [planOf, planEncode, configured, ok_bind, hl, error_bind]
  · rw [planOf, planVerify, configured, ok_bind, hl, error_bind]
  · rw [planOf, planRecon, planReconOf, configured, ok_bind, hl, error_bind]
  · rw [planOf, planReconData, planReconOf, configured, ok_bind, hl, error_bind]
  · rw [planOf, planReconSome, configured, ok_bind, checkClassical_pos hv, ok_bind, hl, error_bind]
  · rw [planOf, planUpdate, configured, ok_bind, checkClassical_pos hv, ok_bind, hl, error_bind]

theorem irqFlagOf_of_hasShardTable {q : Bool} {n : Word} {tab : Addr} (hi : HasShardTable i q n tab s) :
    irqFlagOf i = q := by
  obtain (rfl | rfl | rfl | rfl) | ⟨_, ⟨_, rfl⟩ | ⟨_, _, rfl⟩⟩ := hi <;> rfl

end

/-- Settles O53: the preamble comes first, then the table load, in every command that has them. -/
theorem codecChecks : Obligations.CodecChecks := by
  intro i s hc
  refine ⟨fun hi h => exec_eq_failed hc (planOf_of_unconfigured (.inl hi) h), fun hi => ⟨fun h => ?_, fun h hv => ?_⟩,
    fun q n tab h hi => ?_⟩
  · exact exec_eq_failed hc (planOf_of_unconfigured (.inr hi) h)
  · exact exec_eq_failed hc (planOf_of_fft hi h hv)
  · have fails : ∀ {e}, loadShards n tab s = .error e → exec i s = .next (failed (opcodeOf i) q e s) := fun hl => by
      rw [← irqFlagOf_of_hasShardTable hi]
      exact exec_eq_failed hc (planOf_of_loadShards_error hi h hl)
    refine ⟨fun hn => fails (loadShards_of_wrongCount hn), fun hn hr => ⟨fun hp => ?_, fun j hj hp hl hlt => ?_,
      fun hp hl hm => ?_⟩⟩
    · exact fails (loadShards_of_noData hn hr hp)
    · exact fails (loadShards_of_otherLength hn hr hj hp hl hlt)
    · exact fails (loadShards_of_noMultiple hn hr hp hl hm)

end Sys2Proof.Machine
end

section
/-! SUPPORT. Codec commands with output shards (spec/45_codec.md R251, R252): where the outputs go, what may fail, and
the state they leave. -/

namespace Sys2Proof.Machine

/-- What a codec command with output shards carries out (R251, R252). -/
def outputShardsPlan (s : State) (tab : Addr) (xs : List Slot) (outs : List Nat) (bytes : List (List Byte))
    (extra : List ReadRange) (cache : Option (List CacheEntry)) : Plan :=
  let size := shardLength xs
  let placed := placeOutputs xs size outs s.scrNext.toNat
  let ins := inputIndices s xs outs
  let stores := placed.1.flatMap (Placed.entryStores tab.toNat size)
    ++ List.zipWith (fun p bs => shardStore (Placed.addr p) bs) placed.1 bytes
  { reads := descRange s :: extra ++ ins.map fun i => reads (slotAt xs i).addr size
    writes := extent tab.toNat (16 * shardCount s) :: placed.1.map (Placed.range size)
    accesses := (ins.map fun i => readAccess (slotAt xs i).addr size) ++ stores.map Store.access
    stores := stores
    span := some size
    scrNext := if placed.1.any Placed.fresh then some (BitVec.ofNat 64 placed.2) else none
    ctx := none, icache := cache, result := 0 }

section
variable {i : Instr} {s : State} {tab : Addr} {xs : List Slot} {outs : List Nat} {bytes : List (List Byte)}
  {extra : List ReadRange} {cache : Option (List CacheEntry)}

theorem outputPlan_of_noArena (h : ¬ OutputsInArena s xs outs) :
    outputPlan s tab xs outs bytes extra cache = .error { code := .scratchExhausted, idx := noDetail } := by
  obtain ⟨fresh, full⟩ := Classical.not_imp.mp h
  rw [outputPlan]
  dsimp only
  rw [if_pos fresh, checkArena, check_neg full, error_bind]

theorem outputPlan_of_arena (h : OutputsInArena s xs outs) :
    outputPlan s tab xs outs bytes extra cache = (outputShardsPlan s tab xs outs bytes extra cache).guarded := by
  rw [outputPlan, outputShardsPlan]
  dsimp only
  by_cases fresh : (placeOutputs xs (shardLength xs) outs s.scrNext.toNat).1.any Placed.fresh = true
  · rw [if_pos fresh, if_pos fresh, checkArena, check_pos (h fresh), ok_bind]
  · rw [if_neg fresh, if_neg fresh]

/-- SCR_NEXT moves to the end of what was allocated (20_memory.md R77). -/
theorem scrNext_outputShardsPlan :
    (outputShardsPlan s tab xs outs bytes extra cache).scrNext.getD s.scrNext = scrNextAfter s xs outs := by
  unfold outputShardsPlan scrNextAfter
  dsimp only
  split
  · rfl
  · rw [placeOutputs_next (Bool.eq_false_iff.mpr ‹_›), BitVec.ofNat_toNat, BitVec.setWidth_eq]
    rfl

theorem accessesPermitted_outputShardsPlan (h : OutputsFit s tab xs outs extra)
    (hb : ∀ b ∈ bytes, b.length = shardLength xs) :
    accessesPermitted s (outputShardsPlan s tab xs outs bytes extra cache) = true := by
  refine List.all_eq_true.mpr fun a ha => ?_
  obtain ha | ha := List.mem_append.mp ha
  · obtain ⟨j, hj, rfl⟩ := List.mem_map.mp ha
    exact h.inputs j hj
  · obtain ⟨st, hst, rfl⟩ := List.mem_map.mp ha
    obtain hst | hst := List.mem_append.mp hst
    · obtain ⟨p, hp, hst⟩ := List.mem_flatMap.mp hst
      exact h.entries p hp st hst
    · obtain ⟨p, hp, b, hbs, rfl⟩ := mem_zipWith hst
      have shard := h.shards p hp
      rwa [← hb b hbs] at shard

variable (hc : CanComplete s) (hp : planOf i s = outputPlan s tab xs outs bytes extra cache)
include hc hp

theorem exec_of_noArena (h : ¬ OutputsInArena s xs outs) :
    exec i s = .next (failed (opcodeOf i) (irqFlagOf i) { code := .scratchExhausted, idx := noDetail } s) :=
  exec_eq_failed hc (hp.trans (outputPlan_of_noArena h))

theorem exec_of_outputsOverlap (ha : OutputsInArena s xs outs) (h : ¬ OutputsClear s tab xs outs extra) :
    exec i s = .next (failed (opcodeOf i) (irqFlagOf i) { code := .overlap, idx := noDetail } s) :=
  exec_eq_failed hc ((hp.trans (outputPlan_of_arena ha)).trans
    (guarded_eq_error.mpr ⟨Bool.eq_false_iff.mpr h, rfl⟩))

theorem exec_of_outputsFit (h : OutputsFit s tab xs outs extra) (hb : ∀ b ∈ bytes, b.length = shardLength xs) :
    exec i s = .next (succeeded (irqFlagOf i) 0 { s with
      mem := outputsWritten s tab xs outs bytes
      scrNext := scrNextAfter s xs outs
      icache := cache.getD s.icache }) := by
  have plan := (hp.trans (outputPlan_of_arena h.arena)).trans (guarded_eq_ok.mpr ⟨h.clear, rfl⟩)
  rw [exec_eq_succeeded hc plan (accessesPermitted_outputShardsPlan h hb)]
  congr 2
  unfold commit commitRegisters
  rw [scrNext_outputShardsPlan, outputShardsPlan, Memory.putAll_append]
  rfl

end

/-! ### Coded bytes (44_kernel.md R222) -/

theorem codedByte_congr {n : Nat} {c c' : Nat → Nat} {b b' : Nat → Byte} (hc : ∀ j, j < n → c j = c' j)
    (hb : ∀ j, j < n → b j = b' j) : codedByte n c b = codedByte n c' b' := by
  unfold codedByte
  rw [List.map_congr_left fun j hj => by rw [hc j (List.mem_range.mp hj), hb j (List.mem_range.mp hj)]]

theorem codedByte_of_zero {n : Nat} {c : Nat → Nat} (hc : ∀ j, j < n → c j = 0) (b : Nat → Byte) :
    codedByte n c b = 0 := by
  unfold codedByte
  rw [xorSum_map_zero fun j hj => by rw [hc j (List.mem_range.mp hj), mul_zero_left]]
  rfl

theorem codedByte_succ (n : Nat) (c : Nat → Nat) (b : Nat → Byte) :
    codedByte (n + 1) c b
      = BitVec.ofNat 8 (mul .gf8 (c 0) (b 0).toNat) ^^^ codedByte n (fun j => c (j + 1)) (fun j => b (j + 1)) := by
  rw [codedByte, map_range_succ, xorSum, BitVec.ofNat_xor]
  rfl

theorem getD_scaleBuf (c : Nat) (bs : List Byte) (e : Nat) :
    (scaleBuf .gf8 c bs).getD e 0 = BitVec.ofNat 8 (mul .gf8 c (bs.getD e 0).toNat) := by
  have zero : BitVec.ofNat 8 (mul .gf8 c (0 : Byte).toNat) = 0 :=
    congrArg (BitVec.ofNat 8) (mul_zero_right .gf8 c)
  have byte := List.getD_map (n := e) bs (0 : Byte) fun b => BitVec.ofNat 8 (mul .gf8 c b.toNat)
  rw [zero] at byte
  rw [← byte, scaleBuf, toElems, ofElems, List.map_map, List.map_map]
  rfl

/-- Byte `e` of a linear combination of buffers of one length. -/
theorem getD_linearCombination {n : Nat} (cs : List Nat) {bufs : List (List Byte)} (hb : ∀ b ∈ bufs, b.length = n)
    (e : Nat) : (linearCombination n cs bufs).getD e 0
      = codedByte bufs.length (fun j => cs.getD j 0) (fun j => (bufs.getD j []).getD e 0) := by
  have empty : (List.replicate n (0 : Byte)).getD e 0 = 0 := by
    obtain he | he := Nat.lt_or_ge e n <;> simp [he]
  induction cs generalizing bufs with
  | nil => exact empty.trans (codedByte_of_zero (fun _ _ => rfl) _).symm
  | cons c cs ih =>
    cases bufs with
    | nil => exact empty
    | cons b bs =>
      have tail : ∀ b' ∈ bs, b'.length = n := fun b' h => hb b' (by simp [h])
      have same : (scaleBuf .gf8 c b).length = (linearCombination n cs bs).length := by
        rw [length_scaleBuf (fs := .gf8) c nofun, hb b (by simp), length_linearCombination cs tail]
      rw [linearCombination, getD_xorBuf same, getD_scaleBuf, ih tail, List.length_cons, codedByte_succ]
      simp only [List.getD_cons_zero, List.getD_cons_succ]

/-! ### Shards -/

theorem getD_map_range {α : Type} {n j : Nat} (f : Nat → α) (d : α) (hj : j < n) :
    ((List.range n).map f).getD j d = f j := by
  simp [List.getD_eq_getElem?_getD, hj]

theorem length_of_mem_map_shardBytes {s : State} {xs : List Slot} {is : List Nat} {b : List Byte}
    (h : b ∈ is.map (shardBytes s xs)) : b.length = shardLength xs := by
  obtain ⟨i, _, rfl⟩ := List.mem_map.mp h
  exact length_shardBytes s xs i

end Sys2Proof.Machine
end

section
/-! SUPPORT. The transforms on lists of vectors of one length (spec/46_fft.md R301 to R308): each keeps the number of
the vectors and their length. -/

namespace Sys2Proof.Machine

/-! ### Powers of two (R301) -/

theorem pow2_eq {m l : Nat} (hm : m ≤ 2 ^ l) (hl : 2 ^ l < 2 * m) : pow2 m = 2 ^ l := by
  unfold pow2
  split
  · omega
  · have pos : l ≠ 0 := by rintro rfl; omega
    obtain ⟨l, rfl⟩ := Nat.exists_eq_succ_of_ne_zero pos
    rw [Nat.succ_eq_add_one, Nat.pow_succ] at hm hl
    rw [(Nat.log2_eq_iff (k := l) (by omega)).mpr ⟨by omega, by rw [Nat.pow_succ]; omega⟩]

theorem le_pow2 (m : Nat) : m ≤ pow2 m := by
  unfold pow2
  split
  · assumption
  · have := Nat.lt_log2_self (n := m - 1)
    omega

theorem exists_pow2_eq (m : Nat) : ∃ l, pow2 m = 2 ^ l := by
  unfold pow2
  split
  · exact ⟨0, rfl⟩
  · exact ⟨_, rfl⟩

/-! ### Vectors of one length -/

/-- A butterfly keeps the length of its operands. -/
def ButterflyKeeps (e : Nat) (bfly : Nat → Vec → Vec → Vec × Vec) : Prop :=
  ∀ sk x y, x.length = e → y.length = e → (bfly sk x y).1.length = e ∧ (bfly sk x y).2.length = e

theorem length_addVec {e : Nat} {x y : Vec} (hx : x.length = e) (hy : y.length = e) : (addVec x y).length = e := by
  simp [addVec, hx, hy]

theorem length_scaleVec (fs : FS) (c : Nat) (x : Vec) : (scaleVec fs c x).length = x.length := List.length_map ..

theorem bflyFft_keeps (fs : FS) (e : Nat) : ButterflyKeeps e (bflyFft fs) := fun sk _ y hx hy =>
  have sum := length_addVec hx ((length_scaleVec fs sk y).trans hy)
  ⟨sum, length_addVec hy sum⟩

theorem bflyIfft_keeps (fs : FS) (e : Nat) : ButterflyKeeps e (bflyIfft fs) := fun sk _ _ hx hy =>
  have sum := length_addVec hy hx
  ⟨length_addVec hx ((length_scaleVec fs sk _).trans sum), sum⟩

theorem Shaped.zipWith_addVec {n e : Nat} {ws us : List Vec} (hw : Shaped n e ws) (hu : Shaped n e us) :
    Shaped n e (List.zipWith addVec ws us) := by
  refine ⟨by simp [hw.1, hu.1], fun z hz => ?_⟩
  obtain ⟨x, hx, y, hy, rfl⟩ := mem_zipWith hz
  exact length_addVec (hw.2 x hx) (hu.2 y hy)

theorem Shaped.take {n e i : Nat} {w : List Vec} (h : Shaped n e w) (hi : i ≤ n) : Shaped i e (w.take i) :=
  ⟨by rw [List.length_take, h.1, Nat.min_eq_left hi], fun v hv => h.2 v (List.mem_of_mem_take hv)⟩

theorem Shaped.drop {n e : Nat} {w : List Vec} (h : Shaped n e w) (i : Nat) : Shaped (n - i) e (w.drop i) :=
  ⟨by rw [List.length_drop, h.1], fun v hv => h.2 v (List.mem_of_mem_drop hv)⟩

/-! ### Transforms (R306, R307) -/

theorem shaped_transformLevel {e : Nat} {bfly : Nat → Vec → Vec → Vec × Vec} (hb : ButterflyKeeps e bfly)
    (d nb p : Nat) {w : List Vec} (h : Shaped (2 * d * nb) e w) :
    Shaped (2 * d * nb) e (transformLevel bfly d nb p w) := by
  induction nb generalizing p w with
  | zero => exact ⟨rfl, nofun⟩
  | succ nb ih =>
    rw [Nat.mul_succ] at h ⊢
    have low : Shaped d e (w.take d) := h.take (by omega)
    have high : Shaped d e ((w.drop d).take d) := (h.drop d).take (by omega)
    have rest : Shaped (2 * d * nb) e (w.drop (2 * d)) := by simpa using h.drop (2 * d)
    have len : (List.zipWith (bfly (skew p d)) (w.take d) ((w.drop d).take d)).length = d := by
      rw [List.length_zipWith, low.1, high.1, Nat.min_self]
    have pair : ∀ z ∈ List.zipWith (bfly (skew p d)) (w.take d) ((w.drop d).take d),
        z.1.length = e ∧ z.2.length = e := fun z hz => by
      obtain ⟨x, hx, y, hy, rfl⟩ := mem_zipWith hz
      exact hb _ x y (low.2 x hx) (high.2 y hy)
    have fst : Shaped d e ((List.zipWith (bfly (skew p d)) (w.take d) ((w.drop d).take d)).map Prod.fst) :=
      ⟨by rw [List.length_map, len], by simpa only [List.forall_mem_map] using fun z hz => (pair z hz).1⟩
    have snd : Shaped d e ((List.zipWith (bfly (skew p d)) (w.take d) ((w.drop d).take d)).map Prod.snd) :=
      ⟨by rw [List.length_map, len], by simpa only [List.forall_mem_map] using fun z hz => (pair z hz).2⟩
    have all := (fst.append snd).append (ih (p + 2 * d) rest)
    rwa [show d + d + 2 * d * nb = 2 * d * nb + 2 * d by omega] at all

/-- The half-sizes cut a transform of size 2^l into whole blocks. -/
theorem blocks_of_mem_halfSizes {l d : Nat} (h : d ∈ halfSizes (2 ^ l)) : 2 * d * (2 ^ l / (2 * d)) = 2 ^ l := by
  obtain ⟨j, hj, rfl⟩ := List.mem_map.mp h
  have hj : j < l := by simpa [Nat.log2_two_pow] using hj
  rw [← Nat.pow_succ']
  exact Nat.mul_div_cancel' (Nat.pow_dvd_pow 2 hj)

theorem shaped_level_of_mem_halfSizes {e l d : Nat} {bfly : Nat → Vec → Vec → Vec × Vec} (hb : ButterflyKeeps e bfly)
    (hd : d ∈ halfSizes (2 ^ l)) (b : Nat) {w : List Vec} (h : Shaped (2 ^ l) e w) :
    Shaped (2 ^ l) e (transformLevel bfly d (2 ^ l / (2 * d)) b w) := by
  have blocks := blocks_of_mem_halfSizes hd
  rw [← blocks] at h
  have level := shaped_transformLevel hb d _ b h
  rwa [blocks] at level

theorem shaped_fft (fs : FS) {l e : Nat} (b : Nat) {w : List Vec} (h : Shaped (2 ^ l) e w) :
    Shaped (2 ^ l) e (fft fs (2 ^ l) b w) :=
  List.foldlRecOn _ _ h fun _ h _ hd =>
    shaped_level_of_mem_halfSizes (bflyFft_keeps fs e) (List.mem_reverse.mp hd) b h

theorem shaped_ifft (fs : FS) {l e : Nat} (b : Nat) {w : List Vec} (h : Shaped (2 ^ l) e w) :
    Shaped (2 ^ l) e (ifft fs (2 ^ l) b w) :=
  List.foldlRecOn _ _ h fun _ h _ hd => shaped_level_of_mem_halfSizes (bflyIfft_keeps fs e) hd b h

/-! ### The formal derivative (R308) -/

theorem lowBit_double (i : Nat) : lowBit (2 * i) = 2 * lowBit i := by
  have and : 2 * i &&& (2 * i - 1) = 2 * (i &&& (i - 1)) := by
    refine Nat.eq_of_testBit_eq fun j => ?_
    rw [Nat.testBit_and]
    cases j with
    | zero => simp [Nat.testBit_zero]
    | succ j => simp only [Nat.testBit_succ, show (2 * i - 1) / 2 = i - 1 by omega, Nat.mul_div_cancel_left _ two_pos,
        Nat.testBit_and]
  rw [lowBit, and, lowBit, Nat.mul_sub]

theorem lowBit_odd (i : Nat) : lowBit (2 * i + 1) = 1 := by
  have and : (2 * i + 1) &&& (2 * i + 1 - 1) = 2 * i := by
    refine Nat.eq_of_testBit_eq fun j => ?_
    rw [Nat.testBit_and]
    cases j with
    | zero => simp [Nat.testBit_zero]
    | succ j => simp only [Nat.testBit_succ, show (2 * i + 1) / 2 = i by omega, show (2 * i + 1 - 1) / 2 = i by omega,
        Nat.mul_div_cancel_left _ two_pos, Bool.and_self]
  rw [lowBit, and]
  omega

theorem lowBit_le (i : Nat) : lowBit i ≤ i := Nat.sub_le ..

/-- A step of the derivative stays within a transform of size 2^l. -/
theorem add_lowBit_le {l i : Nat} (h : i < 2 ^ l) : i + lowBit i ≤ 2 ^ l := by
  induction l generalizing i with
  | zero =>
    have := lowBit_le i
    omega
  | succ l ih =>
    rw [Nat.pow_succ] at h ⊢
    obtain ⟨i, rfl | rfl⟩ := Nat.even_or_odd' i
    · rw [lowBit_double]
      have := ih (i := i) (by omega)
      omega
    · rw [lowBit_odd]
      omega

theorem shaped_fderivStep {n e i : Nat} {w : List Vec} (h : Shaped n e w) (hi : i + lowBit i ≤ n) :
    Shaped n e (fderivStep w i) := by
  have hle := lowBit_le i
  have before : Shaped (i - lowBit i) e (w.take (i - lowBit i)) := h.take (by omega)
  have targets : Shaped (lowBit i) e ((w.drop (i - lowBit i)).take (lowBit i)) := (h.drop _).take (by omega)
  have sources : Shaped (lowBit i) e ((w.drop i).take (lowBit i)) := (h.drop i).take (by omega)
  have all := (before.append (targets.zipWith_addVec sources)).append (h.drop i)
  rwa [show i - lowBit i + lowBit i + (n - i) = n by omega] at all

theorem shaped_fderiv {l e : Nat} {w : List Vec} (h : Shaped (2 ^ l) e w) : Shaped (2 ^ l) e (fderiv (2 ^ l) w) :=
  List.foldlRecOn _ _ h fun _ h _ hi =>
    shaped_fderivStep h (add_lowBit_le (List.mem_range.mp (List.mem_of_mem_drop hi)))

end Sys2Proof.Machine
end

section
/-! SUPPORT. ENCODE and VERIFY (spec/45_codec.md R253 to R255, R261, R262, spec/46_fft.md R310): the parity, and what
each command answers. -/

namespace Sys2Proof.Machine

/-! ### Parity of a Classical context (R253) -/

theorem length_dataBytes (s : State) (xs : List Slot) : (dataBytes s xs).length = s.ctx.k := by simp [dataBytes]

theorem parityBytes_classical {s : State} {size : Nat} {data : List (List Byte)} (h : s.ctx.variant = .classical) :
    parityBytes s size data = (List.range s.ctx.m).map fun p => linearCombination size (parityRow s p) data := by
  rw [parityBytes, h]

/-- A byte of row `i` of CTX.M applied to the data shards. -/
theorem getD_linearCombination_data (s : State) (xs : List Slot) (i e : Nat) :
    (linearCombination (shardLength xs) (s.ctx.matrix.getD i []) (dataBytes s xs)).getD e 0
      = codedByte s.ctx.k (entry s.ctx.matrix i) fun j => shardByte s xs j e := by
  have lengths : ∀ b ∈ dataBytes s xs, b.length = shardLength xs := fun b hb => length_of_mem_map_shardBytes hb
  rw [getD_linearCombination _ lengths, length_dataBytes]
  exact codedByte_congr (fun _ _ => rfl) fun j hj => by rw [dataBytes, getD_map_range _ _ hj]; rfl

/-! ### Parity of an FFT context (46_fft.md R310) -/

theorem variant_cases {v : Variant} (h : v ≠ .classical) : v = .fft8 ∨ v = .fft16 := by
  cases v with
  | classical => exact absurd rfl h
  | fft8 => exact .inl rfl
  | fft16 => exact .inr rfl

/-- The data shards as vectors of elements. -/
def dataVecs (s : State) (xs : List Slot) : List Vec := (dataBytes s xs).map (toElems (variantField s.ctx.variant))

theorem length_dataVecs (s : State) (xs : List Slot) : (dataVecs s xs).length = s.ctx.k := by
  rw [dataVecs, List.length_map, length_dataBytes]

theorem getD_dataVecs {s : State} {xs : List Slot} {j : Nat} (hj : j < s.ctx.k) (d : Vec) :
    (dataVecs s xs).getD j d = toElems (variantField s.ctx.variant) (shardBytes s xs j) := by
  rw [dataVecs, dataBytes, List.map_map, getD_map_range _ _ hj]
  rfl

theorem length_of_mem_dataVecs {s : State} {xs : List Slot} {v : Vec} (h : v ∈ dataVecs s xs) :
    v.length = elemCount (variantField s.ctx.variant) (shardLength xs) := by
  obtain ⟨b, hb, rfl⟩ := List.mem_map.mp h
  rw [length_toElems, length_of_mem_map_shardBytes hb]

theorem parityBytes_fft {s : State} {xs : List Slot} (h : s.ctx.variant ≠ .classical) (hk : 0 < s.ctx.k)
    (hm : s.ctx.m ≠ 0) : parityBytes s (shardLength xs) (dataBytes s xs)
      = (fftEncode (variantField s.ctx.variant) s.ctx.m
          (elemCount (variantField s.ctx.variant) (shardLength xs)) (dataVecs s xs)).map
            (ofElems (variantField s.ctx.variant)) := by
  have first : ((dataVecs s xs).getD 0 []).length = elemCount (variantField s.ctx.variant) (shardLength xs) := by
    rw [getD_dataVecs hk, length_toElems, length_shardBytes]
  rw [← first]
  obtain hv | hv := variant_cases h <;> simp only [parityBytes, dataVecs, hv, if_neg hm]

theorem parityBytes_fft_zero {s : State} {size : Nat} {data : List (List Byte)} (h : s.ctx.variant ≠ .classical)
    (hm : s.ctx.m = 0) : parityBytes s size data = [] := by
  obtain hv | hv := variant_cases h <;> simp only [parityBytes, hv, if_pos hm]

theorem Shaped.getElem?_eq_getD {n e p : Nat} {w : List Vec} (h : Shaped n e w) (hp : p < n) :
    w[p]? = some (w.getD p []) := by
  have hp : p < w.length := h.1.symm ▸ hp
  rw [List.getElem?_eq_getElem hp, List.getD_eq_getElem _ _ hp]

/-- Vectors summed up one list after the other are summed up position by position. -/
theorem foldl_zipWith_addVec {ι : Type} {n : Nat} (is : List ι) {ws : ι → List Vec} {w : List Vec}
    (hw : w.length = n) (hs : ∀ i, (ws i).length = n) :
    is.foldl (fun acc i => List.zipWith addVec acc (ws i)) w
      = (List.range n).map fun t => (is.map fun i => (ws i).getD t []).foldl addVec (w.getD t []) := by
  induction is generalizing w with
  | nil =>
    refine List.ext_getElem (by simp [hw]) fun t ht _ => ?_
    have ht : t < w.length := ht
    simp [ht]
  | cons i is ih =>
    rw [List.foldl_cons, ih (by simp [hw, hs])]
    refine List.map_congr_left fun t ht => ?_
    have ht : t < n := List.mem_range.mp ht
    simp [List.getD_eq_getElem?_getD, hw, hs, ht]

theorem shaped_replicate (n e : Nat) : Shaped n e (List.replicate n (zeroVec e)) :=
  ⟨List.length_replicate, fun v hv => by rw [List.eq_of_mem_replicate hv, zeroVec, List.length_replicate]⟩

theorem shaped_dataChunk {e : Nat} {d : List Vec} (h : ∀ v ∈ d, v.length = e) (mp c : Nat) :
    Shaped mp e (dataChunk mp c e d) := by
  refine ⟨by simp [dataChunk], fun v hv => ?_⟩
  obtain ⟨t, _, rfl⟩ := List.mem_map.mp hv
  obtain ht | ht := Nat.lt_or_ge (c + t) d.length
  · rw [List.getD_eq_getElem _ _ ht]
    exact h _ (List.getElem_mem ht)
  · rw [List.getD_eq_default _ _ ht, zeroVec, List.length_replicate]

/-- The vectors before the last transform of an encoding (R310). -/
theorem shaped_foldl_chunks (fs : FS) {l e : Nat} (is : List Nat) {chunk : Nat → List Vec} {w : List Vec}
    (hw : Shaped (2 ^ l) e w) (hc : ∀ i, Shaped (2 ^ l) e (chunk i)) :
    Shaped (2 ^ l) e
      (is.foldl (fun acc i => List.zipWith addVec acc (ifft fs (2 ^ l) (2 ^ l + 2 ^ l * i) (chunk i))) w) :=
  List.foldlRecOn _ _ hw fun _ h i _ => h.zipWith_addVec (shaped_ifft fs _ (hc i))

/-- The parity vectors have the length of the data vectors. -/
theorem length_of_mem_fftEncode {fs : FS} {m e : Nat} {d : List Vec} (h : ∀ v ∈ d, v.length = e) {v : Vec}
    (hv : v ∈ fftEncode fs m e d) : v.length = e := by
  obtain ⟨l, hl⟩ := exists_pow2_eq m
  rw [fftEncode, hl] at hv
  exact (shaped_fft fs 0 (shaped_foldl_chunks fs _ (shaped_replicate _ e) fun i => shaped_dataChunk h _ _)).2 v
    (List.mem_of_mem_take hv)

/-- Parity `p` is vector `p` of the transform of the sums of the inversely transformed chunks (R310). -/
theorem getElem?_fftEncode {fs : FS} {m e l p : Nat} {d : List Vec} (h : ∀ v ∈ d, v.length = e) (hm : m ≤ 2 ^ l)
    (hl : 2 ^ l < 2 * m) (hp : p < m) :
    (fftEncode fs m e d)[p]? = some ((fft fs (2 ^ l) 0 ((List.range (2 ^ l)).map fun t =>
      ((List.range ((d.length + 2 ^ l - 1) / 2 ^ l)).map fun c =>
        (ifft fs (2 ^ l) (2 ^ l + 2 ^ l * c) (dataChunk (2 ^ l) (2 ^ l * c) e d)).getD t []).foldl addVec
          (zeroVec e))).getD p []) := by
  have start := shaped_replicate (2 ^ l) e
  have chunks : ∀ c, Shaped (2 ^ l) e (dataChunk (2 ^ l) (2 ^ l * c) e d) := fun c => shaped_dataChunk h _ _
  have work := shaped_fft fs 0 (shaped_foldl_chunks fs (List.range ((d.length + 2 ^ l - 1) / 2 ^ l)) start chunks)
  have sums := foldl_zipWith_addVec (List.range ((d.length + 2 ^ l - 1) / 2 ^ l)) start.1
    fun c => (shaped_ifft fs (2 ^ l + 2 ^ l * c) (chunks c)).1
  rw [fftEncode, pow2_eq hm hl, List.getElem?_take_of_lt hp,
    work.getElem?_eq_getD (Nat.lt_of_lt_of_le hp hm), sums]
  refine congrArg (fun w => some ((fft fs (2 ^ l) 0 w).getD p [])) (List.map_congr_left fun t ht => ?_)
  rw [List.getD_replicate _ (List.mem_range.mp ht)]

/-! ### The length of the parity -/

/-- Shards of an FFT context are whole blocks (R243, R250). -/
theorem shardLength_mod_of_fft {s : State} {n : Word} {tab : Addr} {xs : List Slot} (hl : s.ctx.Legal)
    (h : s.ctx.valid = true) (hv : s.ctx.variant ≠ .classical) (ht : TableUsable s n tab xs) :
    shardLength xs % 64 = 0 := by
  have multiple := ht.agree.multiple
  rw [hl.ssm h] at multiple
  obtain hv | hv := variant_cases hv <;> rwa [hv] at multiple

theorem length_of_mem_parityBytes {s : State} {n : Word} {tab : Addr} {xs : List Slot} (hl : s.ctx.Legal)
    (h : s.ctx.valid = true) (ht : TableUsable s n tab xs) {b : List Byte}
    (hb : b ∈ parityBytes s (shardLength xs) (dataBytes s xs)) : b.length = shardLength xs := by
  by_cases hv : s.ctx.variant = .classical
  · rw [parityBytes_classical hv] at hb
    obtain ⟨p, _, rfl⟩ := List.mem_map.mp hb
    exact length_linearCombination _ fun b hb => length_of_mem_map_shardBytes hb
  · by_cases hm : s.ctx.m = 0
    · rw [parityBytes_fft_zero hv hm] at hb
      cases hb
    · rw [parityBytes_fft hv (hl.k h) hm] at hb
      obtain ⟨v, hmem, rfl⟩ := List.mem_map.mp hb
      exact length_ofElems (fun _ => shardLength_mod_of_fft hl h hv ht)
        (length_of_mem_fftEncode (fun _ => length_of_mem_dataVecs) hmem)

/-! ### ENCODE (R254, R255) -/

section
variable {irq : Bool} {n : Word} {tab : Addr} {s : State} {xs : List Slot}
  (h : s.ctx.valid = true) (ht : TableUsable s n tab xs)
include h ht

theorem planOf_encode_of_missing {i : Nat} (hi : i < s.ctx.k) (hp : presentAt xs i = false)
    (hlt : ∀ j, j < i → presentAt xs j = true) :
    planOf (.encode irq n tab) s = .error { code := .tooFewShards, idx := BitVec.ofNat 16 i } := by
  rw [planOf, planEncode, checkConfigured_pos h, ok_bind, loadShards_of_usable ht, ok_bind,
    checkEach_range_of_least hi hp hlt, error_bind]

theorem planOf_encode (hp : ∀ i, i < s.ctx.k → presentAt xs i = true) :
    planOf (.encode irq n tab) s
      = outputPlan s tab xs (parityIndices s) (parityBytes s (shardLength xs) (dataBytes s xs)) [] none := by
  rw [planOf, planEncode, checkConfigured_pos h, ok_bind, loadShards_of_usable ht, ok_bind,
    checkEach_pos fun i hi => hp i (List.mem_range.mp hi), ok_bind]

end

/-- Settles O54: the data shards are checked in index order and then the outputs; byte by byte the Classical parity is a
linear combination, and the FFT encoder adds the chunks up position by position. -/
theorem encodeShards : Obligations.EncodeShards := by
  intro irq n tab s xs hc hl h ht
  refine ⟨fun hp => ⟨fun ha => ?_, fun ha ho => ?_, fun hf => ?_⟩, fun i hi hp hlt => ?_, fun hv p e hp _ => ?_,
    fun hv fs l mp zero chunk hfs hmp hm hlt hzero hchunk p hp => ?_⟩
  · exact exec_of_noArena hc (planOf_encode h ht hp) ha
  · exact exec_of_outputsOverlap hc (planOf_encode h ht hp) ha ho
  · exact exec_of_outputsFit hc (planOf_encode h ht hp) hf fun _ => length_of_mem_parityBytes hl h ht
  · exact exec_eq_failed hc (planOf_encode_of_missing h ht hi hp hlt)
  · rw [parityBytes_classical hv, getD_map_range _ _ hp]
    exact getD_linearCombination_data s xs (s.ctx.k + p) e
  · subst hfs hmp
    have zeros : zero = zeroVec (elemCount (variantField s.ctx.variant) (shardLength xs)) := by
      rw [hzero, List.map_const', length_toElems, length_shardBytes, zeroVec]
    have chunks : ∀ c, dataChunk (2 ^ l) (2 ^ l * c) (elemCount (variantField s.ctx.variant) (shardLength xs))
        (dataVecs s xs) = chunk c := fun c => by
      rw [hchunk]
      refine List.map_congr_left fun t _ => ?_
      split
      · exact getD_dataVecs ‹_› _
      · rw [zeros, List.getD_eq_default _ _ (by rw [length_dataVecs]; omega)]
    have parity := getElem?_fftEncode (fs := variantField s.ctx.variant)
      (fun _ => length_of_mem_dataVecs (s := s) (xs := xs)) hm hlt hp
    simp only [chunks, length_dataVecs, ← zeros] at parity
    exact (congrArg (·[p]?) (parityBytes_fft hv (hl.k h) (by omega))).trans (by rw [List.getElem?_map, parity]; rfl)

/-! ### VERIFY (R261, R262) -/

/-- What VERIFY carries out (R262): it reads every shard and writes none. -/
def verifyPlan (s : State) (tab : Addr) (xs : List Slot) (same : Bool) : Plan :=
  let all := List.range (shardCount s)
  { reads := descRange s :: reads tab.toNat (16 * shardCount s)
      :: all.map fun i => reads (slotAt xs i).addr (shardLength xs)
    writes := [], accesses := all.map fun i => readAccess (slotAt xs i).addr (shardLength xs), stores := []
    span := some (shardLength xs), scrNext := none, ctx := none, icache := none, result := if same then 1 else 0 }

section
variable {irq : Bool} {n : Word} {tab : Addr} {s : State} {xs : List Slot}
  (h : s.ctx.valid = true) (ht : TableUsable s n tab xs)
include h ht

theorem planOf_verify_of_missing {i : Nat} (hi : i < shardCount s) (hp : presentAt xs i = false)
    (hlt : ∀ j, j < i → presentAt xs j = true) :
    planOf (.verify irq n tab) s = .error { code := .shardSize, idx := BitVec.ofNat 16 i } := by
  rw [planOf, planVerify, checkConfigured_pos h, ok_bind, loadShards_of_usable ht, ok_bind,
    checkEach_range_of_least hi hp hlt, error_bind]

theorem planOf_verify (hp : ∀ i, i < shardCount s → presentAt xs i = true) :
    planOf (.verify irq n tab) s = .ok (verifyPlan s tab xs
      (parityBytes s (shardLength xs) (dataBytes s xs) == (parityIndices s).map (shardBytes s xs))) := by
  rw [planOf, planVerify, checkConfigured_pos h, ok_bind, loadShards_of_usable ht, ok_bind,
    checkEach_pos fun i hi => hp i (List.mem_range.mp hi), ok_bind]
  exact guarded_eq_ok.mpr ⟨rfl, rfl⟩

end

/-- Settles O55: VERIFY compares the parity bytes with the parity shards, and stores nothing. -/
theorem verifyShards : Obligations.VerifyShards := by
  intro irq n tab s xs hc h ht
  refine ⟨fun hp hr => ?_, fun i hi hp hlt => exec_eq_failed hc (planOf_verify_of_missing h ht hi hp hlt)⟩
  have accesses : accessesPermitted s (verifyPlan s tab xs
      (parityBytes s (shardLength xs) (dataBytes s xs) == (parityIndices s).map (shardBytes s xs))) = true := by
    refine List.all_eq_true.mpr fun a ha => ?_
    obtain ⟨i, hi, rfl⟩ := List.mem_map.mp ha
    exact hr i (List.mem_range.mp hi)
  rw [exec_eq_succeeded hc (planOf_verify h ht hp) accesses]
  simp only [verifyPlan, beq_iff_eq]
  rfl

end Sys2Proof.Machine
end

section
/-! SUPPORT. RECON, RECON_DATA and RECON_SOME in a Classical context (spec/45_codec.md R263 to R268): the row set, the
decoding matrix, the recovered bytes, and what each command answers. -/

namespace Sys2Proof.Machine

/-! ### The inversion cache (R245, R264) -/

theorem rowSetKey_eq_sum (v : List Nat) : rowSetKey v = (v.map (2 ^ ·)).sum := by
  rw [rowSetKey, List.sum_eq_foldl, List.foldl_map]

/-- The bitmap of a row set determines it (10_state.md R53). -/
theorem rowSetKey_injective {v w : List Nat} (hv : v.Pairwise (· < ·)) (hw : w.Pairwise (· < ·))
    (h : rowSetKey v = rowSetKey w) : v = w := by
  rw [rowSetKey_eq_sum, rowSetKey_eq_sum] at h
  rw [← Nat.bitIndices_sum_map_two_pow hv.sortedLT, h, Nat.bitIndices_sum_map_two_pow hw.sortedLT]

section
variable {s : State} {xs : List Slot} (hcache : CacheCorrect s.params s.ctx s.icache)
include hcache

/-- A correct cache answers what an inversion would. -/
theorem invert_of_cacheLookup {d : Matrix} (h : cacheLookup s (validSet s xs) = some d) :
    invert s.ctx.k (selectRows s.ctx.matrix (validSet s xs)) = some d := by
  unfold cacheLookup at h
  split at h
  · obtain ⟨e, found, rfl⟩ := Option.map_eq_some_iff.mp h
    obtain ⟨v, hv, _, key, inverse⟩ := hcache.2 e (List.mem_of_find?_eq_some found)
    have same : e.key = rowSetKey (validSet s xs) := by simpa using List.find?_some found
    rwa [rowSetKey_injective hv (validSet_pairwise s xs) (key.symm.trans same)] at inverse
  · cases h

theorem decodingMatrix_of_invertible {d : Matrix}
    (h : invert s.ctx.k (selectRows s.ctx.matrix (validSet s xs)) = some d) :
    ∃ cache, decodingMatrix s (validSet s xs) = .ok (d, cache) := by
  unfold decodingMatrix
  split
  · rename_i d' hit
    obtain rfl := Option.some.inj ((invert_of_cacheLookup hcache hit).symm.trans h)
    exact ⟨_, rfl⟩
  · rw [h]
    exact ⟨_, rfl⟩

theorem decodingMatrix_of_singular
    (h : invert s.ctx.k (selectRows s.ctx.matrix (validSet s xs)) = none) :
    decodingMatrix s (validSet s xs) = .error { code := .singular, idx := noDetail } := by
  unfold decodingMatrix
  split
  · rename_i hit
    cases (invert_of_cacheLookup hcache hit).symm.trans h
  · rw [h]

end

/-! ### The recovered bytes (R268) -/

theorem length_validSet {s : State} {xs : List Slot} (h : s.ctx.k ≤ presentCount s xs) :
    (validSet s xs).length = s.ctx.k := by
  rw [validSet, List.length_take]
  exact Nat.min_eq_left h

section
variable {s : State} {xs : List Slot} {v : List Nat} {d : Matrix}

theorem length_recoveredData : (recoveredData s xs v d).length = s.ctx.k := by simp [recoveredData]

theorem length_of_mem_recoveredData {b : List Byte} (h : b ∈ recoveredData s xs v d) : b.length = shardLength xs := by
  obtain ⟨j, _, rfl⟩ := List.mem_map.mp h
  split
  · exact length_shardBytes s xs j
  · exact length_linearCombination _ fun b hb => length_of_mem_map_shardBytes hb

/-- If every data shard is present the decoding matrix plays no part. -/
theorem recoveredData_of_present (h : ∀ j, j < s.ctx.k → presentAt xs j = true) (v : List Nat) (d : Matrix) :
    recoveredData s xs v d = dataBytes s xs :=
  List.map_congr_left fun j hj => if_pos (h j (List.mem_range.mp hj))

theorem recoveredShards_of_present (h : ∀ j, j < s.ctx.k → presentAt xs j = true) (v w : List Nat) (d d' : Matrix)
    (needed : List Nat) : recoveredShards s xs v d needed = recoveredShards s xs w d' needed := by
  rw [recoveredShards, recoveredShards, recoveredData_of_present h, recoveredData_of_present h]

theorem length_of_mem_recoveredShards {needed : List Nat} {b : List Byte}
    (h : b ∈ recoveredShards s xs v d needed) : b.length = shardLength xs := by
  obtain ⟨i, _, rfl⟩ := List.mem_map.mp h
  split
  · rename_i hi
    rw [List.getD_eq_getElem _ _ (by rwa [length_recoveredData])]
    exact length_of_mem_recoveredData (List.getElem_mem _)
  · exact length_linearCombination _ fun b => length_of_mem_recoveredData

variable (hv : v.length = s.ctx.k)
include hv

/-- A byte of row `j` of the decoding matrix applied to the row set. -/
theorem getD_linearCombination_rowSet (j e : Nat) :
    (linearCombination (shardLength xs) (d.getD j []) (v.map (shardBytes s xs))).getD e 0
      = codedByte s.ctx.k (entry d j) fun u => shardByte s xs (v.getD u 0) e := by
  have lengths : ∀ b ∈ v.map (shardBytes s xs), b.length = shardLength xs := fun b => length_of_mem_map_shardBytes
  rw [getD_linearCombination _ lengths, List.length_map, hv]
  refine codedByte_congr (fun _ _ => rfl) fun u hu => ?_
  have hu : u < v.length := hv ▸ hu
  simp [shardByte, List.getD_eq_getElem?_getD, hu]

theorem getD_recoveredData {j : Nat} (hj : j < s.ctx.k) (e : Nat) :
    ((recoveredData s xs v d).getD j []).getD e 0 = recoveredByte s xs v d j e := by
  rw [recoveredData, getD_map_range _ _ hj, recoveredByte]
  split
  · rfl
  · exact getD_linearCombination_rowSet hv j e

/-- Byte `e` of a recovered shard (R268). -/
theorem getD_recoveredShards {needed : List Nat} {t j : Nat} (ht : needed[t]? = some j)
    (hp : presentAt xs j = false) (e : Nat) :
    ((recoveredShards s xs v d needed).getD t []).getD e 0
      = if j < s.ctx.k then codedByte s.ctx.k (entry d j) fun u => shardByte s xs (v.getD u 0) e
        else codedByte s.ctx.k (entry s.ctx.matrix j) fun u => recoveredByte s xs v d u e := by
  have shard : (recoveredShards s xs v d needed).getD t [] = if j < s.ctx.k then (recoveredData s xs v d).getD j []
      else linearCombination (shardLength xs) (s.ctx.matrix.getD j []) (recoveredData s xs v d) := by
    rw [recoveredShards, List.getD_eq_getElem?_getD, List.getElem?_map, ht]
    rfl
  rw [shard]
  split
  · rename_i hj
    rw [getD_recoveredData hv hj, recoveredByte, if_neg (by simp [hp])]
  · rw [getD_linearCombination _ fun b => length_of_mem_recoveredData, length_recoveredData]
    exact codedByte_congr (fun _ _ => rfl) fun u hu => getD_recoveredData hv hu e

end

/-! ### The commands (R263, R265 to R267) -/

/-- The reconstructions in the contexts that support them (R247, R263). -/
def IsRecovery (i : Instr) (irq : Bool) (n : Word) (tab : Addr) (s : State) : Prop :=
  i = .recon irq n tab ∨ i = .reconData irq n tab
    ∨ s.ctx.variant = .classical ∧ ∃ req, i = .reconSome irq n tab req

section
variable {i : Instr} {irq : Bool} {n : Word} {tab : Addr} {s : State} {xs : List Slot}

theorem missing_of_mem_neededShards {j : Nat} (h : j ∈ neededShards s i xs) :
    presentAt xs j = false ∧ j < shardCount s := by
  cases i
  case recon =>
    obtain ⟨hj, hp⟩ := List.mem_filter.mp h
    exact ⟨by simpa using hp, List.mem_range.mp hj⟩
  case reconData =>
    obtain ⟨hj, hp⟩ := List.mem_filter.mp h
    exact ⟨by simpa using hp, Nat.lt_add_right _ (List.mem_range.mp hj)⟩
  case reconSome =>
    obtain ⟨hj, hp⟩ := List.mem_filter.mp h
    exact ⟨by simpa using (Bool.and_eq_true_iff.mp hp).1, List.mem_range.mp hj⟩
  all_goals cases h

theorem irqFlagOf_of_isRecovery (hi : IsRecovery i irq n tab s) : irqFlagOf i = irq := by
  obtain rfl | rfl | ⟨_, _, rfl⟩ := hi <;> rfl

variable (hi : IsRecovery i irq n tab s) (h : s.ctx.valid = true) (ht : TableUsable s n tab xs)
include hi h ht

theorem planOf_recovery_of_tooFew (hk : presentCount s xs < s.ctx.k) :
    planOf i s = .error { code := .tooFewShards, idx := noDetail } := by
  have few : ¬ s.ctx.k ≤ presentCount s xs := by omega
  obtain rfl | rfl | ⟨hv, _, rfl⟩ := hi
  · rw [planOf, planRecon, planReconOf, checkConfigured_pos h, ok_bind, loadShards_of_usable ht, ok_bind,
      check_neg few, error_bind]
  · rw [planOf, planReconData, planReconOf, checkConfigured_pos h, ok_bind, loadShards_of_usable ht, ok_bind,
      check_neg few, error_bind]
  · rw [planOf, planReconSome, checkConfigured_pos h, ok_bind, checkClassical_pos hv, ok_bind,
      loadShards_of_usable ht, ok_bind, check_neg few, error_bind]

theorem planOf_recovery (hb : ∀ r ∈ bitmapRanges s i, Readable s r.range.lo r.range.len)
    (hk : s.ctx.k ≤ presentCount s xs) :
    planOf i s = planRecovery s tab xs (neededShards s i xs) (bitmapRanges s i) := by
  obtain rfl | rfl | ⟨hv, req, rfl⟩ := hi
  · rw [planOf, planRecon, planReconOf, checkConfigured_pos h, ok_bind, loadShards_of_usable ht, ok_bind,
      check_pos hk, ok_bind]
    rfl
  · rw [planOf, planReconData, planReconOf, checkConfigured_pos h, ok_bind, loadShards_of_usable ht, ok_bind,
      check_pos hk, ok_bind]
    rfl
  · have bitmap : Readable s req.toNat ((shardCount s + 7) / 8) := hb _ (List.mem_singleton_self _)
    rw [planOf, planReconSome, checkConfigured_pos h, ok_bind, checkClassical_pos hv, ok_bind,
      loadShards_of_usable ht, ok_bind, check_pos hk, ok_bind]
    dsimp only
    rw [memReadBytes_of_readable bitmap, ok_bind]
    rfl

end

section
variable {s : State} {tab : Addr} {xs : List Slot} {needed : List Nat} {extra : List ReadRange}

theorem planRecovery_of_idle (h : needed = []) :
    planRecovery s tab xs needed extra = .ok (idlePlan s (reads tab.toNat (16 * shardCount s) :: extra)) := if_pos h

theorem exec_eq_idle {i : Instr} {rs : List ReadRange} (hc : CanComplete s) (h : planOf i s = .ok (idlePlan s rs)) :
    exec i s = .next (succeeded (irqFlagOf i) 0 s) := exec_eq_succeeded hc h rfl

variable (hn : needed ≠ [])
include hn

theorem planRecovery_fft (hv : s.ctx.variant ≠ .classical) :
    planRecovery s tab xs needed extra = outputPlan s tab xs needed (fftRecovered s xs needed) extra none := by
  obtain hv | hv := variant_cases hv <;> simp only [planRecovery, if_neg hn, hv]

variable (hv : s.ctx.variant = .classical) (hcache : CacheCorrect s.params s.ctx s.icache)
include hv hcache

theorem planRecovery_classical {d : Matrix} (hd : (∀ j, j < s.ctx.k → presentAt xs j = true)
      ∨ invert s.ctx.k (selectRows s.ctx.matrix (validSet s xs)) = some d) :
    ∃ cache, planRecovery s tab xs needed extra
      = outputPlan s tab xs needed (recoveredShards s xs (validSet s xs) d needed) extra cache := by
  simp only [planRecovery, if_neg hn, hv]
  split
  · rename_i all
    have present : ∀ j, j < s.ctx.k → presentAt xs j = true := by simpa using all
    rw [recoveredShards_of_present present [] (validSet s xs) [] d]
    exact ⟨_, rfl⟩
  · rename_i missing
    obtain ⟨cache, found⟩ := decodingMatrix_of_invertible hcache (hd.resolve_left fun h => missing (by simpa using h))
    rw [found, ok_bind]
    exact ⟨_, rfl⟩

theorem planRecovery_of_singular (ha : ∃ j, j < s.ctx.k ∧ presentAt xs j = false)
    (hd : invert s.ctx.k (selectRows s.ctx.matrix (validSet s xs)) = none) :
    planRecovery s tab xs needed extra = .error { code := .singular, idx := noDetail } := by
  have missing : ¬ (List.range s.ctx.k).all (presentAt xs) = true := by simpa using ha
  simp only [planRecovery, if_neg hn, hv, if_neg missing]
  rw [decodingMatrix_of_singular hcache hd, error_bind]

end

/-- Settles O56: a correct cache answers what the inversion would, and byte by byte the recovered shards are linear
combinations of the row set and of the data shards. -/
theorem reconstructClassical : Obligations.ReconstructClassical := by
  intro i irq n tab s xs hc hi h hv hcache ht hb
  have hi : IsRecovery i irq n tab s := hi.imp_right (Or.imp_right fun hi => ⟨hv, hi⟩)
  rw [← irqFlagOf_of_isRecovery hi]
  refine ⟨fun hk => exec_eq_failed hc (planOf_recovery_of_tooFew hi h ht hk), fun hk => ?_⟩
  have plan := planOf_recovery hi h ht hb hk
  refine ⟨fun hn => ?_, fun hn d hd => ?_, fun hn ha hd => ?_, fun d t j e hj _ => ?_⟩
  · exact exec_eq_idle hc (plan.trans (planRecovery_of_idle hn))
  · obtain ⟨cache, outputs⟩ := planRecovery_classical (tab := tab) (extra := bitmapRanges s i) hn hv hcache hd
    have plan := plan.trans outputs
    refine ⟨fun ha => exec_of_noArena hc plan ha, fun ha ho => exec_of_outputsOverlap hc plan ha ho, fun hf => ?_⟩
    exact ⟨_, exec_of_outputsFit hc plan hf fun _ => length_of_mem_recoveredShards⟩
  · exact exec_eq_failed hc (plan.trans (planRecovery_of_singular hn hv hcache ha hd))
  · exact getD_recoveredShards (length_validSet hk) hj
      (missing_of_mem_neededShards (List.mem_of_getElem? hj)).1 e

end Sys2Proof.Machine
end

section
/-! SUPPORT. RECON and RECON_DATA in an FFT context (spec/45_codec.md R269, spec/46_fft.md R311 to R313): the erased
positions, the locator, and the vectors that are recovered. -/

namespace Sys2Proof.Machine

/-! ### Erasures and the locator (R311) -/

/-- The erased codeword positions in ascending order: missing parity, padding, missing data. -/
theorem erasureSet_eq_filter {k m : Nat} (present : Nat → Bool) :
    erasureSet k m present = (List.range (pow2 m + k)).filter fun x =>
      if x < m then !present (k + x) else if x < pow2 m then true else !present (x - pow2 m) := by
  obtain ⟨padding, hp⟩ := Nat.exists_eq_add_of_le (le_pow2 m)
  have parity : (List.range m).filter (fun x => if x < m then !present (k + x) else if x < pow2 m then true
      else !present (x - pow2 m)) = (List.range m).filter fun x => !present (k + x) :=
    List.filter_congr fun x hx => if_pos (List.mem_range.mp hx)
  have pad : ((List.range padding).map (m + ·)).filter (fun x => if x < m then !present (k + x)
      else if x < pow2 m then true else !present (x - pow2 m)) = (List.range padding).map (m + ·) := by
    refine List.filter_eq_self.mpr fun x hx => ?_
    obtain ⟨y, hy, rfl⟩ := List.mem_map.mp hx
    have := List.mem_range.mp hy
    rw [if_neg (by omega), if_pos (by omega)]
  have data : ((List.range k).map (pow2 m + ·)).filter (fun x => if x < m then !present (k + x)
      else if x < pow2 m then true else !present (x - pow2 m))
      = ((List.range k).filter fun j => !present j).map (pow2 m + ·) := by
    rw [List.filter_map]
    refine congrArg _ (List.filter_congr fun j _ => ?_)
    have := le_pow2 m
    simp only [Function.comp_apply]
    rw [if_neg (by omega), if_neg (by omega), Nat.add_sub_cancel_left]
  have positions : List.range (pow2 m) = List.range m ++ (List.range padding).map (m + ·) := by
    rw [hp, List.range_add]
  rw [List.range_add, List.filter_append, data, positions, List.filter_append, parity, pad, erasureSet, positions,
    List.drop_left' List.length_range]

/-- L(x) is the product of x XOR e over the other erased positions e. -/
theorem locator_eq_foldl (fs : FS) (es : List Nat) (x : Nat) :
    locator fs es x = ((es.filter (· != x)).map (x ^^^ ·)).foldl (mul fs) 1 := by
  rw [List.foldl_map, List.foldl_filter, locator]
  congr 1
  funext acc e
  by_cases he : e = x <;> simp [he]

/-! ### The recovered vectors (R312, R313) -/

theorem shardPosition_lt {k m i : Nat} (hi : i < k + m) : shardPosition k m i < codeLength k m := by
  have := le_pow2 m
  have := le_pow2 (pow2 m + k)
  unfold shardPosition codeLength
  split <;> omega

theorem length_workStart (fs : FS) (k m : Nat) {e : Nat} (present : Nat → Bool) {shard : Nat → Vec}
    (h : ∀ i, (shard i).length = e) (es : List Nat) (x : Nat) :
    (workStart fs k m e present shard es x).length = e := by
  unfold workStart
  dsimp only
  split
  · rw [length_scaleVec, h]
  · split
    · rw [length_scaleVec, h]
    · rw [zeroVec, List.length_replicate]

theorem shaped_fftDecodeWork (fs : FS) (k m : Nat) {e : Nat} (present : Nat → Bool) {shard : Nat → Vec}
    (h : ∀ i, (shard i).length = e) : Shaped (codeLength k m) e (fftDecodeWork fs k m e present shard) := by
  obtain ⟨l, hl⟩ := exists_pow2_eq (pow2 m + k)
  have start : Shaped (2 ^ l) e
      ((List.range (2 ^ l)).map (workStart fs k m e present shard (erasureSet k m present))) :=
    ⟨by simp, by simpa using fun x _ => length_workStart fs k m present h _ x⟩
  rw [fftDecodeWork, codeLength, hl]
  exact shaped_fft fs 0 (shaped_fderiv (shaped_ifft fs 0 start))

theorem length_of_mem_fftDecode {fs : FS} {k m e : Nat} {present : Nat → Bool} {shard : Nat → Vec}
    {needed : List Nat} (h : ∀ i, (shard i).length = e) (hn : ∀ i ∈ needed, i < k + m) {v : Vec}
    (hv : v ∈ fftDecode fs k m e present shard needed) : v.length = e := by
  obtain ⟨i, hi, rfl⟩ := List.mem_map.mp hv
  rw [length_scaleVec]
  exact (shaped_fftDecodeWork fs k m present h).length_getD (shardPosition_lt (hn i hi))

theorem length_of_mem_fftRecovered {s : State} {xs : List Slot} {needed : List Nat} (h64 : shardLength xs % 64 = 0)
    (hn : ∀ i ∈ needed, i < shardCount s) {b : List Byte} (hb : b ∈ fftRecovered s xs needed) :
    b.length = shardLength xs := by
  obtain ⟨v, hv, rfl⟩ := List.mem_map.mp hb
  have vector := length_of_mem_fftDecode
    (fun i => by simp only [length_toElems, length_shardBytes, List.length_replicate]) hn hv
  exact length_ofElems (fun _ => h64) (by rw [vector, length_toElems, List.length_replicate])

/-- Settles O57: the decoder's erasures, locator and sizes are those of R301 and R311, and the rest of it is R312 and
R313 as they stand. -/
theorem reconstructFft : Obligations.ReconstructFft := by
  intro i irq n tab s xs hc hi hl h hv ht
  have recovery : IsRecovery i irq n tab s := hi.imp_right .inl
  have noBitmap : bitmapRanges s i = [] := by obtain rfl | rfl := hi <;> rfl
  rw [← irqFlagOf_of_isRecovery recovery]
  refine ⟨fun hk => exec_eq_failed hc (planOf_recovery_of_tooFew recovery h ht hk), fun hk => ?_,
    fun fs l mp l' size erased loc work hfs hmp hm hlt hsize hle hlt' herased hloc hwork t j x hj hx => ?_⟩
  · have plan := planOf_recovery recovery h ht (by simp [noBitmap]) hk
    rw [noBitmap] at plan
    refine ⟨fun hn => ?_, fun hn ha => ?_, fun hn ha ho => ?_, fun hn hf => ?_⟩
    · exact exec_eq_idle hc (plan.trans (planRecovery_of_idle hn))
    · exact exec_of_noArena hc (plan.trans (planRecovery_fft hn hv)) ha
    · exact exec_of_outputsOverlap hc (plan.trans (planRecovery_fft hn hv)) ha ho
    · exact exec_of_outputsFit hc (plan.trans (planRecovery_fft hn hv)) hf fun _ =>
        length_of_mem_fftRecovered (shardLength_mod_of_fft hl h hv ht) fun _ hj => (missing_of_mem_neededShards hj).2
  · have parity : pow2 s.ctx.m = mp := hmp ▸ pow2_eq (hmp ▸ hm) (hmp ▸ hlt)
    have length : codeLength s.ctx.k s.ctx.m = size := by
      rw [codeLength, parity]
      exact hsize ▸ pow2_eq (hsize ▸ hle) (hsize ▸ hlt')
    have erasures : erasureSet s.ctx.k s.ctx.m (presentAt xs) = erased := by
      rw [erasureSet_eq_filter, parity, herased]
    have locators : ∀ x, locator fs erased x = loc x := fun x => by rw [locator_eq_foldl, hloc]
    have position : shardPosition s.ctx.k s.ctx.m j = x := by rw [shardPosition, parity, hx]
    have vectors : fftDecodeWork fs s.ctx.k s.ctx.m (toElems fs (List.replicate (shardLength xs) 0)).length
        (presentAt xs) (fun i => toElems fs (shardBytes s xs i)) = work := by
      rw [fftDecodeWork, length, erasures, hwork]
      refine congrArg (fun w => fft fs size 0 (fderiv size (ifft fs size 0 w))) (List.map_congr_left fun x _ => ?_)
      simp only [workStart, parity, locators, scaleVec, zeroVec, List.map_const']
    rw [fftRecovered, fftDecode, List.getElem?_map, List.getElem?_map, hj]
    simp only [← hfs, Option.map_some, vectors, erasures, locators, position, scaleVec]

end Sys2Proof.Machine
end

section
/-! SUPPORT. UPDATE and ENCODE_IDX (spec/45_codec.md R271, R272, R276, R277): their checks in order, and what each
carries out. -/

namespace Sys2Proof.Machine

/-! ### UPDATE (R271, R272) -/

theorem parityIndices_pairwise (s : State) : (parityIndices s).Pairwise (· < ·) :=
  List.pairwise_lt_range.map _ fun _ _ h => Nat.add_lt_add_left h _

theorem mem_parityIndices {s : State} {i : Nat} : i ∈ parityIndices s ↔ ∃ p, p < s.ctx.m ∧ i = s.ctx.k + p := by
  simp [parityIndices, eq_comm]

theorem updateSet_pairwise (s : State) (news : List Slot) : (updateSet s news).Pairwise (· < ·) :=
  List.pairwise_lt_range.filter _

/-- What UPDATE carries out whose checks pass and that has a new shard (R272). -/
def updatePlan (s : State) (tab newTab : Addr) (xs news : List Slot) (us : List Nat) : Plan :=
  let size := shardLength xs
  let outs := us ++ parityIndices s
  { reads := descRange s :: reads tab.toNat (16 * shardCount s) :: reads newTab.toNat (16 * s.ctx.k)
      :: us.map fun i => readsInPlace (slotAt news i).addr size (slotAt xs i).addr size
    writes := outs.map fun i => extent (slotAt xs i).addr size
    accesses := (us.map fun i => readAccess (slotAt news i).addr size)
        ++ (outs.map fun i => readAccess (slotAt xs i).addr size)
        ++ outs.map fun i => writeAccess (slotAt xs i).addr size
    stores := ((List.range s.ctx.m).map fun p =>
          shardStore (slotAt xs (s.ctx.k + p)).addr (updatedParity s xs news us p))
        ++ us.map fun i => shardStore (slotAt xs i).addr (s.mem.readBytes (slotAt news i).addr size)
    span := some size, scrNext := none, ctx := none, icache := none, result := 0 }

/-- UPDATE once the new shards have the right length (R271, R272): the checks of the parity and of the old shards. -/
def updateMeasured (s : State) (tab newTab : Addr) (xs news : List Slot) : Except Err Plan := do
  let us := updateSet s news
  checkEach (presentAt xs) .reconstructRequired (BitVec.ofNat 16) (parityIndices s)
  checkEach (presentAt xs) .reconstructRequired (BitVec.ofNat 16) us
  if us = [] then .ok (idlePlan s [reads tab.toNat (16 * shardCount s), reads newTab.toNat (16 * s.ctx.k)])
  else (updatePlan s tab newTab xs news us).guarded

/-- UPDATE once both tables are read (R271). -/
def updateLoaded (s : State) (tab newTab : Addr) (xs news : List Slot) : Except Err Plan := do
  checkEach (fun i => (slotAt news i).len == shardLength xs) .shardSize (BitVec.ofNat 16) (updateSet s news)
  updateMeasured s tab newTab xs news

section
variable {irq : Bool} {cnt n : Word} {tab newTab : Addr} {s : State} {xs : List Slot}
  (h : s.ctx.valid = true) (hv : s.ctx.variant = .classical) (ht : TableUsable s n tab xs)
include h hv ht

theorem planOf_update_of_wrongCount (hc : cnt.toNat ≠ s.ctx.k) :
    planOf (.update irq cnt n tab newTab) s = .error { code := .tooFewShards, idx := noDetail } := by
  rw [planOf, planUpdate, checkConfigured_pos h, ok_bind, checkClassical_pos hv, ok_bind, loadShards_of_usable ht,
    ok_bind, check_neg hc, error_bind]

theorem planOf_update (hc : cnt.toNat = s.ctx.k) (hr : TableReadable s newTab.toNat s.ctx.k) :
    planOf (.update irq cnt n tab newTab) s
      = updateLoaded s tab newTab xs (tableAt s newTab.toNat s.ctx.k) := by
  rw [planOf, planUpdate, checkConfigured_pos h, ok_bind, checkClassical_pos hv, ok_bind, loadShards_of_usable ht,
    ok_bind, check_pos hc, ok_bind, readSlots_of_readable hr, ok_bind]
  rfl

end

section
variable {tab newTab : Addr} {s : State} {xs news : List Slot}

theorem updateLoaded_of_otherLength {i : Nat} (hi : i ∈ updateSet s news) (hl : (slotAt news i).len ≠ shardLength xs)
    (hlt : ∀ j ∈ updateSet s news, j < i → (slotAt news j).len = shardLength xs) :
    updateLoaded s tab newTab xs news = .error { code := .shardSize, idx := BitVec.ofNat 16 i } := by
  have first := checkEach_of_least (c := fun i => (slotAt news i).len == shardLength xs) (updateSet_pairwise s news) hi
    (beq_false_of_ne hl) (fun j hj hji => beq_of_eq (hlt j hj hji)) .shardSize (BitVec.ofNat 16)
  exact congrArg (· >>= _) first

variable (hl : ∀ i ∈ updateSet s news, (slotAt news i).len = shardLength xs)
include hl

theorem updateLoaded_of_lengths : updateLoaded s tab newTab xs news = updateMeasured s tab newTab xs news := by
  have lengths := checkEach_pos (c := fun i => (slotAt news i).len == shardLength xs)
    (fun j hj => beq_of_eq (hl j hj)) .shardSize (BitVec.ofNat 16)
  exact congrArg (· >>= _) lengths

theorem updateLoaded_of_missingParity {i : Nat} (hi : i ∈ parityIndices s) (hp : presentAt xs i = false)
    (hlt : ∀ j ∈ parityIndices s, j < i → presentAt xs j = true) :
    updateLoaded s tab newTab xs news = .error { code := .reconstructRequired, idx := BitVec.ofNat 16 i } := by
  rw [updateLoaded_of_lengths hl, updateMeasured, checkEach_of_least (parityIndices_pairwise s) hi hp hlt, error_bind]

variable (hp : ∀ i ∈ parityIndices s, presentAt xs i = true)
include hp

theorem updateLoaded_of_missingOld {i : Nat} (hi : i ∈ updateSet s news) (ho : presentAt xs i = false)
    (hlt : ∀ j ∈ updateSet s news, j < i → presentAt xs j = true) :
    updateLoaded s tab newTab xs news = .error { code := .reconstructRequired, idx := BitVec.ofNat 16 i } := by
  rw [updateLoaded_of_lengths hl, updateMeasured, checkEach_pos hp, ok_bind,
    checkEach_of_least (updateSet_pairwise s news) hi ho hlt, error_bind]

variable (ho : ∀ i ∈ updateSet s news, presentAt xs i = true)
include ho

theorem updateLoaded_of_noNew (hu : updateSet s news = []) :
    updateLoaded s tab newTab xs news
      = .ok (idlePlan s [reads tab.toNat (16 * shardCount s), reads newTab.toNat (16 * s.ctx.k)]) := by
  rw [updateLoaded_of_lengths hl, updateMeasured, checkEach_pos hp, ok_bind, checkEach_pos ho, ok_bind, if_pos hu]

theorem updateLoaded_of_new (hu : updateSet s news ≠ []) :
    updateLoaded s tab newTab xs news = (updatePlan s tab newTab xs news (updateSet s news)).guarded := by
  rw [updateLoaded_of_lengths hl, updateMeasured, checkEach_pos hp, ok_bind, checkEach_pos ho, ok_bind, if_neg hu]

end

theorem accessesPermitted_updatePlan {s : State} {tab newTab : Addr} {xs news : List Slot} {us : List Nat}
    (hn : ∀ i ∈ us, Readable s (slotAt news i).addr (shardLength xs))
    (ho : ∀ i ∈ us ++ parityIndices s, Readable s (slotAt xs i).addr (shardLength xs)
      ∧ Writable s (slotAt xs i).addr (shardLength xs)) :
    accessesPermitted s (updatePlan s tab newTab xs news us) = true := by
  refine List.all_eq_true.mpr fun a ha => ?_
  obtain ha | ha := List.mem_append.mp ha
  · obtain ha | ha := List.mem_append.mp ha
    · obtain ⟨i, hi, rfl⟩ := List.mem_map.mp ha
      exact hn i hi
    · obtain ⟨i, hi, rfl⟩ := List.mem_map.mp ha
      exact (ho i hi).1
  · obtain ⟨i, hi, rfl⟩ := List.mem_map.mp ha
    exact (ho i hi).2

/-- Settles O58: each check is the first to fail, in index order within a check; then the stores are those of R272. -/
theorem updateShards : Obligations.UpdateShards := by
  intro irq cnt n tab newTab s xs news us hcan h hv ht
  refine ⟨fun hc => exec_eq_failed hcan (planOf_update_of_wrongCount h hv ht hc), fun hc hr hnews hus => ?_⟩
  have plan := planOf_update (irq := irq) h hv ht hc hr
  rw [← hnews] at plan
  obtain rfl : us = updateSet s news := hus
  refine ⟨fun i hi hl hlt => exec_eq_failed hcan (plan.trans (updateLoaded_of_otherLength hi hl hlt)), fun hl =>
    ⟨fun p hp hmissing hlt => ?_, fun hp => ?_⟩⟩
  · refine exec_eq_failed hcan (plan.trans (updateLoaded_of_missingParity hl (mem_parityIndices.mpr ⟨p, hp, rfl⟩)
      hmissing fun j hj hlt' => ?_))
    obtain ⟨q, _, rfl⟩ := mem_parityIndices.mp hj
    exact hlt q (by omega)
  · have parity : ∀ i ∈ parityIndices s, presentAt xs i = true := fun i hi => by
      obtain ⟨p, hpm, rfl⟩ := mem_parityIndices.mp hi
      exact hp p hpm
    refine ⟨fun i hi ho hlt => exec_eq_failed hcan (plan.trans (updateLoaded_of_missingOld hl parity hi ho hlt)),
      fun ho => ⟨fun hu => exec_eq_idle hcan (plan.trans (updateLoaded_of_noNew hl parity ho hu)),
        fun clear hclear hu => ?_⟩⟩
    have plan := plan.trans (updateLoaded_of_new hl parity ho hu)
    refine ⟨fun h0 => ?_, fun h1 hread hout => ?_⟩
    · exact exec_eq_failed hcan (plan.trans (guarded_eq_error.mpr ⟨hclear.symm.trans h0, rfl⟩))
    · rw [← Memory.putAll_append]
      exact exec_eq_succeeded hcan (plan.trans (guarded_eq_ok.mpr ⟨hclear.symm.trans h1, rfl⟩))
        (accessesPermitted_updatePlan hread hout)

/-! ### The parity table of ENCODE_IDX (R276) -/

theorem readSlot_entry {s : State} {t n p : Nat} (h : TableReadable s t n) (hp : p < n) :
    readSlot s (t + 16 * p) = .ok (entryAt s t p) := readSlot_eq_ok.mpr ⟨h p hp, rfl⟩

/-- The entries from `p` on are read, the last one `p + n - 1`, if each has the length. -/
theorem readParityTable_of_agree {s : State} {t size p n : Nat} (h : TableReadable s t (p + n))
    (hl : ∀ i, i < n → (entryAt s t (p + i)).len = size) :
    readParityTable s t size p n = .ok ((List.range n).map fun i => entryAt s t (p + i)) := by
  induction n generalizing p with
  | zero => rfl
  | succ n ih =>
    have next : p + 1 + n = p + (n + 1) := by omega
    have rest := ih (p := p + 1) (next ▸ h) fun i hi => by
      simpa only [Nat.add_assoc, Nat.add_comm 1] using hl (i + 1) (by omega)
    have first : (entryAt s t p).len = size := hl 0 (by omega)
    rw [readParityTable, readSlot_entry h (by omega), ok_bind, check_pos first, ok_bind, rest, ok_bind, map_range_succ]
    simp only [Nat.add_assoc, Nat.add_comm 1]
    rfl

/-- The first entry of another length is reported. -/
theorem readParityTable_of_otherLength {s : State} {t size p n j : Nat} (h : TableReadable s t (p + j + 1)) (hj : j < n)
    (hl : (entryAt s t (p + j)).len ≠ size) (hlt : ∀ i, i < j → (entryAt s t (p + i)).len = size) :
    readParityTable s t size p n = .error { code := .shardSize, idx := BitVec.ofNat 16 (p + j) } := by
  induction n generalizing p j with
  | zero => omega
  | succ n ih =>
    rw [readParityTable, readSlot_entry h (by omega), ok_bind]
    cases j with
    | zero => exact congrArg (· >>= _) (check_neg (c := (entryAt s t p).len = size) hl ..)
    | succ j =>
      have first : (entryAt s t p).len = size := hlt 0 (by omega)
      have next : ∀ i, p + 1 + i = p + (i + 1) := fun i => by omega
      rw [check_pos first, ok_bind, ih (j := j) (next j ▸ h) (by omega) (next j ▸ hl) fun i hi =>
        next i ▸ hlt (i + 1) (by omega), error_bind, next]

/-! ### ENCODE_IDX (R276, R277) -/

/-- What ENCODE_IDX carries out whose checks pass (R277); `ps` is the parity table. -/
def encodeIdxPlan (s : State) (idx len : Word) (src par : Addr) (ps : List Slot) : Plan :=
  let size := len.toNat
  { reads := [descRange s, reads src.toNat size, reads par.toNat (16 * s.ctx.m)]
    writes := ps.map fun x => extent x.addr size
    accesses := readAccess src.toNat size
        :: (ps.map fun x => readAccess x.addr size) ++ ps.map fun x => writeAccess x.addr size
    stores := List.zipWith (fun x p => shardStore (Slot.addr x) (foldedParity s idx.toNat size src x p))
        ps (List.range s.ctx.m)
    span := some size, scrNext := none, ctx := none, icache := none, result := 0 }

section
variable {irq : Bool} {idx cnt len : Word} {src par : Addr} {s : State}
  (h : s.ctx.valid = true) (hv : s.ctx.variant = .classical)
include h hv

theorem planOf_encodeIdx_of_badIndex (hi : ¬ idx.toNat < s.ctx.k) :
    planOf (.encodeIdx irq idx cnt len src par) s = .error { code := .invShardNum, idx := noDetail } := by
  rw [planOf, planEncodeIdx, checkConfigured_pos h, ok_bind, checkClassical_pos hv, ok_bind, check_neg hi, error_bind]

variable (hi : idx.toNat < s.ctx.k)
include hi

theorem planOf_encodeIdx_of_wrongCount (hc : cnt.toNat ≠ s.ctx.m) :
    planOf (.encodeIdx irq idx cnt len src par) s = .error { code := .tooFewShards, idx := noDetail } := by
  rw [planOf, planEncodeIdx, checkConfigured_pos h, ok_bind, checkClassical_pos hv, ok_bind, check_pos hi, ok_bind,
    check_neg hc, error_bind]

variable (hc : cnt.toNat = s.ctx.m)
include hc

theorem planOf_encodeIdx_of_noData (hl : ¬ 0 < len.toNat) :
    planOf (.encodeIdx irq idx cnt len src par) s = .error { code := .shardNoData, idx := noDetail } := by
  rw [planOf, planEncodeIdx, checkConfigured_pos h, ok_bind, checkClassical_pos hv, ok_bind, check_pos hi, ok_bind,
    check_pos hc, ok_bind, check_neg hl, error_bind]

variable (hl : 0 < len.toNat)
include hl

theorem planOf_encodeIdx_of_table_error {e : Err} (ht : readParityTable s par.toNat len.toNat 0 s.ctx.m = .error e) :
    planOf (.encodeIdx irq idx cnt len src par) s = .error e := by
  rw [planOf, planEncodeIdx, checkConfigured_pos h, ok_bind, checkClassical_pos hv, ok_bind, check_pos hi, ok_bind,
    check_pos hc, ok_bind, check_pos hl, ok_bind]
  dsimp only
  rw [ht, error_bind]

theorem planOf_encodeIdx {ps : List Slot} (ht : readParityTable s par.toNat len.toNat 0 s.ctx.m = .ok ps) :
    planOf (.encodeIdx irq idx cnt len src par) s = (encodeIdxPlan s idx len src par ps).guarded := by
  rw [planOf, planEncodeIdx, checkConfigured_pos h, ok_bind, checkClassical_pos hv, ok_bind, check_pos hi, ok_bind,
    check_pos hc, ok_bind, check_pos hl, ok_bind]
  dsimp only
  rw [ht, ok_bind]
  rfl

end

theorem accessesPermitted_encodeIdxPlan {s : State} {idx len : Word} {src par : Addr} {ps : List Slot}
    (hs : Readable s src.toNat len.toNat)
    (hp : ∀ x ∈ ps, Readable s x.addr len.toNat ∧ Writable s x.addr len.toNat) :
    accessesPermitted s (encodeIdxPlan s idx len src par ps) = true := by
  simp only [accessesPermitted, encodeIdxPlan, List.all_append, List.all_cons, List.all_map, Bool.and_eq_true]
  exact ⟨⟨hs, List.all_eq_true.mpr fun x hx => (hp x hx).1⟩, List.all_eq_true.mpr fun x hx => (hp x hx).2⟩

/-- A parity table with entries of one length is read whole. -/
theorem readParityTable_of_tableAt {s : State} {t size n : Nat} (h : TableReadable s t n)
    (hl : ∀ x ∈ tableAt s t n, x.len = size) : readParityTable s t size 0 n = .ok (tableAt s t n) := by
  have table : tableAt s t n = (List.range n).map fun i => entryAt s t (0 + i) := by simp only [Nat.zero_add]; rfl
  rw [table]
  refine readParityTable_of_agree (by rwa [Nat.zero_add]) fun i hi => hl _ ?_
  rw [table]
  exact List.mem_map_of_mem (List.mem_range.mpr hi)

/-- Settles O59: each check is the first to fail, the parity table is checked entry by entry as it is read, and the
stores are those of R277. -/
theorem encodeOneShard : Obligations.EncodeOneShard := by
  intro irq idx cnt len src par s ps hcan h hv
  refine ⟨fun hi => ?_, fun hi hc => ?_, fun hi hc hl => ?_, fun hi hc hl p hp hr hne hlt => ?_,
    fun hi hc hl hr hps hlen hclear => ?_, fun hi hc hl hr hps hlen hclear hs ho => ?_⟩
  · exact exec_eq_failed hcan (planOf_encodeIdx_of_badIndex h hv (by omega))
  · exact exec_eq_failed hcan (planOf_encodeIdx_of_wrongCount h hv hi hc)
  · exact exec_eq_failed hcan (planOf_encodeIdx_of_noData h hv hi hc (by simp [hl]))
  · have table := readParityTable_of_otherLength (p := 0) (j := p) (by rwa [Nat.zero_add]) hp (by rwa [Nat.zero_add])
      fun q hq => by rw [Nat.zero_add]; exact hlt q hq
    rw [Nat.zero_add] at table
    exact exec_eq_failed hcan (planOf_encodeIdx_of_table_error h hv hi hc hl table)
  all_goals
    subst hps
    have plan := planOf_encodeIdx (irq := irq) (src := src) h hv hi hc hl (readParityTable_of_tableAt hr hlen)
  · exact exec_eq_failed hcan (plan.trans (guarded_eq_error.mpr ⟨hclear, rfl⟩))
  · exact exec_eq_succeeded hcan (plan.trans (guarded_eq_ok.mpr ⟨hclear, rfl⟩)) (accessesPermitted_encodeIdxPlan hs ho)

end Sys2Proof.Machine
end

section
/-! SUPPORT. The butterflies and the transforms undo one another (spec/46_fft.md R305, R307), and the formal derivative
step by step (R308). -/

namespace Sys2Proof.Machine

/-! ### Butterflies (R304, R305) -/

/-- Adding a vector twice changes nothing. -/
theorem addVec_addVec_cancel {x y : Vec} (h : x.length = y.length) : addVec (addVec x y) y = x :=
  List.ext_getElem (by simp [addVec, h]) fun i _ _ => by simp [addVec]

/-- `g` undoes `f` on vectors of `e` elements, whatever the skew factor. -/
def ButterflyUndoes (e : Nat) (g f : Nat → Vec → Vec → Vec × Vec) : Prop :=
  ∀ sk x y, x.length = e → y.length = e → g sk (f sk x y).1 (f sk x y).2 = (x, y)

theorem bflyIfft_undoes_bflyFft (fs : FS) (e : Nat) : ButterflyUndoes e (bflyIfft fs) (bflyFft fs) := by
  intro sk x y hx hy
  have hs := (length_scaleVec fs sk y).trans hy
  have sum := length_addVec hx hs
  simp only [bflyIfft, bflyFft, addVec_addVec_cancel (hy.trans sum.symm), addVec_addVec_cancel (hx.trans hs.symm)]

theorem bflyFft_undoes_bflyIfft (fs : FS) (e : Nat) : ButterflyUndoes e (bflyFft fs) (bflyIfft fs) := by
  intro sk x y hx hy
  have hs := (length_scaleVec fs sk _).trans (length_addVec hy hx)
  simp only [bflyFft, bflyIfft, addVec_addVec_cancel (hx.trans hs.symm), addVec_addVec_cancel (hy.trans hx.symm)]

/-! ### Levels and transforms (R306, R307) -/

/-- Undoing the butterflies of a block gives back its two halves. -/
theorem zipWith_butterfly_undoes {e n : Nat} {g f : Nat → Vec → Vec → Vec × Vec} (hu : ButterflyUndoes e g f) (sk : Nat)
    {xs ys : List Vec} (hx : Shaped n e xs) (hy : Shaped n e ys) :
    List.zipWith (g sk) ((List.zipWith (f sk) xs ys).map Prod.fst) ((List.zipWith (f sk) xs ys).map Prod.snd)
      = List.zip xs ys := by
  refine List.ext_getElem (by simp) fun i h1 h2 => ?_
  rw [List.length_zip, Nat.lt_min] at h2
  simpa using hu sk _ _ (hx.2 _ (List.getElem_mem h2.1)) (hy.2 _ (List.getElem_mem h2.2))

/-- The halves of the first block, and the other blocks. -/
theorem Shaped.exists_block {d m e : Nat} {w : List Vec} (h : Shaped (m + 2 * d) e w) :
    ∃ xs ys zs, w = xs ++ ys ++ zs ∧ Shaped d e xs ∧ Shaped d e ys ∧ Shaped m e zs := by
  refine ⟨w.take d, (w.drop d).take d, w.drop (2 * d), ?_, h.take (by omega), (h.drop d).take (by omega), ?_⟩
  · rw [← List.take_add, ← two_mul, List.take_append_drop]
  · simpa using h.drop (2 * d)

theorem transformLevel_append (bfly : Nat → Vec → Vec → Vec × Vec) {d : Nat} (nb p : Nat) {xs ys : List Vec}
    (zs : List Vec) (hx : xs.length = d) (hy : ys.length = d) :
    transformLevel bfly d (nb + 1) p (xs ++ ys ++ zs)
      = (List.zipWith (bfly (skew p d)) xs ys).map Prod.fst ++ (List.zipWith (bfly (skew p d)) xs ys).map Prod.snd
        ++ transformLevel bfly d nb (p + 2 * d) zs := by
  have both : (xs ++ ys).length = 2 * d := by rw [List.length_append, hx, hy, two_mul]
  rw [transformLevel, List.drop_left' both, List.append_assoc xs, List.take_left' hx, List.drop_left' hx,
    List.take_left' hy]

theorem transformLevel_undoes {e : Nat} {g f : Nat → Vec → Vec → Vec × Vec} (hu : ButterflyUndoes e g f) (d nb p : Nat)
    {w : List Vec} (h : Shaped (2 * d * nb) e w) :
    transformLevel g d nb p (transformLevel f d nb p w) = w := by
  induction nb generalizing p w with
  | zero => exact (List.eq_nil_of_length_eq_zero h.1).symm
  | succ nb ih =>
    obtain ⟨xs, ys, zs, rfl, hx, hy, hz⟩ := Shaped.exists_block h
    rw [transformLevel_append f _ _ _ hx.1 hy.1, transformLevel_append g _ _ _ (by simp [hx.1, hy.1])
      (by simp [hx.1, hy.1]), zipWith_butterfly_undoes hu _ hx hy, List.map_fst_zip (by rw [hx.1, hy.1]),
      List.map_snd_zip (by rw [hx.1, hy.1]), ih _ hz]

/-- Steps that are undone one by one, the last one first, are undone together; `P` holds between them. -/
theorem foldl_undoes {α β : Type} {P : β → Prop} {f g : β → α → β} {ds es : List α} {w : β} (he : es = ds.reverse)
    (hw : P w) (keep : ∀ d ∈ ds, ∀ v, P v → P (f v d)) (undo : ∀ d ∈ ds, ∀ v, P v → g (f v d) d = v) :
    es.foldl g (ds.foldl f w) = w := by
  subst he
  induction ds generalizing w with
  | nil => rfl
  | cons d ds ih =>
    have later := ih (keep d (by simp) w hw) (fun x hx => keep x (by simp [hx])) fun x hx => undo x (by simp [hx])
    rw [List.foldl_cons, List.reverse_cons, List.foldl_append, later]
    exact undo d (by simp) w hw

theorem level_undoes_of_mem_halfSizes {e l d : Nat} {g f : Nat → Vec → Vec → Vec × Vec} (hu : ButterflyUndoes e g f)
    (hd : d ∈ halfSizes (2 ^ l)) (b : Nat) {w : List Vec} (h : Shaped (2 ^ l) e w) :
    transformLevel g d (2 ^ l / (2 * d)) b (transformLevel f d (2 ^ l / (2 * d)) b w) = w :=
  transformLevel_undoes hu d _ b (by rwa [blocks_of_mem_halfSizes hd])

theorem fft_ifft (fs : FS) {l e : Nat} (b : Nat) {w : List Vec} (h : Shaped (2 ^ l) e w) :
    fft fs (2 ^ l) b (ifft fs (2 ^ l) b w) = w :=
  foldl_undoes (P := Shaped (2 ^ l) e) rfl h
    (fun _ hd _ hv => shaped_level_of_mem_halfSizes (bflyIfft_keeps fs e) hd b hv)
    fun _ hd _ hv => level_undoes_of_mem_halfSizes (bflyFft_undoes_bflyIfft fs e) hd b hv

theorem ifft_fft (fs : FS) {l e : Nat} (b : Nat) {w : List Vec} (h : Shaped (2 ^ l) e w) :
    ifft fs (2 ^ l) b (fft fs (2 ^ l) b w) = w :=
  foldl_undoes (P := Shaped (2 ^ l) e) (List.reverse_reverse _).symm h
    (fun _ hd _ hv => shaped_level_of_mem_halfSizes (bflyFft_keeps fs e) (List.mem_reverse.mp hd) b hv)
    fun _ hd _ hv => level_undoes_of_mem_halfSizes (bflyIfft_undoes_bflyFft fs e) (List.mem_reverse.mp hd) b hv

/-- Settles O46: the butterflies undo one another, hence each level of one transform undoes that level of the other, and
the two transforms run through the levels in opposite orders. -/
theorem transformsInvert : Obligations.TransformsInvert :=
  ⟨fun fs sk x y h => ⟨bflyIfft_undoes_bflyFft fs _ sk x y h rfl, bflyFft_undoes_bflyIfft fs _ sk x y h rfl⟩,
    fun fs _ b _ _ hw he => ⟨fft_ifft fs b ⟨hw, he⟩, ifft_fft fs b ⟨hw, he⟩⟩⟩

/-! ### The formal derivative (R308) -/

/-- Step 0 would change nothing, so the derivative may start with it. -/
theorem fderiv_eq_foldl (n : Nat) (w : List Vec) : fderiv n w = (List.range n).foldl fderivStep w := by
  cases n with
  | zero => rfl
  | succ n =>
    have step : fderivStep w 0 = w := rfl
    rw [fderiv, List.range_succ_eq_map, List.foldl_cons, step, List.drop_one, List.tail_cons]

theorem fderiv_succ (n : Nat) (w : List Vec) : fderiv (n + 1) w = fderivStep (fderiv n w) n := by
  rw [fderiv_eq_foldl, fderiv_eq_foldl, List.range_succ, List.foldl_append, List.foldl_cons, List.foldl_nil]

theorem shaped_fderiv_of_le {l e n : Nat} {w : List Vec} (h : Shaped (2 ^ l) e w) (hn : n ≤ 2 ^ l) :
    Shaped (2 ^ l) e (fderiv n w) := by
  rw [fderiv_eq_foldl]
  exact List.foldlRecOn _ _ h fun _ h _ hi =>
    shaped_fderivStep h (add_lowBit_le ((List.mem_range.mp hi).trans_le hn))

/-- Shard `j` gains a source at step `i` (R308). -/
abbrev Gains (j i : Nat) : Prop := i ≠ 0 ∧ i - lowBit i ≤ j ∧ j < i

/-- The sums of vectors, position by position; a missing vector counts as the empty one. -/
theorem getD_zipWith_addVec (xs ys : List Vec) (k : Nat) :
    (List.zipWith addVec xs ys)[k]?.getD [] = addVec (xs[k]?.getD []) (ys[k]?.getD []) := by
  rw [List.getElem?_zipWith]
  cases xs[k]? with
  | none => rfl
  | some x =>
    cases ys[k]? with
    | none => exact List.zipWith_nil_right.symm
    | some y => rfl

/-- What one step leaves in shard `j`. -/
theorem getD_fderivStep {i j : Nat} {w : List Vec} (hi : i + lowBit i ≤ w.length) :
    (fderivStep w i).getD j []
      = if Gains j i then addVec (w.getD j []) (w.getD (j + lowBit i) []) else w.getD j [] := by
  have hle := lowBit_le i
  have before : (w.take (i - lowBit i)).length = i - lowBit i := by rw [List.length_take]; omega
  have targets : (List.zipWith addVec ((w.drop (i - lowBit i)).take (lowBit i)) ((w.drop i).take (lowBit i))).length
      = lowBit i := by simp only [List.length_zipWith, List.length_take, List.length_drop]; omega
  rw [fderivStep]
  simp only [List.getD_eq_getElem?_getD]
  obtain hlt | hge := Nat.lt_or_ge j i
  · rw [List.getElem?_append_left (by rw [List.length_append, before, targets]; omega)]
    obtain hlt' | hge' := Nat.lt_or_ge j (i - lowBit i)
    · rw [if_neg (by omega), List.getElem?_append_left (by omega), List.getElem?_take_of_lt hlt']
    · rw [if_pos (by omega), List.getElem?_append_right (by omega), before, getD_zipWith_addVec,
        List.getElem?_take_of_lt (by omega), List.getElem?_take_of_lt (by omega), List.getElem?_drop,
        List.getElem?_drop,
        show i - lowBit i + (j - (i - lowBit i)) = j by omega, show i + (j - (i - lowBit i)) = j + lowBit i by omega]
  · rw [if_neg (by omega), List.getElem?_append_right (by rw [List.length_append, before, targets]; omega),
      List.length_append, before, targets, List.getElem?_drop]
    congr 2
    omega

/-- After `n` steps, shard `j` has gained the originals of the sources of these steps: a source of step `i` stands at
`i` or after it, where no earlier step writes. -/
theorem getD_fderiv {l e n : Nat} {w : List Vec} (h : Shaped (2 ^ l) e w) (hn : n ≤ 2 ^ l) (j : Nat) :
    (fderiv n w).getD j [] = ((List.range n).filter fun i => decide (Gains j i)).foldl
      (fun acc i => addVec acc (w.getD (j + lowBit i) [])) (w.getD j []) := by
  induction n generalizing j with
  | zero => rfl
  | succ n ih =>
    have ih := ih (by omega)
    have inside : n + lowBit n ≤ (fderiv n w).length :=
      (shaped_fderiv_of_le h (Nat.le_of_succ_le hn)).1.symm ▸ add_lowBit_le hn
    rw [fderiv_succ, getD_fderivStep inside, List.range_succ, List.filter_append, List.foldl_append, ← ih]
    by_cases hg : Gains j n
    · have unwritten : (List.range n).filter (fun i => decide (Gains (j + lowBit n) i)) = [] :=
        List.filter_eq_nil_iff.mpr fun i hi => by
          have := List.mem_range.mp hi
          rw [decide_eq_true_eq]
          omega
      rw [if_pos hg, ih (j + lowBit n), unwritten, List.filter_cons_of_pos (by rwa [decide_eq_true_eq])]
      rfl
    · rw [if_neg hg, List.filter_cons_of_neg (by rwa [decide_eq_true_eq])]
      rfl

/-- Settles O47: the steps below 2^l are all the steps of the derivative. -/
theorem formalDerivativeOfOriginals : Obligations.FormalDerivativeOfOriginals := by
  intro l e w hw he j hj
  have shaped : Shaped (2 ^ l) e w := ⟨hw, he⟩
  rw [(shaped_fderiv shaped).getElem?_eq_getD hj, getD_fderiv shaped le_rfl]

end Sys2Proof.Machine
end

section
/-! SUPPORT. The transform commands (spec/46_fft.md R320 to R324): their checks in order, and what each carries out. -/

namespace Sys2Proof.Machine

/-! ### BFLY_FFT and BFLY_IFFT (R320, R321) -/

/-- What a transform command carries out on its buffers (R320 to R324). -/
def buffersPlan (s : State) (tables : List ReadRange) (bufs : List Nat) (n : Nat) (stores : List Store) : Plan :=
  { reads := descRange s :: tables
    writes := bufs.map fun a => extent a n
    accesses := (bufs.map fun a => readAccess a n) ++ bufs.map fun a => writeAccess a n
    stores := stores
    span := some n, scrNext := none, ctx := none, icache := none, result := 0 }

theorem transformPlan_eq_guarded (s : State) (tables : List ReadRange) (bufs : List Nat) (n : Nat)
    (out : List (List Byte)) : transformPlan s tables bufs n out
      = (buffersPlan s tables bufs n (List.zipWith shardStore bufs out)).guarded := rfl

theorem accessesPermitted_buffersPlan {s : State} {tables : List ReadRange} {bufs : List Nat} {n : Nat}
    {stores : List Store} (h : ∀ a ∈ bufs, Readable s a n ∧ Writable s a n) :
    accessesPermitted s (buffersPlan s tables bufs n stores) = true := by
  simp only [accessesPermitted, buffersPlan, List.all_append, List.all_map, Bool.and_eq_true, List.all_eq_true]
  exact ⟨fun a ha => (h a ha).1, fun a ha => (h a ha).2⟩

/-- What a butterfly command carries out. -/
def butterflyPlan (bfly : FS → Nat → Vec → Vec → Vec × Vec) (fs : FS) (sk len : Word) (x y : Addr) (s : State) : Plan :=
  let n := len.toNat
  let o := bfly fs sk.toNat (toElems fs (s.mem.readBytes x.toNat n)) (toElems fs (s.mem.readBytes y.toNat n))
  buffersPlan s [] [x.toNat, y.toNat] n [shardStore x.toNat (ofElems fs o.1), shardStore y.toNat (ofElems fs o.2)]

/-- Validation of a butterfly command with its butterfly. -/
def planButterfly (bfly : FS → Nat → Vec → Vec → Vec × Vec) (fs : FS) (sk len : Word) (x y : Addr) (s : State) :
    Except Err Plan := do
  checkElement fs sk detailA
  checkBlocks fs len
  (butterflyPlan bfly fs sk len x y s).guarded

/-- Two buffers of `n` bytes share no byte with each other, and neither shares one with the descriptor. -/
abbrev BuffersApart (s : State) (x y n : Nat) : Prop :=
  Apart (extent x n) (extent y n) ∧ Apart (extent x n) (descriptor s) ∧ Apart (extent y n) (descriptor s)

/-- The overlap check of two buffers (20_memory.md R79). -/
theorem footprintClear_twoBuffers {s : State} {x y n : Nat} :
    footprintClear [descRange s] [extent x n, extent y n] = true ↔ BuffersApart s x y n := by
  simp [footprintClear, pairwiseClear, pairClear, descRange]

section
variable {bfly : FS → Nat → Vec → Vec → Vec × Vec} {fs : FS} {sk len : Word} {x y : Addr} {s : State}

theorem planButterfly_of_badSkew (hs : ¬ sk.toNat < 2 ^ width fs) :
    planButterfly bfly fs sk len x y s = .error { code := .badArgument, idx := detailA } := by
  rw [planButterfly, checkElement_neg hs, error_bind]

theorem planButterfly_of_badLength (hs : sk.toNat < 2 ^ width fs) (hl : ¬ (fs = .gf16c → len.toNat % 64 = 0)) :
    planButterfly bfly fs sk len x y s = .error { code := .shardSize, idx := noDetail } := by
  rw [planButterfly, checkElement_pos hs, ok_bind, checkBlocks, check_neg hl, error_bind]

theorem planButterfly_eq_guarded (hs : sk.toNat < 2 ^ width fs) (hl : fs = .gf16c → len.toNat % 64 = 0) :
    planButterfly bfly fs sk len x y s = (butterflyPlan bfly fs sk len x y s).guarded := by
  rw [planButterfly, checkElement_pos hs, ok_bind, checkBlocks, check_pos hl, ok_bind]

theorem planButterfly_of_overlap (hs : sk.toNat < 2 ^ width fs) (hl : fs = .gf16c → len.toNat % 64 = 0)
    (ho : ¬ BuffersApart s x.toNat y.toNat len.toNat) :
    planButterfly bfly fs sk len x y s = .error { code := .overlap, idx := noDetail } := by
  rw [planButterfly_eq_guarded hs hl, guarded_eq_error, ← Bool.not_eq_true]
  exact ⟨fun hc => ho (footprintClear_twoBuffers.mp hc), rfl⟩

theorem planButterfly_of_apart (hs : sk.toNat < 2 ^ width fs) (hl : fs = .gf16c → len.toNat % 64 = 0)
    (ha : BuffersApart s x.toNat y.toNat len.toNat) :
    planButterfly bfly fs sk len x y s = .ok (butterflyPlan bfly fs sk len x y s) := by
  rw [planButterfly_eq_guarded hs hl, guarded_eq_ok]
  exact ⟨footprintClear_twoBuffers.mpr ha, rfl⟩

end

/-- Settles O48: both commands are validated as `planButterfly` with their butterfly. -/
theorem butterflyCommands : Obligations.ButterflyCommands := by
  intro irq fs sk len x y s _ hcan
  have hfft : planOf (.bflyFft irq fs sk len x y) s = planButterfly bflyFft fs sk len x y s := rfl
  have hifft : planOf (.bflyIfft irq fs sk len x y) s = planButterfly bflyIfft fs sk len x y s := rfl
  refine ⟨fun hs hl hrx hry hwx hwy hxy hx hy => ?_, fun hs => ?_, fun hs hfs hl => ?_, fun hs hl ho => ?_⟩
  · have apart : BuffersApart s x.toNat y.toNat len.toNat := ⟨hxy, hx, hy⟩
    have admitted (stores : List Store) :
        accessesPermitted s (buffersPlan s [] [x.toNat, y.toNat] len.toNat stores) = true :=
      accessesPermitted_buffersPlan (List.forall_mem_cons.mpr ⟨⟨hrx, hwx⟩, List.forall_mem_singleton.mpr ⟨hry, hwy⟩⟩)
    exact ⟨exec_eq_succeeded hcan (hfft.trans (planButterfly_of_apart hs hl apart)) (admitted _),
      exec_eq_succeeded hcan (hifft.trans (planButterfly_of_apart hs hl apart)) (admitted _)⟩
  · exact ⟨exec_eq_failed hcan (hfft.trans (planButterfly_of_badSkew hs)),
      exec_eq_failed hcan (hifft.trans (planButterfly_of_badSkew hs))⟩
  · have hl : ¬ (fs = .gf16c → len.toNat % 64 = 0) := fun h => hl (h hfs)
    exact ⟨exec_eq_failed hcan (hfft.trans (planButterfly_of_badLength hs hl)),
      exec_eq_failed hcan (hifft.trans (planButterfly_of_badLength hs hl))⟩
  · exact ⟨exec_eq_failed hcan (hfft.trans (planButterfly_of_overlap hs hl ho)),
      exec_eq_failed hcan (hifft.trans (planButterfly_of_overlap hs hl ho))⟩

/-! ### XFORM_FFT, XFORM_IFFT and FDERIV (R322 to R324) -/

theorem checkSize_pos {fs : FS} {n : Word} (hp : ∃ l, n.toNat = 2 ^ l) (hw : n.toNat ≤ 2 ^ width fs) :
    checkSize fs n = .ok () := by
  obtain ⟨l, hl⟩ := hp
  exact check_pos ⟨by rw [hl, Nat.log2_two_pow], hw⟩ ..

theorem checkSize_neg {fs : FS} {n : Word} (h : ¬ ((∃ l, n.toNat = 2 ^ l) ∧ n.toNat ≤ 2 ^ width fs)) :
    checkSize fs n = .error { code := .badArgument, idx := detailA } :=
  check_neg (fun ⟨hp, hw⟩ => h ⟨⟨_, hp.symm⟩, hw⟩) ..

/-- What the transform commands do after the checks of their numbers: `f` transforms the buffers of a pointer table. -/
def planOnTable (f : List Vec → List Vec) (fs : FS) (n len : Word) (tab : Addr) (s : State) : Except Err Plan := do
  checkBlocks fs len
  let bufs ← readPointers s tab.toNat n.toNat
  transformPlan s [reads tab.toNat (8 * n.toNat)] bufs len.toNat ((f (loadVecs fs s len.toNat bufs)).map (ofElems fs))

/-- What a transform command carries out whose table can be read. -/
def tablePlan (f : List Vec → List Vec) (fs : FS) (n len : Word) (tab : Addr) (s : State) : Plan :=
  let bufs := pointersAt s tab.toNat n.toNat
  buffersPlan s [reads tab.toNat (8 * n.toNat)] bufs len.toNat
    (List.zipWith (fun a v => shardStore a (ofElems fs v)) bufs (f (loadVecs fs s len.toNat bufs)))

section
variable {irq : Bool} {fs : FS} {n base len : Word} {tab : Addr} {s : State} {f : List Vec → List Vec}

theorem planOnTable_of_badLength (hl : ¬ (fs = .gf16c → len.toNat % 64 = 0)) :
    planOnTable f fs n len tab s = .error { code := .shardSize, idx := noDetail } := by
  rw [planOnTable, checkBlocks, check_neg hl, error_bind]

theorem planOnTable_eq_guarded (hl : fs = .gf16c → len.toNat % 64 = 0) (hr : PointersReadable s tab.toNat n.toNat) :
    planOnTable f fs n len tab s = (tablePlan f fs n len tab s).guarded := by
  rw [planOnTable, checkBlocks, check_pos hl, ok_bind, readPointers_of_readable hr, ok_bind, transformPlan_eq_guarded,
    List.zipWith_map_right, tablePlan]

theorem planFderiv_of_size (hp : ∃ l, n.toNat = 2 ^ l) (hw : n.toNat ≤ 2 ^ width fs) :
    planFderiv fs n len tab s = planOnTable (fderiv n.toNat) fs n len tab s := by
  rw [planFderiv, checkSize_pos hp hw, ok_bind, planOnTable]

theorem planFderiv_of_badSize (h : ¬ ((∃ l, n.toNat = 2 ^ l) ∧ n.toNat ≤ 2 ^ width fs)) :
    planFderiv fs n len tab s = .error { code := .badArgument, idx := detailA } := by
  rw [planFderiv, checkSize_neg h, error_bind]

variable {transform : FS → Nat → Nat → List Vec → List Vec}

theorem planXform_of_badSize (h : ¬ ((∃ l, n.toNat = 2 ^ l) ∧ n.toNat ≤ 2 ^ width fs)) :
    planXform transform fs n base len tab s = .error { code := .badArgument, idx := detailA } := by
  rw [planXform, checkSize_neg h, error_bind]

variable (hp : ∃ l, n.toNat = 2 ^ l) (hw : n.toNat ≤ 2 ^ width fs)
include hp hw

theorem planXform_of_badBase (hb : ¬ (base.toNat % n.toNat = 0 ∧ base.toNat + n.toNat ≤ 2 ^ width fs)) :
    planXform transform fs n base len tab s = .error { code := .badArgument, idx := detailB } := by
  rw [planXform, checkSize_pos hp hw, ok_bind, check_neg hb, error_bind]

theorem planXform_of_base (hb : base.toNat % n.toNat = 0 ∧ base.toNat + n.toNat ≤ 2 ^ width fs) :
    planXform transform fs n base len tab s = planOnTable (transform fs n.toNat base.toNat) fs n len tab s := by
  rw [planXform, checkSize_pos hp hw, ok_bind, check_pos hb, ok_bind, planOnTable]

end

/-! A command that comes to `planOnTable`. -/

section
variable {i : Instr} {fs : FS} {n len : Word} {tab : Addr} {s : State} {f : List Vec → List Vec}
  (hcan : CanComplete s) (h : planOf i s = planOnTable f fs n len tab s)
include hcan h

theorem exec_onTable_of_badLength (hfs : fs = .gf16c) (hl : len.toNat % 64 ≠ 0) :
    exec i s = .next (failed (opcodeOf i) (irqFlagOf i) { code := .shardSize, idx := noDetail } s) :=
  exec_eq_failed hcan (h.trans (planOnTable_of_badLength fun hb => hl (hb hfs)))

variable (hl : fs = .gf16c → len.toNat % 64 = 0) (hr : PointersReadable s tab.toNat n.toNat)
include hl hr

theorem exec_onTable_of_overlap (hc : footprintClear [descRange s, reads tab.toNat (8 * n.toNat)]
      ((pointersAt s tab.toNat n.toNat).map fun a => extent a len.toNat) = false) :
    exec i s = .next (failed (opcodeOf i) (irqFlagOf i) { code := .overlap, idx := noDetail } s) :=
  exec_eq_failed hcan ((h.trans (planOnTable_eq_guarded hl hr)).trans (guarded_eq_error.mpr ⟨hc, rfl⟩))

theorem exec_onTable_of_clear (hc : footprintClear [descRange s, reads tab.toNat (8 * n.toNat)]
      ((pointersAt s tab.toNat n.toNat).map fun a => extent a len.toNat) = true)
    (hb : ∀ a ∈ pointersAt s tab.toNat n.toNat, Readable s a len.toNat ∧ Writable s a len.toNat) :
    exec i s = .next (succeeded (irqFlagOf i) 0 (commit (tablePlan f fs n len tab s) s)) :=
  exec_eq_succeeded hcan ((h.trans (planOnTable_eq_guarded hl hr)).trans (guarded_eq_ok.mpr ⟨hc, rfl⟩))
    (accessesPermitted_buffersPlan hb)

end

/-- Settles O49: after the checks of n and the base, the three commands are `planOnTable` with their transform. -/
theorem transformCommands : Obligations.TransformCommands := by
  intro irq fs n base len tab s bufs vs clear _ hcan hbufs hvs hclear
  subst hbufs hvs hclear
  refine ⟨fun hsize => ?_, fun hp hw => ⟨fun hb => ?_, fun hb he => ?_, fun hfs hl => ?_, fun hl hr => ?_⟩⟩
  · exact ⟨exec_eq_failed hcan (planXform_of_badSize hsize), exec_eq_failed hcan (planXform_of_badSize hsize),
      exec_eq_failed hcan (planFderiv_of_badSize hsize)⟩
  · exact ⟨exec_eq_failed hcan (planXform_of_badBase hp hw hb), exec_eq_failed hcan (planXform_of_badBase hp hw hb)⟩
  · have xfft : planOf (.xformFft irq fs n base len tab) s = planOnTable (fft fs n.toNat base.toNat) fs n len tab s :=
      planXform_of_base hp hw ⟨hb, he⟩
    have xifft :
        planOf (.xformIfft irq fs n base len tab) s = planOnTable (ifft fs n.toNat base.toNat) fs n len tab s :=
      planXform_of_base hp hw ⟨hb, he⟩
    exact ⟨fun hfs hl =>
        ⟨exec_onTable_of_badLength hcan xfft hfs hl, exec_onTable_of_badLength hcan xifft hfs hl⟩,
      fun hl hr => ⟨fun hc =>
          ⟨exec_onTable_of_overlap hcan xfft hl hr hc, exec_onTable_of_overlap hcan xifft hl hr hc⟩,
        fun hc ha =>
          ⟨exec_onTable_of_clear hcan xfft hl hr hc ha, exec_onTable_of_clear hcan xifft hl hr hc ha⟩⟩⟩
  all_goals
    have derivative : planOf (.fderiv irq fs n len tab) s = planOnTable (fderiv n.toNat) fs n len tab s :=
      planFderiv_of_size hp hw
  · exact exec_onTable_of_badLength hcan derivative hfs hl
  · exact ⟨exec_onTable_of_overlap hcan derivative hl hr, exec_onTable_of_clear hcan derivative hl hr⟩

end Sys2Proof.Machine
end

section
/-! SUPPORT. The stripe scheduler's arithmetic (spec/47_scheduler.md): SCHED_AUTO, and the stripes of a byte range. -/

namespace Sys2Proof.Machine

/-! ### SCHED_AUTO (R335) -/

theorem le_autoMinsplit (s : State) (t : Nat) : 64 ≤ autoMinsplit s t := Nat.le_max_left ..

theorem autoMaxw_le (s : State) (t : Nat) : autoMaxw s t ≤ s.params.numWorkers := Nat.min_le_left ..

theorem one_le_ceilDiv {a b : Nat} (ha : 1 ≤ a) (hb : 1 ≤ b) : 1 ≤ ceilDiv a b :=
  (Nat.one_le_div_iff (by omega)).mpr (by omega)

theorem one_le_autoMaxw {s : State} (h : 1 ≤ s.params.numWorkers) (t : Nat) : 1 ≤ autoMaxw s t :=
  Nat.le_min.mpr ⟨h, one_le_ceilDiv (Nat.le_max_right ..) ((by omega : 1 ≤ 64).trans (le_autoMinsplit s t))⟩

theorem writeReg_schedAuto {s : State} (he : s.ctrlEn = false) (hb : busy s = false) (v : Word) :
    writeReg 0x078 v s = writeAuto v s := gated_of_open (gateOpen_of_idle he hb) _

theorem writeAuto_schedMaxw (v : Word) (s : State) :
    (writeAuto v s).schedMaxw = BitVec.ofNat 16 (autoMaxw s v.toNat) := by
  unfold writeAuto
  dsimp only
  split <;> rfl

theorem writeAuto_schedMinsplit (v : Word) (s : State) :
    (writeAuto v s).schedMinsplit = if autoMinsplit s v.toNat < 2 ^ 32 then BitVec.ofNat 32 (autoMinsplit s v.toNat)
      else freeMinsplit s.free := by
  unfold writeAuto
  dsimp only
  split <;> rfl

/-- Settles O20: MAXW lies below 2^16 because NUM_WORKERS does, and MINSPLIT is at least 64 or a free nonzero value. -/
theorem schedAutoWrite : Obligations.SchedAutoWrite := by
  intro s v he hb ⟨hworkers, hmax, _, _⟩
  have maxw : (writeAuto v s).schedMaxw.toNat = autoMaxw s v.toNat := by
    have := autoMaxw_le s v.toNat
    rw [writeAuto_schedMaxw, BitVec.toNat_ofNat, Nat.mod_eq_of_lt (by omega)]
  have minsplit (h : autoMinsplit s v.toNat < 2 ^ 32) :
      (writeAuto v s).schedMinsplit.toNat = autoMinsplit s v.toNat := by
    rw [writeAuto_schedMinsplit, if_pos h, BitVec.toNat_ofNat, Nat.mod_eq_of_lt h]
  rw [writeReg_schedAuto he hb, maxw]
  refine ⟨rfl, minsplit, rfl, one_le_autoMaxw hworkers _, autoMaxw_le s _, fun h0 => ?_⟩
  by_cases h : autoMinsplit s v.toNat < 2 ^ 32
  · have zero : autoMinsplit s v.toNat = 0 := (minsplit h).symm.trans (congrArg BitVec.toNat h0)
    have := le_autoMinsplit s v.toNat
    omega
  · rw [writeAuto_schedMinsplit, if_neg h] at h0
    exact freeMinsplit_ne_zero _ h0

/-! ### The stripe plan (R332) -/

theorem le_mul_ceilDiv (a : Nat) {b : Nat} (hb : 1 ≤ b) : a ≤ b * ceilDiv a b := by
  have := Nat.div_add_mod (a + b - 1) b
  have := Nat.mod_lt (a + b - 1) hb
  unfold ceilDiv
  omega

theorem div_le_ceilDiv (a : Nat) {b : Nat} (hb : 1 ≤ b) : a / b ≤ ceilDiv a b :=
  Nat.div_le_div_right (by omega)

section
variable (s : State) (size : Nat)

theorem one_le_stripeCount : 1 ≤ stripeCount s size := Nat.le_max_left ..

theorem stripeLength_aligned : stripeLength s size % 64 = 0 := roundup64_aligned _

/-- The stripes together are as long as the range. -/
theorem le_stripeCount_mul_stripeLength : size ≤ stripeCount s size * stripeLength s size :=
  (le_mul_ceilDiv size (one_le_stripeCount s size)).trans (Nat.mul_le_mul_left _ (le_roundup64 _))

/-- Stripe `i` of the range [0, size). -/
def stripe (i : Nat) : Stripe := { lo := i * stripeLength s size, hi := min size ((i + 1) * stripeLength s size) }

variable {s size}

theorem stripeCount_le_workerCeiling (h : 1 ≤ workerCeiling s) : stripeCount s size ≤ workerCeiling s :=
  Nat.max_le.mpr ⟨h, Nat.min_le_left ..⟩

theorem stripePlan_of_pos (h : 0 < size) : stripePlan s size
    = ((List.range (stripeCount s size)).filter fun i => decide (i * stripeLength s size < size)).map
        (stripe s size) := if_neg (Nat.ne_of_gt h)

theorem mem_stripePlan (h : 0 < size) {x : Stripe} :
    x ∈ stripePlan s size ↔ ∃ i, i < stripeCount s size ∧ i * stripeLength s size < size ∧ stripe s size i = x := by
  simp [stripePlan_of_pos h, and_assoc]

theorem stripeLength_pos (h : 0 < size) : 0 < stripeLength s size := by
  have total := le_stripeCount_mul_stripeLength s size
  exact Nat.pos_of_ne_zero fun h0 => by rw [h0, Nat.mul_zero] at total; omega

/-- Every byte of the range lies in a stripe, whatever the scheduler registers hold. -/
theorem stripePlan_covers {a : Nat} (h : a < size) : ∃ x ∈ stripePlan s size, x.lo ≤ a ∧ a < x.hi := by
  have pos : 0 < size := by omega
  have per := stripeLength_pos (s := s) pos
  have lo : a / stripeLength s size * stripeLength s size ≤ a := Nat.div_mul_le_self ..
  refine ⟨stripe s size (a / stripeLength s size), (mem_stripePlan pos).mpr ⟨_, ?_, by omega, rfl⟩, lo, ?_⟩
  · exact (Nat.div_lt_iff_lt_mul per).mpr (h.trans_le (le_stripeCount_mul_stripeLength s size))
  · exact Nat.lt_min.mpr ⟨h, Nat.lt_mul_of_div_lt (Nat.lt_succ_self _) per⟩

theorem stripePlan_length_le : (stripePlan s size).length ≤ stripeCount s size := by
  rcases Nat.eq_zero_or_pos size with rfl | h
  · exact one_le_stripeCount s 0
  · rw [stripePlan_of_pos h, List.length_map]
    exact (List.length_filter_le ..).trans_eq List.length_range

/-- A stripe starts at a multiple of 64 and lies in the range. -/
theorem stripePlan_bounds {x : Stripe} (hx : x ∈ stripePlan s size) : x.lo % 64 = 0 ∧ x.lo ≤ x.hi ∧ x.hi ≤ size := by
  rcases Nat.eq_zero_or_pos size with rfl | h
  · obtain rfl := List.mem_singleton.mp hx
    exact ⟨rfl, Nat.le_refl 0, Nat.le_refl 0⟩
  · obtain ⟨i, _, hi, rfl⟩ := (mem_stripePlan h).mp hx
    refine ⟨?_, Nat.le_min.mpr ⟨hi.le, Nat.mul_le_mul_right _ (Nat.le_succ i)⟩, Nat.min_le_left ..⟩
    rw [stripe, Nat.mul_mod, stripeLength_aligned, Nat.mul_zero, Nat.zero_mod]

/-- A stripe with one after it has the full length and ends where that one may start. -/
theorem stripe_before {i j : Nat} (hij : i < j) (hj : j * stripeLength s size < size) :
    (stripe s size i).hi ≤ (stripe s size j).lo
      ∧ (stripe s size i).hi - (stripe s size i).lo = stripeLength s size := by
  have next : (i + 1) * stripeLength s size ≤ j * stripeLength s size := Nat.mul_le_mul_right _ hij
  have hi : (stripe s size i).hi = (i + 1) * stripeLength s size := Nat.min_eq_right (by omega)
  exact ⟨hi.trans_le next, by rw [hi, stripe, Nat.succ_mul, Nat.add_sub_cancel_left]⟩

theorem stripePlan_pairwise :
    (stripePlan s size).Pairwise fun x y => x.hi ≤ y.lo ∧ x.hi - x.lo = stripeLength s size := by
  rcases Nat.eq_zero_or_pos size with rfl | h
  · exact List.pairwise_singleton ..
  · rw [stripePlan_of_pos h, List.pairwise_map]
    refine (List.pairwise_lt_range.filter _).imp_of_mem fun _ hj hij => stripe_before hij ?_
    simpa using (List.mem_filter.mp hj).2

/-- With more than one stripe, every stripe but the last is at least SCHED_MINSPLIT long. -/
theorem minsplit_le_stripeLength (h : 1 < stripeCount s size) : s.schedMinsplit.toNat ≤ stripeLength s size := by
  have count : stripeCount s size ≤ size / s.schedMinsplit.toNat := by
    unfold stripeCount at h ⊢
    omega
  have fits : s.schedMinsplit.toNat ≤ size / stripeCount s size := by
    rw [Nat.le_div_iff_mul_le (one_le_stripeCount s size), Nat.mul_comm]
    exact (Nat.mul_le_mul_right _ count).trans (Nat.div_mul_le_self ..)
  exact fits.trans ((div_le_ceilDiv size (one_le_stripeCount s size)).trans (le_roundup64 _))

end

/-- Settles O60: each clause is a fact about the stripes `i * per` with `i * per < size`. -/
theorem stripePlanCovers : Obligations.StripePlanCovers := fun _ _ hw _ =>
  ⟨stripePlan_length_le.trans (stripeCount_le_workerCeiling hw), fun _ => stripePlan_bounds,
    fun _ => stripePlan_covers, stripePlan_pairwise, minsplit_le_stripeLength⟩

end Sys2Proof.Machine
end

section
/-! SUPPORT. Shard stores cut into stripes (spec/47_scheduler.md R333, R336, spec/20_memory.md R79): stores made in any
order, and in stripes, write the same bytes when every striped store shares no byte with the others. -/

namespace Sys2Proof.Machine

/-! ### What one store does to one byte -/

/-- The store writes address `x`. -/
def Store.covers (st : Store) (x : Nat) : Bool := (extent st.addr st.bytes.length).contains x

/-- The byte at `x` after a store that covers it. -/
def Store.byteAt (st : Store) (x : Nat) : Byte :=
  if x < 2 ^ 64 then st.bytes.getD (x - st.addr) unlistedByte else unlistedByte

theorem Store.covers_iff {st : Store} {x : Nat} :
    st.covers x = true ↔ st.addr ≤ x ∧ x < st.addr + st.bytes.length := decide_eq_true_iff

theorem Memory.read_put (m : Memory) (st : Store) (x : Nat) :
    (m.put st).read x = if st.covers x then st.byteAt x else m.read x := by
  simp only [Memory.put, Memory.read_writeBytes, Store.covers_iff, Store.byteAt]

/-! ### Stores in any order -/

/-- If every store that covers `x` puts the same byte there, that byte is read, whatever the order. -/
theorem Memory.read_putAll_of_agree {sts : List Store} {x : Nat} {b : Byte} {m : Memory}
    (agree : ∀ st ∈ sts, st.covers x = true → st.byteAt x = b)
    (h : m.read x = b ∨ ∃ st ∈ sts, st.covers x = true) : (m.putAll sts).read x = b := by
  induction sts generalizing m with
  | nil => simpa using h
  | cons st sts ih =>
    rw [List.forall_mem_cons] at agree
    refine ih agree.2 ?_
    rw [Memory.read_put]
    split
    · exact .inl (agree.1 ‹_›)
    · simpa [*] using h

theorem Memory.read_putAll_congr {m m' : Memory} {x : Nat} (h : m.read x = m'.read x) (sts : List Store) :
    (m.putAll sts).read x = (m'.putAll sts).read x := by
  induction sts generalizing m m' with
  | nil => exact h
  | cons st sts ih => exact ih (by simp only [Memory.read_put, h])

/-- Only the stores that cover `x` decide what is read there. -/
theorem Memory.read_putAll_filter {f : Store → Bool} {sts : List Store} {x : Nat}
    (h : ∀ st ∈ sts, st.covers x = true → f st = true) (m : Memory) :
    (m.putAll (sts.filter f)).read x = (m.putAll sts).read x := by
  induction sts generalizing m with
  | nil => rfl
  | cons st sts ih =>
    rw [List.forall_mem_cons] at h
    by_cases hf : f st = true
    · rw [List.filter_cons_of_pos hf]
      exact ih h.2 (m.put st)
    · rw [List.filter_cons_of_neg hf, ih h.2 m]
      refine Memory.read_putAll_congr ?_ sts
      rw [Memory.read_put, if_neg (mt h.1 hf)]

/-! ### Stripes of a store (R333) -/

theorem Store.covers_within {st : Store} {z : Stripe} {x : Nat} :
    (st.within z).covers x = true ↔ st.covers x = true ∧ st.addr + z.lo ≤ x ∧ x < st.addr + z.hi := by
  simp only [Store.covers_iff, Store.within, List.length_take, List.length_drop]
  omega

/-- A stripe of a store writes the bytes that the store writes. -/
theorem Store.byteAt_within {st : Store} {z : Stripe} {x : Nat} (h : (st.within z).covers x = true) :
    (st.within z).byteAt x = st.byteAt x := by
  obtain ⟨-, hlo, hhi⟩ := Store.covers_within.mp h
  have index : x - (st.addr + z.lo) < z.hi - z.lo := by omega
  have shift : z.lo + (x - (st.addr + z.lo)) = x - st.addr := by omega
  simp only [Store.byteAt, Store.within, List.getD_eq_getElem?_getD, List.getElem?_take_of_lt index,
    List.getElem?_drop, shift]

/-! ### Plans whose stores can be cut -/

/-- No address is written by both stores. -/
def Store.Clear (a b : Store) : Prop := ∀ x, a.covers x = true → b.covers x = false

theorem Store.Clear.symm {a b : Store} (h : a.Clear b) : b.Clear a := fun x hb =>
  Bool.eq_false_iff.mpr fun ha => by simp [h x ha] at hb

/-- A plan whose shard stores share no byte with its other stores, and are no longer than its byte range (R330,
20_memory.md R79). -/
structure Plan.Striped (p : Plan) : Prop where
  clear : p.stores.Pairwise fun a b => a.striped = true ∨ b.striped = true → a.Clear b
  span : ∀ st ∈ p.stores, st.striped = true → ∃ size, p.span = some size ∧ st.bytes.length ≤ size

/-- Every byte of the plan's range lies in one of the stripes. -/
def Plan.CoveredBy (p : Plan) (xs : List Stripe) : Prop :=
  ∀ size, p.span = some size → ∀ a < size, ∃ z ∈ xs, z.lo ≤ a ∧ a < z.hi

theorem mem_stripeStores {p : Plan} {z : Stripe} {st : Store} :
    st ∈ stripeStores p z ↔ ∃ st' ∈ p.stores, st'.striped = true ∧ st'.within z = st := by
  simp [stripeStores, and_assoc]

theorem mem_cpStores {p : Plan} {st : Store} : st ∈ cpStores p ↔ st ∈ p.stores ∧ st.striped = false := by
  simp [cpStores]

/-- The stores of the stripes `xs`, in this order, and then those of the CP. -/
def stripedStores (p : Plan) (xs : List Stripe) : List Store := xs.flatMap (stripeStores p) ++ cpStores p

theorem mem_stripedStores {p : Plan} {xs : List Stripe} {st : Store} : st ∈ stripedStores p xs
    ↔ (∃ z ∈ xs, ∃ st' ∈ p.stores, st'.striped = true ∧ st'.within z = st) ∨ st ∈ cpStores p := by
  simp only [stripedStores, List.mem_append, List.mem_flatMap, mem_stripeStores]

/-- The stripes' stores are all striped. -/
theorem filter_stripedStores (p : Plan) (xs : List Stripe) :
    (stripedStores p xs).filter (fun st => !st.striped) = cpStores p := by
  have striped : (xs.flatMap (stripeStores p)).filter (fun st => !st.striped) = [] := by
    rw [List.filter_eq_nil_iff]
    intro st hst
    obtain ⟨z, _, hst⟩ := List.mem_flatMap.mp hst
    obtain ⟨st, _, hs, rfl⟩ := mem_stripeStores.mp hst
    simpa [Store.within] using hs
  rw [stripedStores, List.filter_append, striped, List.nil_append, cpStores, List.filter_filter]
  simp

namespace Plan.Striped

variable {p : Plan} {xs : List Stripe} {st st' : Store} {x : Nat} (h : p.Striped)
include h

/-- The only store that writes a byte of a shard store is that one. -/
theorem eq_of_covers (hst : st ∈ p.stores) (hs : st.striped = true) (hx : st.covers x = true)
    (hst' : st' ∈ p.stores) (hx' : st'.covers x = true) : st' = st := by
  by_contra hne
  have : Std.Symm fun a b : Store => a.striped = true ∨ b.striped = true → a.Clear b :=
    ⟨fun _ _ hab hba => (hab hba.symm).symm⟩
  have := h.clear.forall hst hst' (Ne.symm hne) (.inl hs) x hx
  simp [this] at hx'

/-- A byte of a shard store after all stores of the plan. -/
theorem read_stores (hst : st ∈ p.stores) (hs : st.striped = true) (hx : st.covers x = true) (m : Memory) :
    (m.putAll p.stores).read x = st.byteAt x :=
  Memory.read_putAll_of_agree (fun st' hst' hx' => by rw [h.eq_of_covers hst hs hx hst' hx']) (.inr ⟨st, hst, hx⟩)

/-- A byte of a shard store after the stripes and the CP's stores. -/
theorem read_stripedStores (hxs : p.CoveredBy xs) (hst : st ∈ p.stores) (hs : st.striped = true)
    (hx : st.covers x = true) (m : Memory) : (m.putAll (stripedStores p xs)).read x = st.byteAt x := by
  refine Memory.read_putAll_of_agree (fun st' hst' hx' => ?_) (.inr ?_)
  · rcases mem_stripedStores.mp hst' with ⟨z, _, whole, hw, _, rfl⟩ | hcp
    · rw [Store.byteAt_within hx', h.eq_of_covers hst hs hx hw (Store.covers_within.mp hx').1]
    · rw [h.eq_of_covers hst hs hx (mem_cpStores.mp hcp).1 hx']
  · obtain ⟨size, hsize, hlen⟩ := h.span st hst hs
    obtain ⟨hlo, hhi⟩ := Store.covers_iff.mp hx
    obtain ⟨z, hz, hzlo, hzhi⟩ := hxs size hsize (x - st.addr) (by omega)
    exact ⟨st.within z, mem_stripedStores.mpr (.inl ⟨z, hz, st, hst, hs, rfl⟩),
      Store.covers_within.mpr ⟨hx, by omega, by omega⟩⟩

/-- Stripes that cover the byte range, in any order, and then the CP's stores, write what the plan's stores write
(R336). -/
theorem putAll_stripedStores (hxs : p.CoveredBy xs) {m : Memory} (hm : m.wf) :
    m.putAll (stripedStores p xs) = m.putAll p.stores := by
  refine Memory.ext_of_wf (Memory.wf_putAll hm _) (Memory.wf_putAll hm _) fun x => ?_
  by_cases hx : ∃ st ∈ p.stores, st.striped = true ∧ st.covers x = true
  · obtain ⟨st, hst, hs, hx⟩ := hx
    rw [h.read_stripedStores hxs hst hs hx, h.read_stores hst hs hx]
  · have whole : ∀ st ∈ p.stores, st.covers x = true → (!st.striped) = true := fun st hst hc => by
      simpa using fun hs => hx ⟨st, hst, hs, hc⟩
    have cut : ∀ st ∈ stripedStores p xs, st.covers x = true → (!st.striped) = true := fun st hst hc => by
      rcases mem_stripedStores.mp hst with ⟨z, _, st', hst', _, rfl⟩ | hcp
      · exact whole st' hst' (Store.covers_within.mp hc).1
      · simp [(mem_cpStores.mp hcp).2]
    rw [← Memory.read_putAll_filter cut, filter_stripedStores, ← Memory.read_putAll_filter whole]
    rfl

end Plan.Striped

end Sys2Proof.Machine
end

section
/-! SUPPORT. Every validated command has stores that can be cut into stripes (spec/47_scheduler.md R330, R332): its
shard stores lie in different write ranges, which the overlap check keeps apart (spec/20_memory.md R79). -/

namespace Sys2Proof.Machine

/-! ### Stores in write ranges that are apart -/

theorem pairwiseClear_iff {ws : List Extent} : pairwiseClear ws = true ↔ ws.Pairwise Apart := by
  induction ws with
  | nil => simp [pairwiseClear]
  | cons w ws ih => simp [pairwiseClear, ih]

theorem Store.clear_of_apart {w w' : Extent} (h : Apart w w') {a b : Store} (ha : a.Inside [w]) (hb : b.Inside [w']) :
    a.Clear b := by
  simp only [Store.Inside, List.mem_singleton, exists_eq_left] at ha hb
  simp only [Apart, Extent.overlaps, decide_eq_false_iff_not] at h
  intro x hx
  rw [Store.covers_iff] at hx
  rw [Bool.eq_false_iff, ne_eq, Store.covers_iff]
  omega

theorem Store.inside_extent {a n : Nat} {bs : List Byte} (h : bs.length ≤ n) : (shardStore a bs).Inside [extent a n] :=
  Store.inside_of_mem (List.mem_singleton.mpr rfl) h

/-- Stores in ranges that are apart, one in each. -/
theorem pairwise_clear_zipWith {α β : Type} {w : α → Extent} {g : α → β → Store} {xs : List α} {ys : List β}
    (hw : (xs.map w).Pairwise Apart) (hg : ∀ x ∈ xs, ∀ y ∈ ys, (g x y).Inside [w x]) :
    (List.zipWith g xs ys).Pairwise Store.Clear := by
  induction xs generalizing ys with
  | nil => simp
  | cons x xs ih =>
    cases ys with
    | nil => simp
    | cons y ys =>
      rw [List.map_cons, List.pairwise_cons] at hw
      simp only [List.forall_mem_cons] at hg
      refine List.pairwise_cons.mpr ⟨fun st hst => ?_, ih hw.2 fun x hx => (hg.2 x hx).2⟩
      obtain ⟨x', hx', y', hy', rfl⟩ := mem_zipWith hst
      exact Store.clear_of_apart (hw.1 _ (List.mem_map_of_mem hx')) hg.1.1 ((hg.2 x' hx').2 y' hy')

theorem pairwise_striped {sts : List Store} (h : sts.Pairwise Store.Clear) :
    sts.Pairwise fun a b => a.striped = true ∨ b.striped = true → a.Clear b := by
  refine h.imp ?_
  exact fun hc _ => hc

/-! ### Plans -/

section
variable {p q : Plan}

theorem striped_of_guarded (h : p.guarded = .ok q) (hp : p.writes.Pairwise Apart → p.Striped) : q.Striped := by
  obtain ⟨hc, rfl⟩ := guarded_eq_ok.mp h
  simp only [footprintClear, Bool.and_eq_true] at hc
  exact hp (pairwiseClear_iff.mp hc.1)

/-- A command that the CP runs alone (R330). -/
theorem striped_of_cp (h : ∀ st ∈ p.stores, st.striped = false) : p.Striped where
  clear := List.pairwise_of_forall_mem_list fun a ha b hb hs => by simp [h a ha, h b hb] at hs
  span st hst hs := by simp [h st hst] at hs

theorem striped_of_nil (h : p.stores = []) : p.Striped := striped_of_cp (by simp [h])

/-- A command with one shard store, in its write range. -/
theorem striped_of_single {st : Store} {n : Nat} (hst : p.stores = [st]) (hs : p.span = some n)
    (hl : st.bytes.length ≤ n) : p.Striped where
  clear := hst ▸ List.pairwise_singleton ..
  span st' hst' _ := by
    rw [hst, List.mem_singleton] at hst'
    exact ⟨n, hs, hst' ▸ hl⟩

/-- A command that writes one shard in each of its write ranges. -/
theorem striped_of_zipWith {α β : Type} {addr : α → Nat} {bytes : α → β → List Byte} {xs : List α} {ys : List β}
    {n : Nat} (hst : p.stores = List.zipWith (fun x y => shardStore (addr x) (bytes x y)) xs ys)
    (hw : p.writes = xs.map fun x => extent (addr x) n) (hs : p.span = some n)
    (hl : ∀ x ∈ xs, ∀ y ∈ ys, (bytes x y).length ≤ n) (hc : p.writes.Pairwise Apart) : p.Striped where
  clear := by
    rw [hst]
    exact pairwise_striped (pairwise_clear_zipWith (hw ▸ hc) fun x hx y hy => Store.inside_extent (hl x hx y hy))
  span st hm _ := by
    rw [hst] at hm
    obtain ⟨x, hx, y, hy, rfl⟩ := mem_zipWith hm
    exact ⟨n, hs, hl x hx y hy⟩

end

/-! ### The plans of each unit -/

theorem matrixPlan_striped {s : State} {ins : List ReadRange} {dst : Addr} {n : Nat} {out : Matrix} {q : Plan}
    (h : matrixPlan s ins dst n out = .ok q) : q.Striped :=
  striped_of_guarded h fun _ => striped_of_cp fun _ hst => List.mem_singleton.mp hst ▸ rfl

theorem transformPlan_striped {s : State} {tables : List ReadRange} {bufs : List Nat} {n : Nat}
    {out : List (List Byte)} {q : Plan} (ho : RowsWithin n out) (h : transformPlan s tables bufs n out = .ok q) :
    q.Striped :=
  striped_of_guarded h (striped_of_zipWith (addr := id) (bytes := fun _ bs => bs) rfl rfl rfl fun _ _ => ho)

theorem planXform_striped {transform : FS → Nat → Nat → List Vec → List Vec} {fs : FS} {n base len : Word}
    {tab : Addr} {s : State} {q : Plan} (ht : ∀ {m b e w}, RowsWithin e w → RowsWithin e (transform fs m b w))
    (h : planXform transform fs n base len tab s = .ok q) : q.Striped := by
  simp only [planXform, bind_eq_ok] at h
  obtain ⟨_, _, _, _, _, _, bufs, _, h⟩ := h
  exact transformPlan_striped (ht (loadVecs_within fs s _ bufs)).map_ofElems h

theorem entryStores_striped {t size : Nat} {p : Placed} {st : Store} (h : st ∈ p.entryStores t size) :
    st.striped = false := by
  unfold Placed.entryStores at h
  dsimp only at h
  split at h
  · simp at h
  · split at h <;> simp only [List.mem_cons, List.not_mem_nil, or_false] at h
    · rcases h with rfl | rfl | rfl <;> rfl
    · exact h ▸ rfl

theorem Placed.inside_range {size : Nat} (p : Placed) {bs : List Byte} (h : bs.length ≤ size) :
    (shardStore p.addr bs).Inside [p.range size] := by
  refine Store.inside_extent (h.trans ?_)
  split
  · exact le_roundup64 size
  · exact Nat.le_refl size

/-- An output shard lies in its own range, and the table entries in the table (45_codec.md R251). -/
theorem striped_of_outputs {p : Plan} {ps : List Placed} {entries : List Store} {bytes : List (List Byte)} {size : Nat}
    {table : Extent} (he : ∀ st ∈ entries, st.striped = false ∧ st.Inside [table]) (hb : RowsWithin size bytes)
    (hst : p.stores = entries ++ List.zipWith (fun p bs => shardStore (Placed.addr p) bs) ps bytes)
    (hw : p.writes = table :: ps.map (Placed.range size)) (hs : p.span = some size) (hc : p.writes.Pairwise Apart) :
    p.Striped := by
  rw [hw, List.pairwise_cons] at hc
  refine ⟨?_, fun st hm hstriped => ⟨size, hs, ?_⟩⟩
  · rw [hst, List.pairwise_append]
    refine ⟨List.pairwise_of_forall_mem_list fun a ha b hb hor => ?_, ?_, fun a ha b hm _ => ?_⟩
    · simp [(he a ha).1, (he b hb).1] at hor
    · exact pairwise_striped (pairwise_clear_zipWith hc.2 fun p _ bs hbs => p.inside_range (hb bs hbs))
    · obtain ⟨p, hp, bs, hbs, rfl⟩ := mem_zipWith hm
      exact Store.clear_of_apart (hc.1 _ (List.mem_map_of_mem hp)) (he a ha).2 (p.inside_range (hb bs hbs))
  · rw [hst, List.mem_append] at hm
    rcases hm with hm | hm
    · simp [(he st hm).1] at hstriped
    · obtain ⟨p, _, bs, hbs, rfl⟩ := mem_zipWith hm
      exact hb bs hbs

theorem outputPlan_striped {s : State} {tab : Addr} {xs : List Slot} {outs : List Nat} {bytes : List (List Byte)}
    {extra : List ReadRange} {cache : Option (List CacheEntry)} {q : Plan} (hi : ∀ i ∈ outs, i < shardCount s)
    (hb : RowsWithin (shardLength xs) bytes) (h : outputPlan s tab xs outs bytes extra cache = .ok q) :
    q.Striped := by
  unfold outputPlan at h
  dsimp only at h
  have index : ∀ p ∈ (placeOutputs xs (shardLength xs) outs s.scrNext.toNat).1, p.index < shardCount s :=
    fun p hp => hi _ (placeOutputs_indices xs (shardLength xs) outs _ ▸ List.mem_map_of_mem hp)
  generalize (placeOutputs xs (shardLength xs) outs s.scrNext.toNat).1 = ps at index h
  have entry : ∀ st ∈ ps.flatMap (Placed.entryStores tab.toNat (shardLength xs)),
      st.striped = false ∧ st.Inside [extent tab.toNat (16 * shardCount s)] := fun st hst => by
    obtain ⟨p, hp, hst⟩ := List.mem_flatMap.mp hst
    exact ⟨entryStores_striped hst, entryStores_inside (index p hp) hst⟩
  split at h
  · obtain ⟨_, _, h⟩ := bind_eq_ok.mp h
    exact striped_of_guarded h (striped_of_outputs entry hb rfl rfl rfl)
  · exact striped_of_guarded h (striped_of_outputs entry hb rfl rfl rfl)

theorem planRecovery_striped {s : State} {tab : Addr} {xs : List Slot} {needed : List Nat} {extra : List ReadRange}
    {q : Plan} (hi : ∀ i ∈ needed, i < shardCount s) (h : planRecovery s tab xs needed extra = .ok q) : q.Striped := by
  unfold planRecovery at h
  split at h
  · obtain rfl := Except.ok.inj h
    exact striped_of_nil rfl
  · split at h
    · split at h
      · exact outputPlan_striped hi (recoveredShards_within s xs _ _ needed) h
      · obtain ⟨_, _, h⟩ := bind_eq_ok.mp h
        exact outputPlan_striped hi (recoveredShards_within s xs _ _ needed) h
    · exact outputPlan_striped hi (fftRecovered_within s xs needed) h

/-- UPDATE lists the parity shards before the data shards, and its write ranges the other way round (45_codec.md
R272). -/
theorem planUpdate_striped {cnt n : Word} {tab newTab : Addr} {s : State} {q : Plan}
    (h : planUpdate cnt n tab newTab s = .ok q) : q.Striped := by
  simp only [planUpdate, bind_eq_ok] at h
  obtain ⟨_, _, _, _, xs, _, _, _, news, _, _, _, _, _, _, _, h⟩ := h
  split at h
  · obtain rfl := Except.ok.inj h
    exact striped_of_nil rfl
  · refine striped_of_guarded h fun hc => ?_
    rw [List.map_append, List.pairwise_append] at hc
    obtain ⟨hdata, hparity, hcross⟩ := hc
    rw [List.pairwise_map] at hdata
    rw [parityIndices, List.map_map, List.pairwise_map] at hparity
    have data : ∀ i, (shardStore (slotAt xs i).addr (s.mem.readBytes (slotAt news i).addr (shardLength xs))).Inside
        [extent (slotAt xs i).addr (shardLength xs)] := fun i => Store.inside_extent (Memory.length_readBytes ..).le
    have within : ∀ us p, (updatedParity s xs news us p).length ≤ shardLength xs := fun us p => by simp [updatedParity]
    have parity : ∀ us p, (shardStore (slotAt xs (s.ctx.k + p)).addr (updatedParity s xs news us p)).Inside
        [extent (slotAt xs (s.ctx.k + p)).addr (shardLength xs)] := fun us p => Store.inside_extent (within us p)
    refine ⟨pairwise_striped (List.pairwise_append.mpr ⟨?_, ?_, fun a ha b hb => ?_⟩), fun st hst _ => ⟨_, rfl, ?_⟩⟩
    · exact List.pairwise_map.mpr (hparity.imp fun hc => Store.clear_of_apart hc (parity _ _) (parity _ _))
    · exact List.pairwise_map.mpr (hdata.imp fun hc => Store.clear_of_apart hc (data _) (data _))
    · obtain ⟨p, hp, rfl⟩ := List.mem_map.mp ha
      obtain ⟨i, hi, rfl⟩ := List.mem_map.mp hb
      have hc := hcross _ (List.mem_map_of_mem hi) _ (List.mem_map_of_mem (List.mem_map_of_mem hp))
      exact (Store.clear_of_apart hc (data i) (parity _ p)).symm
    · rcases List.mem_append.mp hst with hst | hst
      · obtain ⟨p, _, rfl⟩ := List.mem_map.mp hst
        exact within _ p
      · obtain ⟨i, _, rfl⟩ := List.mem_map.mp hst
        exact (Memory.length_readBytes ..).le

/-- Every validated command can be cut into stripes. -/
theorem plan_striped {i : Instr} {s : State} {p : Plan} (h : planOf i s = .ok p) : p.Striped := by
  cases i <;> simp only [planOf] at h
  case nop | icflush | areset => obtain rfl := Except.ok.inj h; exact striped_of_nil rfl
  case alloc =>
    simp only [planAlloc, bind_eq_ok] at h
    obtain ⟨_, _, h⟩ := h
    have cp : ∀ {size n t} {st : Store}, st ∈ (List.range n).flatMap (allocStores s t size) → st.striped = false :=
      fun h => by
        obtain ⟨i, _, h⟩ := List.mem_flatMap.mp h
        simp only [allocStores, List.mem_cons, List.not_mem_nil, or_false] at h
        rcases h with rfl | rfl | rfl | rfl <;> rfl
    split at h
    · obtain ⟨_, _, h⟩ := bind_eq_ok.mp h
      exact striped_of_guarded h fun _ => striped_of_cp fun _ => cp
    · exact striped_of_guarded h fun _ => striped_of_cp fun _ => cp
  case configure =>
    simp only [planConfigure, bind_eq_ok] at h
    obtain ⟨_, _, _, _, _, _, ⟨v, up⟩, _, h⟩ := h
    cases v
    · simp only [bind_eq_ok] at h
      obtain ⟨_, _, _, _, h⟩ := h
      obtain rfl := Except.ok.inj h
      exact striped_of_nil rfl
    all_goals
      obtain rfl := Except.ok.inj h
      exact striped_of_nil rfl
  case ctxReadm =>
    simp only [planCtxReadm, bind_eq_ok] at h
    obtain ⟨_, _, _, _, q, hq, h⟩ := h
    have := matrixPlan_striped hq
    obtain rfl := Except.ok.inj h
    exact ⟨this.clear, this.span⟩
  case gfAdd | gfMul | gfInv | gfLog =>
    simp only [planGfAdd, planGfMul, planGfInv, planGfLog, bind_eq_ok] at h
    obtain ⟨_, _, _, _, h⟩ := h
    obtain rfl := Except.ok.inj h
    exact striped_of_nil rfl
  case gfPow =>
    obtain ⟨_, _, h⟩ := bind_eq_ok.mp h
    obtain rfl := Except.ok.inj h
    exact striped_of_nil rfl
  case gfAlog => obtain rfl := Except.ok.inj h; exact striped_of_nil rfl
  case matIdent =>
    simp only [planMatIdent, bind_eq_ok] at h
    obtain ⟨_, _, q, hq, h⟩ := h
    have := matrixPlan_striped hq
    obtain rfl := Except.ok.inj h
    exact ⟨this.clear, this.span⟩
  case matMul =>
    simp only [planMatMul, bind_eq_ok] at h
    obtain ⟨_, _, _, _, _, _, _, _, _, _, _, _, _, _, h⟩ := h
    exact matrixPlan_striped h
  case matInv =>
    simp only [planMatInv, bind_eq_ok] at h
    obtain ⟨_, _, _, _, _, _, _, _, h⟩ := h
    split at h
    · cases h
    · exact matrixPlan_striped h
  case matSub =>
    simp only [planMatSub, bind_eq_ok] at h
    obtain ⟨_, _, _, _, _, _, _, _, _, _, _, _, _, _, h⟩ := h
    exact matrixPlan_striped h
  case matAug =>
    simp only [planMatAug, bind_eq_ok] at h
    obtain ⟨_, _, _, _, _, _, _, _, _, _, _, _, _, _, _, _, h⟩ := h
    exact matrixPlan_striped h
  case matVand =>
    simp only [planMatVand, bind_eq_ok] at h
    obtain ⟨_, _, _, _, _, _, h⟩ := h
    exact matrixPlan_striped h
  case matGen =>
    simp only [planMatGen, bind_eq_ok] at h
    obtain ⟨_, _, _, _, _, _, h⟩ := h
    split at h
    · cases h
    · exact matrixPlan_striped h
  case kaxpy =>
    simp only [planKaxpy, bind_eq_ok] at h
    obtain ⟨_, _, _, _, h⟩ := h
    exact striped_of_guarded h fun _ =>
      striped_of_single rfl rfl ((length_axpyBuf_le ..).trans (Memory.length_readBytes ..).le)
  case kmulc =>
    simp only [planKmulc, bind_eq_ok] at h
    obtain ⟨_, _, _, _, h⟩ := h
    exact striped_of_guarded h fun _ =>
      striped_of_single rfl rfl ((length_scaleBuf_le ..).trans (Memory.length_readBytes ..).le)
  case kcode =>
    simp only [planKcode, bind_eq_ok] at h
    obtain ⟨_, _, _, _, _, _, _, _, _, _, h⟩ := h
    exact striped_of_guarded h (striped_of_zipWith (addr := id) List.zipWith_comm rfl rfl
      fun _ _ _ _ => length_codeOutput_le ..)
  case bflyFft =>
    obtain ⟨_, _, h⟩ := bind_eq_ok.mp h
    obtain ⟨_, _, h⟩ := bind_eq_ok.mp h
    exact transformPlan_striped (butterflyOutputs_within (bflyFft_within _ _) _ s _ _) h
  case bflyIfft =>
    obtain ⟨_, _, h⟩ := bind_eq_ok.mp h
    obtain ⟨_, _, h⟩ := bind_eq_ok.mp h
    exact transformPlan_striped (butterflyOutputs_within (bflyIfft_within _ _) _ s _ _) h
  case xformFft => exact planXform_striped (fft_within _ _ _) h
  case xformIfft => exact planXform_striped (ifft_within _ _ _) h
  case fderiv =>
    simp only [planFderiv, bind_eq_ok] at h
    obtain ⟨_, _, _, _, bufs, _, h⟩ := h
    exact transformPlan_striped (fderiv_within _ (loadVecs_within _ s _ bufs)).map_ofElems h
  case encode =>
    simp only [planEncode, bind_eq_ok] at h
    obtain ⟨_, _, _, _, _, _, h⟩ := h
    exact outputPlan_striped (fun _ => mem_parityIndices_lt) (parityBytes_within s (dataBytes_within s _)) h
  case verify =>
    simp only [planVerify, bind_eq_ok] at h
    obtain ⟨_, _, _, _, _, _, h⟩ := h
    exact striped_of_guarded h fun _ => striped_of_nil rfl
  case recon =>
    simp only [planRecon, planReconOf, bind_eq_ok] at h
    obtain ⟨_, _, _, _, _, _, h⟩ := h
    exact planRecovery_striped (fun _ => mem_filter_range_lt (Nat.le_refl _)) h
  case reconData =>
    simp only [planReconData, planReconOf, bind_eq_ok] at h
    obtain ⟨_, _, _, _, _, _, h⟩ := h
    exact planRecovery_striped (fun _ => mem_filter_range_lt (Nat.le_add_right ..)) h
  case reconSome =>
    simp only [planReconSome, bind_eq_ok] at h
    obtain ⟨_, _, _, _, _, _, _, _, _, _, h⟩ := h
    exact planRecovery_striped (fun _ => mem_filter_range_lt (Nat.le_refl _)) h
  case update => exact planUpdate_striped h
  case encodeIdx =>
    simp only [planEncodeIdx, bind_eq_ok] at h
    obtain ⟨_, _, _, _, _, _, _, _, _, _, ps, _, h⟩ := h
    exact striped_of_guarded h (striped_of_zipWith rfl rfl rfl fun _ _ _ _ =>
      (length_axpyBuf_le ..).trans (Memory.length_readBytes ..).le)

end Sys2Proof.Machine
end

section
/-! SUPPORT. What no command reads (spec/47_scheduler.md R336, spec/44_kernel.md R223): validation, the data phase and
the completion step are the same whatever NUM_WORKERS, the scheduler registers, KCAPS and the pending turns are. -/

namespace Sys2Proof.Machine

/-- `s` with everything that no command reads taken from `u`. -/
def State.beside (s u : State) : State :=
  { s with params := { s.params with numWorkers := u.params.numWorkers }, schedMaxw := u.schedMaxw,
           schedMinsplit := u.schedMinsplit, kcaps := u.kcaps, inputs := u.inputs, inflight := u.inflight }

/-- `u` with nothing in flight. -/
abbrev State.idle (u : State) : State := { u with inflight := none }

variable (s u : State)

/-! ### Validation -/

theorem readEach_beside (a n : Nat) : readEach (s.beside u) a n = readEach s a n := by
  induction n generalizing a with
  | zero => rfl
  | succ n ih => simp only [readEach, ih]; rfl

theorem readPointers_beside (t n : Nat) : readPointers (s.beside u) t n = readPointers s t n := by
  induction n generalizing t with
  | zero => rfl
  | succ n ih => simp only [readPointers, ih]; rfl

theorem readSlots_beside (t n : Nat) : readSlots (s.beside u) t n = readSlots s t n := by
  induction n generalizing t with
  | zero => rfl
  | succ n ih => simp only [readSlots, ih]; rfl

theorem readParityTable_beside (t size p n : Nat) :
    readParityTable (s.beside u) t size p n = readParityTable s t size p n := by
  induction n generalizing p with
  | zero => rfl
  | succ n ih => simp only [readParityTable, ih]; rfl

theorem readRowIndices_beside (a rows : Nat) (prev : Option Nat) (i n : Nat) :
    readRowIndices (s.beside u) a rows prev i n = readRowIndices s a rows prev i n := by
  induction n generalizing prev i with
  | zero => rfl
  | succ n ih => simp only [readRowIndices, ih]; rfl

theorem readColIndices_beside (a cols j n : Nat) :
    readColIndices (s.beside u) a cols j n = readColIndices s a cols j n := by
  induction n generalizing j with
  | zero => rfl
  | succ n ih => simp only [readColIndices, ih]; rfl

theorem loadShards_beside (n : Word) (tab : Addr) : loadShards n tab (s.beside u) = loadShards n tab s := by
  have slots : readSlots (s.beside u) tab.toNat (shardCount (s.beside u)) = readSlots s tab.toNat (shardCount s) :=
    readSlots_beside ..
  simp only [loadShards, slots]
  rfl

/-- Validation finds the same. The readers of tables are recursive and have lemmas of their own; everything else
unfolds to the same fields. -/
theorem planOf_beside (i : Instr) : planOf i (s.beside u) = planOf i s := by
  cases i <;> simp only [planOf]
  case configure => simp only [planConfigure, codingMatrix, readEach_beside]; rfl
  case matSub => simp only [planMatSub, readRowIndices_beside, readColIndices_beside]; rfl
  case kcode => simp only [planKcode, readPointers_beside]; rfl
  case xformFft => simp only [planXformFft, planXform, readPointers_beside]; rfl
  case xformIfft => simp only [planXformIfft, planXform, readPointers_beside]; rfl
  case fderiv => simp only [planFderiv, readPointers_beside]; rfl
  case encode => simp only [planEncode, loadShards_beside]; rfl
  case verify => simp only [planVerify, loadShards_beside]; rfl
  case recon => simp only [planRecon, planReconOf, loadShards_beside]; rfl
  case reconData => simp only [planReconData, planReconOf, loadShards_beside]; rfl
  case reconSome => simp only [planReconSome, loadShards_beside]; rfl
  case update =>
    have slots : ∀ a, readSlots (s.beside u) a (s.beside u).ctx.k = readSlots s a s.ctx.k :=
      fun _ => readSlots_beside ..
    simp only [planUpdate, loadShards_beside, slots]; rfl
  case encodeIdx => simp only [planEncodeIdx, readParityTable_beside]; rfl
  all_goals rfl

/-! ### Data phase and completion -/

theorem havoc_beside (xs : List Extent) : havoc xs (s.beside u) = (havoc xs s).beside u := by
  induction xs generalizing s with
  | nil => rfl
  | cons x xs ih =>
    exact ih { s with mem := s.mem.writeBytes x.lo (freeBytes s.free (inSpace x)), free := s.free + inSpace x }

theorem raiseError_beside (e : Err) (i : Half) (o : BitVec 8) (f : Bool) :
    raiseError e i o f (s.beside u) = (raiseError e i o f s).beside u := by
  have hoe : (s.beside u).ctrlHoe = s.ctrlHoe := rfl
  unfold raiseError
  dsimp only
  rw [hoe]
  split <;> rfl

theorem signalDone_beside (q : Bool) : signalDone q (s.beside u) = (signalDone q s).beside u := by cases q <;> rfl

theorem advance_beside (v : Word) : advance v (s.beside u) = (advance v s).beside u.idle := rfl

theorem completeRegisters_beside (opc : BitVec 8) (q : Bool) (e : Option Err) (v : Word) :
    completeRegisters opc q e v (s.beside u) = (completeRegisters opc q e v s).beside u.idle := by
  cases e with
  | none => exact signalDone_beside (advance v s) u.idle q
  | some e =>
    simp only [completeRegisters, advance_beside, raiseError_beside, signalDone_beside]
    rfl

theorem refusedRegisters_beside (opc : BitVec 8) (q : Bool) (v : Word) :
    refusedRegisters opc q v (s.beside u) = (refusedRegisters opc q v s).beside u.idle := by
  simp only [refusedRegisters, advance_beside, raiseError_beside, signalDone_beside]
  rfl

/-- The completion step ends what is in flight and leaves the rest of `u` as it is. -/
theorem complete_beside (opc : BitVec 8) (q : Bool) (e : Option Err) (r : Word) :
    complete opc q e r (s.beside u) = (complete opc q e r s).beside u.idle := by
  have admitted : writebackAdmitted (s.beside u) = writebackAdmitted s := rfl
  unfold complete
  rw [admitted]
  split
  · exact completeRegisters_beside { s with mem := writeback (descAddr s) e (completionResult e r) s.mem } u ..
  · exact refusedRegisters_beside ..

theorem finishPlan_beside (opc : BitVec 8) (q : Bool) (p : Plan) :
    finishPlan opc q p (s.beside u) = (finishPlan opc q p s).beside u.idle := by
  have permitted : accessesPermitted (s.beside u) p = accessesPermitted s p := rfl
  unfold finishPlan
  rw [permitted]
  split
  · exact complete_beside (commit p s) u ..
  · rw [← complete_beside, ← havoc_beside]
    rfl

theorem finish_beside (opc : BitVec 8) (q : Bool) (v : Except Err Plan) :
    finish opc q v (s.beside u) = (finish opc q v s).beside u.idle := by
  cases v with
  | error e => exact complete_beside ..
  | ok p => exact finishPlan_beside ..

theorem exec_beside {s t : State} {i : Instr} (h : exec i s = .next t) (u : State) :
    exec i (s.beside u) = .next (t.beside u.idle) := by
  rw [exec_eq_finish] at h ⊢
  cases h
  rw [planOf_beside, finish_beside]

/-- A command leaves no command in flight and takes no turn. -/
theorem exec_idle {s t : State} {i : Instr} (h : exec i s = .next t) : t.beside s.idle = t := by
  have h' : exec i s = .next (t.beside s.idle) := exec_beside h s
  rw [h] at h'
  exact (Host.Outcome.next.inj h').symm

/-- No worker count, scheduler register or KCAPS bit changes anything a command does (R336, 44_kernel.md R223). -/
theorem exec_withSched {s t : State} {i : Instr} (h : exec i s = .next t) (nw : Nat) (maxw : Half) (ms : Word)
    (kc : BitVec 6) :
    exec i { s with params := { s.params with numWorkers := nw }, schedMaxw := maxw, schedMinsplit := ms, kcaps := kc }
      = .next { t with params := { t.params with numWorkers := nw }, schedMaxw := maxw, schedMinsplit := ms,
                       kcaps := kc } := by
  have h' := exec_beside h { s with params := { s.params with numWorkers := nw }, schedMaxw := maxw,
                                    schedMinsplit := ms, kcaps := kc }
  rw [← exec_idle h]
  exact h'

end Sys2Proof.Machine
end

section
/-! SUPPORT. The turns of one undisturbed command (spec/47_scheduler.md R333, R336, spec/20_memory.md R87): fetch,
validation, the stripes in any order, the end of the data phase, and the completion step. -/

namespace Sys2Proof.Machine

/-! ### Turns -/

/-- `s` with these turns pending and `f` in flight. -/
def State.atTurn (s : State) (xs : List Input) (f : Option InFlight) : State := { s with inputs := xs, inflight := f }

@[simp] theorem State.atTurn_inflight (s : State) (xs : List Input) (f : Option InFlight) :
    (s.atTurn xs f).inflight = f := rfl

theorem run_succ {s t : State} (h : step s = .next t) (n : Nat) : core.run (n + 1) s = core.run n t := by
  simp only [Host.Core.run, show core.step s = .next t from h]

/-- A turn of the CP. -/
theorem run_cp {s t : State} {xs : List Input} {f g : Option InFlight} (h : cpTurn (s.atTurn xs f) = t.atTurn xs g)
    (n : Nat) : core.run (n + 1) (s.atTurn (.cp :: xs) f) = core.run n (t.atTurn xs g) :=
  have turn : step (s.atTurn (.cp :: xs) f) = .next (t.atTurn xs g) := congrArg Host.Outcome.next h
  run_succ turn n

/-- A turn of a worker. -/
theorem run_worker {s t : State} {j : Nat} {xs : List Input} {f g : Option InFlight}
    (h : workerTurn j (s.atTurn xs f) = t.atTurn xs g) (n : Nat) :
    core.run (n + 1) (s.atTurn (.worker j :: xs) f) = core.run n (t.atTurn xs g) :=
  have turn : step (s.atTurn (.worker j :: xs) f) = .next (t.atTurn xs g) := congrArg Host.Outcome.next h
  run_succ turn n

/-- An update that keeps what no command reads commutes with the turns. -/
theorem State.beside_atTurn {s t : State} {xs ys : List Input} {f g : Option InFlight}
    (h : t.beside (s.atTurn ys g) = t) : t.beside (s.atTurn xs f) = t.atTurn xs f := by
  rw [← h]
  rfl

/-- A command takes no turn, and nothing is in flight after it. -/
theorem exec_atTurn {s t : State} {i : Instr} (h : exec i s = .next t) : t.atTurn s.inputs none = t := by
  rw [← exec_idle h]
  rfl

theorem havoc_atTurn (s : State) (zs : List Extent) (xs : List Input) (f : Option InFlight) :
    havoc zs (s.atTurn xs f) = (havoc zs s).atTurn xs f :=
  (havoc_beside s (s.atTurn xs f) zs).trans
    (State.beside_atTurn (ys := s.inputs) (g := s.inflight) (havoc_beside s s zs).symm)

theorem completeRegisters_atTurn (s : State) (opc : BitVec 8) (q : Bool) (e : Option Err) (v : Word) (xs : List Input)
    (f : Option InFlight) :
    completeRegisters opc q e v (s.atTurn xs f) = (completeRegisters opc q e v s).atTurn xs none :=
  (completeRegisters_beside s (s.atTurn xs f) ..).trans
    (State.beside_atTurn (ys := s.inputs) (g := none) (completeRegisters_beside s s ..).symm)

theorem refusedRegisters_atTurn (s : State) (opc : BitVec 8) (q : Bool) (v : Word) (xs : List Input)
    (f : Option InFlight) :
    refusedRegisters opc q v (s.atTurn xs f) = (refusedRegisters opc q v s).atTurn xs none :=
  (refusedRegisters_beside s (s.atTurn xs f) ..).trans
    (State.beside_atTurn (ys := s.inputs) (g := none) (refusedRegisters_beside s s ..).symm)

/-- The fetch of the ready machine (30_encoding.md R101). -/
theorem cpTurn_of_ready {s : State} (h : ReadyToFetch s) (xs : List Input) : cpTurn (s.atTurn xs none)
    = s.atTurn xs (some { words := wordsOfBytes (s.mem.readBytes (descAddr s) 64), phase := .fetched }) := by
  have ready : fetchReady (s.atTurn xs none) = true := by
    simp [State.atTurn, fetchReady, busy, h.enabled, h.running, h.queuedOne]
  have permitted : fetchPermitted (s.atTurn xs none) = true := h.descriptor
  have clean : (s.atTurn xs none).dirty = [] := h.dirty
  have turn : cpTurn (s.atTurn xs none) = fetch (s.atTurn xs none) := by simp [cpTurn, ready, permitted]
  rw [turn, fetch, fetchBytes, if_pos clean, afterFetch, if_pos clean]
  rfl

/-- The validation of a command that is carried out (60_exceptions.md R363). -/
theorem cpTurn_of_fetched {s : State} {ws : List Word} {i : Instr} {p : Plan} (hd : decodeWords ws = .ok i)
    (hp : planOf i s = .ok p) (xs : List Input) : cpTurn (s.atTurn xs (some { words := ws, phase := .fetched }))
      = s.atTurn xs (some { words := ws, phase := .working p (planStripes s p) }) := by
  have plan : planOf i (s.atTurn xs (some { words := ws, phase := .fetched })) = .ok p :=
    (planOf_beside s (s.atTurn xs _) i).trans hp
  change validate ws _ = _
  simp only [validate, hd, plan]
  rfl

/-! ### Stripes (R333) -/

section
variable {s : State} {p : Plan}

theorem workStripe_atTurn (x : Stripe) (xs : List Input) (f : Option InFlight) :
    workStripe p x (s.atTurn xs f) = (workStripe p x s).atTurn xs f := by
  have permitted : accessesPermitted (s.atTurn xs f) p = accessesPermitted s p := rfl
  unfold workStripe
  rw [permitted]
  split <;> rfl

/-- What the stripes `xs` leave, worked in this order. -/
theorem workAll_of_permitted (h : accessesPermitted s p = true) (xs : List Stripe) :
    workAll p xs s = { s with mem := s.mem.putAll (xs.flatMap (stripeStores p)) } := by
  induction xs generalizing s with
  | nil => rfl
  | cons x xs ih =>
    have first : workStripe p x s = { s with mem := s.mem.putAll (stripeStores p x) } := if_pos h
    rw [List.flatMap_cons, Memory.putAll_append]
    exact (congrArg (workAll p xs) first).trans (ih h)

theorem workAll_of_refused (h : accessesPermitted s p = false) (xs : List Stripe) : workAll p xs s = s := by
  induction xs with
  | nil => rfl
  | cons x xs ih =>
    have first : workStripe p x s = s := if_neg (by simp [h])
    exact (congrArg (workAll p xs) first).trans ih

/-- The turns of the workers take the pending stripes in some order, each once. -/
theorem run_workers {js : List Nat} {pending : List Stripe} (hl : js.length = pending.length)
    (hj : ∀ n (h : n < js.length), js[n] < js.length - n) (s : State) (ws : List Word) (rest : List Input) (k : Nat) :
    ∃ order, order.Perm pending ∧
      core.run (js.length + k) (s.atTurn (js.map .worker ++ rest) (some { words := ws, phase := .working p pending }))
        = core.run k ((workAll p order s).atTurn rest (some { words := ws, phase := .working p [] })) := by
  induction js generalizing pending s with
  | nil =>
    obtain rfl := List.eq_nil_of_length_eq_zero hl.symm
    exact ⟨[], .nil, by rw [List.length_nil, Nat.zero_add]; rfl⟩
  | cons j js ih =>
    have first : j < pending.length := hl ▸ hj 0 (by simp)
    have left : js.length = (pending.eraseIdx j).length := by
      rw [List.length_eraseIdx_of_lt first, ← hl, List.length_cons, Nat.add_sub_cancel]
    have later : ∀ n (h : n < js.length), js[n] < js.length - n := fun n h => by
      have := hj (n + 1) (by simpa using h)
      simpa using this
    obtain ⟨order, perm, run⟩ := ih left later (workStripe p pending[j] s)
    refine ⟨pending[j] :: order, (perm.cons _).trans (List.getElem_cons_eraseIdx_perm first), ?_⟩
    have turn : workerTurn j (s.atTurn (js.map .worker ++ rest) (some { words := ws, phase := .working p pending }))
        = (workStripe p pending[j] s).atTurn (js.map .worker ++ rest)
            (some { words := ws, phase := .working p (pending.eraseIdx j) }) := by
      simp only [workerTurn, State.atTurn_inflight, List.getElem?_eq_getElem first, workStripe_atTurn]
      rfl
    rw [List.length_cons, Nat.add_right_comm]
    exact (run_worker turn _).trans run

end

/-! ### The end of the data phase (60_exceptions.md R367 case 3) -/

theorem not_raced_of_clean {s : State} (h : s.dirty = []) (i : Instr) (v : Except Err Plan) : ¬ raced i v s = true := by
  simp [raced, h]

theorem workEnding_of_permitted {p : Plan} {s : State} (hd : s.dirty = []) (ha : accessesPermitted s p = true)
    (i : Instr) : workEnding i p s =
      { err := none, result := p.result, state := commitRegisters p { s with mem := s.mem.putAll (cpStores p) } } := by
  rw [workEnding, if_neg (not_raced_of_clean hd _ _), if_pos ha]

theorem workEnding_of_refused {p : Plan} {s : State} (hd : s.dirty = []) (ha : accessesPermitted s p = false)
    (i : Instr) : workEnding i p s =
      { err := some busError, result := 0, state := havoc p.writes (commitRegisters p s) } := by
  rw [workEnding, if_neg (not_raced_of_clean hd _ _), if_neg (by simp [ha])]

/-- After the stripes, in whatever order, the end of the data phase leaves what `finishPlan` completes. -/
theorem workEnding_of_stripes {p : Plan} {s : State} {order : List Stripe} (hp : p.Striped) (ho : p.CoveredBy order)
    (hm : s.mem.wf) (hd : s.dirty = []) (i : Instr) (opc : BitVec 8) (q : Bool) (xs : List Input)
    (f : Option InFlight) : ∃ (e : Option Err) (res : Word) (t : State), t.dirty = [] ∧
      workEnding i p ((workAll p order s).atTurn xs f) = { err := e, result := res, state := t.atTurn xs f } ∧
      finishPlan opc q p s = complete opc q e res t := by
  cases ha : accessesPermitted s p with
  | true =>
    have mem : (s.mem.putAll (order.flatMap (stripeStores p))).putAll (cpStores p) = s.mem.putAll p.stores := by
      rw [← Memory.putAll_append]
      exact hp.putAll_stripedStores ho hm
    refine ⟨none, p.result, commit p s, hd, ?_, by rw [finishPlan, if_pos ha]⟩
    rw [workAll_of_permitted ha, workEnding_of_permitted (by exact hd) (by exact ha), commit, ← mem]
    rfl
  | false =>
    refine ⟨some busError, 0, havoc p.writes (commitRegisters p s), ?_, ?_, by rw [finishPlan, if_neg (by simp [ha])]⟩
    · rw [havoc_eq]
      exact hd
    · rw [workAll_of_refused ha, workEnding_of_refused (by exact hd) (by exact ha)]
      exact congrArg (Ending.mk _ _) (havoc_atTurn (commitRegisters p s) p.writes xs f)

/-! ### The completion step (20_memory.md R87) -/

section
variable {s : State} {ws : List Word} {r : Report} {xs : List Input}

theorem startReport_atTurn (hd : s.dirty = []) (f : Option InFlight) : startReport ws r (s.atTurn xs f)
    = s.atTurn xs (some
        { words := ws, phase := .reporting r (if writebackAdmitted s then .w15 else .refused) }) := by
  have dirty : ((s.atTurn xs f).dirty.filter fun x => x.index != (s.atTurn xs f).cqHead) = s.dirty := by
    simp [State.atTurn, hd]
  rw [startReport, dirty]
  rfl

/-- The turn that ends the data phase begins the completion step. -/
theorem cpTurn_of_worked {t : State} {i : Instr} {p : Plan} {e : Option Err} {res : Word}
    (hw : decodeWords ws = .ok i) (hd : t.dirty = [])
    (h : workEnding i p (s.atTurn xs (some { words := ws, phase := .working p [] }))
      = { err := e, result := res, state := t.atTurn xs (some { words := ws, phase := .working p [] }) }) :
    ∃ fp, cpTurn (s.atTurn xs (some { words := ws, phase := .working p [] })) = t.atTurn xs (some
      { words := ws
        phase := .reporting
          { opc := opcodeOf i, irq := irqFlagOf i, err := e, result := completionResult e res, codes := errorsOf i
            footprint := fp, writes := p.writes }
          (if writebackAdmitted t then .w15 else .refused) }) := by
  simp only [cpTurn, State.atTurn_inflight, reportWords, hw, h]
  exact ⟨_, startReport_atTurn hd _⟩

theorem cpTurn_w15 : cpTurn (s.atTurn xs (some { words := ws, phase := .reporting r .w15 }))
    = (reportW15 r s).atTurn xs (some { words := ws, phase := .reporting r .w14 }) := rfl

theorem cpTurn_registers : cpTurn (s.atTurn xs (some { words := ws, phase := .reporting r .registers }))
    = (completeRegisters r.opc r.irq r.err r.result s).atTurn xs none := completeRegisters_atTurn ..

theorem lateRace_atTurn (hd : s.dirty = []) (f : Option InFlight) :
    lateRace r (s.atTurn xs f) = (r, s.atTurn xs f) := lateRace_none r (by simp [State.atTurn, hd])

theorem cpTurn_w14 (hd : s.dirty = []) : cpTurn (s.atTurn xs (some { words := ws, phase := .reporting r .w14 }))
    = { s with mem := writeW14 (descAddr s) r.err s.mem }.atTurn xs
        (some { words := ws, phase := .reporting r .registers }) := by
  simp only [cpTurn, State.atTurn_inflight, reportTurn, reportW14, lateRace_atTurn hd]
  rfl

theorem cpTurn_refused (hd : s.dirty = []) : cpTurn (s.atTurn xs (some { words := ws, phase := .reporting r .refused }))
    = (refusedRegisters r.opc r.irq r.result s).atTurn xs none := by
  simp only [cpTurn, State.atTurn_inflight, reportTurn, reportRefused, lateRace_atTurn hd]
  exact refusedRegisters_atTurn ..

theorem cpTurn_halted (h : s.halted = true) : cpTurn (s.atTurn xs none) = s.atTurn xs none := by
  have waits : fetchReady (s.atTurn xs none) = false := by simp [fetchReady, State.atTurn, h]
  simp [cpTurn, waits]

/-- The turns of the completion step do what `complete` does; where the writeback is refused, the CP halts and its other
two turns wait (60_exceptions.md R370, R381). -/
theorem run_report (hd : s.dirty = []) (ws : List Word) (opc : BitVec 8) (q : Bool) (e : Option Err) (res : Word)
    (codes : List ErrCode) (fp writes : List Extent) :
    core.run 3 (s.atTurn [.cp, .cp, .cp] (some
        { words := ws
          phase := .reporting
            { opc := opc, irq := q, err := e, result := completionResult e res, codes := codes, footprint := fp
              writes := writes }
            (if writebackAdmitted s then .w15 else .refused) }))
      = .next ((complete opc q e res s).atTurn [] none) := by
  unfold complete
  split
  · rw [run_cp cpTurn_w15, run_cp (cpTurn_w14 (by exact hd)), run_cp cpTurn_registers]
    rfl
  · have halted : (refusedRegisters opc q (completionResult e res) s).halted = true := by simp [refusedRegisters]
    rw [run_cp (cpTurn_refused hd), run_cp (cpTurn_halted halted), run_cp (cpTurn_halted halted)]
    rfl

end

/-! ### The whole command -/

/-- The end of the data phase and the turns of the completion step (R333, 20_memory.md R87). -/
theorem run_afterStripes {s : State} {ws : List Word} {i : Instr} {p : Plan} {order : List Stripe}
    (hw : decodeWords ws = .ok i) (hp : p.Striped) (ho : p.CoveredBy order) (hm : s.mem.wf) (hd : s.dirty = []) :
    core.run 4 ((workAll p order s).atTurn [.cp, .cp, .cp, .cp] (some { words := ws, phase := .working p [] }))
      = .next ((finishPlan (opcodeOf i) (irqFlagOf i) p s).atTurn [] none) := by
  obtain ⟨e, res, t, clean, ending, done⟩ := workEnding_of_stripes hp ho hm hd i (opcodeOf i) (irqFlagOf i)
    [.cp, .cp, .cp] (some { words := ws, phase := .working p [] })
  obtain ⟨fp, turn⟩ := cpTurn_of_worked hw clean ending
  rw [run_cp turn, done]
  exact run_report clean ..

/-- The stripes of a validated command cover its byte range (R332). -/
theorem coveredBy_planStripes (s : State) (p : Plan) : p.CoveredBy (planStripes s p) := by
  intro size hs a ha
  rw [planStripes, hs]
  exact stripePlan_covers ha

/-- Settles O8: the turns are fetch, validation, the stripes in some order and the completion, and no command reads the
scheduler's registers. -/
theorem stripePlanIndependence : Obligations.StripePlanIndependence := by
  refine ⟨fun s t i p js hready hm _ hdecode hp hl hj hexec => ?_, fun _ _ _ nw maxw ms kc h =>
    exec_withSched h nw maxw ms kc⟩
  rw [decode_eq_decodeWords (Memory.length_readBytes ..)] at hdecode
  have done : finishPlan (opcodeOf i) (irqFlagOf i) p s = t := by
    rw [exec_eq_finish, hp] at hexec
    exact Host.Outcome.next.inj hexec
  have start : ({ s with inputs := [.cp, .cp] ++ js.map .worker ++ [.cp, .cp, .cp, .cp] } : State)
      = s.atTurn (.cp :: .cp :: (js.map .worker ++ [.cp, .cp, .cp, .cp])) none := by
    rw [State.atTurn, ← hready.inflight]
    rfl
  obtain ⟨order, perm, run⟩ :=
    run_workers hl hj s (wordsOfBytes (s.mem.readBytes (descAddr s) 64)) [.cp, .cp, .cp, .cp] 4
  have covered : p.CoveredBy order := fun size hs a ha =>
    (coveredBy_planStripes s p size hs a ha).imp fun _ hz => ⟨perm.mem_iff.mpr hz.1, hz.2⟩
  rw [start, run_cp (cpTurn_of_ready hready _), run_cp (cpTurn_of_fetched hdecode hp _), run,
    run_afterStripes hdecode (plan_striped hp) covered hm hready.dirty, done,
    ← hready.inputs, exec_atTurn hexec]

end Sys2Proof.Machine
end

section
/-! SUPPORT. The control commands (spec/48_control.md R346 to R349): NOP, ICFLUSH and ARESET, and ALLOC's checks in
order and what it carries out. -/

namespace Sys2Proof.Machine

/-- Settles O35: no control command but ALLOC has a check or an access, and each commits at most one register. -/
theorem controlCommands : Obligations.ControlCommands := fun irq _ hc =>
  ⟨exec_eq_succeeded (i := .nop irq) hc rfl rfl, exec_eq_succeeded (i := .icflush irq) hc rfl rfl,
    exec_eq_succeeded (i := .areset irq) hc rfl rfl⟩

/-! ### ALLOC (R348) -/

/-- The arena holds the buffers of ALLOC, or there is nothing to hold (R348, spec/20_memory.md R77). -/
abbrev AllocFits (s : State) (n len : Word) : Prop :=
  0 < n.toNat → 0 < len.toNat → allocAddr s len.toNat n.toNat ≤ s.scrLimit.toNat ∧ s.scrBase.toNat ≤ s.scrNext.toNat

/-- What ALLOC carries out. -/
def allocPlan (s : State) (n len : Word) (tab : Addr) : Plan :=
  let stores := (List.range n.toNat).flatMap (allocStores s tab.toNat len.toNat)
  { reads := [descRange s]
    writes := extent tab.toNat (16 * n.toNat)
      :: (List.range n.toNat).map fun i => extent (allocAddr s len.toNat i) (roundup64 len.toNat)
    accesses := stores.map Store.access
    stores := stores
    span := none
    scrNext := some (BitVec.ofNat 64 (allocAddr s len.toNat n.toNat))
    ctx := none, icache := none, result := n }

section
variable {irq : Bool} {n len : Word} {tab : Addr} {s : State}

theorem planOf_alloc_of_tooMany (hn : 65536 < n.toNat) :
    planOf (.alloc irq n len tab) s = .error { code := .badArgument, idx := detailA } := by
  rw [planOf, planAlloc, check_neg (by omega), error_bind]

theorem planOf_alloc_of_noArena (hn : n.toNat ≤ 65536) (h : ¬ AllocFits s n len) :
    planOf (.alloc irq n len tab) s = .error { code := .scratchExhausted, idx := noDetail } := by
  obtain ⟨hpos, h⟩ := Classical.not_imp.mp h
  obtain ⟨hlen, h⟩ := Classical.not_imp.mp h
  rw [planOf, planAlloc, check_pos hn, ok_bind]
  dsimp only
  rw [if_pos ⟨hpos, hlen⟩, checkArena, check_neg h, error_bind]

theorem planOf_alloc (hn : n.toNat ≤ 65536) (h : AllocFits s n len) :
    planOf (.alloc irq n len tab) s = (allocPlan s n len tab).guarded := by
  rw [planOf, planAlloc, check_pos hn, ok_bind]
  dsimp only
  split
  · rename_i nonempty
    obtain ⟨hpos, hlen⟩ := nonempty
    rw [checkArena, check_pos (h hpos hlen), ok_bind]
    rfl
  · rfl

theorem accessesPermitted_allocPlan
    (h : ∀ j, j < n.toNat → Writable s (s.scrNext.toNat + j * roundup64 len.toNat) len.toNat
      ∧ Writable s (tab.toNat + 16 * j) 8 ∧ Writable s (tab.toNat + 16 * j + 8) 4
      ∧ Writable s (tab.toNat + 16 * j + 12) 4) : accessesPermitted s (allocPlan s n len tab) = true := by
  refine List.all_eq_true.mpr fun a ha => ?_
  obtain ⟨st, hst, rfl⟩ := List.mem_map.mp ha
  obtain ⟨j, hj, hst⟩ := List.mem_flatMap.mp hst
  obtain ⟨buffer, addr, length, capacity⟩ := h j (List.mem_range.mp hj)
  simp only [allocStores, List.mem_cons, List.not_mem_nil, or_false] at hst
  obtain rfl | rfl | rfl | rfl := hst
  · simpa [Store.access, allocAddr] using buffer
  · simpa [Store.access, fieldStore] using addr
  · simpa [Store.access, fieldStore] using length
  · simpa [Store.access, fieldStore] using capacity

/-- The stores of ALLOC, buffer by buffer. -/
theorem putAll_allocPlan (m : Memory) : m.putAll (allocPlan s n len tab).stores
    = (List.range n.toNat).foldl (fun m j => m.putAll (allocStores s tab.toNat len.toNat j)) m :=
  List.foldl_flatMap ..

end

/-- Settles O36: the count, the arena and the footprint are checked in this order, and every buffer stores its zeros
and then its table entry. -/
theorem allocBuffers : Obligations.AllocBuffers := by
  intro irq n len tab s hc
  refine ⟨fun hn => exec_eq_failed hc (planOf_alloc_of_tooMany hn), fun hn hpos hlen full => ?_, fun hn fits => ?_⟩
  · exact exec_eq_failed hc (planOf_alloc_of_noArena hn fun fits => full (fits hpos hlen))
  have plan := planOf_alloc (irq := irq) (tab := tab) hn fits
  refine ⟨fun clash => exec_eq_failed hc (plan.trans (guarded_eq_error.mpr ⟨clash, rfl⟩)), fun clear hw => ?_⟩
  rw [exec_eq_succeeded hc (plan.trans (guarded_eq_ok.mpr ⟨clear, rfl⟩)) (accessesPermitted_allocPlan hw), commit,
    putAll_allocPlan]
  rfl

end Sys2Proof.Machine
end

section
/-! SUPPORT. Two runs of one command from states that differ in the inversion cache (spec/48_control.md R345):
validation finds the same but for the cache that the command commits, and nothing after validation reads the cache. -/

namespace Sys2Proof.Machine

/-- `s` with another inversion cache. -/
def State.withCache (s : State) (c : List CacheEntry) : State := { s with icache := c }

/-- `p` without the inversion cache it commits. -/
def Plan.withoutCache (p : Plan) : Plan := { p with icache := none }

/-! ### Validation -/

section
variable {s : State} {c : List CacheEntry}

theorem guarded_withoutCache (p : Plan) : p.guarded.map Plan.withoutCache = p.withoutCache.guarded := by
  unfold Plan.guarded
  rw [apply_ite (Except.map Plan.withoutCache)]
  rfl

/-- Validations that agree after each answer of a first check agree. -/
theorem map_withoutCache_bind {α : Type} {x : Except Err α} {f g : α → Except Err Plan}
    (h : ∀ a, (f a).map Plan.withoutCache = (g a).map Plan.withoutCache) :
    (x >>= f).map Plan.withoutCache = (x >>= g).map Plan.withoutCache := by
  cases x with
  | error e => rfl
  | ok a => exact h a

theorem outputPlan_withCache (tab : Addr) (xs : List Slot) (outs : List Nat) (bytes : List (List Byte))
    (extra : List ReadRange) (cache cache' : Option (List CacheEntry)) :
    (outputPlan (s.withCache c) tab xs outs bytes extra cache).map Plan.withoutCache
      = (outputPlan s tab xs outs bytes extra cache').map Plan.withoutCache := by
  by_cases h : OutputsInArena s xs outs
  · rw [outputPlan_of_arena h, outputPlan_of_arena (s := s.withCache c) h, guarded_withoutCache, guarded_withoutCache]
    rfl
  · rw [outputPlan_of_noArena h, outputPlan_of_noArena (s := s.withCache c) h]

variable (hs : CacheCorrect s.params s.ctx s.icache) (hc : CacheCorrect s.params s.ctx c)
include hs hc

/-- With correct caches the decoding matrix is the inverse, found or computed (45_codec.md R264). -/
theorem planRecovery_withCache (tab : Addr) (xs : List Slot) (needed : List Nat) (extra : List ReadRange) :
    (planRecovery (s.withCache c) tab xs needed extra).map Plan.withoutCache
      = (planRecovery s tab xs needed extra).map Plan.withoutCache := by
  have hc' : CacheCorrect (s.withCache c).params (s.withCache c).ctx (s.withCache c).icache := hc
  by_cases hn : needed = []
  · rw [planRecovery_of_idle hn, planRecovery_of_idle hn]
    rfl
  by_cases hv : s.ctx.variant = .classical
  · by_cases found : ∃ d, (∀ j, j < s.ctx.k → presentAt xs j = true)
        ∨ invert s.ctx.k (selectRows s.ctx.matrix (validSet s xs)) = some d
    · obtain ⟨d, hd⟩ := found
      obtain ⟨cache, outputs⟩ := planRecovery_classical (tab := tab) (extra := extra) hn hv hs hd
      obtain ⟨cache', outputs'⟩ :=
        planRecovery_classical (s := s.withCache c) (tab := tab) (extra := extra) hn hv hc' hd
      rw [outputs, outputs']
      exact outputPlan_withCache ..
    · rw [not_exists] at found
      have missing : ∃ j, j < s.ctx.k ∧ presentAt xs j = false := by simpa using fun h => found [] (.inl h)
      have singular : invert s.ctx.k (selectRows s.ctx.matrix (validSet s xs)) = none :=
        Option.eq_none_iff_forall_ne_some.mpr fun d hd => found d (.inr hd)
      rw [planRecovery_of_singular hn hv hs missing singular,
        planRecovery_of_singular (s := s.withCache c) hn hv hc' missing singular]
  · rw [planRecovery_fft hn hv, planRecovery_fft (s := s.withCache c) hn hv]
    exact outputPlan_withCache ..

/-- Validation finds the same but for the cache that is committed. The reconstructions alone look into the cache; the
readers of tables are recursive and unfold to the same recursion. -/
theorem planOf_withCache (i : Instr) :
    (planOf i (s.withCache c)).map Plan.withoutCache = (planOf i s).map Plan.withoutCache := by
  have table (n tab) : loadShards n tab (s.withCache c) = loadShards n tab s := by delta loadShards readSlots; rfl
  have recovery := planRecovery_withCache hs hc
  cases i
  case recon | reconData =>
    simp only [planOf, planRecon, planReconData, planReconOf, table]
    exact map_withoutCache_bind fun _ => map_withoutCache_bind fun _ => map_withoutCache_bind fun _ => recovery ..
  case reconSome =>
    simp only [planOf, planReconSome, table]
    exact map_withoutCache_bind fun _ => map_withoutCache_bind fun _ => map_withoutCache_bind fun _ =>
      map_withoutCache_bind fun _ => map_withoutCache_bind fun _ => recovery ..
  case configure => delta planOf planConfigure codingMatrix readEach; rfl
  case matSub => delta planOf planMatSub readRowIndices readColIndices; rfl
  case kcode => delta planOf planKcode readPointers; rfl
  case xformFft | xformIfft => delta planOf planXformFft planXformIfft planXform readPointers; rfl
  case fderiv => delta planOf planFderiv readPointers; rfl
  case encode | verify => delta planOf planEncode planVerify loadShards readSlots; rfl
  case update => delta planOf planUpdate loadShards readSlots; rfl
  case encodeIdx => delta planOf planEncodeIdx readParityTable; rfl
  all_goals rfl

end

/-! ### Data phase and completion -/

section
variable (s : State) (c : List CacheEntry) (opc : BitVec 8) (q : Bool)

theorem havoc_withCache (xs : List Extent) : havoc xs (s.withCache c) = (havoc xs s).withCache c := by
  induction xs generalizing s with
  | nil => rfl
  | cons x xs ih =>
    exact ih { s with mem := s.mem.writeBytes x.lo (freeBytes s.free (inSpace x)), free := s.free + inSpace x }

theorem complete_withCache (e : Option Err) (r : Word) :
    complete opc q e r (s.withCache c) = (complete opc q e r s).withCache c := by
  by_cases h : CanComplete s
  · cases e with
    | none => rw [complete_eq_succeeded h, complete_eq_succeeded (s := s.withCache c) h]; rfl
    | some e => rw [complete_eq_failed h, complete_eq_failed (s := s.withCache c) h]; rfl
  · rw [complete_eq_unreported h, complete_eq_unreported (s := s.withCache c) h]; rfl

theorem finishPlan_withCache (p : Plan) :
    finishPlan opc q p.withoutCache (s.withCache c) = (finishPlan opc q p s).withCache c := by
  have permitted : accessesPermitted (s.withCache c) p.withoutCache = accessesPermitted s p := rfl
  unfold finishPlan
  rw [permitted]
  split
  · exact complete_withCache (commit p s) c ..
  · rw [← complete_withCache, ← havoc_withCache]
    rfl

/-- Nothing after validation reads the cache: another cache, with a plan that commits none, comes out as it went in. -/
theorem finish_withCache (v : Except Err Plan) :
    finish opc q (v.map Plan.withoutCache) (s.withCache c) = (finish opc q v s).withCache c := by
  cases v with
  | error e => exact complete_withCache ..
  | ok p => exact finishPlan_withCache ..

end

/-! ### Emptying the cache -/

theorem complete_icache (opc : BitVec 8) (q : Bool) (e : Option Err) (r : Word) (s : State) :
    (complete opc q e r s).icache = s.icache := by
  obtain ⟨_, _, kept, _⟩ := complete_frame opc q e r s
  exact kept

/-- Whether or not its accesses are admitted, a validated command leaves the cache that it commits. -/
theorem finishPlan_icache (opc : BitVec 8) (q : Bool) (p : Plan) (s : State) :
    (finishPlan opc q p s).icache = p.icache.getD s.icache := by
  unfold finishPlan
  split
  · rw [complete_icache]; rfl
  · rw [complete_icache, havoc_eq]; rfl

theorem plan_empties_cache {i : Instr} {s : State} {p : Plan} (hi : isConfigure i = true ∨ ∃ q, i = .icflush q)
    (h : planOf i s = .ok p) : p.icache = some [] := by
  obtain hi | ⟨q, rfl⟩ := hi
  · cases i
    case configure =>
      obtain ⟨c, hctx, _⟩ := planConfigure_ctx h
      exact (plan_commits h).configured c hctx
    all_goals cases hi
  · obtain rfl := Except.ok.inj h
    rfl

/-- Settles O29: both runs have one validation and one completion but for the cache. -/
theorem cacheTransparency : Obligations.CacheTransparency := by
  refine ⟨fun i s c hs hc => ?_, fun i s t p hi hp hexec => ?_, resetMachine_icache⟩
  · refine ⟨_, _, exec_eq_finish i s, exec_eq_finish i (s.withCache c), ?_⟩
    have same : (finish (opcodeOf i) (irqFlagOf i) (planOf i (s.withCache c)) (s.withCache c)).withCache []
        = (finish (opcodeOf i) (irqFlagOf i) (planOf i s) s).withCache [] := by
      rw [← finish_withCache, ← finish_withCache, planOf_withCache hs hc]
      rfl
    exact congrArg (State.withCache · _) same
  · rw [exec_eq_finish, hp] at hexec
    obtain rfl := Host.Outcome.next.inj hexec
    exact (finishPlan_icache ..).trans (congrArg (Option.getD · s.icache) (plan_empties_cache hi hp))

end Sys2Proof.Machine
end

section
/-! SUPPORT. Resets and the interrupt registers (spec/70_reset_and_hazards.md R391 to R399, spec/60_exceptions.md R371,
R372). -/

namespace Sys2Proof.Machine

/-! ### Resets -/

theorem held_reset_legal : (held State.reset).RegistersLegal where
  params := by unfold Params.legal; decide
  size := by decide
  head := by decide
  tail := by decide
  cqBase := rfl
  scrBase := rfl
  scrLimit := rfl
  scrNext := rfl
  minsplit := by decide

/-- Settles O16: no context, no cache entry and no command in flight leave the invariants little to say. -/
theorem resetMeetsInvariants : Obligations.ResetMeetsInvariants := by
  have idle : planInFlight State.reset = none := planInFlight_of_idle rfl
  exact ⟨registersLegal_iff.mpr ⟨held_reset_legal, by simp [idle]⟩, reset_mem_wf,
    contextLegal_iff.mpr ⟨unconfigured_legal, by simp [idle]⟩,
    cacheLegal_iff.mpr ⟨cacheCorrect_nil _ _, by simp [idle]⟩⟩

/-- A CTRL write with SRST is the reset (70_reset_and_hazards.md R398). -/
theorem writeReg_ctrl_of_srst {v : Word} (h : v.getLsbD 2 = true) (s : State) : writeReg 0x008 v s = resetMachine s :=
  if_pos h

/-- Every register but HWCFG, which reports the parameters, reads after a reset as it does in `State.reset` (R391). -/
theorem readReg_resetMachine {off : Nat} (h : off ≠ 0x004) (s : State) :
    readReg off (resetMachine s) = readReg off State.reset := by
  unfold readReg
  split
  case h_2 => exact absurd rfl h
  all_goals rfl

/-- Every register but six has the reset value 0 (R391). -/
theorem readReg_reset_eq_zero {off : Nat} (h : off ∉ [0x000, 0x004, 0x008, 0x00C, 0x074, 0x07C]) :
    readReg off State.reset = 0 := by
  unfold readReg
  split
  case h_1 | h_2 | h_3 | h_4 | h_24 | h_25 => exact absurd (by decide) h
  all_goals decide

/-- Settles O15: both resets are `resetMachine`. -/
theorem resetValues : Obligations.ResetValues := by
  intro s t h
  obtain rfl : resetMachine s = t := by
    obtain h | ⟨v, hv, h⟩ := h
    · exact Host.Outcome.next.inj h
    · rwa [writeReg_ctrl_of_srst hv] at h
  refine ⟨rfl, rfl, rfl, rfl, rfl, rfl, fun off h => ?_, ?_, rfl, rfl, rfl, rfl,
    havoc_sameOutside (inflightWrites s) s, fun h => ?_⟩
  · rw [readReg_resetMachine (fun h4 => h (by simp [h4])), readReg_reset_eq_zero h]
  · exact (by decide : irqLine State.reset = false)
  · rw [resetMachine_mem, inflightWrites, h]
    rfl

/-! ### Interrupts -/

/-- The line is the OR of the enabled pending bits (60_exceptions.md R372). -/
theorem irqLine_iff (s : State) :
    irqLine s = true ↔ ∃ b, b < 3 ∧ s.irqStat.getLsbD b = true ∧ s.irqEn.getLsbD b = true := by
  rw [irqLine, bne_iff_ne, ne_eq, BitVec.ofNat_eq_ofNat, BitVec.zero_iff_eq_false, not_forall]
  refine exists_congr fun b => ?_
  rw [BitVec.getLsbD_and, Bool.not_eq_false, Bool.and_eq_true]
  exact ⟨fun h => ⟨BitVec.lt_of_getLsbD h.1, h⟩, fun h => h.2⟩

/-- Settles O19: the registers are written bit by bit, and the line is the OR of the enabled bits. -/
theorem interruptRegisters : Obligations.InterruptRegisters := by
  refine fun s v => ⟨rfl, fun b hb => ?_, rfl, irqLine_iff s, rfl⟩
  simp [writeReg, hb, show b < 32 by omega]

end Sys2Proof.Machine
end

section
/-! SUPPORT. Refused accesses and the fetch condition (spec/60_exceptions.md R367, R381, R382). -/

namespace Sys2Proof.Machine

/-! ### Refused fetches (R367 case 1) -/

theorem fetchFault_eq_fetchRefused (s : State) : fetchFault s = fetchRefused s := by
  rw [fetchFault, raiseError_eq_halted]
  rfl

/-- The fetch condition (R381). -/
theorem fetchReady_iff {s : State} (h : s.inflight = none) :
    fetchReady s = true ↔ s.ctrlEn = true ∧ s.halted = false ∧ s.cqHead ≠ s.cqTail := by
  simp [fetchReady, busy, h, and_assoc]

theorem fetchReady_eq_false {s : State} (h : s.ctrlEn = false ∨ s.halted = true ∨ s.cqHead = s.cqTail) :
    fetchReady s = false := by
  obtain h | h | h := h <;> simp [fetchReady, h]

section
variable {s : State}

/-- With nothing in flight and no reason to fetch the CP waits (R381). -/
theorem cpWhole_of_waiting (hi : s.inflight = none) (h : fetchReady s = false) : cpWhole s = .next s := by
  simp [cpWhole, hi, h]

theorem cpTurn_of_waiting (hi : s.inflight = none) (h : fetchReady s = false) : cpTurn s = s := by
  simp [cpTurn, hi, h]

/-- A fetch that is refused, whole and as the turn that begins it (R367 case 1, R382). -/
theorem cpWhole_of_unreadable (hi : s.inflight = none) (h : fetchReady s = true) (hr : ¬ Readable s (descAddr s) 64) :
    cpWhole s = .next (fetchRefused s) := by
  have refused : ¬ fetchPermitted s = true := hr
  simp [cpWhole, hi, h, refused, fetchFault_eq_fetchRefused]

theorem cpTurn_of_unreadable (hi : s.inflight = none) (h : fetchReady s = true) (hr : ¬ Readable s (descAddr s) 64) :
    cpTurn s = refuseFetch s := by
  have refused : ¬ fetchPermitted s = true := hr
  simp [cpTurn, hi, h, refused]

theorem cpWhole_of_refused {ws : List Word} (h : s.inflight = some { words := ws, phase := .refused }) :
    cpWhole s = .next (fetchRefused s) := by
  simp [cpWhole, h, fetchFault_eq_fetchRefused]

theorem cpTurn_of_refused {ws : List Word} (h : s.inflight = some { words := ws, phase := .refused }) :
    cpTurn s = fetchRefused s := by
  simp [cpTurn, h, fetchFault_eq_fetchRefused]

/-- Without pending turns a step is the CP's. -/
theorem step_of_noInputs (h : s.inputs = []) : step s = cpWhole s := by simp [step, h]

/-- A turn of the CP that is alone in the list. -/
theorem step_cp (h : s.inputs = []) : step { s with inputs := [.cp] } = .next (cpTurn s) := by
  have same : ({ s with inputs := [] } : State) = s := by rw [← h]
  change Host.Outcome.next (cpTurn { s with inputs := [] }) = _
  rw [same]

end

/-! ### Refused reads and accesses (R367 cases 2 and 3) -/

theorem memReadBytes_of_refused {s : State} {a n : Nat} (h : ¬ Readable s a n) :
    memReadBytes s a n = .error busError := if_neg h

theorem memRead_of_refused {s : State} {a n : Nat} (h : ¬ Readable s a n) : memRead s a n = .error busError :=
  if_neg h

theorem finishPlan_of_permitted {s : State} {p : Plan} (h : accessesPermitted s p = true) (opc : BitVec 8) (q : Bool) :
    finishPlan opc q p s = complete opc q none p.result (commit p s) := if_pos h

/-- A refused data phase makes the write ranges any value and commits the registers (R367 case 3). -/
theorem finishPlan_of_refused {s : State} {p : Plan} (h : accessesPermitted s p = false) (opc : BitVec 8) (q : Bool) :
    ∃ m f, SameOutside p.writes s.mem m ∧ finishPlan opc q p s
      = complete opc q (some busError) 0 (commitRegisters p { s with mem := m, free := f }) := by
  refine ⟨_, (havoc p.writes (commitRegisters p s)).free, havoc_sameOutside p.writes (commitRegisters p s), ?_⟩
  rw [finishPlan, if_neg (by simp [h]), havoc_eq]
  rfl

/-- Settles O7: the fetch, validation and the data phase each have one place where a refused access ends them. -/
theorem busErrorEffects : Obligations.BusErrorEffects := by
  refine ⟨fun s hq he hh ht hr => ?_, fun s a n h => ⟨memReadBytes_of_refused h, memRead_of_refused h⟩,
    fun i s e h => ?_, fun i s p h ha => ?_⟩
  · rw [step_of_noInputs hq.inputs]
    exact cpWhole_of_unreadable hq.inflight ((fetchReady_iff hq.inflight).mpr ⟨he, hh, ht⟩) hr
  · rw [exec_eq_finish, h, finish]
  · obtain ⟨m, f, outside, done⟩ := finishPlan_of_refused ha (opcodeOf i) (irqFlagOf i)
    exact ⟨m, f, outside, by rw [exec_eq_finish, h, finish, done]; rfl⟩

end Sys2Proof.Machine
end

section
/-! SUPPORT. The completion step (spec/60_exceptions.md R364, R365; spec/20_memory.md R87): what every command ends
with, at once and in turns. -/

namespace Sys2Proof.Machine

/-! ### The completion step of a command -/

/-- `s` after a data phase that left the memory `m` and the counter of free values `f`, and committed the registers of
`p`. -/
abbrev State.committed (s : State) (p : Plan) (m : Memory) (f : Nat) : State :=
  commitRegisters p { s with mem := m, free := f }

/-- What a command does: a validation error is completed at once; a validated command commits its registers over some
memory, and completes with OK or with BUS_ERROR (R362, R364, R367 case 3). -/
theorem exec_cases {i : Instr} {s t : State} (h : exec i s = .next t) :
    (∃ e, planOf i s = .error e ∧ t = complete (opcodeOf i) (irqFlagOf i) (some e) 0 s)
    ∨ ∃ p m f e, planOf i s = .ok p ∧ (e = none ∨ e = some busError)
      ∧ t = complete (opcodeOf i) (irqFlagOf i) e p.result (s.committed p m f) := by
  rw [exec_eq_finish] at h
  obtain rfl := Host.Outcome.next.inj h
  cases hp : planOf i s with
  | error e => exact .inl ⟨e, rfl, rfl⟩
  | ok p =>
    cases ha : accessesPermitted s p with
    | true => exact .inr ⟨p, _, s.free, none, rfl, .inl rfl, finishPlan_of_permitted ha _ _⟩
    | false =>
      obtain ⟨m, f, _, done⟩ := finishPlan_of_refused ha (opcodeOf i) (irqFlagOf i)
      exact .inr ⟨p, m, f, some busError, rfl, .inr rfl, done⟩

/-- A command's completion step starts from a state that its data phase alone has touched. -/
theorem exec_eq_complete (i : Instr) (s : State) : ∃ (e : Option Err) (res : Word) (s1 : State),
    exec i s = .next (complete (opcodeOf i) (irqFlagOf i) e res s1) ∧ DataPhaseFrame s s1 := by
  obtain ⟨t, ht⟩ := exec_next i s
  obtain ⟨e, _, rfl⟩ | ⟨p, m, f, e, _, _, rfl⟩ := exec_cases ht
  · exact ⟨some e, 0, s, ht, .refl s⟩
  · exact ⟨e, p.result, _, ht, (((DataPhaseFrame.refl s).withMem m).withFree f).commit p⟩

/-! ### The turns (20_memory.md R87) -/

section
variable {s : State}

/-- The turn that ends the data phase changes no register of the completion. -/
theorem reportWords_frame (ws : List Word) (p : Plan) (s : State) : busy (reportWords ws p s) = true
    ∧ SameCompletionRegisters s (reportWords ws p s) := by
  unfold reportWords
  split
  · exact (DataPhaseFrame.refl s).startReport ..
  · exact (workEnding_frame ..).startReport ..

/-- The turn that ends the data phase begins the completion step. -/
theorem reportWords_inflight (ws : List Word) (p : Plan) (s : State) : ∃ r, (reportWords ws p s).inflight
    = some { words := ws, phase := .reporting r (if writebackAdmitted s then .w15 else .refused) } := by
  unfold reportWords
  split
  · exact ⟨_, rfl⟩
  · rename_i i _
    rw [← (workEnding_frame i p s).writebackAdmitted]
    exact ⟨_, rfl⟩

theorem validate_frame (ws : List Word) (s : State) : busy (validate ws s) = true
    ∧ SameCompletionRegisters s (validate ws s) := by
  unfold validate
  split
  · exact (DataPhaseFrame.refl s).startReport ..
  · split
    · exact ⟨rfl, by constructor <;> rfl⟩
    · exact (errorEnding_frame ..).startReport ..

/-- W14 changes no register of the completion, also after a race (20_memory.md R91). -/
theorem reportTurn_w14_frame (ws : List Word) (r : Report) (s : State) : busy (reportTurn ws r .w14 s) = true
    ∧ SameCompletionRegisters s (reportTurn ws r .w14 s) :=
  ⟨rfl, by cases (lateRace_frame r s).registers; constructor <;> assumption⟩

/-- No turn before the last one of a command changes a register of its completion, or ends BUSY (R364, R382). -/
theorem cpTurn_frame (hb : busy s = true) (hr : ∀ ws, s.inflight ≠ some { words := ws, phase := .refused })
    (hlast : ∀ ws r, s.inflight ≠ some { words := ws, phase := .reporting r .registers }
      ∧ s.inflight ≠ some { words := ws, phase := .reporting r .refused }) :
    busy (cpTurn s) = true ∧ SameCompletionRegisters s (cpTurn s) := by
  unfold cpTurn
  split
  case h_1 h => simp [busy, h] at hb
  case h_2 h => exact absurd h (hr _)
  case h_3 => exact validate_frame ..
  case h_4 => exact reportWords_frame ..
  case h_5 => exact ⟨hb, by constructor <;> rfl⟩
  case h_6 ws r stage h =>
    cases stage with
    | w15 => exact ⟨rfl, by constructor <;> rfl⟩
    | w14 => exact reportTurn_w14_frame ws r s
    | registers => exact absurd h (hlast ws r).1
    | refused => exact absurd h (hlast ws r).2

/-- The registers of a report, field by field: those of `succeeded` and `failed`, with the memory as it is. -/
theorem completeRegisters_none (opc : BitVec 8) (q : Bool) (v : Word) (s : State) :
    completeRegisters opc q none v s = { succeeded q v s with mem := s.mem } := by
  rw [completeRegisters, signalDone_eq]
  rfl

theorem completeRegisters_some (opc : BitVec 8) (q : Bool) (e : Err) (v : Word) (s : State) :
    completeRegisters opc q (some e) v s = { failed opc q e s with mem := s.mem, result := v } := by
  rw [completeRegisters, signalDone_eq, raiseError_eq]
  rfl

theorem refusedRegisters_eq_unreported (opc : BitVec 8) (q : Bool) (v : Word) (s : State) :
    refusedRegisters opc q v s = unreported opc q v s := by
  rw [refusedRegisters, signalDone_eq, raiseError_eq_halted]
  rfl

theorem cpTurn_of_reporting {ws : List Word} {r : Report} {stage : ReportStage}
    (h : s.inflight = some { words := ws, phase := .reporting r stage }) : cpTurn s = reportTurn ws r stage s := by
  simp only [cpTurn, h]

theorem reportTurn_w14_of_clean (ws : List Word) {r : Report} {w : Nat} (hw : (completionWord r.err).toNat = w)
    (h : ∀ x ∈ s.dirty, x.index ≠ s.cqHead) :
    reportTurn ws r .w14 s = { s with
      mem := s.mem.writeNat (descAddr s + 56) 4 w
      inflight := some { words := ws, phase := .reporting r .registers } } := by
  simp only [reportTurn, reportW14, lateRace_none r h, ← hw]
  rfl

theorem reportTurn_refused_of_clean (ws : List Word) (r : Report) (h : ∀ x ∈ s.dirty, x.index ≠ s.cqHead) :
    reportTurn ws r .refused s = unreported r.opc r.irq r.result s := by
  rw [reportTurn, reportRefused, lateRace_none r h, refusedRegisters_eq_unreported]

end

/-- Settles O9: `complete` is one of `succeeded`, `failed` and `unreported`; every command ends with it; and its turns
are those of `reportTurn`. -/
theorem completionStep : Obligations.CompletionStep := by
  refine ⟨fun opc q res s h => ⟨complete_eq_succeeded h opc q res, fun e => complete_eq_failed h opc q e res⟩,
    fun opc q res s h =>
      ⟨complete_eq_unreported h opc q none res, fun e => complete_eq_unreported h opc q (some e) res⟩,
    fun i s => ?_, fun s hb hr hlast => ⟨_, rfl, cpTurn_frame hb hr hlast⟩, fun s ws p h => ?_,
    fun s ws r hd => ⟨fun h => ?_, fun h => ?_, fun h => ⟨fun he => ?_, fun e he => ?_⟩, fun h => ?_⟩⟩
  · obtain ⟨e, res, s1, done, frame⟩ := exec_eq_complete i s
    exact ⟨e, res, s1, done, frame.setup, frame.registers.cqHead⟩
  · obtain ⟨r, hr⟩ := reportWords_inflight ws p s
    exact ⟨reportWords ws p s, r, by simp [turn, cpTurn, h], hr⟩
  all_goals rw [turn, cpTurn_of_reporting h]
  · rfl
  · exact congrArg _ (reportTurn_w14_of_clean ws (completionWord_toNat r.err) hd)
  · rw [reportTurn, reportRegisters, he, completeRegisters_none]
  · rw [reportTurn, reportRegisters, he, completeRegisters_some]
  · rw [reportTurn_refused_of_clean ws r hd]

end Sys2Proof.Machine
end

section
/-! SUPPORT. The registers after a whole command, and after every turn of a halted machine (spec/60_exceptions.md R364
to R369, R376, R381). -/

namespace Sys2Proof.Machine

/-! ### The registers after a completion -/

/-- The error registers, HALTED and IRQ_STAT after a command whose opcode is `opc`, with the IRQ flag `q`: as before but
for DONE, or those of an error of this command (R364, R365, R368). -/
def ErrorRegisters (opc : BitVec 8) (q : Bool) (s t : State) : Prop :=
  (t.errCode = s.errCode ∧ t.errIndex = s.errIndex ∧ t.errIdx = s.errIdx ∧ t.errOpc = s.errOpc
    ∧ t.halted = s.halted ∧ t.irqStat = doneStat q s.irqStat)
  ∨ (t.errIndex = s.cqHead ∧ t.errOpc = opc
    ∧ ((t.halted = s.halted ∧ t.irqStat = doneStat q (s.irqStat ||| 2))
      ∨ (t.halted = true ∧ t.irqStat = doneStat q (haltStat s (s.irqStat ||| 2)))))

/-- The registers that every completion writes (R364). -/
structure Completed (s t : State) : Prop where
  cqHead : t.cqHead = headAfter s
  doneCount : t.doneCount = s.doneCount + 1
  inflight : t.inflight = none
  dirty : t.dirty = dirtyAfter s

theorem complete_completed (opc : BitVec 8) (q : Bool) (e : Option Err) (r : Word) (s : State) :
    Completed s (complete opc q e r s) := by
  by_cases h : CanComplete s
  · cases e with
    | none => rw [complete_eq_succeeded h]; constructor <;> rfl
    | some e => rw [complete_eq_failed h]; constructor <;> rfl
  · rw [complete_eq_unreported h]; constructor <;> rfl

theorem complete_errorRegisters (opc : BitVec 8) (q : Bool) (e : Option Err) (r : Word) (s : State) :
    ErrorRegisters opc q s (complete opc q e r s) := by
  by_cases h : CanComplete s
  · cases e with
    | none =>
      rw [complete_eq_succeeded h]
      exact .inl ⟨rfl, rfl, rfl, rfl, rfl, rfl⟩
    | some e =>
      rw [complete_eq_failed h]
      refine .inr ⟨rfl, rfl, ?_⟩
      cases hoe : s.ctrlHoe with
      | false => exact .inl (by simp [failed, hoe])
      | true => exact .inr (by simp [failed, hoe])
  · rw [complete_eq_unreported h]
    exact .inr ⟨rfl, rfl, .inr ⟨rfl, rfl⟩⟩

/-- Settles O12: the completion writes its registers, and what a data phase commits is in the plan. -/
theorem registerFrameOfCommands : Obligations.RegisterFrameOfCommands := by
  intro i s t h
  obtain ⟨e, _, rfl⟩ | ⟨p, m, f, e, hp, _, rfl⟩ := exec_cases h
  · obtain ⟨setup, ctx, icache, scrNext, _⟩ := complete_frame (opcodeOf i) (irqFlagOf i) (some e) 0 s
    obtain ⟨head, count, idle, dirty⟩ := complete_completed (opcodeOf i) (irqFlagOf i) (some e) 0 s
    exact ⟨setup, head, count, idle, dirty, fun _ => ctx, fun _ => scrNext, fun _ => icache,
      complete_errorRegisters ..⟩
  · obtain ⟨setup, ctx, icache, scrNext, _⟩ := complete_frame (opcodeOf i) (irqFlagOf i) e p.result (s.committed p m f)
    obtain ⟨head, count, idle, dirty⟩ := complete_completed (opcodeOf i) (irqFlagOf i) e p.result (s.committed p m f)
    have commits := plan_commits hp
    refine ⟨{ setup with }, head, count, idle, dirty, fun hi => ?_, fun hi => ?_, fun hi => ?_,
      complete_errorRegisters _ _ e p.result (s.committed p m f)⟩
    · rw [ctx, commitRegisters_ctx, commits.ctx hi]; rfl
    · rw [scrNext, commitRegisters_scrNext, commits.scrNext hi]; rfl
    · rw [icache, commitRegisters_icache, commits.icache hi]; rfl

/-! ### The command in flight completes (R381) -/

/-- A command that was in flight is finished: the next one is at CQ_HEAD, and a halt is not ended (R364, R368). -/
structure Finished (s t : State) : Prop where
  inflight : t.inflight = none
  cqHead : t.cqHead = headAfter s
  halted : s.halted = true → t.halted = true

theorem DataPhaseFrame.headAfter {s t : State} (h : DataPhaseFrame s t) :
    Machine.headAfter t = Machine.headAfter s := by
  rw [Machine.headAfter, Machine.headAfter, h.registers.cqHead, h.setup.cqSizeLog2]

section
variable {s u : State} (h : DataPhaseFrame s u)
include h

/-- The register updates of the completion step finish a command. -/
theorem completeRegisters_finished (opc : BitVec 8) (q : Bool) (e : Option Err) (v : Word) :
    Finished s (completeRegisters opc q e v u) := by
  have keep : s.halted = true → u.halted = true := fun hs => h.registers.halted.trans hs
  cases e with
  | none =>
    rw [completeRegisters_none]
    exact ⟨rfl, h.headAfter, keep⟩
  | some e =>
    rw [completeRegisters_some]
    exact ⟨rfl, h.headAfter, fun hs => by simp [failed, keep hs]⟩

theorem refusedRegisters_finished (opc : BitVec 8) (q : Bool) (v : Word) :
    Finished s (refusedRegisters opc q v u) := by
  rw [refusedRegisters_eq_unreported]
  exact ⟨rfl, h.headAfter, fun _ => rfl⟩

theorem complete_finished (opc : BitVec 8) (q : Bool) (e : Option Err) (r : Word) :
    Finished s (complete opc q e r u) := by
  unfold complete
  dsimp only
  split
  · exact completeRegisters_finished (h.withMem _) ..
  · exact refusedRegisters_finished h ..

end

/-- The stripes of a whole command change memory alone (47_scheduler.md R333). -/
theorem workAll_eq_withMem (p : Plan) (xs : List Stripe) (s : State) : ∃ m, workAll p xs s = { s with mem := m } := by
  cases h : accessesPermitted s p with
  | true => exact ⟨_, workAll_of_permitted h xs⟩
  | false => exact ⟨s.mem, workAll_of_refused h xs⟩

theorem runWords_finished (ws : List Word) (s : State) : ∃ t, runWords ws s = .next t ∧ Finished s t := by
  unfold runWords
  split
  · exact ⟨_, rfl, complete_finished (.refl s) ..⟩
  · rename_i i _
    unfold runCommand
    split
    · exact ⟨_, rfl, complete_finished (racedEnding_frame ..) ..⟩
    · obtain ⟨e, res, u, done, frame⟩ := exec_eq_complete i s
      exact ⟨_, done, complete_finished frame ..⟩

theorem completeWords_finished (ws : List Word) (p : Plan) (xs : List Stripe) (s : State) :
    Finished s (completeWords ws p (workAll p xs s)) := by
  obtain ⟨m, hm⟩ := workAll_eq_withMem p xs s
  rw [hm]
  unfold completeWords
  split
  · exact complete_finished ((DataPhaseFrame.refl s).withMem m) ..
  · rename_i i _
    obtain ⟨inflight, head, halted⟩ := complete_finished (workEnding_frame i p { s with mem := m }) (opcodeOf i)
      (irqFlagOf i) (workEnding i p { s with mem := m }).err (workEnding i p { s with mem := m }).result
    exact ⟨inflight, head, halted⟩

theorem reportRegisters_w14_finished (r : Report) (s : State) :
    Finished s (reportRegisters (reportW14 r s).1 (reportW14 r s).2) :=
  completeRegisters_finished ((lateRace_frame r s).withMem _) ..

theorem reportWhole_finished (r : Report) (stage : ReportStage) (s : State) : Finished s (reportWhole r stage s) := by
  cases stage with
  | w15 =>
    obtain ⟨inflight, head, halted⟩ := reportRegisters_w14_finished r (reportW15 r s)
    exact ⟨inflight, head, halted⟩
  | w14 => exact reportRegisters_w14_finished r s
  | registers => exact completeRegisters_finished (.refl s) ..
  | refused => exact refusedRegisters_finished (lateRace_frame r s) ..

/-- A command in flight is finished by the CP on its own (R381). -/
theorem cpWhole_finished {s : State} (hb : busy s = true)
    (hr : ∀ ws, s.inflight ≠ some { words := ws, phase := .refused }) : ∃ t, cpWhole s = .next t ∧ Finished s t := by
  unfold cpWhole
  split
  case h_1 h => simp [busy, h] at hb
  case h_2 h => exact absurd h (hr _)
  case h_3 => exact runWords_finished ..
  case h_4 => exact ⟨_, rfl, completeWords_finished ..⟩
  case h_5 => exact ⟨_, rfl, reportWhole_finished ..⟩

/-- Settles O6: the CP waits, fetches, handles a refused fetch, or finishes what is in flight. -/
theorem fetchCondition : Obligations.FetchCondition := by
  refine fun s hin => ⟨fun hi hw => ?_, fun ready => ?_, fun hq he hh ht hr => ?_, fun ws h => ?_, fun hb hr => ?_⟩
  · rw [step_of_noInputs hin, step_cp hin, cpTurn_of_waiting hi (fetchReady_eq_false hw)]
    exact ⟨cpWhole_of_waiting hi (fetchReady_eq_false hw), rfl⟩
  · have same : s.atTurn [] none = s := by rw [State.atTurn, ← hin, ← ready.inflight]
    have fetched := cpTurn_of_ready ready []
    rw [same] at fetched
    rw [step_cp hin, fetched]
    exact ⟨_, rfl, rfl, by rw [State.atTurn, ← hin]⟩
  · rw [step_cp hin, cpTurn_of_unreadable hq.inflight ((fetchReady_iff hq.inflight).mpr ⟨he, hh, ht⟩) hr]
    exact ⟨_, rfl, rfl, rfl⟩
  · rw [step_of_noInputs hin, step_cp hin, cpTurn_of_refused h]
    exact ⟨cpWhole_of_refused h, rfl⟩
  · rw [step_of_noInputs hin]
    obtain ⟨t, ht, done⟩ := cpWhole_finished hb hr
    exact ⟨t, ht, done.inflight, done.cqHead⟩

end Sys2Proof.Machine
end

section
/-! SUPPORT. Halting and resuming (spec/60_exceptions.md R368, R369): what a CTRL write does, and that no other turn but
a reset ends a halt. -/

namespace Sys2Proof.Machine

/-! ### CTRL (10_state.md R27) -/

/-- A CTRL write without SRST (R369). -/
theorem writeReg_ctrl_of_noSrst {v : Word} (h : v.getLsbD 2 = false) (s : State) : writeReg 0x008 v s
    = { s with ctrlEn := v.getLsbD 0, ctrlHoe := v.getLsbD 1, halted := s.halted && !v.getLsbD 3 } := by
  rw [writeReg, writeCtrl, if_neg (by rw [h]; decide)]
  cases hr : v.getLsbD 3 with
  | false => simp
  | true => simp [resume]

/-- CTRL reads back EN and HOE. -/
theorem ctrlValue_eq_and (v : Word) :
    BitVec.ofNat 32 ((v.getLsbD 0).toNat + 2 * (v.getLsbD 1).toNat) = v &&& 3 := by
  apply BitVec.eq_of_toNat_eq
  have mask : (v &&& 3).toNat = v.toNat % 4 := Nat.and_two_pow_sub_one_eq_mod v.toNat 2
  have bit (i : Nat) : (v.getLsbD i).toNat = v.toNat / 2 ^ i % 2 := Nat.toNat_testBit v.toNat i
  rw [mask, bit 0, bit 1, BitVec.toNat_ofNat]
  omega

/-- A register write ends a halt only if it is a CTRL write with RESUME or SRST (R369, 70_reset_and_hazards.md R398). -/
theorem ctrl_of_writeReg_resumes {off : Nat} {v : Word} {s : State} (hs : s.halted = true)
    (h : (writeReg off v s).halted = false) : off = 0x008 ∧ (v.getLsbD 3 = true ∨ v.getLsbD 2 = true) := by
  by_cases hoff : off = 0x008
  · subst hoff
    refine ⟨rfl, ?_⟩
    cases h2 : v.getLsbD 2 with
    | true => exact .inr rfl
    | false =>
      rw [writeReg_ctrl_of_noSrst h2] at h
      exact .inl (by simpa [hs] using h)
  · have keep : (writeReg off v s).halted = true := by
      unfold writeReg
      split
      case h_1 => exact absurd rfl hoff
      case h_2 | h_3 | h_4 | h_8 | h_19 => exact hs
      case h_17 =>
        refine gated_induction (motive := fun t => t.halted = true) hs ?_
        unfold writeAuto
        dsimp only
        split <;> exact hs
      all_goals exact gated_induction (motive := fun t => t.halted = true) hs hs
    rw [keep] at h
    cases h

/-- A host access of a register is an aligned access of four bytes (10_state.md R24). -/
theorem hostTarget_eq_register {a n off : Nat} {s : State} (h : hostTarget a n s = .register off) :
    n = 4 ∧ a = s.params.mmioBase.toNat + off := by
  unfold hostTarget at h
  dsimp only at h
  split at h
  · split at h
    · obtain rfl := HostTarget.register.inj h
      omega
    · cases h
  · split at h <;> cases h

theorem div_mod_two_of_getLsbD {n i : Nat} (h : (BitVec.ofNat 32 n).getLsbD i = true) : n / 2 ^ i % 2 = 1 := by
  rw [BitVec.getLsbD_ofNat, Bool.and_eq_true, Nat.testBit_eq_decide_div_mod_eq] at h
  exact of_decide_eq_true h.2

/-! ### Turns of a halted machine -/

section
variable {s t : State} (hs : s.halted = true)
include hs

theorem cpTurn_halted_stays : (cpTurn s).halted = true := by
  unfold cpTurn
  split
  · rw [fetchReady_eq_false (.inr (.inl hs))]
    exact hs
  · rw [fetchFault_eq_fetchRefused]; rfl
  · exact (validate_frame ..).2.halted.trans hs
  · exact (reportWords_frame ..).2.halted.trans hs
  · exact hs
  · rename_i ws r stage _
    cases stage with
    | w15 => exact hs
    | w14 => exact (reportTurn_w14_frame ws r s).2.halted.trans hs
    | registers => exact (completeRegisters_finished (.refl s) ..).halted hs
    | refused => exact (refusedRegisters_finished (lateRace_frame r s) ..).halted hs

theorem cpWhole_halted_stays (h : cpWhole s = .next t) : t.halted = true := by
  by_cases hb : busy s = true
  · by_cases hr : ∃ ws, s.inflight = some { words := ws, phase := .refused }
    · obtain ⟨ws, hr⟩ := hr
      rw [cpWhole_of_refused hr] at h
      obtain rfl := Host.Outcome.next.inj h
      rfl
    · obtain ⟨u, hu, done⟩ := cpWhole_finished hb (not_exists.mp hr)
      obtain rfl := Host.Outcome.next.inj (hu.symm.trans h)
      exact done.halted hs
  · rw [cpWhole_of_waiting (by simpa [busy] using hb) (fetchReady_eq_false (.inr (.inl hs)))] at h
    obtain rfl := Host.Outcome.next.inj h
    exact hs

theorem workerTurn_halted_stays (j : Nat) : (workerTurn j s).halted = true := by
  unfold workerTurn
  split
  · split
    · rename_i p _ _ x _
      unfold workStripe
      split <;> exact hs
    · exact hs
  · exact hs

theorem hostLoad_halted_stays {a : Addr} {n : Nat} (h : hostLoad a n s = .next t) : t.halted = true := by
  unfold hostLoad at h
  split at h
  · cases h
  all_goals obtain rfl := Host.Outcome.next.inj h; exact hs

/-- A host store ends a halt only if it is a CTRL write with RESUME or SRST (R369). -/
theorem ctrl_of_hostStore_resumes {a : Addr} {bs : List Byte} (h : hostStore a bs s = .next t) (ht : t.halted = false) :
    a.toNat = s.params.mmioBase.toNat + 8 ∧ bs.length = 4
      ∧ (natOfBytes bs / 8 % 2 = 1 ∨ natOfBytes bs / 4 % 2 = 1) := by
  have stays : t.halted = true → False := by simp [ht]
  unfold hostStore at h
  split at h
  · cases h
  · rename_i off hoff
    obtain rfl := Host.Outcome.next.inj h
    obtain ⟨rfl, bits⟩ := ctrl_of_writeReg_resumes hs ht
    obtain ⟨hlen, ha⟩ := hostTarget_eq_register hoff
    exact ⟨ha, hlen, bits.imp div_mod_two_of_getLsbD div_mod_two_of_getLsbD⟩
  all_goals
    obtain rfl := Host.Outcome.next.inj h
    exact absurd hs stays

end

/-- Settles O14: every turn but a reset or such a CTRL write leaves HALTED set. -/
theorem haltAndResume : Obligations.HaltAndResume := by
  refine ⟨fun s v h => ?_, fun s t hs h ht => ?_⟩
  · rw [writeReg_ctrl_of_noSrst h]
    exact ⟨rfl, ctrlValue_eq_and v⟩
  · have stays : t.halted = true → False := by simp [ht]
    unfold step at h
    split at h
    · exact absurd (cpWhole_halted_stays hs h) stays
    · rename_i x xs hx
      refine ⟨x, xs, hx, ?_⟩
      cases x with
      | load a n => exact absurd (hostLoad_halted_stays (s := { s with inputs := xs }) hs h) stays
      | store a bs => exact .inr ⟨a, bs, rfl, ctrl_of_hostStore_resumes (s := { s with inputs := xs }) hs h ht⟩
      | hardReset => exact .inl rfl
      | cp =>
        obtain rfl := Host.Outcome.next.inj h
        exact absurd (cpTurn_halted_stays (s := { s with inputs := xs }) hs) stays
      | worker j =>
        obtain rfl := Host.Outcome.next.inj h
        exact absurd (workerTurn_halted_stays (s := { s with inputs := xs }) hs j) stays

end Sys2Proof.Machine
end

section
/-! SUPPORT. Which errors a command reports (spec/60_exceptions.md R361 to R363), and that one which fails with another
code than BUS_ERROR has written nothing but its completion. -/

namespace Sys2Proof.Machine

/-! ### W14 (R364) -/

/-- W14 after a completion whose writeback is admitted. -/
theorem complete_readNat_w14 {s : State} (h : CanComplete s) (opc : BitVec 8) (q : Bool) (e : Option Err) (r : Word) :
    (complete opc q e r s).mem.readNat (descAddr s + 56) 4 = (completionWord e).toNat := by
  have last : descAddr s + 56 + 8 ≤ 2 ^ 64 := end_le_of_permits h (by simp [extent])
  have mem : (complete opc q e r s).mem = writeback (descAddr s) e (completionResult e r) s.mem := by
    unfold complete
    rw [if_pos (show writebackAdmitted s = true from h), completeRegisters_mem]
  rw [mem, writeback, writeW14, Memory.readNat_writeNat (by omega)]
  exact Nat.mod_eq_of_lt (completionWord e).isLt

theorem completionWord_mod (e : Err) : (completionWord (some e)).toNat % 256 = e.code.number.toNat := by
  have code : e.code.number.toNat < 256 := e.code.number.isLt
  rw [completionWord_toNat]
  dsimp only
  omega

/-- Settles O10: a validated command reports OK or BUS_ERROR, and one that fails validation is completed at once. -/
theorem noPartialSuccess : Obligations.NoPartialSuccess := by
  intro i s t hc h hok hbus
  obtain ⟨e, _, rfl⟩ | ⟨p, m, f, e, _, rfl | rfl, rfl⟩ := exec_cases h
  · obtain ⟨setup, ctx, _, scrNext, _⟩ := complete_frame (opcodeOf i) (irqFlagOf i) (some e) 0 s
    exact ⟨complete_sameOutside _ _ (some e) 0 s, setup, scrNext, ctx⟩
  · have w14 := complete_readNat_w14 (s := s.committed p m f) hc (opcodeOf i) (irqFlagOf i) none p.result
    exact absurd (congrArg (· % 256) w14) hok
  · have w14 := complete_readNat_w14 (s := s.committed p m f) hc (opcodeOf i) (irqFlagOf i) (some busError)
      p.result
    exact absurd ((congrArg (· % 256) w14).trans (completionWord_mod busError)) hbus

/-! ### Errors of validation (R363) -/

/-- Every error of `x` has a code in `cs`. In the rules below, the default of a membership looks the code up in the list
of a command's rule, so that the proof for a command is the sequence of its checks and reads. -/
def Raises {α : Type} (cs : List ErrCode) (x : Except Err α) : Prop := ∀ e, x = .error e → e.code ∈ cs

namespace Raises
variable {α β : Type} {cs : List ErrCode}

theorem ok (a : α) : Raises cs (.ok a) := nofun

theorem error {e : Err} (h : e.code ∈ cs := by simp [errorsOf, reconErrors]) : Raises cs (.error e : Except Err α) :=
  fun _ he => Except.error.inj he ▸ h

theorem bind {x : Except Err α} {f : α → Except Err β} (hx : Raises cs x) (hf : ∀ a, Raises cs (f a)) :
    Raises cs (x >>= f) := fun e he =>
  (bind_eq_error.mp he).elim (hx e) fun ⟨a, _, h⟩ => hf a e h

theorem ite {c : Prop} [Decidable c] {x y : Except Err α} (hx : Raises cs x) (hy : Raises cs y) :
    Raises cs (if c then x else y) := by
  split
  · exact hx
  · exact hy

theorem check {c : Prop} [Decidable c] {code : ErrCode} {idx : Half}
    (h : code ∈ cs := by simp [errorsOf, reconErrors]) : Raises cs (check c code idx) :=
  fun _ he => (check_eq_error.mp he).2 ▸ h

theorem checkEach {c : Nat → Bool} {code : ErrCode} {idx : Nat → Half} {is : List Nat}
    (h : code ∈ cs := by simp [errorsOf, reconErrors]) : Raises cs (checkEach c code idx is) := fun _ he => by
  obtain ⟨_, _, _, rfl⟩ := checkEach_eq_error he
  exact h

theorem guarded {p : Plan} (h : .overlap ∈ cs := by simp [errorsOf, reconErrors]) : Raises cs p.guarded :=
  fun _ he => (guarded_eq_error.mp he).2 ▸ h

section
variable {s : State} {a n : Nat} (h : .busError ∈ cs := by simp [errorsOf, reconErrors])
include h

theorem memRead : Raises cs (memRead s a n) := fun _ he => (memRead_eq_error he).2 ▸ h

theorem memReadBytes : Raises cs (memReadBytes s a n) := fun _ he => (memReadBytes_eq_error he).2 ▸ h

theorem readMatrix {c : Nat} : Raises cs (readMatrix s a n c) := .bind (memReadBytes h) fun _ => .ok _

theorem readEach : Raises cs (readEach s a n) := by
  induction n generalizing a with
  | zero => exact .ok _
  | succ n ih => exact .bind (memReadBytes h) fun _ => .bind ih fun _ => .ok _

theorem readPointers : Raises cs (readPointers s a n) := fun _ he => readPointers_eq_error he ▸ h

theorem readSlots : Raises cs (readSlots s a n) := fun _ he => readSlots_eq_error he ▸ h

end

section
variable {s : State}

theorem readRowIndices {a rows i n : Nat} {prev : Option Nat}
    (h : [.badArgument, .busError] ⊆ cs := by simp [errorsOf, reconErrors]) :
    Raises cs (readRowIndices s a rows prev i n) := by
  simp only [List.cons_subset] at h
  induction n generalizing prev i with
  | zero => exact .ok _
  | succ n ih =>
    exact .bind (memRead h.2.1) fun _ => .bind (.check h.1) fun _ => .bind (.check h.1) fun _ => .bind ih fun _ => .ok _

theorem readColIndices {a cols j n : Nat} (h : [.badArgument, .busError] ⊆ cs := by simp [errorsOf, reconErrors]) :
    Raises cs (readColIndices s a cols j n) := by
  simp only [List.cons_subset] at h
  induction n generalizing j with
  | zero => exact .ok _
  | succ n ih => exact .bind (memRead h.2.1) fun _ => .bind (.check h.1) fun _ => .bind ih fun _ => .ok _

theorem readParityTable {t size p n : Nat} (h : [.shardSize, .busError] ⊆ cs := by simp [errorsOf, reconErrors]) :
    Raises cs (readParityTable s t size p n) := by
  simp only [List.cons_subset] at h
  induction n generalizing p with
  | zero => exact .ok _
  | succ n ih =>
    exact .bind (fun _ he => readSlot_eq_error he ▸ h.2.1) fun _ => .bind (.check h.1) fun _ => .bind ih fun _ => .ok _

/-- The errors of the table load (45_codec.md R248 to R250). -/
theorem loadShards {n : Word} {tab : Addr}
    (h : [.tooFewShards, .shardNoData, .shardSize, .busError] ⊆ cs := by simp [errorsOf, reconErrors]) :
    Raises cs (loadShards n tab s) := by
  simp only [List.cons_subset] at h
  obtain ⟨few, noData, size, bus, _⟩ := h
  exact .bind (.check few) fun _ => .bind (.readSlots bus) fun _ => .bind (.check noData) fun _ =>
    .bind (.checkEach size) fun _ => .bind (.check size) fun _ => .ok _

/-- The errors of a codec command that writes shards (45_codec.md R251). -/
theorem outputPlan {tab : Addr} {xs : List Slot} {outs : List Nat} {bytes : List (List Byte)}
    {extra : List ReadRange} {cache : Option (List CacheEntry)}
    (h : [.scratchExhausted, .overlap] ⊆ cs := by simp [errorsOf, reconErrors]) :
    Raises cs (outputPlan s tab xs outs bytes extra cache) := by
  simp only [List.cons_subset] at h
  exact .ite (.bind (.check h.1) fun _ => .guarded h.2.1) (.guarded h.2.1)

theorem decodingMatrix {v : List Nat} (h : .singular ∈ cs := by simp [errorsOf, reconErrors]) :
    Raises cs (decodingMatrix s v) := by
  unfold Machine.decodingMatrix
  split
  · exact .ok _
  · split
    · exact .error h
    · exact .ok _

/-- The errors of a reconstruction after its checks (45_codec.md R263 to R269). -/
theorem planRecovery {tab : Addr} {xs : List Slot} {needed : List Nat} {extra : List ReadRange}
    (h : [.singular, .scratchExhausted, .overlap] ⊆ cs := by simp [errorsOf, reconErrors]) :
    Raises cs (planRecovery s tab xs needed extra) := by
  obtain ⟨singular, output⟩ := List.cons_subset.mp h
  unfold Machine.planRecovery
  refine .ite (.ok _) ?_
  split
  · exact .ite (.outputPlan output) (.bind (.decodingMatrix singular) fun _ => .outputPlan output)
  · exact .outputPlan output

theorem selectVariant {want : Variant} {auto : Bool} {k m : Nat} (h : .maxShardNum ∈ cs := by simp [errorsOf]) :
    Raises cs (selectVariant want auto k m) := .ite (.ok _) (.ite (.ok _) (.error h))

theorem codingMatrix {kind : Kind} {k m : Nat} {mat : Addr}
    (h : [.singular, .busError] ⊆ cs := by simp [errorsOf]) : Raises cs (codingMatrix kind k m mat s) := by
  simp only [List.cons_subset] at h
  unfold Machine.codingMatrix
  split
  · exact .bind (.readEach h.2.1) fun _ => .ok _
  · split
    · exact .error h.1
    · exact .ok _

end

/-- A plan that writes nothing passes the overlap check (20_memory.md R79). -/
theorem guarded_of_noWrites {p : Plan} (h : p.writes = []) : Raises cs p.guarded := fun _ he => by
  obtain ⟨clash, _⟩ := guarded_eq_error.mp he
  simp [h, footprintClear, pairwiseClear] at clash

end Raises

/-- Every error that validation finds is one the command's rule lists (R363). -/
theorem planOf_raises (i : Instr) (s : State) : Raises (errorsOf i) (planOf i s) := by
  cases i
  case nop | icflush | areset | gfAlog => exact .ok _
  case alloc =>
    exact .bind .check fun _ => .ite (.bind .check fun _ => .guarded) .guarded
  case configure =>
    refine .bind .check fun _ => .bind .check fun _ => .bind .check fun _ => .bind .selectVariant fun ⟨v, up⟩ => ?_
    cases v with
    | classical => exact .bind .check fun _ => .bind .codingMatrix fun _ => .ok _
    | fft8 | fft16 => exact .ok _
  case ctxReadm => exact .bind .check fun _ => .bind .check fun _ => .bind .guarded fun _ => .ok _
  case gfAdd | gfMul | gfInv | gfLog => exact .bind .check fun _ => .bind .check fun _ => .ok _
  case gfPow => exact .bind .check fun _ => .ok _
  case matIdent => exact .bind .check fun _ => .bind .guarded fun _ => .ok _
  case matMul =>
    exact .bind .check fun _ => .bind .check fun _ => .bind .check fun _ => .bind .check fun _ => .bind .check fun _ =>
      .bind .readMatrix fun _ => .bind .readMatrix fun _ => .guarded
  case matInv =>
    refine .bind .check fun _ => .bind .check fun _ => .bind .check fun _ => .bind .readMatrix fun mx => ?_
    split
    · exact .error
    · exact .guarded
  case matSub =>
    exact .bind .check fun _ => .bind .check fun _ => .bind .check fun _ => .bind .check fun _ =>
      .bind .readRowIndices fun _ => .bind .readColIndices fun _ => .bind .readMatrix fun _ => .guarded
  case matAug =>
    exact .bind .check fun _ => .bind .check fun _ => .bind .check fun _ => .bind .check fun _ => .bind .check fun _ =>
      .bind .check fun _ => .bind .readMatrix fun _ => .bind .readMatrix fun _ => .guarded
  case matVand => exact .bind .check fun _ => .bind .check fun _ => .bind .check fun _ => .guarded
  case matGen =>
    refine .bind .check fun _ => .bind .check fun _ => .bind .check fun _ => ?_
    split
    · exact .error
    · exact .guarded
  case kaxpy | kmulc | bflyFft | bflyIfft => exact .bind .check fun _ => .bind .check fun _ => .guarded
  case kcode =>
    exact .bind .check fun _ => .bind .check fun _ => .bind .readMatrix fun _ => .bind .readPointers fun _ =>
      .bind .readPointers fun _ => .guarded
  case xformFft | xformIfft =>
    exact .bind .check fun _ => .bind .check fun _ => .bind .check fun _ => .bind .readPointers fun _ => .guarded
  case fderiv => exact .bind .check fun _ => .bind .check fun _ => .bind .readPointers fun _ => .guarded
  case encode => exact .bind .check fun _ => .bind .loadShards fun _ => .bind .checkEach fun _ => .outputPlan
  case verify =>
    exact .bind .check fun _ => .bind .loadShards fun _ => .bind .checkEach fun _ => .guarded_of_noWrites rfl
  case recon | reconData =>
    exact .bind .check fun _ => .bind .loadShards fun _ => .bind .check fun _ => .planRecovery
  case reconSome =>
    exact .bind .check fun _ => .bind .check fun _ => .bind .loadShards fun _ => .bind .check fun _ =>
      .bind .memReadBytes fun _ => .planRecovery
  case update =>
    exact .bind .check fun _ => .bind .check fun _ => .bind .loadShards fun _ => .bind .check fun _ =>
      .bind .readSlots fun _ => .bind .checkEach fun _ => .bind .checkEach fun _ => .bind .checkEach fun _ =>
      .ite (.ok _) .guarded
  case encodeIdx =>
    exact .bind .check fun _ => .bind .check fun _ => .bind .check fun _ => .bind .check fun _ => .bind .check fun _ =>
      .bind .readParityTable fun _ => .guarded

/-- Any completion can raise BUS_ERROR (R367), and SHORT_DATA is reserved (R361). -/
theorem busError_mem_errorsOf (i : Instr) : .busError ∈ errorsOf i := by cases i <;> simp [errorsOf, reconErrors]

theorem shortData_not_mem_errorsOf (i : Instr) : .shortData ∉ errorsOf i := by cases i <;> simp [errorsOf, reconErrors]

/-- Settles O11: W14 carries the error of validation, or BUS_ERROR, or none. -/
theorem reportedCodesAreListed : Obligations.ReportedCodesAreListed := by
  refine ⟨planOf_raises, shortData_not_mem_errorsOf, fun i s t hc h => ?_⟩
  obtain ⟨e, he, rfl⟩ | ⟨p, m, f, e, _, rfl | rfl, rfl⟩ := exec_cases h
  · exact .inr ⟨e.code, planOf_raises i s e he,
      (congrArg (· % 256) (complete_readNat_w14 hc ..)).trans (completionWord_mod e)⟩
  · exact .inl (complete_readNat_w14 (s := s.committed p m f) hc ..)
  · exact .inr ⟨.busError, busError_mem_errorsOf i,
      (congrArg (· % 256) (complete_readNat_w14 (s := s.committed p m f) hc ..)).trans
        (completionWord_mod busError)⟩

end Sys2Proof.Machine
end
